-- ==== Sys2Proof/Word.lean ====
section
/-! DEFINITION. The word types of the TL-460's frames and counters (spec 00 Conventions, R44, R178). -/

namespace Sys2Proof

/-- One byte of a frame (R178). -/
abbrev Byte := BitVec 8

/-- A station address, 0-63, the low six bits of its byte (R178); 63 means unassigned in the layout (R46). -/
abbrev Addr := BitVec 6

/-- The low eight bits of a pitch, carried by every frame (R44, R178). -/
abbrev Stamp := BitVec 8

/-- The 32-bit pitch counter and every pitch derived from it (R44). -/
abbrev Pitch := BitVec 32

/-- The three-byte piece ID field of a frame; 16,777,215 is the no-read marker (R1, R188). -/
abbrev PieceId := BitVec 24

/-- The two-byte tag of a management message (R184). -/
abbrev Tag := BitVec 16

end Sys2Proof
end

