-- ==== Sys2Proof/Syntax.lean ====
section
/-! DEFINITION. The commands of the TL-460: one constructor per row of spec/opcode_table.json, operands at the widths of the frames that carry them (R178, R188). -/

namespace Sys2Proof

/-- One record of a LOAD DESCRIPTORS batch (R14, layout in R188): the class is bits 0-1 of its byte, the service bit 2. -/
structure DescriptorRecord where
  id : PieceId
  sheets : Byte
  selection : Byte
  envClass : BitVec 2
  priority : Bool
  key : BitVec 32
  deriving DecidableEq, Repr

/-- One 12-byte element record of STAGE SORT ELEMENTS (R121, R188). -/
structure ElementRecord where
  kind : Byte
  first : BitVec 32
  second : BitVec 32
  bands : Byte
  service : Byte
  action : Byte
  deriving DecidableEq, Repr

/-- The commands. A report carries its frame's source, its stamp where a rule reads it, and its payload fields; a management
request carries the requester's address, the tag, and its arguments in the order of the table of R188. -/
inductive Instr where
  /-- POWER_ON_RESET (R164): release of the reset line, with the level of the six straps. -/
  | powerOnReset (straps : Addr)
  /-- PITCH_ARRIVAL (R44). -/
  | pitchArrival
  /-- RELEASE (R52). -/
  | release
  /-- EXIT_DEADLINE (R61) of the piece in one ring slot. -/
  | exitDeadline (slot : BitVec 6)
  /-- FEED_DEADLINE (R84) of one logical insert of the piece in one ring slot. -/
  | feedDeadline (slot : BitVec 6) (insert : BitVec 4)
  /-- VERIFY_DEADLINE (R115) of the piece in one ring slot. -/
  | verifyDeadline (slot : BitVec 6)
  /-- FEEDER_MAP_COPY (R74). -/
  | feederMapCopy
  /-- SORT_PLAN_COPY (R128). -/
  | sortPlanCopy
  /-- TRAY_CHANGE_RETRY (R142). -/
  | trayChangeRetry
  /-- FRAME_ARRIVAL (R179): the bytes received at the upstream port, check included. -/
  | frameArrival (bytes : List Byte)
  /-- DOWNSTREAM_SEND_BEGIN (R183). -/
  | downstreamSendBegin
  /-- FRAME_SENT (R183). -/
  | frameSent
  /-- PENDING_CUTTER_COMMAND_QUEUED (R41). -/
  | pendingCutterCommandQueued
  /-- RESPONSE_SEGMENT_QUEUED (R186). -/
  | responseSegmentQueued
  /-- ALERT (R175). -/
  | alert
  /-- SHEET (R23). -/
  | sheet (src : Addr) (id : PieceId) (index count : Byte)
  /-- FEED (R80). -/
  | feed (src : Addr) (stamp : Stamp) (outcome : Byte)
  /-- MATERIAL (R71). -/
  | material (src : Addr) (level : Byte)
  /-- READ (R110). -/
  | read (src : Addr) (stamp : Stamp) (id : PieceId)
  /-- LANDED (R64). -/
  | landed (src : Addr) (stamp : Stamp) (place : Byte)
  /-- TRAY_READY (R143). -/
  | trayReady (src : Addr) (bin : Byte)
  /-- HELD_RECORD_APPENDED (R148). -/
  | heldRecordAppended
  /-- JAM (R158). -/
  | jam (src : Addr)
  /-- REQUEST (R184): one segment. -/
  | request (src : Addr) (tag : Tag) (segment : Byte) (body : List Byte)
  /-- SET_WINDOW (R4). -/
  | setWindow (src : Addr) (tag : Tag) (window : Byte) (enabled : Bool) (base : PieceId) (k mode : Byte) (start : BitVec 16)
  /-- WRITE_MAP_ENTRIES (R9). -/
  | writeMapEntries (src : Addr) (tag : Tag) (first : BitVec 16) (count : Byte) (entries : List (Bool × BitVec 16))
  /-- LOAD_DESCRIPTORS (R14-R16). -/
  | loadDescriptors (src : Addr) (tag : Tag) (count : Byte) (records : List DescriptorRecord)
  /-- RETIRE (R17). -/
  | retire (src : Addr) (tag : Tag) (first last : BitVec 16)
  /-- READ_DESCRIPTOR (R18). -/
  | readDescriptor (src : Addr) (tag : Tag) (slot : BitVec 16)
  /-- FIND_PIECE (R19). -/
  | findPiece (src : Addr) (tag : Tag) (id : PieceId)
  /-- SET_LAYOUT (R46): the 36-byte layout record. -/
  | setLayout (src : Addr) (tag : Tag) (record : List Byte)
  /-- READ_LAYOUT (R46). -/
  | readLayout (src : Addr) (tag : Tag)
  /-- SET_TIMING (R47). -/
  | setTiming (src : Addr) (tag : Tag) (lr lf lg ls allowance : Byte)
  /-- READ_TRACK (R65), with or without a slot. -/
  | readTrack (src : Addr) (tag : Tag) (slot : Option Byte)
  /-- SET_SELECTION (R66). -/
  | setSelection (src : Addr) (tag : Tag) (first count : Byte) (sets : List (BitVec 16))
  /-- SET_INSERTS (R67): mass and caliper of each insert. -/
  | setInserts (src : Addr) (tag : Tag) (first count : Byte) (entries : List (BitVec 16 × BitVec 16))
  /-- SET_INSERT_POLICY (R68). -/
  | setInsertPolicy (src : Addr) (tag : Tag) (limit threshold : Byte) (single : Bool)
  /-- STAGE_FEEDER_MAP (R72): enabled flag and loaded insert of F0-F7. -/
  | stageFeederMap (src : Addr) (tag : Tag) (bank : List (Bool × Byte))
  /-- COMMIT_FEEDER_MAP (R73). -/
  | commitFeederMap (src : Addr) (tag : Tag)
  /-- RESTORE_FEEDER (R88). -/
  | restoreFeeder (src : Addr) (tag : Tag) (feeder : Byte) (reset : Bool)
  /-- READ_FEEDERS (R89). -/
  | readFeeders (src : Addr) (tag : Tag)
  /-- READ_INSERT_TABLES (R89). -/
  | readInsertTables (src : Addr) (tag : Tag) (first : BitVec 16)
  /-- SET_SHEET_PARAMETERS (R91). -/
  | setSheetParameters (src : Addr) (tag : Tag) (mass caliper : BitVec 16) (panels : Byte)
  /-- SET_ENVELOPE_CLASS (R92). -/
  | setEnvelopeClass (src : Addr) (tag : Tag) (cls : Byte) (enabled : Bool) (mass wall fill : BitVec 16)
  /-- SET_BANDS (R93). -/
  | setBands (src : Addr) (tag : Tag) (count : Byte) (limits : List (BitVec 16))
  /-- READ_PLANNER_TABLES (R102). -/
  | readPlannerTables (src : Addr) (tag : Tag)
  /-- STAGE_SORT_ELEMENTS (R121). -/
  | stageSortElements (src : Addr) (tag : Tag) (first count : Byte) (elements : List ElementRecord)
  /-- SET_FALLBACK (R122). -/
  | setFallback (src : Addr) (tag : Tag) (action : Byte)
  /-- COMMIT_SORT_PLAN (R127). -/
  | commitSortPlan (src : Addr) (tag : Tag)
  /-- READ_SORT_PLAN (R133). -/
  | readSortPlan (src : Addr) (tag : Tag) (bank first count : Byte)
  /-- TRY_SORT_KEY (R134). -/
  | trySortKey (src : Addr) (tag : Tag) (key : BitVec 32) (band service : Byte)
  /-- SET_BIN_LIMITS (R138). -/
  | setBinLimits (src : Addr) (tag : Tag) (bin : Byte) (disabled : Bool) (maxCount : BitVec 16) (maxMass : BitVec 24) (minCount : BitVec 16)
  /-- READ_TRAYS (R148). -/
  | readTrays (src : Addr) (tag : Tag) (count : Byte)
  /-- READ_BINS (R150). -/
  | readBins (src : Addr) (tag : Tag)
  /-- START_RUN (R153, R154). -/
  | startRun (src : Addr) (tag : Tag)
  /-- END_RUN (R155). -/
  | endRun (src : Addr) (tag : Tag)
  /-- STOP (R158). -/
  | stop (src : Addr) (tag : Tag)
  /-- RESUME (R161). -/
  | resume (src : Addr) (tag : Tag)
  /-- DECLARE_REMOVED (R159, R160). -/
  | declareRemoved (src : Addr) (tag : Tag) (range : Bool) (lo hi : Byte) (accumulator : Bool)
  /-- ABORT_RUN (R162). -/
  | abortRun (src : Addr) (tag : Tag)
  /-- RESTART (R163). -/
  | restart (src : Addr) (tag : Tag)
  /-- READ_RUN_STATUS (R165). -/
  | readRunStatus (src : Addr) (tag : Tag)
  /-- READ_COMPLETIONS (R170). -/
  | readCompletions (src : Addr) (tag : Tag) (count : Byte)
  /-- READ_RUN_COUNTERS (R171). -/
  | readRunCounters (src : Addr) (tag : Tag)
  /-- CLEAR_SUMMARY (R174). -/
  | clearSummary (src : Addr) (tag : Tag) (flags : BitVec 24)
  /-- READ_SUMMARY (R176). -/
  | readSummary (src : Addr) (tag : Tag)
  /-- READ_PORT (R187). -/
  | readPort (src : Addr) (tag : Tag)
  /-- RESET_LINE_HELD (R164). -/
  | resetLineHeld
  deriving DecidableEq, Repr

end Sys2Proof
end

