-- ==== Sys2Proof/Decode.lean ====
section
/-! DEFINITION. The words of the opcode table: its rows carry no bits, since a command is an event, a frame or a request and no word of a program. -/

namespace Sys2Proof

/-- The command a word spells by the table's bits: none, for no row of the table gives bits. -/
def decodeTableWord (nbits w : Nat) : Option Instr :=
  match nbits, w with
  | _, _ => none

end Sys2Proof
end

