-- ==== Sys2Proof/Config.lean ====
section
/-! DEFINITION. What the TL-460 fixes: its capacities and marker values. There is no implementation-defined constant and no free value (log 28). -/

namespace Sys2Proof.Config

/-- The no-read marker of SHEET, READ and DIVERT: never the ID of a descriptor (R1, R188). -/
def noRead : PieceId := 16777215#24

/-- The layout address that means unassigned (R46). -/
def unassigned : Addr := 63#6

/-- Descriptor slots (R1). -/
def descriptorSlots : Nat := 4096

/-- Map entries (R3). -/
def mapEntries : Nat := 8192

/-- Identity windows (R3). -/
def windows : Nat := 4

/-- Slots of the track ring (R50). -/
def ringSlots : Nat := 64

/-- Entries of the release queue (R36). -/
def releaseQueue : Nat := 4

/-- Sheets a set may hold (R32). -/
def maxSheets : Nat := 16

/-- Feeders F0-F7 (R69). -/
def feeders : Nat := 8

/-- Logical inserts I0-I11 (R66). -/
def inserts : Nat := 12

/-- Selection table entries (R66). -/
def selections : Nat := 256

/-- Elements of a sort bank (R118). -/
def sortElements : Nat := 64

/-- B0-B15 and BO (R136). -/
def bins : Nat := 17

/-- The number of the overflow bin BO (R188). -/
def overflowBin : Nat := 16

/-- The number that stands for BR in a frame (R188). -/
def rejectBinCode : Nat := 17

/-- Places of the completion log (R166). -/
def completionLog : Nat := 1024

/-- Places of the tray log (R148). -/
def trayLog : Nat := 256

/-- Frames the forward queue holds (R180). -/
def forwardQueue : Nat := 8

/-- Command entries of the originate queue (R182). -/
def commandEntries : Nat := 28

/-- Management entries of the originate queue (R182). -/
def managementEntries : Nat := 4

/-- Body bytes of one segment (R184). -/
def segmentBytes : Nat := 53

/-- The longest request body that is not refused for its length alone (R184). -/
def requestBytes : Nat := 384

/-- Payload bytes a frame may have (R178). -/
def payloadBytes : Nat := 56

/-- The headroom at and below which the cutter is held (R39, R40). -/
def lowHeadroom : Nat := 8

/-- The greatest sort key (R1). -/
def maxKey : Nat := 999999999

/-- The top of a feeder's 32-bit counts, where increases stop (R69). -/
def countTop : Nat := 4294967295

end Sys2Proof.Config
end

