-- ==== Sys2Proof/Machine/State.lean ====
section
/-! DEFINITION. The state of the TL-460 as plain data, block by block (spec 00 Block overview), the reasons a step can stop, and the state after reset. -/

namespace Sys2Proof.Machine

/-- A numbered store of the part: place numbers strictly rising, places that hold the value they have after power-on unlisted. -/
abbrev Table (α : Type) := List (Nat × α)

/-! ## Piece faults and attention flags -/

/-- The piece fault catalogue, in the order of its table (chapter 6, section 6.1). -/
inductive PieceFault where
  | noDescriptor | duplicate | reprintLimit | noreadSheet | sequence | sheetCount | mixed | oversize | lateSheet
  | incompleteAtEnd | insertUnavailable | envelopeClass | overstuffed | overweight | commandOverflow | insertMissed
  | insertDouble | noFeedReport | verifyNoread | verifyMismatch | unsortable | noOutput | gateDivert | sorterReject
  | misrouted | lost | removed
  deriving DecidableEq, Repr

/-- The eighteen attention flags, in the order of the table of section 10.3; bit i of the summary is the ith of them (R188). -/
inductive Flag where
  | linkCheck | forwardOverrun | staleStamp | lateReport | unexpectedReport | unknownSource | commandQueueFull | pitchInStop
  | accumulatorOverrun | logHeadroom | jam | phantom | feederFailed | feederEmpty | trayLogWait | contaminatedTray
  | lateLanding | runComplete
  deriving DecidableEq, Repr

/-! ## Descriptor store -/

/-- A descriptor's state when its slot is not FREE (R1, R2). -/
inductive DescState where
  | loaded | inTrack | sorted | diverted
  deriving DecidableEq, Repr

/-- The service condition of a piece (R1). -/
inductive Service where
  | standard | priority
  deriving DecidableEq, Repr

/-- A descriptor (R1). A FREE slot holds none. -/
structure Descriptor where
  state : DescState
  id : PieceId
  sheets : Nat
  selection : Byte
  envClass : BitVec 2
  key : Nat
  service : Service
  reprint : Nat
  deriving DecidableEq, Repr

/-- The mode of an identity window (R3). -/
inductive WindowMode where
  | direct | mapped
  deriving DecidableEq, Repr

/-- An identity window (R3); `start` is the slot base in DIRECT mode and the map base in MAPPED mode. -/
structure Window where
  enabled : Bool
  base : PieceId
  exp : Nat
  mode : WindowMode
  start : Nat
  deriving DecidableEq, Repr

/-- A map entry (R3). -/
structure MapEntry where
  valid : Bool
  slot : Nat
  deriving DecidableEq, Repr

/-- The descriptor store (R1, R3). -/
structure Ds where
  slots : Table (Option Descriptor)
  windows : Table Window
  map : Table MapEntry
  deriving DecidableEq, Repr

/-! ## Collation unit -/

/-- A completed set as the release queue holds it (R36). -/
structure SetRec where
  id : Option PieceId
  slot : Option Nat
  count : Option Nat
  held : Nat
  fault : Option PieceFault
  further : Bool
  deriving DecidableEq, Repr

/-- The record of the open-record place (R22): `waiting` is COMPLETE_WAITING, otherwise it is OPEN. -/
structure OpenRec where
  set : SetRec
  next : Nat
  waiting : Bool
  deriving DecidableEq, Repr

/-- The two cutter commands, and the hold state (R40). -/
inductive Cutter where
  | hold | go
  deriving DecidableEq, Repr

/-- A pending cutter command and, for HOLD, who asked for it (R41). -/
inductive PendingCutter where
  | go | holdByQueue | holdByRun
  deriving DecidableEq, Repr

/-- The collation unit (R22, R36, R40, R41). -/
structure Cu where
  place : Option OpenRec
  queue : List SetRec
  hold : Cutter
  pendingCutter : Option PendingCutter
  deriving DecidableEq, Repr

/-! ## Track unit -/

/-- A placed role of the layout (R46). -/
structure Station where
  addr : Addr
  pos : Nat
  deriving DecidableEq, Repr

/-- A feeder's entry in the layout (R46). -/
structure FeederPlace where
  addr : Addr
  pos : Nat
  present : Bool
  deriving DecidableEq, Repr

/-- The line layout (R46). -/
structure Layout where
  cutter : Addr
  sheetReader : Addr
  accumulator : Addr
  lineComputer : Addr
  folder : Station
  feeders : Table FeederPlace
  verify : Station
  gate : Station
  sorter : Station
  deriving DecidableEq, Repr

/-- The four leads and the report allowance (R47). -/
structure Timing where
  lr : Nat
  lf : Nat
  lg : Nat
  ls : Nat
  allowance : Nat
  deriving DecidableEq, Repr

/-- The status of a planned insert entry (R75). -/
inductive InsertStatus where
  | notCalled | called | backupCalled | fed | missed | doubled
  deriving DecidableEq, Repr

/-- An entry of the planned insert list (R75). -/
structure Planned where
  insert : Nat
  primary : Option Nat
  backup : Option Nat
  status : InsertStatus
  deriving DecidableEq, Repr

/-- The verify status (R103). -/
inductive Verify where
  | pending | matched | failed
  deriving DecidableEq, Repr

/-- The path of a piece (R103). -/
inductive Path where
  | undecided | gate | sort (bin : Nat) (tray : BitVec 16) | reject
  deriving DecidableEq, Repr

/-- A piece record of the track ring (R50). -/
structure Piece where
  entry : Pitch
  id : Option PieceId
  slot : Option Nat
  held : Nat
  envClass : Option (BitVec 2)
  planned : List Planned
  fill : Option Nat
  mass : Option Nat
  band : Option Nat
  fault : Option PieceFault
  further : Bool
  verify : Verify
  path : Path
  deriving DecidableEq, Repr

/-- The track unit (R44, R46, R47, R50). -/
structure Tu where
  pitch : Pitch
  layout : Layout
  timing : Timing
  ring : Table (Option Piece)
  deriving DecidableEq, Repr

/-! ## Insert unit -/

/-- An insert table entry (R67). -/
structure InsertSpec where
  mass : Nat
  caliper : Nat
  deriving DecidableEq, Repr

/-- A feeder's state (R69). -/
inductive FeederState where
  | offline | ready | low | empty | failed
  deriving DecidableEq, Repr

/-- A feeder's material level (R69). -/
inductive Level where
  | ok | low | empty
  deriving DecidableEq, Repr

/-- A feeder record (R69). -/
structure Feeder where
  state : FeederState
  level : Level
  consecutive : Nat
  calls : Nat
  misses : Nat
  doubles : Nat
  condition : Nat
  degraded : Bool
  deriving DecidableEq, Repr

/-- A feeder's entry in a feeder map bank (R72). -/
structure MapSlot where
  enabled : Bool
  insert : Nat
  deriving DecidableEq, Repr

/-- The insert unit (R66-R69, R72, R73). -/
structure Iu where
  selection : Table (BitVec 12)
  inserts : Table InsertSpec
  limit : Nat
  threshold : Nat
  single : Bool
  feeders : Table Feeder
  staged : Table MapSlot
  active : Table MapSlot
  commitPending : Bool
  deriving DecidableEq, Repr

/-! ## Piece planner -/

/-- An envelope class entry (R92). -/
structure EnvClass where
  enabled : Bool
  mass : Nat
  wall : Nat
  fill : Nat
  deriving DecidableEq, Repr

/-- The piece planner (R91-R93). -/
structure Pp where
  sheetMass : Nat
  sheetCaliper : Nat
  panels : Nat
  classes : Table EnvClass
  bands : List Nat
  deriving DecidableEq, Repr

/-! ## Sort unit -/

/-- A key test (R119). -/
inductive KeyTest where
  | range (low high : Nat)
  | leading (k value : Nat)
  | pair (a b : Nat)
  deriving DecidableEq, Repr

/-- A service condition (R118). -/
inductive ServiceCond where
  | any | standard | priority
  deriving DecidableEq, Repr

/-- An action: a bin, B0-B15 numbered 0-15 and BO numbered 16, or REJECT (R118). The fallback RESIDUAL(b) is `bin b`. -/
inductive Action where
  | bin (b : Nat)
  | reject
  deriving DecidableEq, Repr

/-- A sort element (R118): a DISABLED element holds no further fields. -/
inductive Element where
  | disabled
  | enabled (test : KeyTest) (bands : Byte) (service : ServiceCond) (action : Action)
  deriving DecidableEq, Repr

/-- The sort unit (R118). -/
structure Su where
  active : Table Element
  staged : Table Element
  fallback : Action
  generation : BitVec 16
  commitPending : Bool
  deriving DecidableEq, Repr

/-! ## Bin unit -/

/-- A bin's state (R136). -/
inductive BinState where
  | disabled | opened | full | closePending
  deriving DecidableEq, Repr

/-- A bin's limits (R136). -/
structure Limits where
  maxCount : Nat
  maxMass : Nat
  minCount : Nat
  deriving DecidableEq, Repr

/-- Why a tray was closed (R142, R188). -/
inductive CloseReason where
  | countLimit | massLimit | solo | groupBreak | runEnd
  deriving DecidableEq, Repr

/-- A current tray (R136). -/
structure Tray where
  run : BitVec 16
  seq : BitVec 16
  generation : BitVec 16
  reserved : Nat
  reservedMass : Nat
  landed : Nat
  landedMass : Nat
  firstId : Option PieceId
  lastId : Option PieceId
  bands : Byte
  contaminated : Bool
  reason : Option CloseReason
  deriving DecidableEq, Repr

/-- A finalised tray record (R144). -/
structure TrayRec where
  run : BitVec 16
  seq : BitVec 16
  bin : Nat
  generation : BitVec 16
  reason : Option CloseReason
  landed : Nat
  landedMass : Nat
  firstId : Option PieceId
  lastId : Option PieceId
  bands : Byte
  underMin : Bool
  contaminated : Bool
  deriving DecidableEq, Repr

/-- A bin record (R136). -/
structure Bin where
  state : BinState
  limits : Option Limits
  tray : Option Tray
  owed : Bool
  held : Option TrayRec
  carried : Bool
  deriving DecidableEq, Repr

/-- The bin unit (R136, R137, R148). -/
structure Bu where
  bins : Table Bin
  brCount : Nat
  brMass : Nat
  nextSeq : BitVec 16
  log : List TrayRec
  deriving DecidableEq, Repr

/-! ## Run control -/

/-- The run state (R152). -/
inductive RunState where
  | idle | running | draining | stopped
  deriving DecidableEq, Repr

/-- The cause of a stop (R157). -/
inductive StopCause where
  | stopRequest | jam | phantom | accumulatorOverrun
  deriving DecidableEq, Repr

/-- The stop record (R152). -/
structure StopRec where
  cause : StopCause
  addr : Option Addr
  pitch : Pitch
  deriving DecidableEq, Repr

/-- Run control (R152). -/
structure Rc where
  state : RunState
  run : BitVec 16
  resume : Option RunState
  stop : Option StopRec
  deriving DecidableEq, Repr

/-! ## Completion log and attention summary -/

/-- The outcome of a piece (R167). -/
inductive Outcome where
  | sorted | divertedGate | rejectedSorter | missorted | lost | removed
  deriving DecidableEq, Repr

/-- A completion entry (R167). -/
structure Entry where
  run : BitVec 16
  entry : Option Pitch
  id : Option PieceId
  slot : Option Nat
  outcome : Outcome
  bin : Option Nat
  tray : Option (BitVec 16)
  fault : Option PieceFault
  further : Bool
  held : Nat
  mass : Option Nat
  reprint : Option Nat
  deriving DecidableEq, Repr

/-- The run counters (R171). -/
structure Counters where
  opened : BitVec 32
  released : BitVec 32
  exited : BitVec 32
  sorted : BitVec 32
  diverted : BitVec 32
  sheets : BitVec 32
  noReads : BitVec 32
  deriving DecidableEq, Repr

/-- The first-event capture (R173). -/
structure Capture where
  flag : Flag
  addr : Option Addr
  pitch : Option Pitch
  id : Option PieceId
  deriving DecidableEq, Repr

/-- The completion log and attention summary (R166, R171-R175). -/
structure Cl where
  log : List Entry
  counters : Counters
  summary : BitVec 18
  capture : Option Capture
  alertPending : Bool
  deriving DecidableEq, Repr

/-! ## Ring port -/

/-- The frame kinds (R188). -/
inductive Kind where
  | sheet | feed | material | read | landed | trayReady | jam | hold | go | release | call | divert | bin | trayChange
  | request | response | alert
  deriving DecidableEq, Repr

/-- A frame the part originates; its source is the own address and its check is computed when it is sent (R178, R182). -/
structure Frame where
  dest : Addr
  kind : Kind
  stamp : Stamp
  payload : List Byte
  deriving DecidableEq, Repr

/-- The two queues of the downstream port, and the values of the turn (R183). -/
inductive Port where
  | forward | originate
  deriving DecidableEq, Repr

/-- The assembly of a request (R184). -/
structure Assembly where
  src : Addr
  tag : Tag
  expect : Nat
  body : List Byte
  deriving DecidableEq, Repr

/-- The response buffer's content (R186): the number of the next segment and the segments still to be queued.
While a request's effect is made, it holds a response with no segment yet (R175, R185). -/
structure Response where
  dest : Addr
  tag : Tag
  next : Nat
  segments : List (List Byte)
  deriving DecidableEq, Repr

/-- The ring port (R180, R182-R184, R186, R187). -/
structure Rp where
  own : Addr
  forward : List (List Byte)
  originate : List Frame
  sending : Option Port
  turn : Port
  assembly : Option Assembly
  response : Option Response
  deriving DecidableEq, Repr

/-! ## The whole state -/

/-- The work that an advancing pitch arrival has brought about and that is not yet done: the model's own marks (log 3). -/
structure Due where
  release : Bool
  mapCopy : Bool
  planCopy : Bool
  trayRetry : Bool
  deadlines : Bool
  deriving DecidableEq, Repr

/-- The state of the TL-460 and the queue of waiting commands, first in, first out. -/
structure State where
  pending : List Instr
  due : Due
  resetHeld : Bool
  ds : Ds
  cu : Cu
  tu : Tu
  iu : Iu
  pp : Pp
  su : Su
  bu : Bu
  rc : Rc
  cl : Cl
  rp : Rp
  deriving DecidableEq, Repr

/-- No command faults: every rule of the spec gives an effect, and what it calls a fault is data of State (INVENTORY.md, Faults). -/
inductive Fault where
  deriving DecidableEq, Repr

/-- Why a step answers no state. -/
inductive Refusal where
  /-- Raised by exec's arm of a command that has no meaning yet; safe: nothing can be proved of its effect. -/
  | notModelled (mnemonic : String)
  deriving DecidableEq, Repr

/-! ## Values after power-on -/

/-- A window after power-on (R3). -/
def Window.off : Window := ⟨false, 0#24, 4, .direct, 0⟩
/-- A map entry after power-on (R3). -/
def MapEntry.off : MapEntry := ⟨false, 0⟩
/-- A feeder's layout entry after power-on (R46). -/
def FeederPlace.off : FeederPlace := ⟨63#6, 0, false⟩
/-- A placed role after power-on (R46). -/
def Station.off : Station := ⟨63#6, 0⟩
/-- An insert table entry after power-on (R67). -/
def InsertSpec.off : InsertSpec := ⟨0, 0⟩
/-- A feeder after power-on (R69). -/
def Feeder.off : Feeder := ⟨.offline, .ok, 0, 0, 0, 0, 100, false⟩
/-- A feeder map entry after power-on (R72). -/
def MapSlot.off : MapSlot := ⟨false, 0⟩
/-- An envelope class after power-on (R92). -/
def EnvClass.off : EnvClass := ⟨false, 1, 0, 1⟩
/-- A bin after power-on (R151). -/
def Bin.off : Bin := ⟨.disabled, none, none, false, none, false⟩
/-- The layout after power-on (R46). -/
def Layout.off : Layout := ⟨63#6, 63#6, 63#6, 63#6, .off, [], .off, .off, .off⟩
/-- The run counters at zero (R171). -/
def Counters.zero : Counters := ⟨0, 0, 0, 0, 0, 0, 0⟩
/-- No work outstanding. -/
def Due.none : Due := ⟨false, false, false, false, false⟩

/-- The machine right after reset (R20, R43, R44, R46, R47, R50, R66-R69, R72, R90, R91-R93, R135, R151, R152, R164, R177, R187).
The own address is read from the straps; 0 here is a DESIGN CHOICE (log 6), and POWER_ON_RESET sets any other. -/
def State.reset : State where
  pending := []
  due := .none
  resetHeld := false
  ds := ⟨[], [], []⟩
  cu := ⟨none, [], .hold, none⟩
  tu := ⟨0, .off, ⟨2, 2, 2, 2, 2⟩, []⟩
  iu := ⟨[], [], 3, 90, false, [], [], [], false⟩
  pp := ⟨4990, 100, 3, [], []⟩
  su := ⟨[], [], .reject, 0, false⟩
  bu := ⟨[], 0, 0, 1, []⟩
  rc := ⟨.idle, 0, none, none⟩
  cl := ⟨[], .zero, 0, none, false⟩
  rp := ⟨0, [], [], none, .forward, none, none⟩

end Sys2Proof.Machine
end

