-- ==== Sys2Proof/Machine/Operands.lean ====
section
/-! DEFINITION. The forms operands take: stamps and pitch differences, numbers in frames, the frame check, and the codes of named values (R44, R45, R178, R188). -/

namespace Sys2Proof.Machine

/-! ## Pitches (R44, R45, R56) -/

/-- The stamp of a pitch: its low eight bits (R44). -/
def stampOf (p : Pitch) : Stamp := p.setWidth 8

/-- The difference of two pitches, taken modulo 2^32 and read as a signed number (R45). -/
def pitchDiff (a b : Pitch) : Int := (a - b).toInt

/-- A pitch some positions on. -/
def pitchAt (p : Pitch) (n : Nat) : Pitch := p + BitVec.ofNat 32 n

/-- The resolved pitch of a stamp: the pitch from c - 126 to c + 1 whose low eight bits are the stamp (R56). -/
def resolveStamp (c : Pitch) (st : Stamp) : Option Pitch :=
  let back := (stampOf (c + 1) - st).toNat
  if back ≤ 127 then some (c + 1 - BitVec.ofNat 32 back) else none

/-! ## Numbers in frames (R178, R188): high byte first -/

/-- One byte. -/
def be1 (n : Nat) : List Byte := [BitVec.ofNat 8 n]

/-- Two bytes, high byte first. -/
def be2 (n : Nat) : List Byte := [BitVec.ofNat 8 (n / 256), BitVec.ofNat 8 n]

/-- Three bytes, high byte first. -/
def be3 (n : Nat) : List Byte := BitVec.ofNat 8 (n / 65536) :: be2 n

/-- Four bytes, high byte first. -/
def be4 (n : Nat) : List Byte := BitVec.ofNat 8 (n / 16777216) :: be3 n

/-- The number a run of bytes stands for, high byte first. -/
def numOf (bytes : List Byte) : Nat := bytes.foldl (fun acc b => acc * 256 + b.toNat) 0

/-- The n bytes FFh of an absent field that has no marker of its own (R188). -/
def absent (n : Nat) : List Byte := List.replicate n 255#8

/-- A flag or option byte (R188). -/
def flagByte (b : Bool) : List Byte := [if b then 1#8 else 0#8]

/-- A field that may be absent: its bytes, or n bytes FFh (R188). -/
def optBytes {α : Type} (n : Nat) (enc : α → List Byte) : Option α → List Byte
  | some x => enc x
  | none => absent n

/-- A piece ID or the marker 16,777,215, which is three bytes FFh (R188). -/
def idBytes (id : Option PieceId) : List Byte := be3 ((id.getD Config.noRead).toNat)

/-- Whether a flag byte is set: bit 0, the other bits disregarded (R188). -/
def flagOf (b : Byte) : Bool := b.getLsbD 0

/-! ## The check (R178) -/

/-- One bit of the CRC with generator x^16 + x^12 + x^5 + 1, most significant bit first. -/
def crcBit (crc : BitVec 16) : BitVec 16 := if crc.msb then (crc <<< 1) ^^^ 0x1021#16 else crc <<< 1

/-- Some bits of the CRC. -/
def crcBits : Nat → BitVec 16 → BitVec 16
  | 0, crc => crc
  | n + 1, crc => crcBits n (crcBit crc)

/-- One byte of the CRC. -/
def crcByte (crc : BitVec 16) (b : Byte) : BitVec 16 := crcBits 8 (crc ^^^ (b.setWidth 16 <<< 8))

/-- The check over header and payload bytes: initial value FFFFh, no final inversion (R178). -/
def crcOf (bytes : List Byte) : BitVec 16 := bytes.foldl crcByte 0xFFFF#16

/-- The code of a frame kind (R188). -/
def kindCode : Kind → Nat
  | .sheet => 1 | .feed => 2 | .material => 3 | .read => 4 | .landed => 5 | .trayReady => 6 | .jam => 7 | .hold => 8 | .go => 9
  | .release => 10 | .call => 11 | .divert => 12 | .bin => 13 | .trayChange => 14 | .request => 15 | .response => 16
  | .alert => 17

/-- The kind of a code, none for a code that names no kind (R181, R188). -/
def kindOf (code : Byte) : Option Kind :=
  match code.toNat with
  | 1 => some .sheet | 2 => some .feed | 3 => some .material | 4 => some .read | 5 => some .landed | 6 => some .trayReady
  | 7 => some .jam | 8 => some .hold | 9 => some .go | 10 => some .release | 11 => some .call | 12 => some .divert
  | 13 => some .bin | 14 => some .trayChange | 15 => some .request | 16 => some .response | 17 => some .alert
  | _ => none

/-- An address as a byte, high bits 0 (R178). -/
def addrByte (a : Addr) : Byte := a.setWidth 8

/-- The address a byte holds: its low six bits (R178). -/
def addrOf (b : Byte) : Addr := b.setWidth 6

/-- Header and payload of an originated frame: destination, source, kind, stamp, length, payload (R178). -/
def frameBody (own : Addr) (f : Frame) : List Byte :=
  addrByte f.dest :: addrByte own :: BitVec.ofNat 8 (kindCode f.kind) :: f.stamp :: BitVec.ofNat 8 f.payload.length :: f.payload

/-- An originated frame as it is sent, with the check the part computes (R178). -/
def frameBytes (own : Addr) (f : Frame) : List Byte := frameBody own f ++ be2 (crcOf (frameBody own f)).toNat

/-! ## Segments (R184, R186) -/

/-- A message body cut into segments of 53 bytes, the last holding the remainder (R186); the fuel is the body's length. -/
def cutSegments : Nat → List Byte → List (List Byte)
  | 0, b => [b]
  | n + 1, b => if b.length ≤ Config.segmentBytes then [b] else b.take Config.segmentBytes :: cutSegments n (b.drop Config.segmentBytes)

/-- The segment byte: the last mark in bit 7, the number in bits 0-6 (R184). -/
def segmentByte (n : Nat) (last : Bool) : Byte := BitVec.ofNat 8 (n % 128) ||| (if last then 128#8 else 0#8)

/-- A list cut into groups of k; the fuel is its length. -/
def groupsOf (k : Nat) : Nat → List Byte → List (List Byte)
  | 0, _ => []
  | _ + 1, [] => []
  | n + 1, b => b.take k :: groupsOf k n (b.drop k)

/-! ## Bins, places and actions (R188) -/

/-- A bin byte of a tray bin: 0-15 for B0-B15, 16 for BO. -/
def binOf (b : Byte) : Option Nat := if b.toNat < Config.bins then some b.toNat else none

/-- Where a piece lands (R64, R188). -/
inductive Place where
  | bin (b : Nat) | br | gate
  deriving DecidableEq, Repr

/-- The place of a LANDED: 0-15 B0-B15, 16 BO, 17 BR, 18 GATE (R188). -/
def placeOf (b : Byte) : Option Place :=
  if b.toNat < Config.bins then some (.bin b.toNat) else if b = 17#8 then some .br else if b = 18#8 then some .gate else none

/-- An action: coded as a bin, with 18 for REJECT; BR is no action (R118, R188). -/
def actionOf (b : Byte) : Option Action :=
  if b.toNat < Config.bins then some (.bin b.toNat) else if b = 18#8 then some .reject else none

/-- The byte of an action (R188). -/
def actionByte : Action → List Byte
  | .bin b => be1 b
  | .reject => be1 18

/-! ## Codes of named values: the place of the value in its rule's list (R188, log 21) -/

/-- The row of a piece fault in the catalogue table, from 1 (R188). -/
def faultCode : PieceFault → Nat
  | .noDescriptor => 1 | .duplicate => 2 | .reprintLimit => 3 | .noreadSheet => 4 | .sequence => 5 | .sheetCount => 6 | .mixed => 7
  | .oversize => 8 | .lateSheet => 9 | .incompleteAtEnd => 10 | .insertUnavailable => 11 | .envelopeClass => 12 | .overstuffed => 13
  | .overweight => 14 | .commandOverflow => 15 | .insertMissed => 16 | .insertDouble => 17 | .noFeedReport => 18
  | .verifyNoread => 19 | .verifyMismatch => 20 | .unsortable => 21 | .noOutput => 22 | .gateDivert => 23 | .sorterReject => 24
  | .misrouted => 25 | .lost => 26 | .removed => 27

/-- A first fault field: its row, 0 for absent (R188). -/
def faultByte : Option PieceFault → List Byte
  | some f => be1 (faultCode f)
  | none => be1 0

/-- A descriptor slot's state, FREE being 0 (R1). -/
def descStateCode : DescState → Nat
  | .loaded => 1 | .inTrack => 2 | .sorted => 3 | .diverted => 4

/-- A service (R1). -/
def serviceCode : Service → Nat
  | .standard => 0 | .priority => 1

/-- A run state (R152). -/
def runStateCode : RunState → Nat
  | .idle => 0 | .running => 1 | .draining => 2 | .stopped => 3

/-- A stop cause (R152). -/
def stopCauseCode : StopCause → Nat
  | .stopRequest => 0 | .jam => 1 | .phantom => 2 | .accumulatorOverrun => 3

/-- A feeder state (R69). -/
def feederStateCode : FeederState → Nat
  | .offline => 0 | .ready => 1 | .low => 2 | .empty => 3 | .failed => 4

/-- A material level (R69). -/
def levelCode : Level → Nat
  | .ok => 0 | .low => 1 | .empty => 2

/-- The level of a MATERIAL report (R71, R188). -/
def levelOf (b : Byte) : Option Level :=
  match b.toNat with
  | 0 => some .ok | 1 => some .low | 2 => some .empty | _ => none

/-- An insert entry's status (R75). -/
def insertStatusCode : InsertStatus → Nat
  | .notCalled => 0 | .called => 1 | .backupCalled => 2 | .fed => 3 | .missed => 4 | .doubled => 5

/-- A verify status (R50). -/
def verifyCode : Verify → Nat
  | .pending => 0 | .matched => 1 | .failed => 2

/-- A path (R50). -/
def pathCode : Path → Nat
  | .undecided => 0 | .gate => 1 | .sort _ _ => 2 | .reject => 3

/-- A bin state (R136). -/
def binStateCode : BinState → Nat
  | .disabled => 0 | .opened => 1 | .full => 2 | .closePending => 3

/-- A close reason (R188). -/
def closeReasonCode : CloseReason → Nat
  | .countLimit => 0 | .massLimit => 1 | .solo => 2 | .groupBreak => 3 | .runEnd => 4

/-- An outcome (R188). -/
def outcomeCode : Outcome → Nat
  | .sorted => 0 | .divertedGate => 1 | .rejectedSorter => 2 | .missorted => 3 | .lost => 4 | .removed => 5

/-- A cutter command (R188). -/
def cutterCode : Cutter → Nat
  | .hold => 0 | .go => 1

/-- A port, as the turn (R188). -/
def portCode : Port → Nat
  | .forward => 0 | .originate => 1

/-- The bit of an attention flag: its place in the table of section 10.3 (R188). -/
def flagBit : Flag → Nat
  | .linkCheck => 0 | .forwardOverrun => 1 | .staleStamp => 2 | .lateReport => 3 | .unexpectedReport => 4 | .unknownSource => 5
  | .commandQueueFull => 6 | .pitchInStop => 7 | .accumulatorOverrun => 8 | .logHeadroom => 9 | .jam => 10 | .phantom => 11
  | .feederFailed => 12 | .feederEmpty => 13 | .trayLogWait => 14 | .contaminatedTray => 15 | .lateLanding => 16
  | .runComplete => 17

/-- A service byte of a request (R118, R134, R188). -/
def serviceOf (b : Byte) : Option Service :=
  match b.toNat with
  | 0 => some .standard | 1 => some .priority | _ => none

/-- A service condition byte (R118, R188). -/
def serviceCondOf (b : Byte) : Option ServiceCond :=
  match b.toNat with
  | 0 => some .any | 1 => some .standard | 2 => some .priority | _ => none

/-- A service condition (R118). -/
def serviceCondCode : ServiceCond → Nat
  | .any => 0 | .standard => 1 | .priority => 2

/-- A count field in which 0 stands for 32 (R9, R14, R66). -/
def countOf (b : Byte) : Nat := if b = 0#8 then 32 else b.toNat

end Sys2Proof.Machine
end

