-- ==== Sys2Proof/Machine/Ops.lean ====
section
/-! DEFINITION. Named operations over State: numbered stores, block updates, the originate queue (R182), pieces in flight and headroom (R39). -/

namespace Sys2Proof.Machine

/-! ## Numbered stores -/

/-- The value at a place; z is what an unlisted place holds. -/
def tget {α : Type} (z : α) : Table α → Nat → α
  | [], _ => z
  | (k, v) :: t, i => if k = i then v else tget z t i

/-- A store with one place changed, in canonical form: the value z is never listed. -/
def tput {α : Type} [DecidableEq α] (z : α) : Table α → Nat → α → Table α
  | [], i, v => if v = z then [] else [(i, v)]
  | (k, w) :: t, i, v =>
    if i < k then (if v = z then (k, w) :: t else (i, v) :: (k, w) :: t)
    else if i = k then (if v = z then t else (i, v) :: t)
    else (k, w) :: tput z t i v

/-- A run of places changed, from the first on. -/
def tputRun {α : Type} [DecidableEq α] (z : α) : Table α → Nat → List α → Table α
  | t, _, [] => t
  | t, i, v :: vs => tputRun z (tput z t i v) (i + 1) vs

/-- Canonical form: place numbers strictly rising, no listed value equal to z; so equal stores are equal data. -/
abbrev Table.canonical {α : Type} [DecidableEq α] (z : α) (t : Table α) : Prop :=
  (t.map Prod.fst).Pairwise (· < ·) ∧ ∀ e ∈ t, e.2 ≠ z

/-! ## Block updates -/

/-- The state with another descriptor store. -/
def withDs (s : State) (x : Ds) : State := { s with ds := x }
/-- The state with another collation unit. -/
def withCu (s : State) (x : Cu) : State := { s with cu := x }
/-- The state with another track unit. -/
def withTu (s : State) (x : Tu) : State := { s with tu := x }
/-- The state with another insert unit. -/
def withIu (s : State) (x : Iu) : State := { s with iu := x }
/-- The state with another piece planner. -/
def withPp (s : State) (x : Pp) : State := { s with pp := x }
/-- The state with another sort unit. -/
def withSu (s : State) (x : Su) : State := { s with su := x }
/-- The state with another bin unit. -/
def withBu (s : State) (x : Bu) : State := { s with bu := x }
/-- The state with another run control. -/
def withRc (s : State) (x : Rc) : State := { s with rc := x }
/-- The state with another completion log and attention summary. -/
def withCl (s : State) (x : Cl) : State := { s with cl := x }
/-- The state with another ring port. -/
def withRp (s : State) (x : Rp) : State := { s with rp := x }
/-- The state with other marks of outstanding work. -/
def withDue (s : State) (x : Due) : State := { s with due := x }
/-- The state with another level of the reset line. -/
def withResetHeld (s : State) (x : Bool) : State := { s with resetHeld := x }
/-- The state with another queue of commands. -/
def withPending (s : State) (x : List Instr) : State := { s with pending := x }

/-! ## Reading and writing one place -/

/-- A descriptor slot (R1): none is FREE. -/
def descAt (s : State) (n : Nat) : Option Descriptor := tget none s.ds.slots n
/-- The state with a descriptor slot changed. -/
def setDesc (s : State) (n : Nat) (d : Option Descriptor) : State := withDs s { s.ds with slots := tput none s.ds.slots n d }
/-- A slot of the track ring (R50). -/
def pieceAt (s : State) (k : Nat) : Option Piece := tget none s.tu.ring k
/-- The state with a slot of the track ring changed. -/
def setPiece (s : State) (k : Nat) (p : Option Piece) : State := withTu s { s.tu with ring := tput none s.tu.ring k p }
/-- A feeder record (R69). -/
def feederAt (s : State) (f : Nat) : Feeder := tget .off s.iu.feeders f
/-- The state with a feeder record changed. -/
def setFeeder (s : State) (f : Nat) (x : Feeder) : State := withIu s { s.iu with feeders := tput .off s.iu.feeders f x }
/-- A feeder's entry in the layout (R46). -/
def placeAt (s : State) (f : Nat) : FeederPlace := tget .off s.tu.layout.feeders f
/-- A bin record (R136). -/
def binAt (s : State) (b : Nat) : Bin := tget .off s.bu.bins b
/-- The state with a bin record changed. -/
def setBin (s : State) (b : Nat) (x : Bin) : State := withBu s { s.bu with bins := tput .off s.bu.bins b x }
/-- The bins in the order B0 to B15 and then BO (R129, R137, R142, R149). -/
def allBins : List Nat := List.range Config.bins

/-- The slot of the ring that belongs to an entry pitch: entry pitch mod 64 (R50). -/
def ringSlot (e : Pitch) : Nat := e.toNat % Config.ringSlots

/-! ## The originate queue (R182) -/

/-- Whether a frame belongs to the management part: RESPONSE and ALERT (R182). -/
def isManagement (f : Frame) : Bool := f.kind == .response || f.kind == .alert

/-- The management entries taken. -/
def managementCount (s : State) : Nat := s.rp.originate.countP isManagement

/-- The command entries taken. -/
def commandCount (s : State) : Nat := s.rp.originate.countP (fun f => !isManagement f)

/-- Whether a command entry is free (R182). -/
def commandRoom (s : State) : Bool := commandCount s < Config.commandEntries

/-- Whether a management entry is free (R182). -/
def managementRoom (s : State) : Bool := managementCount s < Config.managementEntries

/-- A frame queued at the tail of the originate queue. -/
def enqueue (s : State) (f : Frame) : State := withRp s { s.rp with originate := s.rp.originate ++ [f] }

/-- The stamp of the current pitch. -/
def stampNow (s : State) : Stamp := stampOf s.tu.pitch

/-! ## Pieces in flight and headroom (R39) -/

/-- The pieces in flight: the open-record place in either state, the release queue, the track (R39). -/
def inFlight (s : State) : Nat := s.cu.place.toList.length + s.cu.queue.length + s.tu.ring.length

/-- The headroom: 1024 less the log's occupancy, less the pieces in flight (R39). -/
def headroom (s : State) : Nat := Config.completionLog - s.cl.log.length - inFlight s

/-- A difference of two pitches of a station: the lead a command stamped p has at the current pitch (R45). -/
def leadTo (s : State) (p : Pitch) : Int := pitchDiff p s.tu.pitch

/-- The slots and pieces on the track, oldest entry pitch first, that is, furthest position first (R160). -/
def insertOldest (c : Pitch) (x : Nat × Piece) : List (Nat × Piece) → List (Nat × Piece)
  | [] => [x]
  | y :: ys => if pitchDiff c y.2.entry < pitchDiff c x.2.entry then x :: y :: ys else y :: insertOldest c x ys

/-- Every piece on the track with its slot, oldest entry pitch first. -/
def onTrack (s : State) : List (Nat × Piece) :=
  (s.tu.ring.filterMap (fun e => e.2.map (fun p => (e.1, p)))).foldr (insertOldest s.tu.pitch) []

/-- The run counters changed. -/
def tally (s : State) (f : Counters → Counters) : State := withCl s { s.cl with counters := f s.cl.counters }

end Sys2Proof.Machine
end

