-- ==== Sys2Proof/Machine/Flags.lean ====
section
/-! DEFINITION. The attention summary, the first-event capture and the placing of an ALERT (R172-R175). -/

namespace Sys2Proof.Machine

/-- The summary word with one flag set. -/
def flagMask (f : Flag) : BitVec 18 := 1#18 <<< flagBit f

/-- The payload of an ALERT: the summary, three bytes (R188). -/
def summaryBytes (x : BitVec 18) : List Byte := be3 x.toNat

/-- Whether a pending ALERT can be placed: a free management entry, no response in the buffer, and an address for the line computer (R175). -/
def alertPlaceable (s : State) : Bool :=
  s.cl.alertPending && managementRoom s && s.rp.response.isNone && s.tu.layout.lineComputer != Config.unassigned

/-- A pending ALERT placed with the summary as it stands, when it can be (R175). -/
def placeAlert (s : State) : State :=
  if alertPlaceable s then
    enqueue (withCl s { s.cl with alertPending := false }) ⟨s.tu.layout.lineComputer, .alert, stampNow s, summaryBytes s.cl.summary⟩
  else s

/-- A cause is taken: the summary acts by its state (R172), the capture holds the fields the cause's rule names (R173), and an
ALERT made pending is placed at once where it can be (R175). -/
def raise (f : Flag) (addr : Option Addr) (pitch : Option Pitch) (id : Option PieceId) (s : State) : State :=
  if s.cl.summary = 0#18 then
    placeAlert (withCl s { s.cl with summary := flagMask f, capture := some ⟨f, addr, pitch, id⟩, alertPending := true })
  else withCl s { s.cl with summary := s.cl.summary ||| flagMask f }

end Sys2Proof.Machine
end

