-- ==== Sys2Proof/Machine/Cutter.lean ====
section
/-! DEFINITION. Commands into the originate queue (R182), the cutter's hold state (R40, R41), LOG_HEADROOM (R39) and the becoming STOPPED (R157). -/

namespace Sys2Proof.Machine

/-- A command queued if a command entry is free (R182). -/
def sendCommand (s : State) (f : Frame) : Option State := if commandRoom s then some (enqueue s f) else none

/-- The cutter command a pending command stands for. -/
def cutterOf : PendingCutter → Cutter
  | .go => .go
  | .holdByQueue => .hold
  | .holdByRun => .hold

/-- The frame kind of a cutter command. -/
def cutterKind : Cutter → Kind
  | .hold => .hold
  | .go => .go

/-- The frame of a cutter command: to the cutter's address, stamped with the current pitch (R40). -/
def cutterFrame (s : State) (p : PendingCutter) : Frame := ⟨s.tu.layout.cutter, cutterKind (cutterOf p), stampNow s, []⟩

/-- The pending command after a decision that could not be queued: a HOLD of run control stays one (R41, log 15). -/
def pendingAfter (old : Option PendingCutter) (p : PendingCutter) : PendingCutter :=
  if old = some .holdByRun ∧ p = .holdByQueue then .holdByRun else p

/-- A HOLD or GO decided by R40: queued, the hold state taking its value, or made pending with COMMAND_QUEUE_FULL (R41). -/
def queueCutter (p : PendingCutter) (s : State) : State :=
  if commandRoom s then
    enqueue (withCu s { s.cu with hold := cutterOf p, pendingCutter := none }) (cutterFrame s p)
  else
    raise .commandQueueFull none none none
      (withCu s { s.cu with pendingCutter := some (pendingAfter s.cu.pendingCutter p) })

/-- The condition for GO: at most one set in the release queue and a headroom above 8 (R40). -/
def goCondition (s : State) : Bool := s.cu.queue.length ≤ 1 && Config.lowHeadroom < headroom s

/-- The condition for HOLD: three or more sets in the release queue or a headroom of 8 or less (R40). -/
def holdCondition (s : State) : Bool := 3 ≤ s.cu.queue.length || headroom s ≤ Config.lowHeadroom

/-- A pending command withdrawn at a test of R40 in RUNNING: GO when its condition no longer holds, HOLD by the queue or the headroom
when the condition for GO holds again (R41). -/
def withdrawCutter (s : State) : State :=
  match s.cu.pendingCutter with
  | some .go => if goCondition s then s else withCu s { s.cu with pendingCutter := none }
  | some .holdByQueue => if goCondition s then withCu s { s.cu with pendingCutter := none } else s
  | _ => s

/-- The decision of R40 in RUNNING on the hold state as it stands. -/
def decideCutter (s : State) : State :=
  if s.cu.hold = .go ∧ holdCondition s then queueCutter .holdByQueue s
  else if s.cu.hold = .hold ∧ goCondition s then queueCutter .go s
  else s

/-- The test of R40, made each time the queue length or the headroom changes and when the run becomes RUNNING; it acts in RUNNING alone. -/
def cutterTest (s : State) : State := if s.rc.state = .running then decideCutter (withdrawCutter s) else s

/-- A pending cutter command offered a command entry (R41). -/
def offerCutter (s : State) : State :=
  match s.cu.pendingCutter with
  | some p => if commandRoom s then queueCutter p s else s
  | none => s

/-- LOG_HEADROOM when the headroom has fallen from above 8 to 8 or below (R39). The opening that calls it sets it before the test of R40
(DESIGN CHOICE, log 30). -/
def headroomFell (before : Nat) (s : State) : State :=
  if Config.lowHeadroom < before ∧ headroom s ≤ Config.lowHeadroom then raise .logHeadroom none none none s else s

/-- The run becomes STOPPED from RUNNING or DRAINING: resume state, stop record, and HOLD whatever the hold state (R157).
A cause that comes in STOPPED changes nothing here. -/
def runStop (cause : StopCause) (addr : Option Addr) (s : State) : State :=
  if s.rc.state = .running ∨ s.rc.state = .draining then
    queueCutter .holdByRun
      (withRc s { s.rc with state := .stopped, resume := some s.rc.state, stop := some ⟨cause, addr, s.tu.pitch⟩ })
  else s

end Sys2Proof.Machine
end

