-- ==== Sys2Proof/Machine/Feeders.lean ====
section
/-! DEFINITION. The insert unit's feeders: the map copy (R74), callability (R70), resolution (R76), material (R71), condition and the miss limit (R86, R87). -/

namespace Sys2Proof.Machine

/-- The state a feeder takes by its material level (R74, R88, R90). -/
def levelState : Level → FeederState
  | .ok => .ready
  | .low => .low
  | .empty => .empty

/-- FEEDER_EMPTY, whose capture holds the feeder's address alone (R71). -/
def raiseFeederEmpty (f : Nat) (s : State) : State := raise .feederEmpty (some (placeAt s f).addr) none none s

/-- A feeder's move at a map copy, by its enabled flag before and after (R74). -/
def copyFeeder (old new : Bool) (x : Feeder) : Feeder :=
  match old, new with
  | false, false => { x with state := .offline }
  | false, true => { x with state := levelState x.level, consecutive := 0 }
  | true, false => { x with state := .offline }
  | true, true => x

/-- The feeders' moves at a map copy (R74). That they are made, and FEEDER_EMPTY raised, in the order F0 to F7 is a DESIGN CHOICE (log 31). -/
def copyFeeders (old new : Table MapSlot) : List Nat → State → State
  | [], s => s
  | f :: fs, s =>
    let was := (tget MapSlot.off old f).enabled
    let is := (tget MapSlot.off new f).enabled
    let x := copyFeeder was is (feederAt s f)
    let s1 := setFeeder s f x
    copyFeeders old new fs (if !was && is && x.state == .empty then raiseFeederEmpty f s1 else s1)

/-- The copy of the feeder map (R74): the active bank takes the staged bank, and the commit is no longer pending. -/
def mapCopy (s : State) : State :=
  copyFeeders s.iu.active s.iu.staged (List.range Config.feeders)
    (withIu s { s.iu with active := s.iu.staged, commitPending := false })

/-- The copy made if a commit is pending when the run becomes IDLE (R73). -/
def mapCopyIfPending (s : State) : State := if s.iu.commitPending then mapCopy s else s

/-- Whether a feeder, one of the eight, is callable for an insert (R70). -/
def callable (s : State) (f i : Nat) : Bool :=
  decide (f < Config.feeders) && (placeAt s f).present && ((feederAt s f).state == .ready || (feederAt s f).state == .low)
    && (tget MapSlot.off s.iu.active f).enabled && (tget MapSlot.off s.iu.active f).insert == i

/-- The feeder of a list with the lowest position, the lower number of two at one position. -/
def lowestFeeder (s : State) : List Nat → Option Nat
  | [] => none
  | f :: fs =>
    match lowestFeeder s fs with
    | some g => if (placeAt s g).pos < (placeAt s f).pos then some g else some f
    | none => some f

/-- The feeders callable for an insert. -/
def callableFeeders (s : State) (i : Nat) : List Nat := (List.range Config.feeders).filter (fun f => callable s f i)

/-- The primary: the lowest callable feeder that is not degraded, or the lowest callable feeder if all are (R76). -/
def primaryFor (s : State) (i : Nat) : Option Nat :=
  match lowestFeeder s ((callableFeeders s i).filter (fun f => !(feederAt s f).degraded)) with
  | some f => some f
  | none => lowestFeeder s (callableFeeders s i)

/-- The backup: the lowest callable feeder past the primary, absent in single-attempt mode (R76). -/
def backupFor (s : State) (i p : Nat) : Option Nat :=
  if s.iu.single then none
  else lowestFeeder s ((callableFeeders s i).filter (fun f => decide ((placeAt s p).pos < (placeAt s f).pos)))

/-- One entry of the planned insert list, resolved at release (R75, R76). -/
def planEntry (s : State) (i : Nat) : Planned :=
  match primaryFor s i with
  | some p => ⟨i, some p, backupFor s i p, .notCalled⟩
  | none => ⟨i, none, none, .notCalled⟩

/-- The inserts of a set, in ascending order (R75). -/
def insertsOf (x : BitVec 12) : List Nat := (List.range Config.inserts).filter (fun i => x.getLsbD i)

/-- A feeder's state on a MATERIAL report (R71). -/
def materialState (x : FeederState) (l : Level) : FeederState :=
  match x with
  | .offline => .offline
  | .failed => .failed
  | _ => levelState l

/-- A MATERIAL report taken from a feeder (R71). -/
def takeMaterial (f : Nat) (l : Level) (s : State) : State :=
  let x := feederAt s f
  let y := { x with level := l, state := materialState x.state l }
  let s1 := setFeeder s f y
  if y.state = .empty then raiseFeederEmpty f s1 else s1

/-- An increase of a saturating 32-bit count (R69). -/
def bump (n : Nat) : Nat := if n < Config.countTop then n + 1 else n

/-- An increase of the consecutive misses, which stops at 15 (R69). -/
def bumpMiss (n : Nat) : Nat := if n < 15 then n + 1 else n

/-- The condition value of a feeder's counts (R87). -/
def conditionOf (calls misses : Nat) : Nat := if calls < 100 then 100 else 100 - 100 * misses / calls

/-- The evaluation of a feeder's condition (R87). -/
def evaluate (threshold : Nat) (x : Feeder) : Feeder :=
  let v := conditionOf x.calls x.misses
  { x with condition := v, degraded := if x.calls < 100 then false else decide (v < threshold) }

/-- Whether the consecutive-miss limit fails a feeder (R86). -/
def limitFails (limit : Nat) (x : Feeder) : Bool :=
  limit != 0 && limit ≤ x.consecutive && (x.state == .ready || x.state == .low || x.state == .empty)

/-- A FED or DOUBLE concluded at a feeder: one call, consecutive misses 0, a double counted, and the condition (R80, R81, R83, R87). -/
def countFeed (f : Nat) (double : Bool) (s : State) : State :=
  let x := feederAt s f
  setFeeder s f
    (evaluate s.iu.threshold { x with calls := bump x.calls, doubles := if double then bump x.doubles else x.doubles, consecutive := 0 })

/-- A miss concluded at a feeder, by a report or a feed deadline: the counts, the limit with FEEDER_FAILED, and the condition
(R82, R84, R86, R87). The pitch is the report's resolved pitch, or the current one at a deadline. -/
def countMiss (f : Nat) (at_ : Pitch) (id : Option PieceId) (s : State) : State :=
  let x := feederAt s f
  let y := { x with calls := bump x.calls, misses := bump x.misses, consecutive := bumpMiss x.consecutive }
  let fails := limitFails s.iu.limit y
  let s1 := setFeeder s f (evaluate s.iu.threshold (if fails then { y with state := .failed } else y))
  if fails then raise .feederFailed (some (placeAt s f).addr) (some at_) id s1 else s1

/-- A feeder after RESTART: FAILED stays, every other takes its state by the active map and its level; consecutive misses 0 (R90). -/
def restartFeeder (enabled : Bool) (x : Feeder) : Feeder :=
  { x with
    consecutive := 0
    state := if x.state = .failed then .failed else if enabled then levelState x.level else .offline }

/-- The feeders after RESTART (R90). -/
def restartFeeders : List Nat → State → State
  | [], s => s
  | f :: fs, s => restartFeeders fs (setFeeder s f (restartFeeder (tget MapSlot.off s.iu.active f).enabled (feederAt s f)))

/-- Every feeder's degraded flag against a new threshold, the condition value as it stands (R68). -/
def reevaluateAll (threshold : Nat) : List Nat → State → State
  | [], s => s
  | f :: fs, s =>
    let x := feederAt s f
    reevaluateAll threshold fs (setFeeder s f { x with degraded := decide (x.condition < threshold) })

end Sys2Proof.Machine
end

