-- ==== Sys2Proof/Machine/Descriptors.lean ====
section
/-! DEFINITION. The descriptor store: lookup (R5-R8), claim (R10), exit state (R12), freeing (R13), loading (R14-R16) and retiring (R17). -/

namespace Sys2Proof.Machine

/-- Whether an enabled window's range holds an ID (R3, R5). -/
def windowHolds (w : Window) (id : PieceId) : Bool :=
  w.enabled && w.base.toNat ≤ id.toNat && id.toNat < w.base.toNat + 2 ^ w.exp

/-- The selected window: the first enabled one, W0 to W3, whose range holds the ID (R5). -/
def selectWindow (s : State) (id : PieceId) : Option (Nat × Window) :=
  ((List.range Config.windows).map (fun i => (i, tget Window.off s.ds.windows i))).find? (fun e => windowHolds e.2 id)

/-- What the window and map stage of a lookup reaches (R5-R7). -/
inductive Reach where
  | noWindow
  | slotRange (window : Nat)
  | mapRange (window : Nat)
  | mapInvalid (window index : Nat)
  | slot (window : Nat) (index : Option Nat) (n : Nat)
  deriving DecidableEq, Repr

/-- The window and map stage of a lookup (R5, R6, R7). -/
def reach (s : State) (id : PieceId) : Reach :=
  match selectWindow s id with
  | none => .noWindow
  | some (i, w) =>
    let n := w.start + (id.toNat - w.base.toNat)
    match w.mode with
    | .direct => if n < Config.descriptorSlots then .slot i none n else .slotRange i
    | .mapped =>
      if n < Config.mapEntries then
        let e := tget MapEntry.off s.ds.map n
        if e.valid then .slot i (some n) e.slot else .mapInvalid i n
      else .mapRange i

/-- The result of a lookup (R5-R8). -/
inductive Lookup where
  | found (slot : Nat) (d : Descriptor)
  | noWindow | slotRange | mapRange | mapInvalid | slotFree | otherId
  deriving DecidableEq, Repr

/-- The slot check of R8 on what the first stage reached. -/
def slotCheck (s : State) (id : PieceId) : Reach → Lookup
  | .noWindow => .noWindow
  | .slotRange _ => .slotRange
  | .mapRange _ => .mapRange
  | .mapInvalid _ _ => .mapInvalid
  | .slot _ _ n =>
    match descAt s n with
    | none => .slotFree
    | some d => if d.id = id then .found n d else .otherId

/-- A lookup (R5 to R8). -/
def lookup (s : State) (id : PieceId) : Lookup := slotCheck s id (reach s id)

/-- What a claim returns to the collation unit (R10). -/
inductive Claim where
  | slot (n sheets : Nat)
  | fault (f : PieceFault)
  deriving DecidableEq, Repr

/-- A claim (R10): the descriptor store after it, and what is returned. -/
def claim (id : PieceId) (s : State) : State × Claim :=
  match lookup s id with
  | .found n d =>
    match d.state with
    | .loaded => (setDesc s n (some { d with state := .inTrack }), .slot n d.sheets)
    | .diverted =>
      if d.reprint < 3 then (setDesc s n (some { d with state := .inTrack, reprint := d.reprint + 1 }), .slot n d.sheets)
      else (s, .fault .reprintLimit)
    | .inTrack => (s, .fault .duplicate)
    | .sorted => (s, .fault .duplicate)
  | _ => (s, .fault .noDescriptor)

/-- The state a carried descriptor takes when its piece leaves (R12). -/
def exitState : Outcome → DescState
  | .sorted => .sorted
  | _ => .diverted

/-- The exit state applied to the carried slot (R12). -/
def exitDescriptor (slot : Option Nat) (o : Outcome) (s : State) : State :=
  match slot with
  | some n =>
    match descAt s n with
    | some d => setDesc s n (some { d with state := exitState o })
    | none => s
  | none => s

/-- The freeing of a slot when its SORTED completion entry is drained (R13). -/
def freeDrained (e : Entry) (s : State) : State :=
  match e.outcome, e.slot with
  | .sorted, some n =>
    match descAt s n with
    | some d => if d.state = .sorted ∧ e.id = some d.id then setDesc s n none else s
    | none => s
  | _, _ => s

/-- Why a record of LOAD DESCRIPTORS is refused (R14, R15). -/
inductive LoadRefusal where
  | badArgument | slotBusy | notFound (lookup : Nat)
  deriving DecidableEq, Repr

/-- The descriptor a record makes in a slot, with a state and a reprint count (R15). -/
def recordDescriptor (r : DescriptorRecord) (state : DescState) (reprint : Nat) : Descriptor :=
  ⟨state, r.id, r.sheets.toNat, r.selection, r.envClass, r.key.toNat, if r.priority then .priority else .standard, reprint⟩

/-- The slot check of a load (R15). -/
def loadSlot (r : DescriptorRecord) (n : Nat) (s : State) : Except LoadRefusal State :=
  match descAt s n with
  | none => .ok (setDesc s n (some (recordDescriptor r .loaded 0)))
  | some d =>
    if d.id = r.id ∧ d.state = .loaded then .ok (setDesc s n (some (recordDescriptor r .loaded 0)))
    else if d.id = r.id ∧ d.state = .diverted then .ok (setDesc s n (some (recordDescriptor r .diverted d.reprint)))
    else .error .slotBusy

/-- The field check of R14. -/
def recordFieldsOk (r : DescriptorRecord) : Bool :=
  r.id != Config.noRead && 1 ≤ r.sheets.toNat && r.sheets.toNat ≤ Config.maxSheets && r.key.toNat ≤ Config.maxKey

/-- One record of a batch: field check, lookup, slot check (R14, R15). The lookup codes are those of R185. -/
def loadRecord (r : DescriptorRecord) (s : State) : Except LoadRefusal State :=
  if recordFieldsOk r then
    match reach s r.id with
    | .noWindow => .error (.notFound 1)
    | .slotRange _ => .error (.notFound 2)
    | .mapRange _ => .error (.notFound 3)
    | .mapInvalid _ _ => .error (.notFound 4)
    | .slot _ _ n => loadSlot r n s
  else .error .badArgument

/-- A batch: it stops at its first refused record, whose index and reason it gives (R16). -/
def loadBatch : List DescriptorRecord → Nat → State → State × Option (Nat × LoadRefusal)
  | [], _, s => (s, none)
  | r :: rs, j, s =>
    match loadRecord r s with
    | .ok s' => loadBatch rs (j + 1) s'
    | .error e => (s, some (j, e))

/-- Whether RETIRE frees a slot: LOADED or DIVERTED (R17). -/
def retirable : Option Descriptor → Bool
  | some d => d.state == .loaded || d.state == .diverted
  | none => false

/-- RESTART's effect on one slot (R21). -/
def restartDescriptor (d : Descriptor) : Option Descriptor :=
  match d.state with
  | .inTrack => some { d with state := .diverted }
  | .sorted => none
  | _ => some d

/-- The descriptor store after RESTART (R21). -/
def restartSlots (t : Table (Option Descriptor)) : Table (Option Descriptor) :=
  (t.map (fun e => (e.1, e.2.bind restartDescriptor))).filter (fun e => e.2.isSome)

end Sys2Proof.Machine
end

