-- ==== Sys2Proof/Machine/Bins.lean ====
section
/-! DEFINITION. The bin unit: trays opened and closed, the acceptance test, cascade and reservation, landings, and the tray log (R136-R149). -/

namespace Sys2Proof.Machine

/-! ## Opening and closing a tray -/

/-- The tray sequence after one is used: from 65,535 to 1 (R137). -/
def nextTraySeq (q : BitVec 16) : BitVec 16 := if q = 65535#16 then 1#16 else q + 1#16

/-- A new empty tray (R137); it opens contaminated when the bin carried a contamination (R146). -/
def newTray (s : State) (contaminated : Bool) : Tray :=
  ⟨s.rc.run, s.bu.nextSeq, s.su.generation, 0, 0, 0, 0, none, none, 0#8, contaminated, none⟩

/-- A bin takes a new empty current tray with the next tray sequence (R137). -/
def openTray (b : Nat) (s : State) : State :=
  let x := binAt s b
  let s' := setBin s b { x with state := .opened, tray := some (newTray s x.carried), owed := false, held := none, carried := false }
  withBu s' { s'.bu with nextSeq := nextTraySeq s.bu.nextSeq }

/-- A tray is empty when its reserved count is 0 and it is not contaminated (R136). -/
def trayEmpty (t : Tray) : Bool := t.reserved == 0 && !t.contaminated

/-- The TRAY_CHANGE of a bin with its tray's reserved count, stamped with the current pitch (R142). -/
def trayChangeFrame (s : State) (b : Nat) (reserved : Nat) : Frame :=
  ⟨s.tu.layout.sorter.addr, .trayChange, stampNow s, be1 b ++ be2 reserved⟩

/-- The TRAY_CHANGE of a bin just closed: queued, or owed with COMMAND_QUEUE_FULL (R142). -/
def sendTrayChange (b : Nat) (reserved : Nat) (s : State) : State :=
  match sendCommand s (trayChangeFrame s b reserved) with
  | some s' => s'
  | none => raise .commandQueueFull none none none (setBin s b { binAt s b with owed := true })

/-- A tray is closed: the bin goes FULL with the close reason, and its TRAY_CHANGE is queued or owed (R142). -/
def closeTray (b : Nat) (why : CloseReason) (s : State) : State :=
  match (binAt s b).tray with
  | some t =>
    sendTrayChange b t.reserved (setBin s b { binAt s b with state := .full, tray := some { t with reason := some why } })
  | none => s

/-- Whether a bin is OPEN with a tray that is not empty (R129, R149). -/
def openNonEmpty (x : Bin) : Bool :=
  x.state == .opened && (match x.tray with | some t => !trayEmpty t | none => false)

/-- Every bin that is OPEN with a non-empty tray is closed, B0 to B15 and then BO: the group break (R129) and the run-end close (R149). -/
def closeNonEmpty (why : CloseReason) : List Nat → State → State
  | [], s => s
  | b :: bs, s => closeNonEmpty why bs (if openNonEmpty (binAt s b) then closeTray b why s else s)

/-- The owed TRAY_CHANGE frames tried again, B0 to B15 and then BO: each that finds the command part full stays owed and sets no flag (R142). -/
def retryOwed : List Nat → State → State
  | [], s => s
  | b :: bs, s =>
    let x := binAt s b
    match x.owed, x.tray with
    | true, some t =>
      match sendCommand s (trayChangeFrame s b t.reserved) with
      | some s' => retryOwed bs (setBin s' b { x with owed := false })
      | none => retryOwed bs s
    | _, _ => retryOwed bs s

/-- Every OPEN bin with an empty tray gives that tray the current generation (R128, step 4). -/
def renewGenerations : List Nat → State → State
  | [], s => s
  | b :: bs, s =>
    let x := binAt s b
    match x.state, x.tray with
    | .opened, some t =>
      renewGenerations bs (if trayEmpty t then setBin s b { x with tray := some { t with generation := s.su.generation } } else s)
    | _, _ => renewGenerations bs s

/-- A bin is settled when it is DISABLED, or OPEN with an empty current tray (R149). -/
def binSettled (x : Bin) : Bool :=
  x.state == .disabled || (x.state == .opened && (match x.tray with | some t => trayEmpty t | none => false))

/-- Whether every bin of B0-B15 and BO is settled (R156). -/
def allSettled (s : State) : Bool := allBins.all (fun b => binSettled (binAt s b))

/-! ## Reservations -/

/-- The current tray of a bin when it is OPEN or FULL and the tray has the sequence asked for (R145, R147). -/
def currentTray (s : State) (b : Nat) (seq : BitVec 16) : Option Tray :=
  match (binAt s b).state, (binAt s b).tray with
  | .opened, some t => if t.seq = seq then some t else none
  | .full, some t => if t.seq = seq then some t else none
  | _, _ => none

/-- The state with the current tray of a bin changed. -/
def setTray (s : State) (b : Nat) (t : Tray) : State := setBin s b { binAt s b with tray := some t }

/-- A piece on path SORT releases its reservation: the reserved count falls by 1 and the reserved mass by its mass, if its tray is
still current (R147). -/
def releaseReservation (path : Path) (mass : Option Nat) (s : State) : State :=
  match path with
  | .sort b seq =>
    match currentTray s b seq with
    | some t => setTray s b { t with reserved := t.reserved - 1, reservedMass := t.reservedMass - mass.getD 0 }
    | none => s
  | _ => s

/-- The BIN of a piece: to the sorter, stamped with the pitch at which the piece stands there (R109, R141). -/
def binFrame (s : State) (p : Piece) (code : Nat) (supersede : Bool) : Frame :=
  ⟨s.tu.layout.sorter.addr, .bin, stampOf (pitchAt p.entry s.tu.layout.sorter.pos), be1 code ++ flagByte supersede⟩

/-- What one bin of the cascade does with a piece: takes it, passes it on, or fails because the BIN found no entry. -/
inductive Offer where
  | placed (s : State)
  | passed (s : State)
  | failed (s : State)

/-- A piece reserved into the tray of a bin, its BIN queued and its path set (R141); a solo piece's tray is closed after it (R139). -/
def reserveInto (k : Nat) (p : Piece) (b : Nat) (t : Tray) (solo : Bool) (s : State) : Offer :=
  match sendCommand s (binFrame s p b false) with
  | none => .failed (raise .commandQueueFull (some s.tu.layout.sorter.addr) (some s.tu.pitch) p.id s)
  | some s1 =>
    let s2 := setPiece (setTray s1 b { t with reserved := t.reserved + 1, reservedMass := t.reservedMass + p.mass.getD 0 }) k
      (some { p with path := .sort b t.seq })
    .placed (if solo then closeTray b .solo s2 else s2)

/-- The acceptance test of one bin (R139); a bin that is not OPEN is unavailable. -/
def offerBin (k : Nat) (p : Piece) (b : Nat) (s : State) : Offer :=
  match (binAt s b).state, (binAt s b).limits, (binAt s b).tray with
  | .opened, some l, some t =>
    if t.reserved = 0 ∧ l.maxMass < p.mass.getD 0 then reserveInto k p b t true s
    else if t.reserved + 1 ≤ l.maxCount ∧ t.reservedMass + p.mass.getD 0 ≤ l.maxMass then reserveInto k p b t false s
    else .passed (closeTray b (if l.maxCount < t.reserved + 1 then .countLimit else .massLimit) s)
  | _, _, _ => .passed s

/-- The bins the cascade tries: the target, BO, and the bin of a RESIDUAL fallback, each once (R140). -/
def cascadeBins (target : Nat) (fallback : Action) : List Nat :=
  let first := if target = Config.overflowBin then [target] else [target, Config.overflowBin]
  match fallback with
  | .bin f => if f ∈ first then first else first ++ [f]
  | .reject => first

/-- The cascade (R140): the state after it, and whether the piece was placed. A BIN that cannot be queued ends it (R141). -/
def cascade (k : Nat) (p : Piece) : List Nat → State → State × Bool
  | [], s => (s, false)
  | b :: bs, s =>
    match offerBin k p b s with
    | .placed s' => (s', true)
    | .passed s' => cascade k p bs s'
    | .failed s' => (s', false)

/-! ## Landings (R145, R146) -/

/-- A tray with one landing counted (R145). -/
def countLanding (t : Tray) (p : Piece) : Tray :=
  { t with
    landed := t.landed + 1
    landedMass := t.landedMass + p.mass.getD 0
    firstId := if t.landed = 0 then p.id else t.firstId
    lastId := p.id
    bands := match p.band with | some j => t.bands ||| (1#8 <<< j) | none => t.bands }

/-- A landing in the commanded bin: counted in its current tray, or LATE_LANDING (R145). The second component is the entry's tray sequence. -/
def landInTray (p : Piece) (b : Nat) (seq : BitVec 16) (at_ : Pitch) (s : State) : State × Option (BitVec 16) :=
  match currentTray s b seq with
  | some t => (setTray s b (countLanding t p), some seq)
  | none => (raise .lateLanding (some s.tu.layout.sorter.addr) (some at_) p.id s, none)

/-- A MISSORTED landing contaminates the bin it fell into (R146). -/
def contaminate (p : Piece) (b : Nat) (at_ : Pitch) (s : State) : State :=
  let x := binAt s b
  let s' := raise .contaminatedTray (some s.tu.layout.sorter.addr) (some at_) p.id s
  match x.state, x.tray with
  | .opened, some t => setBin s' b { x with tray := some { t with contaminated := true } }
  | .full, some t => setBin s' b { x with tray := some { t with contaminated := true } }
  | .closePending, _ => setBin s' b { x with carried := true }
  | _, _ => s'

/-- BR's two counts take a landing there (R136). -/
def landInReject (p : Piece) (s : State) : State :=
  withBu s { s.bu with brCount := s.bu.brCount + 1, brMass := s.bu.brMass + p.mass.getD 0 }

/-! ## The tray log (R143, R144, R148) -/

/-- A tray record finalised from the tray's own fields (R144). -/
def finalise (b : Nat) (x : Bin) (t : Tray) : TrayRec :=
  ⟨t.run, t.seq, b, t.generation, t.reason, t.landed, t.landedMass, t.firstId, t.lastId, t.bands,
   match x.limits with | some l => decide (t.landed < l.minCount) | none => false, t.contaminated⟩

/-- A record appended at the tail of the tray log. -/
def appendTrayRec (s : State) (r : TrayRec) : State := withBu s { s.bu with log := s.bu.log ++ [r] }

/-- Whether the tray log has room (R143). -/
def trayLogRoom (s : State) : Bool := s.bu.log.length < Config.trayLog

/-- The exchange of a FULL bin whose TRAY_CHANGE is not owed (R143). -/
def exchangeTray (b : Nat) (t : Tray) (s : State) : State :=
  let x := binAt s b
  if trayLogRoom s then openTray b (appendTrayRec s (finalise b x t))
  else
    raise .trayLogWait (some s.tu.layout.sorter.addr) none none
      (setBin s b { x with state := .closePending, tray := none, held := some (finalise b x t) })

/-- The lowest-numbered CLOSE_PENDING bin and its held record (R148). -/
def waitingBin (s : State) : Option (Nat × TrayRec) :=
  (allBins.filterMap (fun b =>
    match (binAt s b).state, (binAt s b).held with
    | .closePending, some r => some (b, r)
    | _, _ => none)).head?

/-- BU after RESTART for one bin: a bin with limits becomes OPEN with a new tray, its held record, owed change and carried mark discarded (R151). -/
def restartBins : List Nat → State → State
  | [], s => s
  | b :: bs, s =>
    let x := binAt s b
    match x.limits with
    | some l => restartBins bs (openTray b (setBin s b { Bin.off with limits := some l }))
    | none => restartBins bs (setBin s b .off)

/-- START RUN for the bins: each OPEN bin discards its tray and opens a new one (R137). -/
def startBins : List Nat → State → State
  | [], s => s
  | b :: bs, s => startBins bs (if (binAt s b).state = .opened then openTray b s else s)

end Sys2Proof.Machine
end

