-- ==== Sys2Proof/Machine/Sort.lean ====
section
/-! DEFINITION. The sort unit: element matching (R119, R120), the sort decision (R123) and the copy of the plan (R128, R129, R132). -/

namespace Sys2Proof.Machine

/-- An element's key test on a sort key (R119). -/
def keyHolds (t : KeyTest) (key : Nat) : Bool :=
  match t with
  | .range low high => low ≤ key && key ≤ high
  | .leading k value => key / 10 ^ (9 - k) == value
  | .pair a b => key == a || key == b

/-- Whether a service condition holds (R120). -/
def serviceHolds (c : ServiceCond) (x : Service) : Bool :=
  match c with
  | .any => true
  | .standard => x == .standard
  | .priority => x == .priority

/-- Whether an element matches a key, band and service (R120). -/
def elementMatches (key band : Nat) (service : Service) : Element → Option Action
  | .disabled => none
  | .enabled t bands c a => if keyHolds t key && bands.getLsbD band && serviceHolds c service then some a else none

/-- The first matching element of a bank, element 0 to 63, with its action (R123). -/
def firstMatch (bank : Table Element) (key band : Nat) (service : Service) : Option (Nat × Action) :=
  ((List.range Config.sortElements).filterMap
    (fun n => (elementMatches key band service (tget Element.disabled bank n)).map (fun a => (n, a)))).head?

/-- The result of the sort decision on a bank: the first match's action, or the fallback (R123). -/
def decision (s : State) (bank : Table Element) (key band : Nat) (service : Service) : Action :=
  match firstMatch bank key band service with
  | some (_, a) => a
  | none => s.su.fallback

/-- The decision for a piece, on the active bank, by its descriptor's key and service and its own band (R123).
A piece that reached the decision has all three (R120); one without them, which no run makes, is decided by the fallback (log 20). -/
def pieceDecision (s : State) (p : Piece) : Action :=
  match p.slot.bind (descAt s), p.band with
  | some d, some band => decision s s.su.active d.key band d.service
  | _, _ => s.su.fallback

/-- The copy of the sort plan, one act: the bank, the generation, the group break, and the generation of empty trays (R128, R129, R132). -/
def planCopy (s : State) : State :=
  renewGenerations allBins
    (closeNonEmpty .groupBreak allBins
      (withSu s { s.su with active := s.su.staged, generation := s.su.generation + 1#16, commitPending := false }))

/-- The copy made if a commit is pending when the run becomes IDLE (R127). -/
def planCopyIfPending (s : State) : State := if s.su.commitPending then planCopy s else s

end Sys2Proof.Machine
end

