-- ==== Sys2Proof/Machine/Drain.lean ====
section
/-! DEFINITION. The end of DRAINING: the run-end close (R149) and the drain end (R156). -/

namespace Sys2Proof.Machine

/-- The run-end close: every OPEN bin with a non-empty tray is closed RUN_END (R149). -/
def runEndClose (s : State) : State := closeNonEmpty .runEnd allBins s

/-- The drain end: IDLE, RUN_COMPLETE, and the pending copies, in that order (R156; DESIGN CHOICE, log 34). -/
def drainEnd (s : State) : State :=
  planCopyIfPending
    (mapCopyIfPending
      (raise .runComplete none (some s.tu.pitch) none (withRc s { s.rc with state := .idle })))

/-- The test for the drain end, in DRAINING (R156). -/
def drainTest (s : State) : State :=
  if s.rc.state = .draining ∧ inFlight s = 0 ∧ allSettled s = true then drainEnd s else s

/-- The number of pieces in flight has changed, or the run has entered DRAINING: in DRAINING with none in flight the run-end close is
made (R149), and the drain end is tested (R156). -/
def flightChanged (s : State) : State :=
  if s.rc.state = .draining ∧ inFlight s = 0 then drainTest (runEndClose s) else s

end Sys2Proof.Machine
end

