-- ==== Sys2Proof/Machine/Verify.lean ====
section
/-! DEFINITION. The verification and diversion unit: recording faults (R104, R105), the path rule (R106-R109), the verify read (R110-R114). -/

namespace Sys2Proof.Machine

/-- The ID field of a DIVERT: the piece's ID or the no-read marker (R108). -/
def divertFrame (s : State) (p : Piece) : Frame :=
  ⟨s.tu.layout.gate.addr, .divert, stampOf (pitchAt p.entry s.tu.layout.gate.pos), idBytes p.id⟩

/-- A piece on path SORT is sent to BR by a superseding BIN, or stays where it was sent (R107, R109). -/
def supersede (k : Nat) (p : Piece) (s : State) : State :=
  match sendCommand s (binFrame s p Config.rejectBinCode true) with
  | some s' => releaseReservation p.path p.mass (setPiece s' k (some { p with path := .reject }))
  | none => raise .commandQueueFull (some s.tu.layout.sorter.addr) (some s.tu.pitch) p.id s

/-- The path rule when the gate cannot be used: by the piece's path (R107). -/
def sorterBranch (k : Nat) (p : Piece) (s : State) : State :=
  match p.path with
  | .undecided => setPiece s k (some { p with path := .reject })
  | .sort _ _ =>
    if (s.tu.timing.ls : Int) ≤ leadTo s (pitchAt p.entry s.tu.layout.sorter.pos) then supersede k p s else s
  | .gate => s
  | .reject => s

/-- The path rule on a piece at the current pitch: DIVERT while the gate lead is met, otherwise the sorter branch (R106, R107, R108). -/
def pathRule (k : Nat) (p : Piece) (s : State) : State :=
  if (s.tu.timing.lg : Int) ≤ leadTo s (pitchAt p.entry s.tu.layout.gate.pos) then
    match sendCommand s (divertFrame s p) with
    | some s' => releaseReservation p.path p.mass (setPiece s' k (some { p with path := .gate }))
    | none => sorterBranch k p (raise .commandQueueFull (some s.tu.layout.gate.addr) (some s.tu.pitch) p.id s)
  else sorterBranch k p s

/-- A fault in a piece's fault fields: the first fault if it has none, otherwise the further-faults flag (R63, R104). -/
def addFault (f : PieceFault) (p : Piece) : Piece :=
  match p.fault with
  | none => { p with fault := some f }
  | some _ => { p with further := true }

/-- A fault recorded with the path rule held back, as at a release (R105) and at an exit (R63). -/
def markFault (k : Nat) (f : PieceFault) (s : State) : State :=
  match pieceAt s k with
  | some p => setPiece s k (some (addFault f p))
  | none => s

/-- A fault recorded in a piece on the track; a first fault brings on the path rule at once (R104). -/
def recordFault (k : Nat) (f : PieceFault) (s : State) : State :=
  match pieceAt s k with
  | some p =>
    match p.fault with
    | none => pathRule k (addFault f p) (setPiece s k (some (addFault f p)))
    | some _ => setPiece s k (some (addFault f p))
  | none => s

/-- The path rule at step 4 of a release, on a piece that carries a fault (R52, R105). -/
def pathAtRelease (k : Nat) (s : State) : State :=
  match pieceAt s k with
  | some p => if p.fault.isSome then pathRule k p s else s
  | none => s

/-- The verify status of a piece changed. -/
def setVerify (k : Nat) (v : Verify) (s : State) : State :=
  match pieceAt s k with
  | some p => setPiece s k (some { p with verify := v })
  | none => s

/-- The sort decision of a verified good piece and what follows it as one act: the fault UNSORTABLE, or the cascade and the fault
NO_OUTPUT when no bin takes it (R123-R125, R140, R141). -/
def sortPiece (k : Nat) (s : State) : State :=
  match pieceAt s k with
  | some p =>
    match pieceDecision s p with
    | .reject => recordFault k .unsortable s
    | .bin b =>
      match cascade k p (cascadeBins b s.su.fallback) s with
      | (s', true) => s'
      | (s', false) => recordFault k .noOutput s'
  | none => s

/-- The slip test's faults: VERIFY_MISMATCH on every listed piece (R114). -/
def faultSlips : List Nat → State → State
  | [], s => s
  | k :: ks, s => faultSlips ks (recordFault k .verifyMismatch s)

/-- The slots of the other pieces on the track that carry a read ID, oldest first (R114, log 17). -/
def slipSlots (s : State) (k : Nat) (id : PieceId) : List Nat :=
  ((onTrack s).filter (fun e => e.1 != k && e.2.id == some id)).map Prod.fst

/-- A READ taken for a PENDING piece: a match (R111), a no-read (R112) or a mismatch with its slip test (R113, R114). -/
def takeRead (k : Nat) (p : Piece) (id : PieceId) (s : State) : State :=
  if id = Config.noRead then
    let s1 := setVerify k .failed s
    if p.id.isSome then recordFault k .verifyNoread s1 else s1
  else if p.id = some id then
    let s1 := setVerify k .matched s
    if p.fault.isNone then sortPiece k s1 else s1
  else
    let s1 := setVerify k .failed s
    let s2 := if p.id.isSome then recordFault k .verifyMismatch s1 else s1
    faultSlips (slipSlots s k id) s2

end Sys2Proof.Machine
end

