-- ==== Sys2Proof/Machine/Planner.lean ====
section
/-! DEFINITION. The piece planner's computation at release (R95-R101). -/

namespace Sys2Proof.Machine

/-- The sum of a field over the inserts of a set (R97, R98). -/
def sumOver (f : InsertSpec → Nat) (s : State) (inserts : List Nat) : Nat :=
  (inserts.map (fun i => f (tget InsertSpec.off s.iu.inserts i))).foldl (· + ·) 0

/-- The fill caliper F = p n c_s + sum of c_i, in micrometres (R97). -/
def fillOf (s : State) (held : Nat) (inserts : List Nat) : Nat :=
  s.pp.panels * held * s.pp.sheetCaliper + sumOver InsertSpec.caliper s inserts

/-- The mass M = m_e + n m_s + sum of m_i in milligrams, rounded up to whole decigrams: D = (M + 99) / 100 (R98). -/
def massOf (s : State) (c : EnvClass) (held : Nat) (inserts : List Nat) : Nat :=
  (c.mass + held * s.pp.sheetMass + sumOver InsertSpec.mass s inserts + 99) / 100

/-- The band: the least j whose limit is at least D, absent when D exceeds the last limit (R99). -/
def bandOf (d : Nat) : List Nat → Option Nat
  | [] => none
  | l :: ls => if d ≤ l then some 0 else (bandOf d ls).map (· + 1)

/-- Fill caliper, mass and band written to a record, computed with a set of inserts (R97-R99). -/
def computePiece (s : State) (c : EnvClass) (inserts : List Nat) (p : Piece) : Piece :=
  let d := massOf s c p.held inserts
  { p with fill := some (fillOf s p.held inserts), mass := some d, band := bandOf d s.pp.bands }

/-- The fill test and the band test of a piece that reached the planner without a fault (R97, R99). -/
def checkPiece (c : EnvClass) (p : Piece) : Piece :=
  let p1 := if c.fill < p.fill.getD 0 then addFault .overstuffed p else p
  if p1.band.isNone then addFault .overweight p1 else p1

/-- The insert unit's resolution: the planned insert list of a piece without a fault, and INSERT_UNAVAILABLE (R75-R77). -/
def resolveInserts (s : State) (p : Piece) : Piece :=
  match p.fault, p.slot.bind (descAt s) with
  | none, some d =>
    let planned := (insertsOf (tget 0#12 s.iu.selection d.selection.toNat)).map (planEntry s)
    let p1 := { p with planned := planned }
    if planned.any (fun e => e.primary.isNone) then addFault .insertUnavailable p1 else p1
  | _, _ => p

/-- The planner's act on a record at release; `collated` is whether the piece carried a fault from collation (R95, R96, R100). -/
def planPiece (s : State) (collated : Bool) (p : Piece) : Piece :=
  match p.slot.bind (descAt s) with
  | none => p
  | some d =>
    let c := tget EnvClass.off s.pp.classes d.envClass.toNat
    let p1 := { p with envClass := some d.envClass }
    if !c.enabled then addFault .envelopeClass p1
    else if collated then computePiece s c [] p1
    else if p.fault.isSome then p1
    else checkPiece c (computePiece s c (p.planned.map Planned.insert) p1)

end Sys2Proof.Machine
end

