-- ==== Sys2Proof/Machine/Track.lean ====
section
/-! DEFINITION. The track unit: report resolution (R55-R60), leaving the track (R61-R64), release (R51-R54), and removal of sets (R42, R169). -/

namespace Sys2Proof.Machine

/-! ## Sources (R46, R55) -/

/-- The present feeder whose address a source is; the lowest-numbered of two that share one (R55, log 10). -/
def feederOf (s : State) (src : Addr) : Option Nat :=
  (List.range Config.feeders).find?
    (fun f => (placeAt s f).present && (placeAt s f).addr == src && src != Config.unassigned)

/-- Whether an address is that of a role of the line: a role is part of the line when its address is not 63 (R46). -/
def isRole (s : State) (src : Addr) : Bool :=
  let l := s.tu.layout
  src != Config.unassigned &&
    (src == l.cutter || src == l.sheetReader || src == l.accumulator || src == l.lineComputer || src == l.folder.addr
      || src == l.verify.addr || src == l.gate.addr || src == l.sorter.addr || (feederOf s src).isSome)

/-- Whether a source is a role of the line standing at the given address (R46, R55). -/
def isAt (src addr : Addr) : Bool := src == addr && src != Config.unassigned

/-- A report no rule can take, its capture holding the source (R55, R173, R181). -/
def dropUnexpected (src : Addr) (s : State) : State := raise .unexpectedReport (some src) none none s

/-- A report whose source does not send its kind: UNEXPECTED_REPORT from a role of the line, otherwise UNKNOWN_SOURCE (R23, R55). -/
def dropSource (src : Addr) (s : State) : State :=
  if isRole s src then dropUnexpected src s else raise .unknownSource (some src) none none s

/-! ## Resolution (R56-R59) -/

/-- What the checks of R56 to R59 make of a report. -/
inductive Resolved where
  | dropped (s : State)
  | absent (at_ : Pitch)
  | applied (at_ : Pitch) (slot : Nat) (p : Piece)

/-- The record that stands in the slot of an entry pitch, when it has that entry pitch (R59). -/
def targetPiece (s : State) (e : Pitch) : Option Piece :=
  match pieceAt s (ringSlot e) with
  | some p => if p.entry = e then some p else none
  | none => none

/-- Resolution, staleness, lateness and presence, in this order, of a report from a station at position q (R56, R57, R58, R59).
In IDLE the late test is not made: what passes R57 is dropped by R59 (R60, log 29). -/
def resolveReport (src : Addr) (q : Nat) (st : Stamp) (s : State) : Resolved :=
  match resolveStamp s.tu.pitch st with
  | none => .dropped (raise .staleStamp (some src) none none s)
  | some P =>
    let age := pitchDiff s.tu.pitch P
    let target := P - BitVec.ofNat 32 q
    if (q : Int) + s.tu.timing.allowance + 8 < age then .dropped (raise .staleStamp (some src) (some P) none s)
    else if s.rc.state ≠ .idle ∧ (s.tu.timing.allowance : Int) < age then
      .dropped (raise .lateReport (some src) (some P) ((targetPiece s target).bind Piece.id) s)
    else
      match targetPiece s target with
      | some p => .applied P (ringSlot target) p
      | none => .absent P

/-- A FEED, LANDED or no-read READ that finds no piece (R59). -/
def dropAbsent (src : Addr) (at_ : Pitch) (s : State) : State := raise .unexpectedReport (some src) (some at_) none s

/-! ## Leaving the track (R62-R64) -/

/-- The completion entry written at the tail with its run counters, and the exit state of the carried descriptor (R12, R168, R171). -/
def writeEntry (e : Entry) (s : State) : State :=
  exitDescriptor e.slot e.outcome
    (tally (withCl s { s.cl with log := s.cl.log ++ [e] })
      (fun c => { c with
        exited := c.exited + 1
        sorted := if e.outcome = .sorted then c.sorted + 1 else c.sorted
        diverted := if e.outcome = .sorted then c.diverted else c.diverted + 1 }))

/-- The reprint count of the carried descriptor as it stands (R168). -/
def reprintOf (s : State) (slot : Option Nat) : Option Nat := (slot.bind (descAt s)).map Descriptor.reprint

/-- The outcome and exit fault of a landing, by the place and the piece's path (R64). -/
def landing (place : Place) (p : Piece) : Outcome × Option PieceFault :=
  match place, p.path with
  | .gate, .gate => (.divertedGate, none)
  | .gate, .reject => (.divertedGate, none)
  | .gate, _ => (.divertedGate, some .gateDivert)
  | .br, .gate => (.rejectedSorter, none)
  | .br, .reject => (.rejectedSorter, none)
  | .br, _ => (.rejectedSorter, some .sorterReject)
  | .bin b, .sort b' _ =>
    if b = b' then (if p.fault.isNone then .sorted else .missorted, none) else (.missorted, some .misrouted)
  | .bin _, _ => (.missorted, some .misrouted)

/-- An exit fault recorded in a leaving piece (R63). -/
def withExitFault (x : Option PieceFault) (p : Piece) : Piece :=
  match x with
  | some f => addFault f p
  | none => p

/-- The bin unit's account of a landing: the state, and the tray sequence the entry carries (R136, R145-R147). A landing that is both late
and MISSORTED raises LATE_LANDING first and CONTAMINATED_TRAY second (DESIGN CHOICE, log 32). -/
def accountLanding (place : Place) (o : Outcome) (p : Piece) (at_ : Pitch) (s : State) : State × Option (BitVec 16) :=
  match place with
  | .gate => (releaseReservation p.path p.mass s, none)
  | .br => (landInReject p (releaseReservation p.path p.mass s), none)
  | .bin b =>
    let r :=
      match p.path with
      | .sort b' t => if b = b' then landInTray p b t at_ s else (releaseReservation p.path p.mass s, none)
      | _ => (s, none)
    (if o = .missorted then contaminate p b at_ r.1 else r.1, r.2)

/-- The bin a completion entry carries: the place of the LANDED for SORTED and MISSORTED (R64, R168). -/
def entryBin (o : Outcome) (place : Place) : Option Nat :=
  match o, place with
  | .sorted, .bin b => some b
  | .missorted, .bin b => some b
  | _, _ => none

/-- The completion entry of a piece on the track (R168). -/
def pieceEntry (s : State) (o : Outcome) (bin : Option Nat) (tray : Option (BitVec 16)) (p : Piece) : Entry :=
  ⟨s.rc.run, some p.entry, p.id, p.slot, o, bin, tray, p.fault, p.further, p.held, p.mass, reprintOf s p.slot⟩

/-- A piece leaves on a LANDED applied to it, as one act (R62, R64). -/
def leaveLanded (place : Place) (at_ : Pitch) (k : Nat) (p : Piece) (s : State) : State :=
  let o := (landing place p).1
  let p1 := withExitFault (landing place p).2 p
  let r := accountLanding place o p1 at_ s
  flightChanged (writeEntry (pieceEntry s o (entryBin o place) r.2 p1) (setPiece r.1 k none))

/-- A piece leaves without a landing: LOST at its exit deadline, or REMOVED (R62, R63, R147). -/
def leaveWithout (o : Outcome) (f : PieceFault) (k : Nat) (s : State) : State :=
  match pieceAt s k with
  | some p =>
    let p1 := addFault f p
    flightChanged
      (writeEntry (pieceEntry s o none none p1) (setPiece (releaseReservation p1.path p1.mass s) k none))
  | none => s

/-- Whether a piece's exit deadline has passed (R61). -/
def exitPassed (s : State) (p : Piece) : Bool :=
  let q := if p.path = .gate then s.tu.layout.gate.pos else s.tu.layout.sorter.pos
  decide ((q : Int) + s.tu.timing.allowance < pitchDiff s.tu.pitch p.entry)

/-- The exit deadline of the piece in a slot: it leaves LOST if the deadline has passed (R61). -/
def exitDeadlineAt (k : Nat) (s : State) : State :=
  match pieceAt s k with
  | some p => if exitPassed s p then leaveWithout .lost .lost k s else s
  | none => s

/-- Whether a piece's verify deadline has passed (R115). -/
def verifyPassed (s : State) (p : Piece) : Bool :=
  p.verify == .pending && decide ((s.tu.layout.verify.pos : Int) + s.tu.timing.allowance < pitchDiff s.tu.pitch p.entry)

/-- The verify deadline of the piece in a slot (R115). -/
def verifyDeadlineAt (k : Nat) (s : State) : State :=
  match pieceAt s k with
  | some p =>
    if verifyPassed s p then
      if p.id.isSome then recordFault k .verifyNoread (setVerify k .failed s) else setVerify k .failed s
    else s
  | none => s

/-! ## Sets that leave from collation (R42, R169) -/

/-- A set faulted REMOVED: its first fault if it had none, otherwise a further fault (R42). -/
def setFault (f : PieceFault) (x : SetRec) : SetRec :=
  match x.fault with
  | none => { x with fault := some f }
  | some _ => { x with further := true }

/-- The completion entry of a set removed from collation (R169). -/
def setEntryOf (s : State) (x : SetRec) : Entry :=
  let y := setFault .removed x
  ⟨s.rc.run, none, y.id, y.slot, .removed, none, none, y.fault, y.further, y.held, none, reprintOf s y.slot⟩

/-- The sets of the collation unit in the order they leave: the release queue head to tail, then the open-record place (R42). -/
def collatedSets (s : State) : List SetRec := s.cu.queue ++ s.cu.place.toList.map OpenRec.set

/-- Completion entries of removed sets, in order (R42, R169). -/
def writeRemovals : List SetRec → State → State
  | [], s => s
  | x :: xs, s => writeRemovals xs (writeEntry (setEntryOf s x) s)

/-- The collation unit gives up its sets (R42). -/
def removeSets (s : State) : State :=
  let sets := collatedSets s
  writeRemovals sets (withCu s { s.cu with place := none, queue := [] })

/-- Pieces in listed slots leave REMOVED, in the order listed (R160, R162). -/
def removePieces : List Nat → State → State
  | [], s => s
  | k :: ks, s => removePieces ks (leaveWithout .removed .removed k s)

/-! ## Release (R51-R54, R78, R79) -/

/-- The record a release creates from a set (R51). -/
def newPiece (e : Pitch) (x : SetRec) : Piece :=
  ⟨e, x.id, x.slot, x.held, none, [], none, none, none, x.fault, x.further, .pending, .undecided⟩

/-- The CALL of a planned insert to a feeder (R78, R82). -/
def callFrame (s : State) (p : Piece) (f i : Nat) : Frame :=
  ⟨(placeAt s f).addr, .call, stampOf (pitchAt p.entry (placeAt s f).pos), be1 i⟩

/-- The CALLs of a piece's entries in order: the state, the entries, and whether a CALL found the command part full (R78, R79). -/
def sendCalls (p : Piece) : List Planned → State → State × List Planned × Bool
  | [], s => (s, [], false)
  | e :: es, s =>
    match e.primary with
    | none => (s, e :: es, false)
    | some f =>
      match sendCommand s (callFrame s p f e.insert) with
      | some s' =>
        let r := sendCalls p es s'
        (r.1, { e with status := .called } :: r.2.1, r.2.2)
      | none => (raise .commandQueueFull (some (placeAt s f).addr) (some s.tu.pitch) p.id s, e :: es, true)

/-- The CALLs of a piece that still has no fault, and COMMAND_OVERFLOW (R78, R79). -/
def callPiece (k : Nat) (p : Piece) (s : State) : State :=
  if p.fault.isNone then
    let r := sendCalls p p.planned s
    let p1 := { p with planned := r.2.1 }
    setPiece r.1 k (some (if r.2.2 then addFault .commandOverflow p1 else p1))
  else setPiece s k (some p)

/-- Steps 2 and 3 of a release: a piece still in the slot leaves LOST (R54), the record is placed, and it is planned (R52). -/
def placeAndPlan (e : Pitch) (x : SetRec) (s : State) : State :=
  let k := ringSlot e
  let s1 := tally (setPiece (leaveWithout .lost .lost k s) k (some (newPiece e x))) (fun c => { c with released := c.released + 1 })
  callPiece k (planPiece s1 x.fault.isSome (resolveInserts s1 (newPiece e x))) s1

/-- Step 5 of a release: the head leaves the queue, and a COMPLETE_WAITING record moves to its tail (R36, R52). -/
def shiftQueue (s : State) : State :=
  match s.cu.place with
  | some r =>
    if r.waiting then withCu s { s.cu with place := none, queue := s.cu.queue.tail ++ [r.set] }
    else withCu s { s.cu with queue := s.cu.queue.tail }
  | none => withCu s { s.cu with queue := s.cu.queue.tail }

/-- The frame of a RELEASE (R52). -/
def releaseFrame (s : State) (e : Pitch) : Frame := ⟨s.tu.layout.accumulator, .release, stampOf e, []⟩

/-- The release of the head set, as one act (R52, R53). -/
def releaseHead (s : State) : State :=
  match s.cu.queue with
  | [] => s
  | x :: _ =>
    let e := pitchAt s.tu.pitch s.tu.timing.lr
    match sendCommand s (releaseFrame s e) with
    | none => raise .commandQueueFull none none none s
    | some s1 => cutterTest (shiftQueue (pathAtRelease (ringSlot e) (placeAndPlan e x s1)))

end Sys2Proof.Machine
end

