-- ==== Sys2Proof/Machine/Inserts.lean ====
section
/-! DEFINITION. Feed reports, backup calls and feed deadlines (R80-R85). -/

namespace Sys2Proof.Machine

/-- The feeder an entry waits on: the primary of a CALLED entry, the backup of a BACKUP_CALLED one (R80, R84). -/
def waitsOn (e : Planned) : Option Nat :=
  match e.status with
  | .called => e.primary
  | .backupCalled => e.backup
  | _ => none

/-- The entry of a piece that waits on a feeder (R80). -/
def waitingEntry (p : Piece) (f : Nat) : Option Planned := p.planned.find? (fun e => waitsOn e == some f)

/-- The status of one entry of a piece changed (R75). -/
def setEntryStatus (k i : Nat) (x : InsertStatus) (s : State) : State :=
  match pieceAt s k with
  | some p => setPiece s k (some { p with planned := p.planned.map (fun e => if e.insert = i then { e with status := x } else e) })
  | none => s

/-- An entry ends MISSED with a fault (R82-R85). -/
def missEntry (k i : Nat) (f : PieceFault) (s : State) : State := recordFault k f (setEntryStatus k i .missed s)

/-- Whether a backup is called: single-attempt mode off, the backup callable for the insert, the feeder lead met (R82). -/
def backupInReach (s : State) (p : Piece) (i g : Nat) : Bool :=
  !s.iu.single && callable s g i && decide ((s.tu.timing.lf : Int) ≤ leadTo s (pitchAt p.entry (placeAt s g).pos))

/-- The backup decision for a CALLED entry whose primary has missed; `f` is the fault when no backup is called (R82, R84, R85). -/
def decideBackup (k : Nat) (p : Piece) (e : Planned) (f : PieceFault) (s : State) : State :=
  match e.backup with
  | some g =>
    if backupInReach s p e.insert g then
      match sendCommand s (callFrame s p g e.insert) with
      | some s' => setEntryStatus k e.insert .backupCalled s'
      | none =>
        missEntry k e.insert .commandOverflow
          (raise .commandQueueFull (some (placeAt s g).addr) (some s.tu.pitch) p.id s)
    else missEntry k e.insert f s
  | none => missEntry k e.insert f s

/-- A miss of the feeder an entry waits on, by a report (INSERT_MISSED) or a feed deadline (NO_FEED_REPORT) (R82-R84). -/
def takeMiss (k : Nat) (p : Piece) (e : Planned) (feeder : Nat) (f : PieceFault) (at_ : Pitch) (s : State) : State :=
  let s1 := countMiss feeder at_ p.id s
  match e.status with
  | .called => decideBackup k p e f s1
  | _ => missEntry k e.insert f s1

/-- A FEED taken for a waiting entry: FED (R81, R83), DOUBLE (R81, R83) or MISS (R82, R83). -/
def takeFeed (k : Nat) (p : Piece) (e : Planned) (feeder : Nat) (outcome : Nat) (at_ : Pitch) (s : State) : State :=
  if outcome = 0 then countFeed feeder false (setEntryStatus k e.insert .fed s)
  else if outcome = 1 then takeMiss k p e feeder .insertMissed at_ s
  else countFeed feeder true (recordFault k .insertDouble (setEntryStatus k e.insert .doubled s))

/-- A FEED applied to a piece (R80): dropped unless an entry waits on the feeder and the outcome is one of the three. -/
def applyFeed (src : Addr) (feeder k : Nat) (p : Piece) (outcome : Byte) (at_ : Pitch) (s : State) : State :=
  match waitingEntry p feeder with
  | some e => if outcome.toNat ≤ 2 then takeFeed k p e feeder outcome.toNat at_ s else dropUnexpected src s
  | none => dropUnexpected src s

/-- Whether the feed deadline of an entry has passed (R84). -/
def feedPassed (s : State) (p : Piece) (feeder : Nat) : Bool :=
  decide (((placeAt s feeder).pos : Int) + s.tu.timing.allowance < pitchDiff s.tu.pitch p.entry)

/-- The feed deadline of one insert of the piece in a slot (R84). -/
def feedDeadlineAt (k i : Nat) (s : State) : State :=
  match pieceAt s k with
  | some p =>
    match p.planned.find? (fun e => e.insert == i) with
    | some e =>
      match waitsOn e with
      | some f => if feedPassed s p f then takeMiss k p e f .noFeedReport s.tu.pitch s else s
      | none => s
    | none => s
  | none => s

end Sys2Proof.Machine
end

