-- ==== Sys2Proof/Machine/Collation.lean ====
section
/-! DEFINITION. Sheets into sets: opening, adding, adopting and completing records (R22-R38), and the state of the collation unit after a reset (R43). -/

namespace Sys2Proof.Machine

/-- A sheet as the collation unit reads it (R23): piece, index and count of a readable sheet, or a no-read. -/
inductive SheetRead where
  | readable (id : PieceId) (index count : Nat)
  | noRead
  deriving DecidableEq, Repr

/-- Whether a SHEET's fields make it readable (R23). -/
def readSheet (id : PieceId) (index count : Byte) : SheetRead :=
  if id ≠ Config.noRead ∧ 1 ≤ index.toNat ∧ index.toNat ≤ 16 ∧ 1 ≤ count.toNat ∧ count.toNat ≤ 16 ∧ index.toNat ≤ count.toNat then
    .readable id index.toNat count.toNat
  else .noRead

/-- A record completes: to the tail of the release queue, or COMPLETE_WAITING when the queue holds four (R34). -/
def completeRecord (r : OpenRec) (s : State) : State :=
  if s.cu.queue.length < Config.releaseQueue then
    cutterTest (withCu s { s.cu with place := none, queue := s.cu.queue ++ [r.set] })
  else withCu s { s.cu with place := some { r with waiting := true } }

/-- A record stays in the open-record place. -/
def holdRecord (r : OpenRec) (s : State) : State := withCu s { s.cu with place := some r }

/-- After a sheet's own effects: the record completes, or completes OVERSIZE when it is left holding 16 sheets, or stays OPEN (R32). -/
def settleRecord (done : Bool) (r : OpenRec) (s : State) : State :=
  if done then completeRecord r s
  else if r.set.held = Config.maxSheets then completeRecord { r with set := setFault .oversize r.set } s
  else holdRecord r s

/-- A sheet that is recorded counts in the run counters (R23). -/
def countSheet (noRead : Bool) (s : State) : State :=
  tally s (fun c => { c with sheets := c.sheets + 1, noReads := if noRead then c.noReads + 1 else c.noReads })

/-- A sheet that finds no place: ACCUMULATOR_OVERRUN, and the run becomes STOPPED (R28, R35, R157). -/
def sheetOverrun (src : Addr) (id : Option PieceId) (s : State) : State :=
  runStop .accumulatorOverrun (some src) (raise .accumulatorOverrun (some src) none id s)

/-- The ID a SHEET carries when it is readable. -/
def sheetId : SheetRead → Option PieceId
  | .readable id _ _ => some id
  | .noRead => none

/-- A claim's slot taken into a set, or its fault recorded (R10, R25); the sheet count check is made where the rule asks for it. -/
def applyClaim (c : Claim) (check : Bool) (n : Nat) (x : SetRec) : SetRec :=
  match c with
  | .slot k sheets =>
    let y := { x with slot := some k }
    if check && sheets != n then setFault .sheetCount y else y
  | .fault f => setFault f x

/-- The opening of a record: it is counted, the headroom falls, and LOG_HEADROOM and the test of R40 follow (R23, R39, R40). That
LOG_HEADROOM goes before the HOLD or COMMAND_QUEUE_FULL of that test, and so takes the capture, is a DESIGN CHOICE (log 30). -/
def openRecord (noRead : Bool) (r : OpenRec) (s : State) : State :=
  let s1 := tally (countSheet noRead s) (fun c => { c with opened := c.opened + 1 })
  cutterTest (headroomFell (headroom s) (holdRecord r s1))

/-- The set that a readable sheet opens, before its claim (R25, R26). -/
def freshSet (id : PieceId) (n : Nat) : SetRec := ⟨some id, none, some n, 1, none, false⟩

/-- The anonymous set that a no-read opens (R27). -/
def anonymousSet : SetRec := ⟨none, none, none, 1, some .noreadSheet, false⟩

/-- A sheet arriving with no record open (R25, R26, R27), subject to the headroom (R28). -/
def openSheet (src : Addr) (sh : SheetRead) (s : State) : State :=
  if headroom s = 0 then sheetOverrun src (sheetId sh) s
  else
    match sh with
    | .readable id i n =>
      let c := claim id s
      let x := applyClaim c.2 true n (freshSet id n)
      let r : OpenRec := ⟨if i = 1 then x else setFault .sequence x, i + 1, false⟩
      let s1 := openRecord false r c.1
      if i = n then completeRecord r s1 else s1
    | .noRead => openRecord true ⟨anonymousSet, 2, false⟩ s

/-- The sheet that ended a record opens the next, unless the ended record waits in the place (R31, R33, R35). -/
def afterEnding (src : Addr) (sh : SheetRead) (s : State) : State :=
  if s.cu.place.isSome then sheetOverrun src none s else openSheet src sh s

/-- One more sheet held. -/
def addSheet (x : SetRec) : SetRec := { x with held := x.held + 1 }

/-- A readable sheet of the record's own piece (R29). -/
def ownSheet (r : OpenRec) (n i count : Nat) (s : State) : State :=
  let x := addSheet r.set
  let x := if count = n then x else setFault .sheetCount x
  let x := if i = r.next then x else setFault .sequence x
  let next := if i < r.next then r.next else i + 1
  let done := if i < r.next then false else if i = r.next then i == n else decide (n ≤ i)
  settleRecord done { r with set := x, next := next } (countSheet false s)

/-- A no-read at a named record (R30). -/
def noReadSheet (r : OpenRec) (n : Nat) (s : State) : State :=
  settleRecord (r.next == n) { r with set := setFault .noreadSheet (addSheet r.set), next := r.next + 1 } (countSheet true s)

/-- A sheet at a named OPEN record of piece X with expected count n (R29, R30, R31). -/
def namedSheet (src : Addr) (r : OpenRec) (x : PieceId) (n : Nat) (sh : SheetRead) (s : State) : State :=
  match sh with
  | .readable id i count =>
    if id = x then ownSheet r n i count s
    else afterEnding src sh (completeRecord { r with set := setFault .mixed r.set } s)
  | .noRead => noReadSheet r n s

/-- A sheet at an anonymous OPEN record (R33). -/
def anonymousSheet (src : Addr) (r : OpenRec) (sh : SheetRead) (s : State) : State :=
  match sh with
  | .noRead =>
    settleRecord false { r with set := setFault .noreadSheet (addSheet r.set), next := r.next + 1 } (countSheet true s)
  | .readable id i n =>
    if i = 1 then afterEnding src sh (completeRecord r s)
    else
      let c := claim id s
      let x := applyClaim c.2 true n { addSheet r.set with id := some id, count := some n }
      let x := if i = r.next then x else setFault .sequence x
      settleRecord (i == n) { r with set := x, next := i + 1 } (countSheet false c.1)

/-- A sheet in RUNNING or STOPPED, by the open-record place (sections 2.2 to 2.5). -/
def collateSheet (src : Addr) (sh : SheetRead) (s : State) : State :=
  match s.cu.place with
  | none => openSheet src sh s
  | some r =>
    if r.waiting then sheetOverrun src none s
    else
      match r.set.id, r.set.count with
      | some x, some n => namedSheet src r x n sh s
      | _, _ => anonymousSheet src r sh s

/-- The set of a late sheet before its claim: LATE_SHEET alone (R37). -/
def lateSet (sh : SheetRead) : SetRec :=
  match sh with
  | .readable id _ n => ⟨some id, none, some n, 1, some .lateSheet, false⟩
  | .noRead => ⟨none, none, none, 1, some .lateSheet, false⟩

/-- A sheet in DRAINING: a record of its own, faulted LATE_SHEET, complete at once (R37). The place holds no OPEN record in DRAINING;
were it to, the sheet would find no place (log 20). -/
def lateSheet (src : Addr) (sh : SheetRead) (s : State) : State :=
  if s.cu.place.isSome then sheetOverrun src none s
  else if headroom s = 0 then sheetOverrun src (sheetId sh) s
  else
    match sh with
    | .readable id i n =>
      let c := claim id s
      let r : OpenRec := ⟨applyClaim c.2 false n (lateSet sh), i + 1, false⟩
      completeRecord r (openRecord false r c.1)
    | .noRead =>
      let r : OpenRec := ⟨lateSet sh, 2, false⟩
      completeRecord r (openRecord true r s)

/-- A SHEET that is taken, by the run state (R23). -/
def takeSheet (src : Addr) (sh : SheetRead) (s : State) : State :=
  match s.rc.state with
  | .running => collateSheet src sh s
  | .stopped => collateSheet src sh s
  | .draining => lateSheet src sh s
  | .idle => dropUnexpected src s

/-- END RUN's act on the open-record place, and RESUME's into DRAINING: an OPEN record completes INCOMPLETE_AT_END (R38, R161). -/
def completeAtEnd (s : State) : State :=
  match s.cu.place with
  | some r => if r.waiting then s else completeRecord { r with set := setFault .incompleteAtEnd r.set } s
  | none => s

/-- The collation unit after power-on reset and RESTART (R43). -/
def resetCu : Cu := ⟨none, [], .hold, none⟩

end Sys2Proof.Machine
end

