-- ==== Sys2Proof/Machine/Arrival.lean ====
section
/-! DEFINITION. The works of a pitch arrival (R44, R52, R61, R73, R84, R115, R127, R142), the sub-steps the opcode table lists on their own
(R41, R148, R175, R186), and the settling of outstanding work before another command acts (logs 3 and 4). -/

namespace Sys2Proof.Machine

/-! ## The ring port's own sub-steps -/

/-- The frame of one response segment (R184, R186). -/
def segmentFrame (s : State) (r : Response) (seg : List Byte) (last : Bool) : Frame :=
  ⟨r.dest, .response, stampNow s, be2 r.tag.toNat ++ segmentByte r.next last :: seg⟩

/-- The next segment of a buffered response queued when a management entry is free; with the last one the buffer is empty (R186). -/
def pushSegment (s : State) : State :=
  match s.rp.response with
  | some r =>
    match r.segments with
    | seg :: rest =>
      if managementRoom s then
        let s1 := enqueue s (segmentFrame s r seg rest.isEmpty)
        withRp s1 { s1.rp with response := if rest.isEmpty then none else some { r with next := r.next + 1, segments := rest } }
      else s
    | [] => s
  | none => s

/-- As many segments as entries are free: the management part has four (R182, R186). -/
def pushSegments (s : State) : State := pushSegment (pushSegment (pushSegment (pushSegment s)))

/-- The held record of the lowest CLOSE_PENDING bin appended where the tray log has room; the bin opens a tray (R148), and the drain end
is tested (R156). -/
def appendHeld (s : State) : State :=
  if trayLogRoom s then
    match waitingBin s with
    | some (b, r) => drainTest (openTray b (appendTrayRec s r))
    | none => s
  else s

/-- Held records appended as long as there is room: at most one for each bin. -/
def appendAllHeld : Nat → State → State
  | 0, s => s
  | n + 1, s => appendAllHeld n (appendHeld s)

/-! ## The works of an arrival -/

/-- The feed deadlines of the listed slots and inserts (R84). -/
def feedDeadlines : List (Nat × Nat) → State → State
  | [], s => s
  | (k, i) :: ks, s => feedDeadlines ks (feedDeadlineAt k i s)

/-- The verify deadlines of the listed slots (R115). -/
def verifyDeadlines : List Nat → State → State
  | [], s => s
  | k :: ks, s => verifyDeadlines ks (verifyDeadlineAt k s)

/-- The exit deadlines of the listed slots (R61). -/
def exitDeadlines : List Nat → State → State
  | [], s => s
  | k :: ks, s => exitDeadlines ks (exitDeadlineAt k s)

/-- The slots of the pieces on the track, oldest first (log 3). -/
def trackSlots (s : State) : List Nat := (onTrack s).map Prod.fst

/-- Every slot with every insert of its piece's planned list, oldest piece first (log 3). -/
def trackEntries (s : State) : List (Nat × Nat) := (onTrack s).flatMap (fun e => e.2.planned.map (fun x => (e.1, x.insert)))

/-- All deadlines of an arrival: feed, verify, exit (log 3). -/
def allDeadlines (s : State) : State :=
  let s1 := feedDeadlines (trackEntries s) s
  let s2 := verifyDeadlines (trackSlots s1) s1
  exitDeadlines (trackSlots s2) s2

/-- The deadlines of an arrival, when they are outstanding. -/
def dueDeadlines (s : State) : State :=
  if s.due.deadlines then allDeadlines (withDue s { s.due with deadlines := false }) else s

/-- The copy of the feeder map at an arrival, when it is outstanding and the commit still pending (R73). -/
def dueMapCopy (s : State) : State :=
  if s.due.mapCopy then mapCopyIfPending (withDue s { s.due with mapCopy := false }) else s

/-- The copy of the sort plan at an arrival, when it is outstanding and the commit still pending (R127). -/
def duePlanCopy (s : State) : State :=
  if s.due.planCopy then planCopyIfPending (withDue s { s.due with planCopy := false }) else s

/-- The owed TRAY_CHANGE frames tried at an arrival, when that is outstanding (R142). -/
def dueTrayRetry (s : State) : State :=
  if s.due.trayRetry then retryOwed allBins (withDue s { s.due with trayRetry := false }) else s

/-- The release of an arrival, when it is outstanding and the run still RUNNING or DRAINING (R52). -/
def dueRelease (s : State) : State :=
  if s.due.release then
    let s1 := withDue s { s.due with release := false }
    if s1.rc.state = .running ∨ s1.rc.state = .draining then releaseHead s1 else s1
  else s

/-- The outstanding works of the last advancing arrival, in the default order (log 3). -/
def arrivalWork (s : State) : State := dueRelease (dueTrayRetry (duePlanCopy (dueMapCopy (dueDeadlines s))))

/-- What freed entries and freed log places are offered to, in the order of R41, R186, R175, R148 (log 4). R175 lets a request and a
pending ALERT that compete for the last freed management entry be taken in either order: that the offers, and so the ALERT, come before
any request, which then finds no entry and is dropped, is a DESIGN CHOICE (log 35). -/
def offers (s : State) : State := appendAllHeld Config.bins (placeAlert (pushSegments (offerCutter s)))

/-- All outstanding work done: what stands before another command acts (logs 3, 4 and 35). -/
def settle (s : State) : State := offers (arrivalWork s)

/-- The part acts only while the reset line is not held (R164). -/
def live (f : State → State) (s : State) : State := if s.resetHeld then s else f s

/-- An event is taken after the work the events before it have brought about (logs 3 and 4). -/
def event (f : State → State) (s : State) : State := live (fun x => f (settle x)) s

/-- A pitch arrival by the run state (R44); in RUNNING and DRAINING it brings about the works of an arrival (log 3). -/
def takePitch (s : State) : State :=
  match s.rc.state with
  | .running => withDue (withTu s { s.tu with pitch := s.tu.pitch + 1 }) ⟨true, s.iu.commitPending, s.su.commitPending, true, true⟩
  | .draining => withDue (withTu s { s.tu with pitch := s.tu.pitch + 1 }) ⟨true, s.iu.commitPending, s.su.commitPending, true, true⟩
  | .stopped => raise .pitchInStop none (some s.tu.pitch) none s
  | .idle => s

end Sys2Proof.Machine
end

