-- ==== Sys2Proof/Machine/Answer.lean ====
section
/-! DEFINITION. How a management request is taken and answered (R185, R186): the reply, the response buffer, and the order with a pending ALERT. -/

namespace Sys2Proof.Machine

/-- The status of a response (R185). -/
inductive Status where
  | done | partly | wrongState | badArgument | slotBusy | notFound
  deriving DecidableEq, Repr

/-- The code of a status (R185); `partly` is PARTIAL. -/
def statusCode : Status → Nat
  | .done => 0 | .partly => 1 | .wrongState => 2 | .badArgument => 3 | .slotBusy => 4 | .notFound => 5

/-- What a request answers: status, details A and B, and the results after the head (R185). -/
structure Reply where
  status : Status
  a : Nat
  b : Nat
  results : List Byte
  deriving DecidableEq, Repr

/-- A request refused with a status: nothing changes, no results. -/
def refuse (x : Status) (s : State) : State × Reply := (s, ⟨x, 0, 0, []⟩)

/-- DONE without details or results. -/
def doneReply (s : State) : State × Reply := (s, ⟨.done, 0, 0, []⟩)

/-- DONE with results. -/
def doneWith (s : State) (results : List Byte) : State × Reply := (s, ⟨.done, 0, 0, results⟩)

/-- A request of IDLE alone: WRONG_STATE in the other run states. -/
def idleOnly (act : State → State × Reply) (s : State) : State × Reply :=
  if s.rc.state = .idle then act s else refuse .wrongState s

/-- A complete request is taken when the response buffer is empty and a management entry is free (R185). -/
def requestTaken (s : State) : Bool := s.rp.response.isNone && managementRoom s

/-- The response buffer taken for a request's response while its effect is made: an ALERT made pending meanwhile waits (R175). -/
def reserveBuffer (src : Addr) (tag : Tag) (s : State) : State :=
  withRp s { s.rp with response := some ⟨src, tag, 0, []⟩ }

/-- The body of a response: the six-byte head and the results (R185). -/
def replyBody (code : Byte) (r : Reply) : List Byte :=
  code :: (be1 (statusCode r.status) ++ be2 r.a ++ be2 r.b ++ r.results)

/-- The response built in the buffer, its first segments queued, and then a pending ALERT placed where it can be (R185, R186, R175). That
an ALERT which waited for the address this very request supplies (SET LAYOUT) follows the response is a DESIGN CHOICE (log 33). -/
def respond (src : Addr) (tag : Tag) (code : Byte) (r : Reply) (s : State) : State :=
  let body := replyBody code r
  placeAlert (pushSegments (withRp s { s.rp with response := some ⟨src, tag, 0, cutSegments body.length body⟩ }))

/-- A request taken and answered in one act, or dropped without effect (R185). -/
def answer (src : Addr) (tag : Tag) (code : Byte) (act : State → State × Reply) (s : State) : State :=
  if requestTaken s then
    let r := act (reserveBuffer src tag s)
    respond src tag code r.2 r.1
  else s

/-- A management request as an event of its own: taken after outstanding work, then answered (R185). -/
def manage (src : Addr) (tag : Tag) (code : Nat) (act : State → State × Reply) (s : State) : Host.Outcome State Fault Refusal :=
  .next (event (answer src tag (BitVec.ofNat 8 code) act) s)

end Sys2Proof.Machine
end

