-- ==== Sys2Proof/Machine/TableRequests.lean ====
section
/-! DEFINITION. Requests that load the layout, the timing, and the insert, planner and sort tables, and the two commits (R46, R47, R66-R68, R72, R73, R88, R91-R93, R121, R122, R127). -/

namespace Sys2Proof.Machine

/-! ## Layout and timing -/

/-- Byte i of a record, as a number. -/
def byteAt (record : List Byte) (i : Nat) : Byte := record.getD i 0#8

/-- The feeders' part of a layout record (R188): address, position and present flag of F0-F7. -/
def layoutFeeders (record : List Byte) : Table FeederPlace :=
  tputRun .off [] 0
    ((List.range Config.feeders).map (fun f =>
      ⟨addrOf (byteAt record (6 + 3 * f)), (byteAt record (7 + 3 * f)).toNat, flagOf (byteAt record (8 + 3 * f))⟩))

/-- The layout a record of 36 bytes stands for (R188). -/
def layoutOf (record : List Byte) : Layout where
  cutter := addrOf (byteAt record 0)
  sheetReader := addrOf (byteAt record 1)
  accumulator := addrOf (byteAt record 2)
  lineComputer := addrOf (byteAt record 3)
  folder := ⟨addrOf (byteAt record 4), (byteAt record 5).toNat⟩
  feeders := layoutFeeders record
  verify := ⟨addrOf (byteAt record 30), (byteAt record 31).toNat⟩
  gate := ⟨addrOf (byteAt record 32), (byteAt record 33).toNat⟩
  sorter := ⟨addrOf (byteAt record 34), (byteAt record 35).toNat⟩

/-- The bytes of a layout record that are present flags (R188). -/
def presentBytes : List Nat := [8, 11, 14, 17, 20, 23, 26, 29]

/-- Whether every address and position of a layout record is at most 63 (R46). -/
def layoutOk (record : List Byte) : Bool :=
  record.length == 36 && (List.range 36).all (fun i => presentBytes.contains i || decide ((byteAt record i).toNat ≤ 63))

/-- SET LAYOUT (R46); a record of another length is refused by R185. -/
def actSetLayout (record : List Byte) (s : State) : State × Reply :=
  if layoutOk record then doneReply (withTu s { s.tu with layout := layoutOf record }) else refuse .badArgument s

/-- SET_LAYOUT. R185 refuses a body of another length before the run state is looked at. -/
def execSetLayout (src : Addr) (tag : Tag) (record : List Byte) (s : State) : Host.Outcome State Fault Refusal :=
  manage src tag 7 (if record.length = 36 then idleOnly (actSetLayout record) else refuse .badArgument) s

/-- The values SET TIMING accepts (R47). -/
def timingOf (lr lf lg ls a : Byte) : Option Timing :=
  if 1 ≤ lr.toNat ∧ lr.toNat ≤ 4 ∧ 1 ≤ lf.toNat ∧ lf.toNat ≤ 8 ∧ 1 ≤ lg.toNat ∧ lg.toNat ≤ 8 ∧ 1 ≤ ls.toNat ∧ ls.toNat ≤ 8
      ∧ 1 ≤ a.toNat ∧ a.toNat ≤ 4 then
    some ⟨lr.toNat, lf.toNat, lg.toNat, ls.toNat, a.toNat⟩
  else none

/-- SET TIMING (R47). -/
def actSetTiming (lr lf lg ls a : Byte) (s : State) : State × Reply :=
  match timingOf lr lf lg ls a with
  | some t => doneReply (withTu s { s.tu with timing := t })
  | none => refuse .badArgument s

/-- SET_TIMING. -/
def execSetTiming (src : Addr) (tag : Tag) (lr lf lg ls a : Byte) (s : State) : Host.Outcome State Fault Refusal :=
  manage src tag 9 (idleOnly (actSetTiming lr lf lg ls a)) s

/-! ## Inserts and feeders -/

/-- A body of the length its count asks for and of at most 384 bytes, or BAD_ARGUMENT before anything else (R184, R185). -/
def sized (ok : Bool) (act : State → State × Reply) (s : State) : State × Reply := if ok then act s else refuse .badArgument s

/-- SET SELECTION (R66). -/
def actSetSelection (first count : Byte) (sets : List (BitVec 16)) (s : State) : State × Reply :=
  if countOf count ≤ 32 ∧ first.toNat + countOf count ≤ Config.selections ∧ sets.all (fun x => decide (x.toNat < 4096)) = true then
    (withIu s { s.iu with selection := tputRun 0#12 s.iu.selection first.toNat (sets.map (BitVec.setWidth 12)) },
      ⟨.done, countOf count, 0, []⟩)
  else refuse .badArgument s

/-- SET_SELECTION. -/
def execSetSelection (src : Addr) (tag : Tag) (first count : Byte) (sets : List (BitVec 16)) (s : State) :
    Host.Outcome State Fault Refusal :=
  manage src tag 11 (sized (sets.length == countOf count && decide (3 + 2 * sets.length ≤ Config.requestBytes))
    (idleOnly (actSetSelection first count sets))) s

/-- An insert table entry as written (R67). -/
def insertSpecOf (e : BitVec 16 × BitVec 16) : InsertSpec := ⟨e.1.toNat, e.2.toNat⟩

/-- SET INSERTS (R67); a count of 0 or above 12 is refused (log 11). -/
def actSetInserts (first count : Byte) (entries : List (BitVec 16 × BitVec 16)) (s : State) : State × Reply :=
  if 1 ≤ count.toNat ∧ first.toNat + count.toNat ≤ Config.inserts
      ∧ entries.all (fun e => decide (e.1.toNat ≤ 60000) && decide (e.2.toNat ≤ 6000)) = true then
    doneReply (withIu s { s.iu with inserts := tputRun .off s.iu.inserts first.toNat (entries.map insertSpecOf) })
  else refuse .badArgument s

/-- SET_INSERTS. -/
def execSetInserts (src : Addr) (tag : Tag) (first count : Byte) (entries : List (BitVec 16 × BitVec 16)) (s : State) :
    Host.Outcome State Fault Refusal :=
  manage src tag 12 (sized (entries.length == count.toNat && decide (3 + 4 * entries.length ≤ Config.requestBytes))
    (idleOnly (actSetInserts first count entries))) s

/-- SET INSERT POLICY, with the degraded flags against the new threshold (R68). -/
def actSetInsertPolicy (limit threshold : Byte) (single : Bool) (s : State) : State × Reply :=
  if limit.toNat ≤ 15 ∧ 50 ≤ threshold.toNat ∧ threshold.toNat ≤ 99 then
    doneReply (reevaluateAll threshold.toNat (List.range Config.feeders)
      (withIu s { s.iu with limit := limit.toNat, threshold := threshold.toNat, single := single }))
  else refuse .badArgument s

/-- SET_INSERT_POLICY. -/
def execSetInsertPolicy (src : Addr) (tag : Tag) (limit threshold : Byte) (single : Bool) (s : State) :
    Host.Outcome State Fault Refusal :=
  manage src tag 13 (idleOnly (actSetInsertPolicy limit threshold single)) s

/-- A bank entry as staged (R72); a disabled feeder's loaded insert is kept as given (log 12). -/
def mapSlotOf (e : Bool × Byte) : MapSlot := ⟨e.1, e.2.toNat⟩

/-- STAGE FEEDER MAP (R72). -/
def actStageFeederMap (bank : List (Bool × Byte)) (s : State) : State × Reply :=
  if bank.length = Config.feeders ∧ bank.all (fun e => !e.1 || decide (e.2.toNat < Config.inserts)) = true then
    doneReply (withIu s { s.iu with staged := tputRun .off [] 0 (bank.map mapSlotOf) })
  else refuse .badArgument s

/-- STAGE_FEEDER_MAP. -/
def execStageFeederMap (src : Addr) (tag : Tag) (bank : List (Bool × Byte)) (s : State) : Host.Outcome State Fault Refusal :=
  manage src tag 14 (actStageFeederMap bank) s

/-- COMMIT FEEDER MAP: the copy at once in IDLE, otherwise a pending commit (R73). -/
def actCommitFeederMap (s : State) : State × Reply :=
  if s.rc.state = .idle then doneReply (mapCopy s) else doneReply (withIu s { s.iu with commitPending := true })

/-- COMMIT_FEEDER_MAP. -/
def execCommitFeederMap (src : Addr) (tag : Tag) (s : State) : Host.Outcome State Fault Refusal :=
  manage src tag 15 actCommitFeederMap s

/-- The bytes of a feeder record (R188). -/
def feederBytes (x : Feeder) : List Byte :=
  be1 (feederStateCode x.state) ++ be1 (levelCode x.level) ++ be1 x.consecutive ++ be4 x.calls ++ be4 x.misses ++ be4 x.doubles
    ++ be1 x.condition ++ flagByte x.degraded

/-- A feeder restored: out of FAILED by its level, consecutive misses 0, and its counts reset if asked for (R88). -/
def restored (threshold : Nat) (reset : Bool) (x : Feeder) : Feeder :=
  let y := { x with state := if x.state = .failed then levelState x.level else x.state, consecutive := 0 }
  if reset then evaluate threshold { y with calls := 0, misses := 0, doubles := 0 } else y

/-- RESTORE FEEDER (R88). -/
def actRestoreFeeder (feeder : Byte) (reset : Bool) (s : State) : State × Reply :=
  if feeder.toNat < Config.feeders then
    let x := feederAt s feeder.toNat
    let y := restored s.iu.threshold reset x
    let s1 := setFeeder s feeder.toNat y
    doneWith (if x.state = .failed ∧ y.state = .empty then raiseFeederEmpty feeder.toNat s1 else s1) (feederBytes y)
  else refuse .badArgument s

/-- RESTORE_FEEDER. -/
def execRestoreFeeder (src : Addr) (tag : Tag) (feeder : Byte) (reset : Bool) (s : State) : Host.Outcome State Fault Refusal :=
  manage src tag 16 (actRestoreFeeder feeder reset) s

/-! ## The planner's tables -/

/-- SET SHEET PARAMETERS (R91). -/
def actSetSheetParameters (mass caliper : BitVec 16) (panels : Byte) (s : State) : State × Reply :=
  if 1 ≤ mass.toNat ∧ mass.toNat ≤ 20000 ∧ 20 ≤ caliper.toNat ∧ caliper.toNat ≤ 400 ∧ 1 ≤ panels.toNat ∧ panels.toNat ≤ 3 then
    doneReply (withPp s { s.pp with sheetMass := mass.toNat, sheetCaliper := caliper.toNat, panels := panels.toNat })
  else refuse .badArgument s

/-- SET_SHEET_PARAMETERS. -/
def execSetSheetParameters (src : Addr) (tag : Tag) (mass caliper : BitVec 16) (panels : Byte) (s : State) :
    Host.Outcome State Fault Refusal :=
  manage src tag 19 (idleOnly (actSetSheetParameters mass caliper panels)) s

/-- The state with one envelope class written. -/
def setClassAt (s : State) (n : Nat) (c : EnvClass) : State :=
  withPp s { s.pp with classes := tput .off s.pp.classes n c }

/-- SET ENVELOPE CLASS (R92). -/
def actSetEnvelopeClass (cls : Byte) (enabled : Bool) (mass wall fill : BitVec 16) (s : State) : State × Reply :=
  if cls.toNat < 4 then
    if enabled then
      if 1 ≤ mass.toNat ∧ mass.toNat ≤ 60000 ∧ wall.toNat ≤ 2000 ∧ 1 ≤ fill.toNat ∧ fill.toNat ≤ 20000 then
        doneReply (setClassAt s cls.toNat ⟨true, mass.toNat, wall.toNat, fill.toNat⟩)
      else refuse .badArgument s
    else doneReply (setClassAt s cls.toNat { tget EnvClass.off s.pp.classes cls.toNat with enabled := false })
  else refuse .badArgument s

/-- SET_ENVELOPE_CLASS. -/
def execSetEnvelopeClass (src : Addr) (tag : Tag) (cls : Byte) (enabled : Bool) (mass wall fill : BitVec 16) (s : State) :
    Host.Outcome State Fault Refusal :=
  manage src tag 20 (idleOnly (actSetEnvelopeClass cls enabled mass wall fill)) s

/-- Whether each number of a list is greater than the one before it (R93, R94). -/
def ascending : List Nat → Bool
  | [] => true
  | [_] => true
  | a :: b :: l => decide (a < b) && ascending (b :: l)

/-- SET BANDS (R93). -/
def actSetBands (count : Byte) (limits : List (BitVec 16)) (s : State) : State × Reply :=
  if count.toNat ≤ 8 ∧ limits.all (fun l => decide (1 ≤ l.toNat) && decide (l.toNat ≤ 20000)) = true
      ∧ ascending (limits.map BitVec.toNat) = true then
    doneReply (withPp s { s.pp with bands := limits.map BitVec.toNat })
  else refuse .badArgument s

/-- SET_BANDS. -/
def execSetBands (src : Addr) (tag : Tag) (count : Byte) (limits : List (BitVec 16)) (s : State) : Host.Outcome State Fault Refusal :=
  manage src tag 21 (sized (limits.length == count.toNat && decide (2 + 2 * limits.length ≤ Config.requestBytes))
    (idleOnly (actSetBands count limits))) s

/-! ## The sort plan -/

/-- The key test of an element record, none where R121 refuses it: kinds 1 RANGE, 2 PREFIX, 3 PAIR (R118, R188). -/
def keyTestOf (kind : Byte) (x y : Nat) : Option KeyTest :=
  match kind.toNat with
  | 1 => if x ≤ y ∧ y ≤ Config.maxKey then some (.range x y) else none
  | 2 => if 1 ≤ x ∧ x ≤ 9 ∧ y < 10 ^ x then some (.leading x y) else none
  | 3 => if x ≤ Config.maxKey ∧ y ≤ Config.maxKey then some (.pair x y) else none
  | _ => none

/-- The element of a record, none where R121 refuses it. -/
def elementOf (r : ElementRecord) : Option Element :=
  if r.kind = 0#8 then some .disabled
  else
    match keyTestOf r.kind r.first.toNat r.second.toNat, serviceCondOf r.service, actionOf r.action with
    | some t, some c, some a => some (.enabled t r.bands c a)
    | _, _, _ => none

/-- The elements of all records, none if any is refused (R121). -/
def elementsOf : List ElementRecord → Option (List Element)
  | [] => some []
  | r :: rs =>
    match elementOf r, elementsOf rs with
    | some e, some es => some (e :: es)
    | _, _ => none

/-- STAGE SORT ELEMENTS (R121). -/
def actStageSortElements (first count : Byte) (elements : List ElementRecord) (s : State) : State × Reply :=
  if 1 ≤ count.toNat ∧ count.toNat ≤ 16 ∧ elements.length = count.toNat ∧ first.toNat + count.toNat ≤ Config.sortElements then
    match elementsOf elements with
    | some es => (withSu s { s.su with staged := tputRun .disabled s.su.staged first.toNat es }, ⟨.done, count.toNat, 0, []⟩)
    | none => refuse .badArgument s
  else refuse .badArgument s

/-- STAGE_SORT_ELEMENTS. -/
def execStageSortElements (src : Addr) (tag : Tag) (first count : Byte) (elements : List ElementRecord) (s : State) :
    Host.Outcome State Fault Refusal :=
  manage src tag 23 (actStageSortElements first count elements) s

/-- SET FALLBACK (R122). -/
def actSetFallback (action : Byte) (s : State) : State × Reply :=
  match actionOf action with
  | some a => doneReply (withSu s { s.su with fallback := a })
  | none => refuse .badArgument s

/-- SET_FALLBACK. -/
def execSetFallback (src : Addr) (tag : Tag) (action : Byte) (s : State) : Host.Outcome State Fault Refusal :=
  manage src tag 24 (idleOnly (actSetFallback action)) s

/-- The results of COMMIT SORT PLAN: whether the copy was made, and the generation (R127, R188). -/
def commitBytes (made : Bool) (generation : BitVec 16) : List Byte := flagByte made ++ be2 generation.toNat

/-- COMMIT SORT PLAN: the copy at once in IDLE, otherwise the pending-commit mark (R127). -/
def actCommitSortPlan (s : State) : State × Reply :=
  if s.rc.state = .idle then
    let s1 := planCopy s
    doneWith s1 (commitBytes true s1.su.generation)
  else doneWith (withSu s { s.su with commitPending := true }) (commitBytes false s.su.generation)

/-- COMMIT_SORT_PLAN. -/
def execCommitSortPlan (src : Addr) (tag : Tag) (s : State) : Host.Outcome State Fault Refusal :=
  manage src tag 25 actCommitSortPlan s

/-! ## Bins -/

/-- The limits SET BIN LIMITS accepts (R136, R138). -/
def limitsOf (maxCount : BitVec 16) (maxMass : BitVec 24) (minCount : BitVec 16) : Option Limits :=
  if 1 ≤ maxCount.toNat ∧ maxCount.toNat ≤ 4000 ∧ 1 ≤ maxMass.toNat ∧ maxMass.toNat ≤ 400000 ∧ minCount.toNat ≤ maxCount.toNat then
    some ⟨maxCount.toNat, maxMass.toNat, minCount.toNat⟩
  else none

/-- SET BIN LIMITS on a bin, with limits or `none` for *disabled* (R138). -/
def applyLimits (b : Nat) (l : Option Limits) (s : State) : State × Reply :=
  let x := binAt s b
  match x.state, l with
  | .disabled, none => doneReply s
  | .disabled, some l => doneReply (openTray b (setBin s b { x with limits := some l }))
  | .opened, l =>
    if binSettled x then
      match l with
      | none => doneReply (setBin s b .off)
      | some l => doneReply (setBin s b { x with limits := some l })
    else refuse .wrongState s
  | _, _ => refuse .wrongState s

/-- SET BIN LIMITS (R138). -/
def actSetBinLimits (bin : Byte) (disabled : Bool) (maxCount : BitVec 16) (maxMass : BitVec 24) (minCount : BitVec 16) (s : State) :
    State × Reply :=
  match binOf bin with
  | none => refuse .badArgument s
  | some b =>
    if disabled then applyLimits b none s
    else
      match limitsOf maxCount maxMass minCount with
      | some l => applyLimits b (some l) s
      | none => refuse .badArgument s

/-- SET_BIN_LIMITS. -/
def execSetBinLimits (src : Addr) (tag : Tag) (bin : Byte) (disabled : Bool) (maxCount : BitVec 16) (maxMass : BitVec 24)
    (minCount : BitVec 16) (s : State) : Host.Outcome State Fault Refusal :=
  manage src tag 28 (actSetBinLimits bin disabled maxCount maxMass minCount) s

end Sys2Proof.Machine
end

