-- ==== Sys2Proof/Machine/ReadRequests.lean ====
section
/-! DEFINITION. Requests that read, with the two that drain a log and the one that clears the summary (R46, R65, R89, R102, R133, R134, R148, R150, R165, R170, R171, R174, R176, R187), in the layouts of R188. -/

namespace Sys2Proof.Machine

/-- A descriptor slot or map index, FFFFh when absent (R188). -/
def slotBytes (x : Option Nat) : List Byte := optBytes 2 be2 x

/-! ## Layout and track -/

/-- The bytes of a placed role: address and position (R188). -/
def stationBytes (x : Station) : List Byte := addrByte x.addr :: be1 x.pos

/-- The bytes of a feeder's layout entry: address, position and present flag (R188). -/
def feederPlaceBytes (x : FeederPlace) : List Byte := addrByte x.addr :: be1 x.pos ++ flagByte x.present

/-- The layout record of 36 bytes (R188). -/
def layoutBytes (l : Layout) : List Byte :=
  [addrByte l.cutter, addrByte l.sheetReader, addrByte l.accumulator, addrByte l.lineComputer] ++ stationBytes l.folder
    ++ (List.range Config.feeders).flatMap (fun f => feederPlaceBytes (tget .off l.feeders f))
    ++ stationBytes l.verify ++ stationBytes l.gate ++ stationBytes l.sorter

/-- READ LAYOUT: the layout record and the own address (R46, R188). -/
def actReadLayout (s : State) : State × Reply := doneWith s (layoutBytes s.tu.layout ++ [addrByte s.rp.own])

/-- READ_LAYOUT. -/
def execReadLayout (src : Addr) (tag : Tag) (s : State) : Host.Outcome State Fault Refusal := manage src tag 8 actReadLayout s

/-- The occupancy of the ring as a number: bit i set for a slot i that holds a record (R65, R188). -/
def occupancy (s : State) : Nat := ((List.range Config.ringSlots).map (fun i => if (pieceAt s i).isSome then 2 ^ i else 0)).foldl (· + ·) 0

/-- A planned insert entry in a piece record (R188). -/
def plannedBytes (e : Planned) : List Byte :=
  be1 e.insert ++ optBytes 1 be1 e.primary ++ optBytes 1 be1 e.backup ++ be1 (insertStatusCode e.status)

/-- The bin and tray sequence of a SORT path, FFh and 0 for any other (R188). -/
def sortPathBytes : Path → List Byte
  | .sort b t => be1 b ++ be2 t.toNat
  | _ => absent 1 ++ be2 0

/-- The piece record of READ TRACK (R188): mass, first fault and tray sequence are 0 when absent, every other field FFh. -/
def pieceBytes (p : Piece) : List Byte :=
  be4 p.entry.toNat ++ idBytes p.id ++ slotBytes p.slot ++ be1 p.held ++ optBytes 1 (fun c => be1 c.toNat) p.envClass
    ++ optBytes 3 be3 p.fill ++ be2 (p.mass.getD 0) ++ optBytes 1 be1 p.band ++ faultByte p.fault ++ flagByte p.further
    ++ be1 (verifyCode p.verify) ++ be1 (pathCode p.path) ++ sortPathBytes p.path ++ be1 p.planned.length
    ++ p.planned.flatMap plannedBytes

/-- The pitch, run state and occupancy of READ TRACK (R65, R188). -/
def trackBytes (s : State) : List Byte :=
  be4 s.tu.pitch.toNat ++ be1 (runStateCode s.rc.state) ++ be4 (occupancy s / 4294967296) ++ be4 (occupancy s)

/-- The record of a named slot that holds one (R65). -/
def namedSlotBytes (s : State) (k : Nat) : List Byte :=
  match pieceAt s k with
  | some p => pieceBytes p
  | none => []

/-- READ TRACK (R65). -/
def actReadTrack (slot : Option Byte) (s : State) : State × Reply :=
  match slot with
  | none => doneWith s (trackBytes s)
  | some k => if k.toNat < Config.ringSlots then doneWith s (trackBytes s ++ namedSlotBytes s k.toNat) else refuse .badArgument s

/-- READ_TRACK. -/
def execReadTrack (src : Addr) (tag : Tag) (slot : Option Byte) (s : State) : Host.Outcome State Fault Refusal :=
  manage src tag 10 (actReadTrack slot) s

/-! ## Feeders, inserts, planner -/

/-- A feeder map bank, F0 to F7 (R188). -/
def bankBytes (t : Table MapSlot) : List Byte :=
  (List.range Config.feeders).flatMap (fun f => flagByte (tget MapSlot.off t f).enabled ++ be1 (tget MapSlot.off t f).insert)

/-- READ FEEDERS (R89, R188). -/
def actReadFeeders (s : State) : State × Reply :=
  doneWith s ((List.range Config.feeders).flatMap (fun f => feederBytes (feederAt s f)) ++ bankBytes s.iu.staged ++ bankBytes s.iu.active
    ++ flagByte s.iu.commitPending ++ be1 s.iu.limit ++ be1 s.iu.threshold ++ flagByte s.iu.single)

/-- READ_FEEDERS. -/
def execReadFeeders (src : Addr) (tag : Tag) (s : State) : Host.Outcome State Fault Refusal := manage src tag 17 actReadFeeders s

/-- An insert table entry (R188). -/
def insertSpecBytes (x : InsertSpec) : List Byte := be2 x.mass ++ be2 x.caliper

/-- The selection codes READ INSERT TABLES returns: up to 32 from the first, ending at code 255 (R89). -/
def selectionRun (first : Nat) : List Nat := (List.range (min 32 (Config.selections - first))).map (fun i => first + i)

/-- READ INSERT TABLES (R89, R188). -/
def actReadInsertTables (first : BitVec 16) (s : State) : State × Reply :=
  if first.toNat < Config.selections then
    doneWith s ((List.range Config.inserts).flatMap (fun i => insertSpecBytes (tget .off s.iu.inserts i))
      ++ be1 (selectionRun first.toNat).length
      ++ (selectionRun first.toNat).flatMap (fun c => be2 (tget 0#12 s.iu.selection c).toNat))
  else refuse .badArgument s

/-- READ_INSERT_TABLES. -/
def execReadInsertTables (src : Addr) (tag : Tag) (first : BitVec 16) (s : State) : Host.Outcome State Fault Refusal :=
  manage src tag 18 (actReadInsertTables first) s

/-- An envelope class (R188). -/
def envClassBytes (c : EnvClass) : List Byte := flagByte c.enabled ++ be2 c.mass ++ be2 c.wall ++ be2 c.fill

/-- READ PLANNER TABLES (R102, R188). -/
def actReadPlannerTables (s : State) : State × Reply :=
  doneWith s (be2 s.pp.sheetMass ++ be2 s.pp.sheetCaliper ++ be1 s.pp.panels
    ++ (List.range 4).flatMap (fun n => envClassBytes (tget .off s.pp.classes n))
    ++ be1 s.pp.bands.length ++ s.pp.bands.flatMap be2)

/-- READ_PLANNER_TABLES. -/
def execReadPlannerTables (src : Addr) (tag : Tag) (s : State) : Host.Outcome State Fault Refusal :=
  manage src tag 22 actReadPlannerTables s

/-! ## The sort plan -/

/-- The kind and key arguments of an element record (R188). -/
def keyTestBytes : KeyTest → List Byte
  | .range low high => be1 1 ++ be4 low ++ be4 high
  | .leading k value => be1 2 ++ be4 k ++ be4 value
  | .pair a b => be1 3 ++ be4 a ++ be4 b

/-- The element record of 12 bytes; a DISABLED element is twelve bytes 0 (R188). -/
def elementBytes : Element → List Byte
  | .disabled => List.replicate 12 0#8
  | .enabled t bands c a => keyTestBytes t ++ [bands] ++ be1 (serviceCondCode c) ++ actionByte a

/-- The bank a byte names (R188). -/
def bankOf (bank : Byte) (s : State) : Option (Table Element) :=
  match bank.toNat with
  | 0 => some s.su.active | 1 => some s.su.staged | _ => none

/-- READ SORT PLAN (R133, R188). -/
def actReadSortPlan (bank first count : Byte) (s : State) : State × Reply :=
  match bankOf bank s with
  | none => refuse .badArgument s
  | some t =>
    if 1 ≤ count.toNat ∧ count.toNat ≤ 16 ∧ first.toNat + count.toNat ≤ Config.sortElements then
      doneWith s (be2 s.su.generation.toNat ++ flagByte s.su.commitPending ++ actionByte s.su.fallback
        ++ (List.range count.toNat).flatMap (fun i => elementBytes (tget .disabled t (first.toNat + i))))
    else refuse .badArgument s

/-- READ_SORT_PLAN. -/
def execReadSortPlan (src : Addr) (tag : Tag) (bank first count : Byte) (s : State) : Host.Outcome State Fault Refusal :=
  manage src tag 26 (actReadSortPlan bank first count) s

/-- The number of the first matching element, absent when none matches, and the result (R134, R188). -/
def tryBytes (s : State) (bank : Table Element) (key band : Nat) (service : Service) : List Byte :=
  optBytes 1 be1 ((firstMatch bank key band service).map Prod.fst) ++ actionByte (decision s bank key band service)

/-- TRY SORT KEY (R134). -/
def actTrySortKey (key : BitVec 32) (band service : Byte) (s : State) : State × Reply :=
  match serviceOf service with
  | none => refuse .badArgument s
  | some v =>
    if key.toNat ≤ Config.maxKey ∧ band.toNat ≤ 7 then
      doneWith s (tryBytes s s.su.active key.toNat band.toNat v ++ tryBytes s s.su.staged key.toNat band.toNat v)
    else refuse .badArgument s

/-- TRY_SORT_KEY. -/
def execTrySortKey (src : Addr) (tag : Tag) (key : BitVec 32) (band service : Byte) (s : State) : Host.Outcome State Fault Refusal :=
  manage src tag 27 (actTrySortKey key band service) s

/-! ## Trays and bins -/

/-- A tray record of 22 bytes (R188). -/
def trayRecBytes (r : TrayRec) : List Byte :=
  be2 r.run.toNat ++ be2 r.seq.toNat ++ be1 r.bin ++ optBytes 1 (fun x => be1 (closeReasonCode x)) r.reason ++ be2 r.landed
    ++ be4 r.landedMass ++ idBytes r.firstId ++ idBytes r.lastId ++ [r.bands] ++ be2 r.generation.toNat
    ++ be1 ((if r.underMin then 1 else 0) + (if r.contaminated then 2 else 0))

/-- READ TRAYS: the oldest records, each removed (R148). The held records that wait take the room as outstanding work (log 4). -/
def actReadTrays (count : Byte) (s : State) : State × Reply :=
  if 1 ≤ count.toNat ∧ count.toNat ≤ 8 then
    let given := s.bu.log.take count.toNat
    doneWith (withBu s { s.bu with log := s.bu.log.drop count.toNat }) (be1 given.length ++ given.flatMap trayRecBytes)
  else refuse .badArgument s

/-- READ_TRAYS. -/
def execReadTrays (src : Addr) (tag : Tag) (count : Byte) (s : State) : Host.Outcome State Fault Refusal :=
  manage src tag 29 (actReadTrays count) s

/-- A current tray of 25 bytes (R188). -/
def trayBytes (t : Tray) : List Byte :=
  be2 t.run.toNat ++ be2 t.seq.toNat ++ be2 t.generation.toNat ++ be2 t.reserved ++ be3 t.reservedMass ++ be2 t.landed
    ++ be3 t.landedMass ++ idBytes t.firstId ++ idBytes t.lastId ++ [t.bands] ++ flagByte t.contaminated
    ++ optBytes 1 (fun x => be1 (closeReasonCode x)) t.reason

/-- The limits of a bin (R188). -/
def limitsBytes (l : Limits) : List Byte := be2 l.maxCount ++ be3 l.maxMass ++ be2 l.minCount

/-- A bin of 57 bytes (R188). -/
def binBytes (x : Bin) : List Byte :=
  be1 (binStateCode x.state) ++ optBytes 7 limitsBytes x.limits ++ flagByte x.owed ++ flagByte x.carried ++ optBytes 25 trayBytes x.tray
    ++ optBytes 22 trayRecBytes x.held

/-- READ BINS (R150, R188). BR's two counts show their low four bytes (log 18). -/
def actReadBins (s : State) : State × Reply :=
  doneWith s (allBins.flatMap (fun b => binBytes (binAt s b)) ++ be4 s.bu.brCount ++ be4 s.bu.brMass ++ be2 s.bu.nextSeq.toNat
    ++ be2 s.bu.log.length)

/-- READ_BINS. -/
def execReadBins (src : Addr) (tag : Tag) (s : State) : Host.Outcome State Fault Refusal := manage src tag 30 actReadBins s

/-! ## Run status -/

/-- The stop record (R165, R188). -/
def stopBytes (x : StopRec) : List Byte := be1 (stopCauseCode x.cause) ++ optBytes 1 (fun a => [addrByte a]) x.addr ++ be4 x.pitch.toNat

/-- The open-record place: 0 empty, 1 OPEN, 2 COMPLETE_WAITING (R188). -/
def placeCode : Option OpenRec → Nat
  | none => 0
  | some r => if r.waiting then 2 else 1

/-- READ RUN STATUS (R165, R188). -/
def actReadRunStatus (s : State) : State × Reply :=
  doneWith s (be1 (runStateCode s.rc.state) ++ optBytes 1 (fun x => be1 (runStateCode x)) s.rc.resume ++ optBytes 6 stopBytes s.rc.stop
    ++ be2 s.rc.run.toNat ++ be4 s.tu.pitch.toNat ++ be1 (cutterCode s.cu.hold)
    ++ optBytes 1 (fun x => be1 (cutterCode (cutterOf x))) s.cu.pendingCutter ++ be1 (placeCode s.cu.place) ++ be1 s.cu.queue.length
    ++ be1 s.tu.ring.length ++ be2 s.cl.log.length ++ be2 (headroom s))

/-- READ_RUN_STATUS. -/
def execReadRunStatus (src : Addr) (tag : Tag) (s : State) : Host.Outcome State Fault Refusal := manage src tag 38 actReadRunStatus s

/-! ## Completion log and attention summary -/

/-- A completion entry of 21 bytes (R188). An absent entry pitch is told by bit 1 of the flags, its bytes FFh (log 14). -/
def entryBytes (e : Entry) : List Byte :=
  be2 e.run.toNat ++ optBytes 4 (fun x => be4 x.toNat) e.entry ++ idBytes e.id ++ slotBytes e.slot ++ be1 (outcomeCode e.outcome)
    ++ optBytes 1 be1 e.bin ++ be2 ((e.tray.getD 0).toNat) ++ faultByte e.fault
    ++ be1 ((if e.further then 1 else 0) + (if e.entry.isSome then 2 else 0)) ++ be1 e.held ++ be2 (e.mass.getD 0)
    ++ optBytes 1 be1 e.reprint

/-- One drain of the log's head: the test of R40 on the new headroom, and the freeing of a SORTED entry's slot (R13, R170). -/
def drainOne (s : State) : State :=
  match s.cl.log with
  | [] => s
  | e :: rest => freeDrained e (cutterTest (withCl s { s.cl with log := rest }))

/-- Some drains in order. -/
def drainMany : Nat → State → State
  | 0, s => s
  | n + 1, s => drainMany n (drainOne s)

/-- READ COMPLETIONS (R170). -/
def actReadCompletions (count : Byte) (s : State) : State × Reply :=
  if 1 ≤ count.toNat ∧ count.toNat ≤ 16 then
    let given := s.cl.log.take count.toNat
    doneWith (drainMany given.length s)
      (be1 given.length ++ be2 (s.cl.log.length - given.length) ++ given.flatMap entryBytes)
  else refuse .badArgument s

/-- READ_COMPLETIONS. -/
def execReadCompletions (src : Addr) (tag : Tag) (count : Byte) (s : State) : Host.Outcome State Fault Refusal :=
  manage src tag 39 (actReadCompletions count) s

/-- The seven run counters (R171, R188). -/
def countersBytes (c : Counters) : List Byte :=
  be4 c.opened.toNat ++ be4 c.released.toNat ++ be4 c.exited.toNat ++ be4 c.sorted.toNat ++ be4 c.diverted.toNat ++ be4 c.sheets.toNat
    ++ be4 c.noReads.toNat

/-- READ RUN COUNTERS (R171). -/
def actReadRunCounters (s : State) : State × Reply :=
  doneWith s (countersBytes s.cl.counters ++ be2 s.rc.run.toNat ++ be2 (inFlight s))

/-- READ_RUN_COUNTERS. -/
def execReadRunCounters (src : Addr) (tag : Tag) (s : State) : Host.Outcome State Fault Refusal := manage src tag 40 actReadRunCounters s

/-- The summary with the named flags cleared; an empty summary clears the capture and withdraws a pending ALERT, any other makes
one pending (R174). -/
def clearFlags (named : BitVec 18) (s : State) : State :=
  let left := s.cl.summary &&& ~~~named
  if left = 0#18 then withCl s { s.cl with summary := left, capture := none, alertPending := false }
  else withCl s { s.cl with summary := left, alertPending := true }

/-- CLEAR SUMMARY (R174). -/
def actClearSummary (flags : BitVec 24) (s : State) : State × Reply :=
  if flags.toNat < 262144 then
    doneWith (clearFlags (flags.setWidth 18) s) (summaryBytes (clearFlags (flags.setWidth 18) s).cl.summary)
  else refuse .badArgument s

/-- CLEAR_SUMMARY. -/
def execClearSummary (src : Addr) (tag : Tag) (flags : BitVec 24) (s : State) : Host.Outcome State Fault Refusal :=
  manage src tag 41 (actClearSummary flags) s

/-- The capture of READ SUMMARY (R176, R188). -/
def captureBytes : Option Capture → List Byte
  | some c =>
    be1 (flagBit c.flag) ++ optBytes 1 (fun a => [addrByte a]) c.addr ++ optBytes 4 (fun p => be4 p.toNat) c.pitch ++ idBytes c.id
  | none => absent 9

/-- READ SUMMARY (R176). -/
def actReadSummary (s : State) : State × Reply :=
  doneWith s (summaryBytes s.cl.summary ++ captureBytes s.cl.capture ++ flagByte s.cl.alertPending)

/-- READ_SUMMARY. -/
def execReadSummary (src : Addr) (tag : Tag) (s : State) : Host.Outcome State Fault Refusal := manage src tag 42 actReadSummary s

/-! ## Ring port -/

/-- The assembly held, with its source and the segment it expects (R187, R188). -/
def assemblyBytes : Option Assembly → List Byte
  | some a => flagByte true ++ [addrByte a.src] ++ be1 a.expect
  | none => flagByte false ++ absent 2

/-- READ PORT (R187). A request is taken only with no response in the buffer (R185), so none is held and no segment is to be queued (log 14). -/
def actReadPort (s : State) : State × Reply :=
  doneWith s (addrByte s.rp.own :: (be1 s.rp.forward.length ++ be1 (commandCount s) ++ be1 (managementCount s)
    ++ be1 (portCode s.rp.turn) ++ assemblyBytes s.rp.assembly ++ flagByte false ++ absent 1))

/-- READ_PORT. -/
def execReadPort (src : Addr) (tag : Tag) (s : State) : Host.Outcome State Fault Refusal := manage src tag 43 actReadPort s

end Sys2Proof.Machine
end

