-- ==== Sys2Proof/Machine/RunRequests.lean ====
section
/-! DEFINITION. Requests to run control: START RUN with its ten checks, END RUN, STOP, RESUME, DECLARE REMOVED, ABORT RUN and RESTART (R48, R49, R94, R153-R163, R187). -/

namespace Sys2Proof.Machine

/-! ## START RUN -/

/-- The present feeders of the layout. -/
def presentFeeders (l : Layout) : List FeederPlace :=
  ((List.range Config.feeders).map (fun f => tget FeederPlace.off l.feeders f)).filter FeederPlace.present

/-- The addresses check 1 looks at: the eight roles and the present feeders (R48). -/
def lineAddresses (l : Layout) : List Addr :=
  [l.cutter, l.sheetReader, l.accumulator, l.lineComputer, l.folder.addr, l.verify.addr, l.gate.addr, l.sorter.addr]
    ++ (presentFeeders l).map FeederPlace.addr

/-- Check 1: every address assigned, all different, none the part's own (R48). -/
def checkAddresses (s : State) : Bool :=
  (lineAddresses s.tu.layout).all (fun a => a != Config.unassigned && a != s.rp.own) && decide (lineAddresses s.tu.layout).Nodup

/-- Check 2: the folder at 1 or further, and before every present feeder (R48). -/
def checkFolder (s : State) : Bool :=
  decide (1 ≤ s.tu.layout.folder.pos) && (presentFeeders s.tu.layout).all (fun f => decide (s.tu.layout.folder.pos < f.pos))

/-- Check 3: the positions of the present feeders differ (R48). -/
def checkFeeders (s : State) : Bool := decide ((presentFeeders s.tu.layout).map FeederPlace.pos).Nodup

/-- Check 4: q + L_r is at least L_f for each present feeder (R48). -/
def checkFeederReach (s : State) : Bool :=
  (presentFeeders s.tu.layout).all (fun f => decide (s.tu.timing.lf ≤ f.pos + s.tu.timing.lr))

/-- The position of the furthest present feeder, or the folder's where none is present (R49). -/
def furthestFeeder (l : Layout) : Nat :=
  match presentFeeders l with
  | [] => l.folder.pos
  | fs => (fs.map FeederPlace.pos).foldl max 0

/-- Check 5: f + A + 2 is at most v (R49). -/
def checkVerify (s : State) : Bool := decide (furthestFeeder s.tu.layout + s.tu.timing.allowance + 2 ≤ s.tu.layout.verify.pos)

/-- Check 6: v + A + L_g is at most d (R49). -/
def checkGate (s : State) : Bool := decide (s.tu.layout.verify.pos + s.tu.timing.allowance + s.tu.timing.lg ≤ s.tu.layout.gate.pos)

/-- Check 7: v + A + L_s is at most x (R49). -/
def checkSorter (s : State) : Bool := decide (s.tu.layout.verify.pos + s.tu.timing.allowance + s.tu.timing.ls ≤ s.tu.layout.sorter.pos)

/-- Check 8: the larger of d and x, plus A, plus L_r, is at most 63 (R49). -/
def checkRing (s : State) : Bool :=
  decide (max s.tu.layout.gate.pos s.tu.layout.sorter.pos + s.tu.timing.allowance + s.tu.timing.lr ≤ 63)

/-- Check 9: a class is enabled (R94). -/
def checkClasses (s : State) : Bool := (List.range 4).any (fun n => (tget EnvClass.off s.pp.classes n).enabled)

/-- Check 10: a band table that is not empty and strictly ascending (R94). -/
def checkBands (s : State) : Bool := !s.pp.bands.isEmpty && ascending s.pp.bands

/-- Checks 1 to 10, in order (R153). -/
def startChecks (s : State) : List Bool :=
  [checkAddresses s, checkFolder s, checkFeeders s, checkFeederReach s, checkVerify s, checkGate s, checkSorter s, checkRing s,
    checkClasses s, checkBands s]

/-- The number of the first check that fails, counting from n. -/
def firstFailed : Nat → List Bool → Option Nat
  | _, [] => none
  | n, c :: cs => if c then firstFailed (n + 1) cs else some n

/-- The run number of the next run: from 65,535 to 1 (R154). -/
def nextRun (n : BitVec 16) : BitVec 16 := if n = 65535#16 then 1#16 else n + 1#16

/-- Step 1 and 2 of a start: number, counts, stop record; the marks of an arrival's work fall with the run they came from (R154). -/
def startNumbers (s : State) : State :=
  withDue
    (withCl
      (withTu (withRc s { s.rc with run := nextRun s.rc.run, stop := none }) { s.tu with pitch := 0 })
      { s.cl with counters := .zero })
    .none

/-- Step 3 of a start: tray sequence 1, new trays in the OPEN bins, BR's counts 0 (R137, R151, R154). -/
def startTrays (s : State) : State :=
  let s1 := startBins allBins (withBu s { s.bu with nextSeq := 1#16 })
  withBu s1 { s1.bu with brCount := 0, brMass := 0 }

/-- Step 4 of a start: RUNNING, a pending cutter command withdrawn, LOG_HEADROOM at a headroom of 8 or less, and the test of R40 (R39,
R154); LOG_HEADROOM goes first (DESIGN CHOICE, log 30). -/
def startState (s : State) : State :=
  let s1 := withCu (withRc s { s.rc with state := .running, resume := none }) { s.cu with pendingCutter := none }
  cutterTest (if headroom s1 ≤ Config.lowHeadroom then raise .logHeadroom none none none s1 else s1)

/-- A run started (R154). -/
def startedRun (s : State) : State := startState (startTrays (startNumbers s))

/-- START RUN in IDLE (R153, R154). -/
def actStartRun (s : State) : State × Reply :=
  match firstFailed 1 (startChecks s) with
  | some n => (s, ⟨.badArgument, n, 0, []⟩)
  | none => doneWith (startedRun s) (be2 (nextRun s.rc.run).toNat)

/-- START_RUN. -/
def execStartRun (src : Addr) (tag : Tag) (s : State) : Host.Outcome State Fault Refusal :=
  manage src tag 31 (idleOnly actStartRun) s

/-! ## END RUN, STOP, RESUME -/

/-- END RUN (R155). The run is DRAINING before its sets complete, so that no GO follows the HOLD (log 26). R155 does not number its acts:
that the HOLD, or its COMMAND_QUEUE_FULL, goes ahead of the completion, of the run-end close's TRAY_CHANGEs and of RUN_COMPLETE is a DESIGN
CHOICE (log 36). -/
def actEndRun (s : State) : State × Reply :=
  match s.rc.state, s.rc.resume with
  | .running, _ =>
    doneReply (flightChanged (completeAtEnd (queueCutter .holdByRun (withRc s { s.rc with state := .draining }))))
  | .stopped, some .running =>
    doneReply (completeAtEnd (queueCutter .holdByRun (withRc s { s.rc with resume := some .draining })))
  | _, _ => refuse .wrongState s

/-- END_RUN. -/
def execEndRun (src : Addr) (tag : Tag) (s : State) : Host.Outcome State Fault Refusal := manage src tag 32 actEndRun s

/-- STOP, with the address of its sender (R157, R158). -/
def actStop (src : Addr) (s : State) : State × Reply :=
  if s.rc.state = .idle then refuse .wrongState s else doneReply (runStop .stopRequest (some src) s)

/-- STOP. -/
def execStop (src : Addr) (tag : Tag) (s : State) : Host.Outcome State Fault Refusal := manage src tag 33 (actStop src) s

/-- The return into RUNNING: a HOLD pending from the stop is withdrawn when the condition for GO is met, and R40 is tested (R41, R161). -/
def resumeRunning (s : State) : State :=
  let s1 := withRc s { s.rc with state := .running, resume := none }
  cutterTest (if goCondition s1 then withCu s1 { s1.cu with pendingCutter := none } else s1)

/-- The return into DRAINING: an OPEN record completes, and with no piece in flight the run-end close and the drain end follow (R161). -/
def resumeDraining (s : State) : State := flightChanged (completeAtEnd (withRc s { s.rc with state := .draining, resume := none }))

/-- RESUME (R161). -/
def actResume (s : State) : State × Reply :=
  match s.rc.state, s.rc.resume with
  | .stopped, some .draining => doneReply (resumeDraining s)
  | .stopped, _ => doneReply (resumeRunning s)
  | _, _ => refuse .wrongState s

/-- RESUME. -/
def execResume (src : Addr) (tag : Tag) (s : State) : Host.Outcome State Fault Refusal := manage src tag 34 actResume s

/-! ## DECLARE REMOVED and ABORT RUN -/

/-- Whether the arguments pass R159; lo is signed, hi is not (log 19). -/
def removalOk (s : State) (range : Bool) (lo hi : Byte) (accumulator : Bool) : Bool :=
  (range || accumulator)
    && (!range || (decide (-(s.tu.timing.lr : Int) ≤ lo.toInt) && decide (lo.toInt ≤ (hi.toNat : Int)) && decide (hi.toNat ≤ 63)))

/-- The slots of the pieces whose position lies in lo … hi, oldest entry pitch first (R160). -/
def slotsBetween (s : State) (lo hi : Int) : List Nat :=
  ((onTrack s).filter (fun e => decide (lo ≤ pitchDiff s.tu.pitch e.2.entry) && decide (pitchDiff s.tu.pitch e.2.entry ≤ hi))).map Prod.fst

/-- The slots a DECLARE REMOVED empties (R160). -/
def declaredSlots (s : State) (range : Bool) (lo hi : Byte) : List Nat := if range then slotsBetween s lo.toInt hi.toNat else []

/-- DECLARE REMOVED (R159, R160). -/
def actDeclareRemoved (range : Bool) (lo hi : Byte) (accumulator : Bool) (s : State) : State × Reply :=
  if s.rc.state = .stopped then
    if removalOk s range lo hi accumulator then
      let slots := declaredSlots s range lo hi
      let s1 := removePieces slots s
      let sets := if accumulator then (collatedSets s1).length else 0
      (if accumulator then removeSets s1 else s1, ⟨.done, slots.length, sets, []⟩)
    else refuse .badArgument s
  else refuse .wrongState s

/-- DECLARE_REMOVED. -/
def execDeclareRemoved (src : Addr) (tag : Tag) (range : Bool) (lo hi : Byte) (accumulator : Bool) (s : State) :
    Host.Outcome State Fault Refusal :=
  manage src tag 35 (actDeclareRemoved range lo hi accumulator) s

/-- Steps 3 and 4 of an abort: the run-end close, IDLE, and the pending copies (R162). -/
def abortEnd (s : State) : State :=
  let s1 := runEndClose s
  planCopyIfPending (mapCopyIfPending (withRc s1 { s1.rc with state := .idle, resume := none }))

/-- A run aborted (R162). -/
def abortedRun (s : State) : State := abortEnd (removeSets (removePieces (trackSlots s) s))

/-- ABORT RUN (R162); the count is of all pieces in flight, sets among them (log 27). -/
def actAbortRun (s : State) : State × Reply :=
  if s.rc.state = .stopped then (abortedRun s, ⟨.done, (trackSlots s).length + (collatedSets s).length, 0, []⟩)
  else refuse .wrongState s

/-- ABORT_RUN. -/
def execAbortRun (src : Addr) (tag : Tag) (s : State) : Host.Outcome State Fault Refusal := manage src tag 36 actAbortRun s

/-! ## RESTART -/

/-- The frames of a queue that RESTART keeps: the one being sent (R187). -/
def keepBegun {α : Type} (begun : Bool) (q : List α) : List α := if begun then q.take 1 else []

/-- The ring port after RESTART (R187). -/
def restartRp (x : Rp) : Rp :=
  { x with
    forward := keepBegun (x.sending == some .forward) x.forward
    originate := keepBegun (x.sending == some .originate) x.originate
    turn := .forward
    assembly := none
    response := none }

/-- The blocks that RESTART clears, without bins and feeders (R21, R43, R44, R50, R90, R135, R151, R152, R163, R177, R187). -/
def restartBlocks (s : State) : State :=
  { s with
    due := .none
    ds := { s.ds with slots := restartSlots s.ds.slots }
    cu := resetCu
    tu := { s.tu with pitch := 0, ring := [] }
    iu := { s.iu with commitPending := false }
    su := { s.su with commitPending := false }
    bu := { s.bu with brCount := 0, brMass := 0, nextSeq := 1, log := [] }
    rc := ⟨.idle, s.rc.run, none, none⟩
    cl := ⟨[], .zero, 0, none, false⟩
    rp := restartRp s.rp }

/-- The part after RESTART (R163). -/
def restarted (s : State) : State := restartBins allBins (restartFeeders (List.range Config.feeders) (restartBlocks s))

/-- RESTART (R163). -/
def actRestart (s : State) : State × Reply := doneReply (restarted s)

/-- RESTART. -/
def execRestart (src : Addr) (tag : Tag) (s : State) : Host.Outcome State Fault Refusal := manage src tag 37 actRestart s

end Sys2Proof.Machine
end

