-- ==== Sys2Proof/Machine/Reports.lean ====
section
/-! DEFINITION. The reports: source matching (R23, R55), and the taking of SHEET, FEED, MATERIAL, READ, LANDED, TRAY_READY and JAM by their owners (R59, R71, R80, R110, R143, R158). -/

namespace Sys2Proof.Machine

/-- SHEET, from the sheet reader alone (R23). -/
def sheetReport (src : Addr) (id : PieceId) (index count : Byte) (s : State) : State :=
  if isAt src s.tu.layout.sheetReader then takeSheet src (readSheet id index count) s else dropSource src s

/-- SHEET. -/
def execSheet (src : Addr) (id : PieceId) (index count : Byte) (s : State) : Host.Outcome State Fault Refusal :=
  .next (event (sheetReport src id index count) s)

/-- FEED, from a present feeder, applied to the piece that stood there at the resolved pitch (R55, R59, R80). -/
def feedReport (src : Addr) (stamp : Stamp) (outcome : Byte) (s : State) : State :=
  match feederOf s src with
  | some f =>
    match resolveReport src (placeAt s f).pos stamp s with
    | .dropped s' => s'
    | .absent P => dropAbsent src P s
    | .applied P k p => applyFeed src f k p outcome P s
  | none => dropSource src s

/-- FEED. -/
def execFeed (src : Addr) (stamp : Stamp) (outcome : Byte) (s : State) : Host.Outcome State Fault Refusal :=
  .next (event (feedReport src stamp outcome) s)

/-- MATERIAL, from a present feeder; a level that is none of the three is dropped with UNEXPECTED_REPORT (R71). -/
def materialReport (src : Addr) (level : Byte) (s : State) : State :=
  match feederOf s src, levelOf level with
  | some f, some l => takeMaterial f l s
  | some _, none => dropUnexpected src s
  | none, _ => dropSource src s

/-- MATERIAL. -/
def execMaterial (src : Addr) (level : Byte) (s : State) : Host.Outcome State Fault Refusal :=
  .next (event (materialReport src level) s)

/-- A READ applied to a piece: taken while its verify status is PENDING, dropped otherwise (R110). -/
def applyRead (src : Addr) (k : Nat) (p : Piece) (id : PieceId) (at_ : Pitch) (s : State) : State :=
  if p.verify = .pending then takeRead k p id s else raise .unexpectedReport (some src) (some at_) p.id s

/-- A READ that finds no piece: PHANTOM and the stop for an ID outside IDLE, a dropped report otherwise (R59, R60). -/
def absentRead (src : Addr) (id : PieceId) (at_ : Pitch) (s : State) : State :=
  if id ≠ Config.noRead ∧ s.rc.state ≠ .idle then
    runStop .phantom (some src) (raise .phantom (some src) (some at_) (some id) s)
  else dropAbsent src at_ s

/-- READ, from the verify reader (R55, R59, R110). -/
def readReport (src : Addr) (stamp : Stamp) (id : PieceId) (s : State) : State :=
  if isAt src s.tu.layout.verify.addr then
    match resolveReport src s.tu.layout.verify.pos stamp s with
    | .dropped s' => s'
    | .absent P => absentRead src id P s
    | .applied P k p => applyRead src k p id P s
  else dropSource src s

/-- READ. -/
def execRead (src : Addr) (stamp : Stamp) (id : PieceId) (s : State) : Host.Outcome State Fault Refusal :=
  .next (event (readReport src stamp id) s)

/-- The position a LANDED of a place is resolved with, when the source sends that place: GATE from the gate, the bins and BR from the
sorter (R55). -/
def landingStation (s : State) (src : Addr) (place : Place) : Option Nat :=
  match place with
  | .gate => if isAt src s.tu.layout.gate.addr then some s.tu.layout.gate.pos else none
  | .br => if isAt src s.tu.layout.sorter.addr then some s.tu.layout.sorter.pos else none
  | .bin _ => if isAt src s.tu.layout.sorter.addr then some s.tu.layout.sorter.pos else none

/-- A LANDED from the station of its place, applied to the piece that stood there (R59, R64). -/
def landedAt (src : Addr) (q : Nat) (stamp : Stamp) (place : Place) (s : State) : State :=
  match resolveReport src q stamp s with
  | .dropped s' => s'
  | .absent P => dropAbsent src P s
  | .applied P k p => leaveLanded place P k p s

/-- LANDED (R55, R59, R64). -/
def landedReport (src : Addr) (stamp : Stamp) (place : Byte) (s : State) : State :=
  match placeOf place with
  | none => dropSource src s
  | some x =>
    match landingStation s src x with
    | some q => landedAt src q stamp x s
    | none => dropSource src s

/-- LANDED. -/
def execLanded (src : Addr) (stamp : Stamp) (place : Byte) (s : State) : Host.Outcome State Fault Refusal :=
  .next (event (landedReport src stamp place) s)

/-- A TRAY_READY for a bin: the exchange of a FULL bin whose change is not owed; the drain end is tested after it (R143, R156). -/
def takeTrayReady (src : Addr) (b : Nat) (s : State) : State :=
  match (binAt s b).state, (binAt s b).owed, (binAt s b).tray with
  | .full, false, some t => drainTest (exchangeTray b t s)
  | _, _, _ => dropUnexpected src s

/-- TRAY_READY, from the sorter (R55, R143). -/
def trayReadyReport (src : Addr) (bin : Byte) (s : State) : State :=
  if isAt src s.tu.layout.sorter.addr then
    match binOf bin with
    | some b => takeTrayReady src b s
    | none => dropUnexpected src s
  else dropSource src s

/-- TRAY_READY. -/
def execTrayReady (src : Addr) (bin : Byte) (s : State) : Host.Outcome State Fault Refusal :=
  .next (event (trayReadyReport src bin) s)

/-- JAM, from any role of the line (R55, R158). -/
def jamReport (src : Addr) (s : State) : State :=
  if isRole s src then
    if s.rc.state = .idle then dropUnexpected src s
    else runStop .jam (some src) (raise .jam (some src) (some s.tu.pitch) none s)
  else dropSource src s

/-- JAM. -/
def execJam (src : Addr) (s : State) : Host.Outcome State Fault Refusal := .next (event (jamReport src) s)

end Sys2Proof.Machine
end

