-- ==== Sys2Proof/Machine/Lines.lean ====
section
/-! DEFINITION. The reset and pitch lines, and the part's own steps that the opcode table lists: the works of an arrival and what freed entries and places are offered to (R41, R44, R52, R61, R73, R84, R115, R127, R142, R148, R164, R175, R186). -/

namespace Sys2Proof.Machine

/-- The part after the release of the reset line with the straps at the given address (R164, R187); the queue of commands is kept (log 1). -/
def poweredOn (straps : Addr) (s : State) : State :=
  withPending { State.reset with rp := { State.reset.rp with own := straps } } s.pending

/-- POWER_ON_RESET (R164). -/
def execPowerOnReset (straps : Addr) (s : State) : Host.Outcome State Fault Refusal := .next (poweredOn straps s)

/-- RESET_LINE_HELD (R164): from here to the release every other command is without effect (log 7). -/
def execResetLineHeld (s : State) : Host.Outcome State Fault Refusal := .next (withResetHeld s true)

/-- PITCH_ARRIVAL (R44). -/
def execPitchArrival (s : State) : Host.Outcome State Fault Refusal := .next (event takePitch s)

/-- RELEASE (R52), once for each advancing arrival (log 3). -/
def execRelease (s : State) : Host.Outcome State Fault Refusal := .next (live dueRelease s)

/-- The exit deadline of a slot, while an arrival's deadlines are outstanding (R61, log 5). -/
def exitWork (slot : BitVec 6) (s : State) : State := if s.due.deadlines then exitDeadlineAt slot.toNat s else s

/-- EXIT_DEADLINE (R61). -/
def execExitDeadline (slot : BitVec 6) (s : State) : Host.Outcome State Fault Refusal := .next (live (exitWork slot) s)

/-- The feed deadline of a slot and an insert, while an arrival's deadlines are outstanding (R84, log 5). -/
def feedWork (slot : BitVec 6) (insert : BitVec 4) (s : State) : State :=
  if s.due.deadlines then feedDeadlineAt slot.toNat insert.toNat s else s

/-- FEED_DEADLINE (R84). -/
def execFeedDeadline (slot : BitVec 6) (insert : BitVec 4) (s : State) : Host.Outcome State Fault Refusal :=
  .next (live (feedWork slot insert) s)

/-- The verify deadline of a slot, while an arrival's deadlines are outstanding (R115, log 5). -/
def verifyWork (slot : BitVec 6) (s : State) : State := if s.due.deadlines then verifyDeadlineAt slot.toNat s else s

/-- VERIFY_DEADLINE (R115). -/
def execVerifyDeadline (slot : BitVec 6) (s : State) : Host.Outcome State Fault Refusal := .next (live (verifyWork slot) s)

/-- FEEDER_MAP_COPY (R73, R74) at an arrival. -/
def execFeederMapCopy (s : State) : Host.Outcome State Fault Refusal := .next (live dueMapCopy s)

/-- SORT_PLAN_COPY (R127, R128) at an arrival. -/
def execSortPlanCopy (s : State) : Host.Outcome State Fault Refusal := .next (live duePlanCopy s)

/-- TRAY_CHANGE_RETRY (R142) at an arrival. -/
def execTrayChangeRetry (s : State) : Host.Outcome State Fault Refusal := .next (live dueTrayRetry s)

/-- PENDING_CUTTER_COMMAND_QUEUED (R41). -/
def execPendingCutterCommandQueued (s : State) : Host.Outcome State Fault Refusal := .next (live offerCutter s)

/-- A freed management entry: to the next response segment, and with none left to a pending ALERT (R175, R186). -/
def segmentStep (s : State) : State := placeAlert (pushSegment s)

/-- RESPONSE_SEGMENT_QUEUED (R186). -/
def execResponseSegmentQueued (s : State) : Host.Outcome State Fault Refusal := .next (live segmentStep s)

/-- ALERT (R175). -/
def execAlert (s : State) : Host.Outcome State Fault Refusal := .next (live placeAlert s)

/-- HELD_RECORD_APPENDED (R148). -/
def execHeldRecordAppended (s : State) : Host.Outcome State Fault Refusal := .next (live appendHeld s)

end Sys2Proof.Machine
end

