-- ==== Sys2Proof/Machine/StoreRequests.lean ====
section
/-! DEFINITION. Requests to the descriptor store: SET WINDOW, WRITE MAP ENTRIES, LOAD DESCRIPTORS, RETIRE, READ DESCRIPTOR, FIND PIECE (R4, R9, R14-R19). -/

namespace Sys2Proof.Machine

/-- The window mode a byte names (R3, R188). -/
def windowModeOf (b : Byte) : Option WindowMode :=
  match b.toNat with
  | 0 => some .direct | 1 => some .mapped | _ => none

/-- The new fields of an enabled window, none where R4 refuses them. -/
def windowFields (base : PieceId) (k mode : Byte) (start : BitVec 16) : Option Window :=
  match windowModeOf mode with
  | none => none
  | some m =>
    let bound := match m with | .direct => Config.descriptorSlots | .mapped => Config.mapEntries
    if 4 ≤ k.toNat ∧ k.toNat ≤ 20 ∧ base.toNat % 2 ^ k.toNat = 0 ∧ start.toNat < bound then
      some ⟨true, base, k.toNat, m, start.toNat⟩
    else none

/-- The state with one window written. -/
def setWindowAt (s : State) (n : Nat) (w : Window) : State :=
  withDs s { s.ds with windows := tput .off s.ds.windows n w }

/-- SET WINDOW (R4). -/
def actSetWindow (window : Byte) (enabled : Bool) (base : PieceId) (k mode : Byte) (start : BitVec 16) (s : State) : State × Reply :=
  if window.toNat < Config.windows then
    if enabled then
      match windowFields base k mode start with
      | some w => doneReply (setWindowAt s window.toNat w)
      | none => refuse .badArgument s
    else doneReply (setWindowAt s window.toNat { tget Window.off s.ds.windows window.toNat with enabled := false })
  else refuse .badArgument s

/-- SET_WINDOW. -/
def execSetWindow (src : Addr) (tag : Tag) (window : Byte) (enabled : Bool) (base : PieceId) (k mode : Byte) (start : BitVec 16)
    (s : State) : Host.Outcome State Fault Refusal :=
  manage src tag 1 (idleOnly (actSetWindow window enabled base k mode start)) s

/-- A map entry as written; an invalid entry keeps the low twelve bits of the slot it names (log 13). -/
def mapEntryOf (e : Bool × BitVec 16) : MapEntry := ⟨e.1, e.2.toNat % Config.descriptorSlots⟩

/-- The arguments WRITE MAP ENTRIES accepts (R9, R185, log 11). -/
def mapWriteOk (first : BitVec 16) (count : Byte) (entries : List (Bool × BitVec 16)) : Bool :=
  decide (countOf count ≤ 32) && entries.length == countOf count && decide (first.toNat + countOf count ≤ Config.mapEntries)
    && entries.all (fun e => !e.1 || decide (e.2.toNat < Config.descriptorSlots))

/-- WRITE MAP ENTRIES (R9). -/
def actWriteMapEntries (first : BitVec 16) (count : Byte) (entries : List (Bool × BitVec 16)) (s : State) : State × Reply :=
  if mapWriteOk first count entries then
    (withDs s { s.ds with map := tputRun .off s.ds.map first.toNat (entries.map mapEntryOf) }, ⟨.done, countOf count, 0, []⟩)
  else refuse .badArgument s

/-- WRITE_MAP_ENTRIES. -/
def execWriteMapEntries (src : Addr) (tag : Tag) (first : BitVec 16) (count : Byte) (entries : List (Bool × BitVec 16)) (s : State) :
    Host.Outcome State Fault Refusal :=
  manage src tag 2 (actWriteMapEntries first count entries) s

/-- The status of a refused record (R16). -/
def loadStatus : LoadRefusal → Status
  | .badArgument => .badArgument
  | .slotBusy => .slotBusy
  | .notFound _ => .notFound

/-- The lookup result of a record refused NOT_FOUND, 0 otherwise (R185). -/
def loadLookup : LoadRefusal → Nat
  | .notFound n => n
  | _ => 0

/-- The reply to a batch (R16, R185): all loaded, or stopped at record j. -/
def loadReply (count : Nat) : Option (Nat × LoadRefusal) → Reply
  | none => ⟨.done, count, 0, []⟩
  | some (j, e) =>
    ⟨if j = 0 then loadStatus e else .partly, j, count - j, be1 (statusCode (loadStatus e)) ++ be1 (loadLookup e)⟩

/-- LOAD DESCRIPTORS (R14-R16). -/
def actLoadDescriptors (count : Byte) (records : List DescriptorRecord) (s : State) : State × Reply :=
  if countOf count ≤ 32 ∧ records.length = countOf count then
    let r := loadBatch records 0 s
    (r.1, loadReply (countOf count) r.2)
  else refuse .badArgument s

/-- LOAD_DESCRIPTORS. -/
def execLoadDescriptors (src : Addr) (tag : Tag) (count : Byte) (records : List DescriptorRecord) (s : State) :
    Host.Outcome State Fault Refusal :=
  manage src tag 3 (actLoadDescriptors count records) s

/-- The descriptor slots that RETIRE of a range leaves (R17). -/
def retireRange (first last : Nat) (t : Table (Option Descriptor)) : Table (Option Descriptor) :=
  t.filter (fun e => !(decide (first ≤ e.1) && decide (e.1 ≤ last) && retirable e.2))

/-- RETIRE (R17). -/
def actRetire (first last : BitVec 16) (s : State) : State × Reply :=
  if last.toNat < Config.descriptorSlots ∧ first.toNat ≤ last.toNat then
    let t := retireRange first.toNat last.toNat s.ds.slots
    (withDs s { s.ds with slots := t }, ⟨.done, s.ds.slots.length - t.length, 0, []⟩)
  else refuse .badArgument s

/-- RETIRE. -/
def execRetire (src : Addr) (tag : Tag) (first last : BitVec 16) (s : State) : Host.Outcome State Fault Refusal :=
  manage src tag 4 (actRetire first last) s

/-- The results of READ DESCRIPTOR (R18, R188). -/
def descriptorBytes : Option Descriptor → List Byte
  | none => be1 0
  | some d =>
    be1 (descStateCode d.state) ++ be3 d.id.toNat ++ be1 d.sheets ++ [d.selection] ++ be1 d.envClass.toNat ++ be4 d.key
      ++ be1 (serviceCode d.service) ++ be1 d.reprint

/-- READ DESCRIPTOR (R18). -/
def actReadDescriptor (slot : BitVec 16) (s : State) : State × Reply :=
  if slot.toNat < Config.descriptorSlots then doneWith s (descriptorBytes (descAt s slot.toNat)) else refuse .badArgument s

/-- READ_DESCRIPTOR. -/
def execReadDescriptor (src : Addr) (tag : Tag) (slot : BitVec 16) (s : State) : Host.Outcome State Fault Refusal :=
  manage src tag 5 (actReadDescriptor slot) s

/-- The code of a lookup result (R188). -/
def lookupCode : Lookup → Nat
  | .found _ _ => 0 | .noWindow => 1 | .slotRange => 2 | .mapRange => 3 | .mapInvalid => 4 | .slotFree => 5 | .otherId => 6

/-- The selected window, map index and slot a lookup reached, each absent where R19 says so (R188). -/
def reachBytes : Reach → List Byte
  | .noWindow => absent 1 ++ absent 2 ++ absent 2
  | .slotRange w => be1 w ++ absent 2 ++ absent 2
  | .mapRange w => be1 w ++ absent 2 ++ absent 2
  | .mapInvalid w i => be1 w ++ be2 i ++ absent 2
  | .slot w i n => be1 w ++ optBytes 2 be2 i ++ be2 n

/-- State and reprint count for FOUND, absent otherwise (R19, R188). -/
def foundBytes : Lookup → List Byte
  | .found _ d => be1 (descStateCode d.state) ++ be1 d.reprint
  | _ => absent 2

/-- The results of FIND PIECE (R19, R188). -/
def findBytes (s : State) (id : PieceId) : List Byte :=
  be1 (lookupCode (lookup s id)) ++ reachBytes (reach s id) ++ foundBytes (lookup s id)

/-- FIND PIECE (R19). -/
def actFindPiece (id : PieceId) (s : State) : State × Reply :=
  if id = Config.noRead then refuse .badArgument s else doneWith s (findBytes s id)

/-- FIND_PIECE. -/
def execFindPiece (src : Addr) (tag : Tag) (id : PieceId) (s : State) : Host.Outcome State Fault Refusal :=
  manage src tag 6 (actFindPiece id) s

end Sys2Proof.Machine
end

