-- ==== Sys2Proof/Machine/Ring.lean ====
section
/-! DEFINITION. The ring port: request segments and the requests their bodies spell (R184, R185, R188), received frames (R178-R181) and the downstream port (R183). -/

namespace Sys2Proof.Machine

/-! ## The request a body spells (R185, R188) -/

/-- A number of n bytes from byte i of the arguments. -/
def argNum (a : List Byte) (i n : Nat) : Nat := numOf ((a.drop i).take n)

/-- A flag byte of the arguments. -/
def argFlag (a : List Byte) (i : Nat) : Bool := flagOf (byteAt a i)

/-- A two-byte number of the arguments. -/
def argWord (a : List Byte) (i : Nat) : BitVec 16 := BitVec.ofNat 16 (argNum a i 2)

/-- The records of k bytes that follow the first i argument bytes. -/
def argRecords (a : List Byte) (i k : Nat) : List (List Byte) := groupsOf k a.length (a.drop i)

/-- A map entry of WRITE MAP ENTRIES: valid (1), slot (2). -/
def mapArg (r : List Byte) : Bool × BitVec 16 := (argFlag r 0, argWord r 1)

/-- A descriptor record of ten bytes: class in bits 0-1 of byte 5, service in bit 2. -/
def descriptorArg (r : List Byte) : DescriptorRecord :=
  ⟨BitVec.ofNat 24 (argNum r 0 3), byteAt r 3, byteAt r 4, (byteAt r 5).setWidth 2, (byteAt r 5).getLsbD 2, BitVec.ofNat 32 (argNum r 6 4)⟩

/-- An insert table entry: mass (2), caliper (2). -/
def insertArg (r : List Byte) : BitVec 16 × BitVec 16 := (argWord r 0, argWord r 2)

/-- A feeder map entry: enabled (1), loaded insert (1). -/
def feederMapArg (r : List Byte) : Bool × Byte := (argFlag r 0, byteAt r 1)

/-- A sort element record of 12 bytes. -/
def elementArg (r : List Byte) : ElementRecord :=
  ⟨byteAt r 0, BitVec.ofNat 32 (argNum r 1 4), BitVec.ofNat 32 (argNum r 5 4), byteAt r 9, byteAt r 10, byteAt r 11⟩

/-- The effect of a request whose body has the length its arguments need, none for another length. -/
def ofLength (a : List Byte) (n : Nat) (act : State → State × Reply) : Option (State → State × Reply) :=
  if a.length = n then some act else none

/-- The effect of a request code with its argument bytes; none for a code that names no request and for a body of another length (R185, R188). -/
def requestEffect (src : Addr) (code : Nat) (a : List Byte) : Option (State → State × Reply) :=
  match code with
  | 1 => ofLength a 9 (idleOnly (actSetWindow (byteAt a 0) (argFlag a 1) (BitVec.ofNat 24 (argNum a 2 3)) (byteAt a 5) (byteAt a 6) (argWord a 7)))
  | 2 => ofLength a (3 + 3 * countOf (byteAt a 2)) (actWriteMapEntries (argWord a 0) (byteAt a 2) ((argRecords a 3 3).map mapArg))
  | 3 => ofLength a (1 + 10 * countOf (byteAt a 0)) (actLoadDescriptors (byteAt a 0) ((argRecords a 1 10).map descriptorArg))
  | 4 => ofLength a 4 (actRetire (argWord a 0) (argWord a 2))
  | 5 => ofLength a 2 (actReadDescriptor (argWord a 0))
  | 6 => ofLength a 3 (actFindPiece (BitVec.ofNat 24 (argNum a 0 3)))
  | 7 => ofLength a 36 (idleOnly (actSetLayout a))
  | 8 => ofLength a 0 actReadLayout
  | 9 => ofLength a 5 (idleOnly (actSetTiming (byteAt a 0) (byteAt a 1) (byteAt a 2) (byteAt a 3) (byteAt a 4)))
  | 10 => if a.length = 0 then some (actReadTrack none) else ofLength a 1 (actReadTrack (some (byteAt a 0)))
  | 11 => ofLength a (2 + 2 * countOf (byteAt a 1))
      (idleOnly (actSetSelection (byteAt a 0) (byteAt a 1) ((argRecords a 2 2).map (fun r => argWord r 0))))
  | 12 => ofLength a (2 + 4 * (byteAt a 1).toNat) (idleOnly (actSetInserts (byteAt a 0) (byteAt a 1) ((argRecords a 2 4).map insertArg)))
  | 13 => ofLength a 3 (idleOnly (actSetInsertPolicy (byteAt a 0) (byteAt a 1) (argFlag a 2)))
  | 14 => ofLength a 16 (actStageFeederMap ((argRecords a 0 2).map feederMapArg))
  | 15 => ofLength a 0 actCommitFeederMap
  | 16 => ofLength a 2 (actRestoreFeeder (byteAt a 0) (argFlag a 1))
  | 17 => ofLength a 0 actReadFeeders
  | 18 => ofLength a 2 (actReadInsertTables (argWord a 0))
  | 19 => ofLength a 5 (idleOnly (actSetSheetParameters (argWord a 0) (argWord a 2) (byteAt a 4)))
  | 20 => ofLength a 8 (idleOnly (actSetEnvelopeClass (byteAt a 0) (argFlag a 1) (argWord a 2) (argWord a 4) (argWord a 6)))
  | 21 => ofLength a (1 + 2 * (byteAt a 0).toNat) (idleOnly (actSetBands (byteAt a 0) ((argRecords a 1 2).map (fun r => argWord r 0))))
  | 22 => ofLength a 0 actReadPlannerTables
  | 23 => ofLength a (2 + 12 * (byteAt a 1).toNat) (actStageSortElements (byteAt a 0) (byteAt a 1) ((argRecords a 2 12).map elementArg))
  | 24 => ofLength a 1 (idleOnly (actSetFallback (byteAt a 0)))
  | 25 => ofLength a 0 actCommitSortPlan
  | 26 => ofLength a 3 (actReadSortPlan (byteAt a 0) (byteAt a 1) (byteAt a 2))
  | 27 => ofLength a 6 (actTrySortKey (BitVec.ofNat 32 (argNum a 0 4)) (byteAt a 4) (byteAt a 5))
  | 28 => ofLength a 9 (actSetBinLimits (byteAt a 0) (argFlag a 1) (argWord a 2) (BitVec.ofNat 24 (argNum a 4 3)) (argWord a 7))
  | 29 => ofLength a 1 (actReadTrays (byteAt a 0))
  | 30 => ofLength a 0 actReadBins
  | 31 => ofLength a 0 (idleOnly actStartRun)
  | 32 => ofLength a 0 actEndRun
  | 33 => ofLength a 0 (actStop src)
  | 34 => ofLength a 0 actResume
  | 35 => ofLength a 4 (actDeclareRemoved (argFlag a 0) (byteAt a 1) (byteAt a 2) (argFlag a 3))
  | 36 => ofLength a 0 actAbortRun
  | 37 => ofLength a 0 actRestart
  | 38 => ofLength a 0 actReadRunStatus
  | 39 => ofLength a 1 (actReadCompletions (byteAt a 0))
  | 40 => ofLength a 0 actReadRunCounters
  | 41 => ofLength a 3 (actClearSummary (BitVec.ofNat 24 (argNum a 0 3)))
  | 42 => ofLength a 0 actReadSummary
  | 43 => ofLength a 0 actReadPort
  | _ => none

/-- The effect of a complete request's body; a body that passed 384 bytes is refused like one of a wrong length (R184, R185). -/
def bodyEffect (src : Addr) (body : List Byte) : State → State × Reply :=
  match body with
  | [] => refuse .badArgument
  | c :: a =>
    if body.length ≤ Config.requestBytes then (requestEffect src c.toNat a).getD (refuse .badArgument) else refuse .badArgument

/-- The request code a response carries: the one received, 0 for an empty body (R188). -/
def bodyCode (body : List Byte) : Byte := byteAt body 0

/-! ## Assembly (R184) -/

/-- The state with another assembly place. -/
def setAssembly (s : State) (x : Option Assembly) : State := withRp s { s.rp with assembly := x }

/-- A segment added: the message is complete with the last mark or past 384 bytes, and is then taken or dropped by R185 (R184). -/
def addSegment (src : Addr) (tag : Tag) (n : Nat) (last : Bool) (body : List Byte) (s : State) : State :=
  if last ∨ Config.requestBytes < body.length then answer src tag (bodyCode body) (bodyEffect src body) (setAssembly s none)
  else setAssembly s (some ⟨src, tag, n + 1, body⟩)

/-- A segment above 0 that the assembly held expects (R184). -/
def expects (a : Assembly) (src : Addr) (tag : Tag) (n : Nat) : Bool := a.src == src && a.tag == tag && a.expect == n

/-- A REQUEST frame by its segment number (R184). -/
def takeSegment (src : Addr) (tag : Tag) (segment : Byte) (body : List Byte) (s : State) : State :=
  let n := segment.toNat % 128
  if n = 0 then addSegment src tag 0 segment.msb body s
  else
    match s.rp.assembly with
    | some a => if expects a src tag n then addSegment src tag n segment.msb (a.body ++ body) s else dropUnexpected src s
    | none => dropUnexpected src s

/-- REQUEST (R184). -/
def execRequest (src : Addr) (tag : Tag) (segment : Byte) (body : List Byte) (s : State) : Host.Outcome State Fault Refusal :=
  .next (event (takeSegment src tag segment body) s)

/-! ## Received frames (R178-R181) -/

/-- Whether a received frame passes the check: a length of at most 56 that its bytes match, and the CRC (R179, log 9). -/
def frameGood (bytes : List Byte) : Bool :=
  decide ((byteAt bytes 4).toNat ≤ Config.payloadBytes) && bytes.length == 7 + (byteAt bytes 4).toNat
    && crcOf (bytes.take (bytes.length - 2)) == argWord bytes (bytes.length - 2)

/-- The payload of a frame (R178). -/
def framePayload (bytes : List Byte) : List Byte := (bytes.drop 5).take (byteAt bytes 4).toNat

/-- A frame consumed by the part, handed on by its kind and payload length (R181, R188). -/
def consume (src : Addr) (kind : Byte) (stamp : Stamp) (x : List Byte) (s : State) : State :=
  match kindOf kind, x.length with
  | some .sheet, 5 => sheetReport src (BitVec.ofNat 24 (argNum x 0 3)) (byteAt x 3) (byteAt x 4) s
  | some .feed, 1 => feedReport src stamp (byteAt x 0) s
  | some .material, 1 => materialReport src (byteAt x 0) s
  | some .read, 3 => readReport src stamp (BitVec.ofNat 24 (argNum x 0 3)) s
  | some .landed, 1 => landedReport src stamp (byteAt x 0) s
  | some .trayReady, 1 => trayReadyReport src (byteAt x 0) s
  | some .jam, 0 => jamReport src s
  | some .request, n =>
    if 3 ≤ n then takeSegment src (BitVec.ofNat 16 (argNum x 0 2)) (byteAt x 2) (x.drop 3) s else dropUnexpected src s
  | _, _ => dropUnexpected src s

/-- A frame to be forwarded: to the tail of the forward queue, or FORWARD_OVERRUN (R180). -/
def forwardFrame (src : Addr) (bytes : List Byte) (s : State) : State :=
  if s.rp.forward.length < Config.forwardQueue then withRp s { s.rp with forward := s.rp.forward ++ [bytes] }
  else raise .forwardOverrun (some src) none none s

/-- A frame arrival: check, own source, own destination, forward, in this order (R179). -/
def takeFrame (bytes : List Byte) (s : State) : State :=
  let dest := addrOf (byteAt bytes 0)
  let src := addrOf (byteAt bytes 1)
  if frameGood bytes then
    if s.rp.own ≠ Config.unassigned ∧ src = s.rp.own then s
    else if s.rp.own ≠ Config.unassigned ∧ dest = s.rp.own then
      consume src (byteAt bytes 2) (byteAt bytes 3) (framePayload bytes) s
    else forwardFrame src bytes s
  else raise .linkCheck none none none s

/-- FRAME_ARRIVAL (R179). -/
def execFrameArrival (bytes : List Byte) (s : State) : Host.Outcome State Fault Refusal := .next (event (takeFrame bytes) s)

/-! ## The downstream port (R183) -/

/-- The other queue. -/
def otherPort : Port → Port
  | .forward => .originate
  | .originate => .forward

/-- The queue whose oldest frame the port begins next, none when both are empty (R183). -/
def nextPort (x : Rp) : Option Port :=
  match x.forward, x.originate with
  | [], [] => none
  | _ :: _, [] => some .forward
  | [], _ :: _ => some .originate
  | _ :: _, _ :: _ => some x.turn

/-- A frame begun when the port is not sending; the turn goes to the other queue (R183). -/
def beginSend (s : State) : State :=
  match s.rp.sending, nextPort s.rp with
  | none, some q => withRp s { s.rp with sending := some q, turn := otherPort q }
  | _, _ => s

/-- DOWNSTREAM_SEND_BEGIN (R183). -/
def execDownstreamSendBegin (s : State) : Host.Outcome State Fault Refusal := .next (event beginSend s)

/-- The port finishes sending: the frame leaves its queue and its entry is free (R180, R182, R183). What freed entries are offered to
follows as outstanding work (log 4). -/
def finishSend (s : State) : State :=
  match s.rp.sending with
  | some .forward => withRp s { s.rp with forward := s.rp.forward.tail, sending := none }
  | some .originate => withRp s { s.rp with originate := s.rp.originate.tail, sending := none }
  | none => s

/-- FRAME_SENT (R183). -/
def execFrameSent (s : State) : Host.Outcome State Fault Refusal := .next (event finishSend s)

end Sys2Proof.Machine
end

