-- ==== Sys2Proof/Machine/Dispatch.lean ====
section
/-! DEFINITION. One arm per command. -/

namespace Sys2Proof.Machine

/-- A command's effect on everything but the queue of commands. -/
def exec (i : Instr) (s : State) : Host.Outcome State Fault Refusal :=
  match i with
  | .powerOnReset straps => Sys2Proof.Machine.execPowerOnReset straps s
  | .pitchArrival => Sys2Proof.Machine.execPitchArrival s
  | .release => Sys2Proof.Machine.execRelease s
  | .exitDeadline slot => Sys2Proof.Machine.execExitDeadline slot s
  | .feedDeadline slot insert => Sys2Proof.Machine.execFeedDeadline slot insert s
  | .verifyDeadline slot => Sys2Proof.Machine.execVerifyDeadline slot s
  | .feederMapCopy => Sys2Proof.Machine.execFeederMapCopy s
  | .sortPlanCopy => Sys2Proof.Machine.execSortPlanCopy s
  | .trayChangeRetry => Sys2Proof.Machine.execTrayChangeRetry s
  | .frameArrival bytes => Sys2Proof.Machine.execFrameArrival bytes s
  | .downstreamSendBegin => Sys2Proof.Machine.execDownstreamSendBegin s
  | .frameSent => Sys2Proof.Machine.execFrameSent s
  | .pendingCutterCommandQueued => Sys2Proof.Machine.execPendingCutterCommandQueued s
  | .responseSegmentQueued => Sys2Proof.Machine.execResponseSegmentQueued s
  | .alert => Sys2Proof.Machine.execAlert s
  | .sheet src id index count => Sys2Proof.Machine.execSheet src id index count s
  | .feed src stamp outcome => Sys2Proof.Machine.execFeed src stamp outcome s
  | .material src level => Sys2Proof.Machine.execMaterial src level s
  | .read src stamp id => Sys2Proof.Machine.execRead src stamp id s
  | .landed src stamp place => Sys2Proof.Machine.execLanded src stamp place s
  | .trayReady src bin => Sys2Proof.Machine.execTrayReady src bin s
  | .heldRecordAppended => Sys2Proof.Machine.execHeldRecordAppended s
  | .jam src => Sys2Proof.Machine.execJam src s
  | .request src tag segment body => Sys2Proof.Machine.execRequest src tag segment body s
  | .setWindow src tag window enabled base k mode start => Sys2Proof.Machine.execSetWindow src tag window enabled base k mode start s
  | .writeMapEntries src tag first count entries => Sys2Proof.Machine.execWriteMapEntries src tag first count entries s
  | .loadDescriptors src tag count records => Sys2Proof.Machine.execLoadDescriptors src tag count records s
  | .retire src tag first last => Sys2Proof.Machine.execRetire src tag first last s
  | .readDescriptor src tag slot => Sys2Proof.Machine.execReadDescriptor src tag slot s
  | .findPiece src tag id => Sys2Proof.Machine.execFindPiece src tag id s
  | .setLayout src tag record => Sys2Proof.Machine.execSetLayout src tag record s
  | .readLayout src tag => Sys2Proof.Machine.execReadLayout src tag s
  | .setTiming src tag lr lf lg ls allowance => Sys2Proof.Machine.execSetTiming src tag lr lf lg ls allowance s
  | .readTrack src tag slot => Sys2Proof.Machine.execReadTrack src tag slot s
  | .setSelection src tag first count sets => Sys2Proof.Machine.execSetSelection src tag first count sets s
  | .setInserts src tag first count entries => Sys2Proof.Machine.execSetInserts src tag first count entries s
  | .setInsertPolicy src tag limit threshold single => Sys2Proof.Machine.execSetInsertPolicy src tag limit threshold single s
  | .stageFeederMap src tag bank => Sys2Proof.Machine.execStageFeederMap src tag bank s
  | .commitFeederMap src tag => Sys2Proof.Machine.execCommitFeederMap src tag s
  | .restoreFeeder src tag feeder reset => Sys2Proof.Machine.execRestoreFeeder src tag feeder reset s
  | .readFeeders src tag => Sys2Proof.Machine.execReadFeeders src tag s
  | .readInsertTables src tag first => Sys2Proof.Machine.execReadInsertTables src tag first s
  | .setSheetParameters src tag mass caliper panels => Sys2Proof.Machine.execSetSheetParameters src tag mass caliper panels s
  | .setEnvelopeClass src tag cls enabled mass wall fill => Sys2Proof.Machine.execSetEnvelopeClass src tag cls enabled mass wall fill s
  | .setBands src tag count limits => Sys2Proof.Machine.execSetBands src tag count limits s
  | .readPlannerTables src tag => Sys2Proof.Machine.execReadPlannerTables src tag s
  | .stageSortElements src tag first count elements => Sys2Proof.Machine.execStageSortElements src tag first count elements s
  | .setFallback src tag action => Sys2Proof.Machine.execSetFallback src tag action s
  | .commitSortPlan src tag => Sys2Proof.Machine.execCommitSortPlan src tag s
  | .readSortPlan src tag bank first count => Sys2Proof.Machine.execReadSortPlan src tag bank first count s
  | .trySortKey src tag key band service => Sys2Proof.Machine.execTrySortKey src tag key band service s
  | .setBinLimits src tag bin disabled maxCount maxMass minCount => Sys2Proof.Machine.execSetBinLimits src tag bin disabled maxCount maxMass minCount s
  | .readTrays src tag count => Sys2Proof.Machine.execReadTrays src tag count s
  | .readBins src tag => Sys2Proof.Machine.execReadBins src tag s
  | .startRun src tag => Sys2Proof.Machine.execStartRun src tag s
  | .endRun src tag => Sys2Proof.Machine.execEndRun src tag s
  | .stop src tag => Sys2Proof.Machine.execStop src tag s
  | .resume src tag => Sys2Proof.Machine.execResume src tag s
  | .declareRemoved src tag range lo hi accumulator => Sys2Proof.Machine.execDeclareRemoved src tag range lo hi accumulator s
  | .abortRun src tag => Sys2Proof.Machine.execAbortRun src tag s
  | .restart src tag => Sys2Proof.Machine.execRestart src tag s
  | .readRunStatus src tag => Sys2Proof.Machine.execReadRunStatus src tag s
  | .readCompletions src tag count => Sys2Proof.Machine.execReadCompletions src tag count s
  | .readRunCounters src tag => Sys2Proof.Machine.execReadRunCounters src tag s
  | .clearSummary src tag flags => Sys2Proof.Machine.execClearSummary src tag flags s
  | .readSummary src tag => Sys2Proof.Machine.execReadSummary src tag s
  | .readPort src tag => Sys2Proof.Machine.execReadPort src tag s
  | .resetLineHeld => Sys2Proof.Machine.execResetLineHeld s

end Sys2Proof.Machine
end

