-- ==== Sys2Proof/Machine/Step.lean ====
section
/-! DEFINITION. One step: the command at the front of the queue, and the idle step. -/

namespace Sys2Proof.Machine

/-- One step: the front command acts on the state with the rest of the queue; on an empty queue the part idles (log 2). -/
def step (s : State) : Host.Outcome State Fault Refusal :=
  match s.pending with
  | [] => .next s
  | c :: rest => exec c (withPending s rest)

/-- The state with the command a word spells at the front of its queue; no word spells one, since the table gives no bits. -/
def State.withFetchWord (s : State) (nbits w : Nat) : State :=
  match decodeTableWord nbits w with
  | some c => withPending s (c :: s.pending)
  | none => s

end Sys2Proof.Machine
end

