-- ==== Sys2Proof/WellFormed.lean ====
section
/-! DEFINITION. When a command's operands fit together as the frames that carry them do (R178, R184, R188), and the length of a request's body. -/

namespace Sys2Proof

/-- The value of a count byte in which 0 means 32 (R188). -/
def countField (b : Byte) : Nat := if b = 0#8 then 32 else b.toNat

/-- The length of a management request's body, code byte included, by the table of R188; none for a command that is no request. -/
def bodyLength (i : Instr) : Option Nat :=
  match i with
  | .powerOnReset _ => none
  | .pitchArrival => none
  | .release => none
  | .exitDeadline _ => none
  | .feedDeadline _ _ => none
  | .verifyDeadline _ => none
  | .feederMapCopy => none
  | .sortPlanCopy => none
  | .trayChangeRetry => none
  | .frameArrival _ => none
  | .downstreamSendBegin => none
  | .frameSent => none
  | .pendingCutterCommandQueued => none
  | .responseSegmentQueued => none
  | .alert => none
  | .sheet _ _ _ _ => none
  | .feed _ _ _ => none
  | .material _ _ => none
  | .read _ _ _ => none
  | .landed _ _ _ => none
  | .trayReady _ _ => none
  | .heldRecordAppended => none
  | .jam _ => none
  | .request _ _ _ _ => none
  | .setWindow _ _ _ _ _ _ _ _ => some 10
  | .writeMapEntries _ _ _ _ entries => some (4 + 3 * entries.length)
  | .loadDescriptors _ _ _ records => some (2 + 10 * records.length)
  | .retire _ _ _ _ => some 5
  | .readDescriptor _ _ _ => some 3
  | .findPiece _ _ _ => some 4
  | .setLayout _ _ record => some (1 + record.length)
  | .readLayout _ _ => some 1
  | .setTiming _ _ _ _ _ _ _ => some 6
  | .readTrack _ _ slot => some (1 + slot.toList.length)
  | .setSelection _ _ _ _ sets => some (3 + 2 * sets.length)
  | .setInserts _ _ _ _ entries => some (3 + 4 * entries.length)
  | .setInsertPolicy _ _ _ _ _ => some 4
  | .stageFeederMap _ _ bank => some (1 + 2 * bank.length)
  | .commitFeederMap _ _ => some 1
  | .restoreFeeder _ _ _ _ => some 3
  | .readFeeders _ _ => some 1
  | .readInsertTables _ _ _ => some 3
  | .setSheetParameters _ _ _ _ _ => some 6
  | .setEnvelopeClass _ _ _ _ _ _ _ => some 9
  | .setBands _ _ _ limits => some (2 + 2 * limits.length)
  | .readPlannerTables _ _ => some 1
  | .stageSortElements _ _ _ _ elements => some (3 + 12 * elements.length)
  | .setFallback _ _ _ => some 2
  | .commitSortPlan _ _ => some 1
  | .readSortPlan _ _ _ _ _ => some 4
  | .trySortKey _ _ _ _ _ => some 7
  | .setBinLimits _ _ _ _ _ _ _ => some 10
  | .readTrays _ _ _ => some 2
  | .readBins _ _ => some 1
  | .startRun _ _ => some 1
  | .endRun _ _ => some 1
  | .stop _ _ => some 1
  | .resume _ _ => some 1
  | .declareRemoved _ _ _ _ _ _ => some 5
  | .abortRun _ _ => some 1
  | .restart _ _ => some 1
  | .readRunStatus _ _ => some 1
  | .readCompletions _ _ _ => some 2
  | .readRunCounters _ _ => some 1
  | .clearSummary _ _ _ => some 4
  | .readSummary _ _ => some 1
  | .readPort _ _ => some 1
  | .resetLineHeld => none

/-- Whether the lists of a command have the lengths its count bytes and layouts give (R188). -/
def shapeOk (i : Instr) : Bool :=
  match i with
  | .powerOnReset _ => true
  | .pitchArrival => true
  | .release => true
  | .exitDeadline _ => true
  | .feedDeadline _ insert => decide (insert.toNat < Config.inserts)
  | .verifyDeadline _ => true
  | .feederMapCopy => true
  | .sortPlanCopy => true
  | .trayChangeRetry => true
  | .frameArrival bytes => decide (7 ≤ bytes.length) && decide (bytes.length ≤ 7 + Config.payloadBytes)
  | .downstreamSendBegin => true
  | .frameSent => true
  | .pendingCutterCommandQueued => true
  | .responseSegmentQueued => true
  | .alert => true
  | .sheet _ _ _ _ => true
  | .feed _ _ _ => true
  | .material _ _ => true
  | .read _ _ _ => true
  | .landed _ _ _ => true
  | .trayReady _ _ => true
  | .heldRecordAppended => true
  | .jam _ => true
  | .request _ _ _ body => decide (body.length ≤ Config.segmentBytes)
  | .setWindow _ _ _ _ _ _ _ _ => true
  | .writeMapEntries _ _ _ count entries => entries.length == countField count
  | .loadDescriptors _ _ count records => records.length == countField count
  | .retire _ _ _ _ => true
  | .readDescriptor _ _ _ => true
  | .findPiece _ _ _ => true
  | .setLayout _ _ record => record.length == 36
  | .readLayout _ _ => true
  | .setTiming _ _ _ _ _ _ _ => true
  | .readTrack _ _ _ => true
  | .setSelection _ _ _ count sets => sets.length == countField count
  | .setInserts _ _ _ count entries => entries.length == count.toNat
  | .setInsertPolicy _ _ _ _ _ => true
  | .stageFeederMap _ _ bank => bank.length == Config.feeders
  | .commitFeederMap _ _ => true
  | .restoreFeeder _ _ _ _ => true
  | .readFeeders _ _ => true
  | .readInsertTables _ _ _ => true
  | .setSheetParameters _ _ _ _ _ => true
  | .setEnvelopeClass _ _ _ _ _ _ _ => true
  | .setBands _ _ count limits => limits.length == count.toNat
  | .readPlannerTables _ _ => true
  | .stageSortElements _ _ _ count elements => elements.length == count.toNat
  | .setFallback _ _ _ => true
  | .commitSortPlan _ _ => true
  | .readSortPlan _ _ _ _ _ => true
  | .trySortKey _ _ _ _ _ => true
  | .setBinLimits _ _ _ _ _ _ _ => true
  | .readTrays _ _ _ => true
  | .readBins _ _ => true
  | .startRun _ _ => true
  | .endRun _ _ => true
  | .stop _ _ => true
  | .resume _ _ => true
  | .declareRemoved _ _ _ _ _ _ => true
  | .abortRun _ _ => true
  | .restart _ _ => true
  | .readRunStatus _ _ => true
  | .readCompletions _ _ _ => true
  | .readRunCounters _ _ => true
  | .clearSummary _ _ _ => true
  | .readSummary _ _ => true
  | .readPort _ _ => true
  | .resetLineHeld => true

/-- Well-formed: the lists fit their counts, and a request's body fits the 384 bytes of R184. -/
def wellFormed (i : Instr) : Bool :=
  shapeOk i && (match bodyLength i with | some n => decide (n ≤ Config.requestBytes) | none => true)

end Sys2Proof
end

