-- ==== Sys2Proof/Safety.lean ====
section
/-! DEFINITION. The terms in which statements about the part are made: what a command leaves as it was, what a response and a flag add, and the laws of the device that every step keeps. -/

namespace Sys2Proof.Machine

/-! ## What stays as it was -/

/-- Every block but the attention summary and the ring port is the same. -/
abbrev SameBlocks (u t : State) : Prop :=
  t.pending = u.pending ∧ t.due = u.due ∧ t.resetHeld = u.resetHeld ∧ t.ds = u.ds ∧ t.cu = u.cu ∧ t.tu = u.tu ∧ t.iu = u.iu ∧
    t.pp = u.pp ∧ t.su = u.su ∧ t.bu = u.bu ∧ t.rc = u.rc

/-- The ring port is the same but for the originate queue and the response buffer. -/
abbrev SamePort (u t : State) : Prop :=
  t.rp.own = u.rp.own ∧ t.rp.forward = u.rp.forward ∧ t.rp.sending = u.rp.sending ∧ t.rp.turn = u.rp.turn ∧
    t.rp.assembly = u.rp.assembly

/-! ## Bytes (R188) -/

/-- A number in w bytes, high byte first. -/
def field : Nat → Nat → List Byte
  | 0, _ => []
  | w + 1, n => field w (n / 256) ++ [BitVec.ofNat 8 n]

/-- A number that may be absent: each of its w bytes FFh then. -/
def fieldOr (w : Nat) (n : Option Nat) : List Byte := n.elim (List.replicate w 255#8) (field w)

/-- A flag, one byte. -/
def flagField (b : Bool) : List Byte := [if b then 1#8 else 0#8]

/-- A named value, one byte: its place in the list of its rule, counting from 0. -/
def placeIn {α : Type} [DecidableEq α] (names : List α) (x : α) : List Byte := field 1 (names.idxOf x)

/-- A named value that may be absent. -/
def placeOr {α : Type} [DecidableEq α] (names : List α) (x : Option α) : List Byte := fieldOr 1 (x.map (fun y => names.idxOf y))

/-- A set of numbered members in w bytes: bit i for member i. -/
def bitField (w : Nat) (member : Nat → Bool) : List Byte := field w (((List.range (8 * w)).filter member).map (2 ^ ·)).sum

/-- A piece ID, 16,777,215 when absent. -/
def idField (id : Option PieceId) : List Byte := field 3 (id.elim 16777215 BitVec.toNat)

/-- A station address that may be absent. -/
def addrField (a : Option Addr) : List Byte := fieldOr 1 (a.map BitVec.toNat)

/-! ## Requests -/

/-- The part is live, and a request that comes now is taken (R164, R185). A pending ALERT which a freed entry waits for goes ahead of the
request, so the last freed entry is the ALERT's: the model's choice (DESIGN CHOICE, log 35; R175 lets either go first). -/
abbrev Takes (s : State) : Prop := s.resetHeld = false ∧ requestTaken (settle s) = true

/-- The body of a response: the request code, the status, details A and B in two bytes each, and the results (R185). -/
def responseBody (code : Byte) (r : Reply) : List Byte :=
  code :: (placeIn [Status.done, .partly, .wrongState, .badArgument, .slotBusy, .notFound] r.status ++ field 2 r.a ++ field 2 r.b ++
    r.results)

/-- A body in segments of 53 bytes, the last one holding the remainder (R186). -/
def segmentsOf (body : List Byte) : List (List Byte) :=
  (List.range ((body.length + 52) / 53)).map (fun i => (body.drop (53 * i)).take 53)

/-- The payload of segment i of a message: the tag, the segment byte with the last mark in bit 7, and the segment's bytes (R184, R188). -/
def segmentPayload (tag : Tag) (i : Nat) (last : Bool) (bytes : List Byte) : List Byte :=
  field 2 tag.toNat ++ field 1 (i % 128 + if last then 128 else 0) ++ bytes

/-- The management entries that are free (R182). -/
def managementFree (s : State) : Nat := 4 - (s.rp.originate.filter isManagement).length

/-- A response built: as many of its segments as management entries are free are queued, in order and with the stamp of the current pitch,
and the rest stay in the buffer, which is empty when none is left (R184-R186). -/
def responseQueued (src : Addr) (tag : Tag) (code : Byte) (r : Reply) (u : State) : State :=
  let parts := segmentsOf (responseBody code r)
  let k := min parts.length (managementFree u)
  withRp u { u.rp with
    originate := u.rp.originate ++ (List.range k).map (fun i =>
      ⟨src, .response, stampOf u.tu.pitch, segmentPayload tag i (decide (i + 1 = parts.length)) (parts.getD i [])⟩)
    response := if k = parts.length then none else some ⟨src, tag, k, parts.drop k⟩ }

/-- A pending ALERT placed, with the summary as it stands, when a management entry is free, no response is in the buffer and the line
computer has an address; otherwise nothing changes (R175). -/
def alertOffered (v : State) : State :=
  if v.cl.alertPending = true ∧ 0 < managementFree v ∧ v.rp.response = none ∧ v.tu.layout.lineComputer ≠ 63#6 then
    withRp (withCl v { v.cl with alertPending := false }) { v.rp with
      originate := v.rp.originate ++ [⟨v.tu.layout.lineComputer, .alert, stampOf v.tu.pitch, field 3 v.cl.summary.toNat⟩] }
  else v

/-- A request answered, the state u otherwise as it was: the response, all its segments queued or buffered, and a pending ALERT placed after
the last of them where it can be (R175, R185, R186). -/
def Answered (src : Addr) (tag : Tag) (code : Byte) (r : Reply) (u t : State) : Prop :=
  t = alertOffered (responseQueued src tag code r u)

/-- A request handled: its effect, made while its response has the buffer, so that an ALERT made pending meanwhile waits; and then its
answer, with nothing else (R175, R185). -/
def Handled (src : Addr) (tag : Tag) (code : Byte) (r : Reply) (effect : State → State → Prop) (u t : State) : Prop :=
  ∃ x, effect (withRp u { u.rp with response := some ⟨src, tag, 0, []⟩ }) x ∧ Answered src tag code r x t

/-- Whether a command is a management request (section 11.5). -/
def isRequest (c : Instr) : Bool := (bodyLength c).isSome

/-! ## Flags -/

/-- A cause taken by the summary (R172, R173). -/
def FlagTaken (f : Flag) (a : Option Addr) (p : Option Pitch) (i : Option PieceId) (u t : State) : Prop :=
  t.cl.summary = u.cl.summary ||| flagMask f ∧
    t.cl.capture = (if u.cl.summary = 0#18 then some ⟨f, a, p, i⟩ else u.cl.capture) ∧
    t.cl.log = u.cl.log ∧ t.cl.counters = u.cl.counters

/-- The ALERT of a cause taken on an empty summary: placed at once, behind the frames queued and with the summary as it stands, when a
management entry is free, no response waits and the line computer has an address; pending otherwise (R172, R175). -/
abbrev AlertMade (u t : State) : Prop :=
  (managementRoom u = true → u.rp.response = none → u.tu.layout.lineComputer ≠ 63#6 →
    t.cl.alertPending = false ∧ t.rp = { u.rp with
      originate := u.rp.originate ++ [⟨u.tu.layout.lineComputer, .alert, stampOf u.tu.pitch, be3 t.cl.summary.toNat⟩] }) ∧
  ((managementRoom u = false ∨ u.rp.response ≠ none ∨ u.tu.layout.lineComputer = 63#6) → t.cl.alertPending = true ∧ t.rp = u.rp)

/-- A cause taken, and nothing else but, on an empty summary, its ALERT (R172, R175). -/
def FlagOnly (f : Flag) (a : Option Addr) (p : Option Pitch) (i : Option PieceId) (u t : State) : Prop :=
  FlagTaken f a p i u t ∧ SameBlocks u t ∧ (u.cl.summary = 0#18 → AlertMade u t) ∧
    (u.cl.summary ≠ 0#18 → t.cl.alertPending = u.cl.alertPending ∧ t.rp = u.rp)

/-! ## Reports -/

/-- The piece a resolved report that is neither stale nor late applies to (R56-R59): the resolved pitch, the slot and the piece. -/
abbrev AppliesTo (u : State) (q : Nat) (stamp : Stamp) (P : Pitch) (k : Nat) (p : Piece) : Prop :=
  resolveStamp u.tu.pitch stamp = some P ∧ pitchDiff u.tu.pitch P ≤ u.tu.timing.allowance ∧
    k = ringSlot (P - BitVec.ofNat 32 q) ∧ pieceAt u k = some p ∧ p.entry = P - BitVec.ofNat 32 q

/-! ## Laws of the device -/

/-- The completion-log law with the laws of the ring and the opened count (R39, R50, R166, R171): the ring is canonical and each piece
stands in the slot of its entry pitch; the log's occupancy and the pieces in flight never exceed 1024; the records opened equal the
pieces in flight plus the entries written; and in IDLE no piece is in flight. -/
abbrev LogLaw (s : State) : Prop :=
  Table.canonical none s.tu.ring ∧ (∀ e ∈ s.tu.ring, ∀ p ∈ e.2, e.1 = ringSlot p.entry) ∧
    s.cl.log.length + inFlight s ≤ Config.completionLog ∧
    s.cl.counters.opened = BitVec.ofNat 32 (inFlight s) + s.cl.counters.exited ∧ (s.rc.state = .idle → inFlight s = 0)

/-- Every numbered store is in its canonical form. -/
abbrev TablesLaw (s : State) : Prop :=
  Table.canonical none s.ds.slots ∧ Table.canonical .off s.ds.windows ∧ Table.canonical .off s.ds.map ∧
    Table.canonical .off s.tu.layout.feeders ∧ Table.canonical none s.tu.ring ∧ Table.canonical 0#12 s.iu.selection ∧
    Table.canonical .off s.iu.inserts ∧ Table.canonical .off s.iu.feeders ∧ Table.canonical .off s.iu.staged ∧
    Table.canonical .off s.iu.active ∧ Table.canonical .off s.pp.classes ∧ Table.canonical .disabled s.su.active ∧
    Table.canonical .disabled s.su.staged ∧ Table.canonical .off s.bu.bins

/-- The queues of the ring port hold no more than their places (R180, R182). -/
abbrev QueueLaw (s : State) : Prop :=
  commandCount s ≤ Config.commandEntries ∧ managementCount s ≤ Config.managementEntries ∧ s.rp.forward.length ≤ Config.forwardQueue

/-- The books agree: exited is sorted plus diverted (R171); a resume state is held exactly in STOPPED and is RUNNING or DRAINING (R152);
a capture is held exactly while the summary is not empty, and no ALERT is pending on an empty one (R173, R175). -/
abbrev BooksLaw (s : State) : Prop :=
  s.cl.counters.exited = s.cl.counters.sorted + s.cl.counters.diverted ∧
    (s.rc.resume.isSome = true ↔ s.rc.state = .stopped) ∧ (∀ r ∈ s.rc.resume, r = .running ∨ r = .draining) ∧
    (s.cl.capture.isSome = true ↔ s.cl.summary ≠ 0#18) ∧ (s.cl.alertPending = true → s.cl.summary ≠ 0#18)

/-! ## Commands, flags and bins in one act -/

/-- The frames of the command part of the originate queue, oldest first (R182). -/
def commands (s : State) : List Frame := s.rp.originate.filter (fun f => !isManagement f)

/-- The command entries that are free (R182). -/
def commandFree (s : State) : Nat := 28 - (commands s).length

/-- A cause taken by the summary: its flag, and on an empty summary the capture (R172, R173). -/
abbrev CauseTaken (f : Flag) (a : Option Addr) (p : Option Pitch) (i : Option PieceId) (u t : State) : Prop :=
  t.cl.summary = u.cl.summary ||| flagMask f ∧ t.cl.capture = (if u.cl.summary = 0#18 then some ⟨f, a, p, i⟩ else u.cl.capture)

/-- A cause taken first among those of its act, others perhaps after it (R172, R173). -/
abbrev CauseAmong (f : Flag) (a : Option Addr) (p : Option Pitch) (i : Option PieceId) (u t : State) : Prop :=
  t.cl.summary.getLsbD (flagBit f) = true ∧ t.cl.capture = (if u.cl.summary = 0#18 then some ⟨f, a, p, i⟩ else u.cl.capture)

/-- No cause is taken: summary, capture and ALERT stay. -/
abbrev NoCause (u t : State) : Prop :=
  t.cl.summary = u.cl.summary ∧ t.cl.capture = u.cl.capture ∧ t.cl.alertPending = u.cl.alertPending ∧ t.rp = u.rp

/-- What does not belong to the blocks: the waiting commands, the outstanding work and the reset line. -/
abbrev SameLines (u t : State) : Prop := t.pending = u.pending ∧ t.due = u.due ∧ t.resetHeld = u.resetHeld

/-- A bin once a piece on a path has given up its place in the current tray the path names (R147). -/
def unreserved (path : Path) (mass : Option Nat) (b : Nat) (x : Bin) : Bin :=
  match path, x.tray with
  | .sort b' seq, some y =>
    if b = b' ∧ y.seq = seq ∧ (x.state = .opened ∨ x.state = .full) then
      { x with tray := some { y with reserved := y.reserved - 1, reservedMass := y.reservedMass - mass.getD 0 } }
    else x
  | _, _ => x

/-- A piece's reservation is given up, and nothing else of the bins changes (R147). -/
abbrev Unreserved (p : Piece) (u t : State) : Prop := ∀ b, binAt t b = unreserved p.path p.mass b (binAt u b)

/-- Whether a path is SORT. -/
def onSort : Path → Bool
  | .sort _ _ => true
  | _ => false

/-- A bin whose tray is closed, its TRAY_CHANGE queued or owed (R142). -/
def closedBin (why : CloseReason) (owes : Bool) (x : Bin) : Bin :=
  { x with state := .full, tray := x.tray.map (fun y => { y with reason := some why }), owed := x.owed || owes }

/-- The TRAY_CHANGE of a bin (R142). -/
def changeFrame (u : State) (b : Nat) (reserved : Nat) : Frame :=
  ⟨u.tu.layout.sorter.addr, .trayChange, stampOf u.tu.pitch, be1 b ++ be2 reserved⟩

/-- The bins that are OPEN with a tray that is not empty, B0 to B15 and then BO (R129, R149). -/
def closingBins (u : State) : List Nat :=
  (List.range 17).filter (fun b => decide ((binAt u b).state = .opened) && (binAt u b).tray.any (fun y => !trayEmpty y))

/-- The state with the TRAY_CHANGEs of the closing bins queued while command entries are free (R142). -/
def changesQueued (u : State) : State :=
  withRp u { u.rp with
    originate := u.rp.originate ++
      ((closingBins u).take (commandFree u)).map (fun b => changeFrame u b ((binAt u b).tray.elim 0 Tray.reserved)) }

/-- The closing bins of u being those whose change makes the state v: COMMAND_QUEUE_FULL when a TRAY_CHANGE is owed, and nothing else (R142). -/
abbrev ChangesSent (u v t : State) : Prop :=
  ((closingBins u).length ≤ commandFree u → t = v) ∧
  (commandFree u < (closingBins u).length → FlagOnly .commandQueueFull none none none v t)

/-- Every bin that is OPEN with a tray that is not empty is closed, and nothing else but its TRAY_CHANGE follows, queued while entries are
free and owed otherwise (R129, R142, R149). -/
abbrev BinsClosed (why : CloseReason) (u t : State) : Prop :=
  (∀ b, binAt t b =
    if b ∈ closingBins u then closedBin why (decide (b ∈ (closingBins u).drop (commandFree u))) (binAt u b) else binAt u b) ∧
  ChangesSent u (withBu (changesQueued u) { u.bu with bins := t.bu.bins }) t

/-- A tray closed, and nothing else: its TRAY_CHANGE queued, or owed with COMMAND_QUEUE_FULL (R142). -/
abbrev TrayClosed (b : Nat) (why : CloseReason) (u t : State) : Prop :=
  (commandRoom u = true → t = withRp (setBin u b (closedBin why false (binAt u b)))
    { u.rp with originate := u.rp.originate ++ [changeFrame u b ((binAt u b).tray.elim 0 Tray.reserved)] }) ∧
  (commandRoom u = false → FlagOnly .commandQueueFull none none none (setBin u b (closedBin why true (binAt u b))) t)

/-- The bins that owe a TRAY_CHANGE, B0 to B15 and then BO (R142). -/
def owingBins (u : State) : List Nat := (List.range 17).filter (fun b => (binAt u b).owed && (binAt u b).tray.isSome)

/-! ## The cutter (R39-R41) and the stop (R157) -/

/-- The condition for GO: at most one set in the release queue and a headroom above 8 (R40). -/
abbrev GoMet (u : State) : Prop := u.cu.queue.length ≤ 1 ∧ 8 < headroom u

/-- The condition for HOLD: three or more sets in the release queue, or a headroom of 8 or less (R40). -/
abbrev HoldMet (u : State) : Prop := 3 ≤ u.cu.queue.length ∨ headroom u ≤ 8

/-- HOLD or GO, to the cutter's address with the stamp of the current pitch (R40). -/
def cutterOrder (u : State) (x : Cutter) : Frame :=
  ⟨u.tu.layout.cutter, if x = .hold then .hold else .go, stampOf u.tu.pitch, []⟩

/-- HOLD or GO decided, and nothing else: queued, the hold state taking its value; or with the command part full COMMAND_QUEUE_FULL, the
hold state as it was, and the command pending, as what `waits` says (R40, R41). -/
abbrev CutterTold (x : Cutter) (waits : PendingCutter) (u t : State) : Prop :=
  (commandRoom u = true → t = withRp (withCu u { u.cu with hold := x, pendingCutter := none })
    { u.rp with originate := u.rp.originate ++ [cutterOrder u x] }) ∧
  (commandRoom u = false →
    FlagOnly .commandQueueFull none none none (withCu u { u.cu with pendingCutter := some waits }) t)

/-- What a test of R40 leaves of the pending cutter command: GO is withdrawn when the condition for it no longer holds, a HOLD by the queue
or the headroom when the condition for GO holds again, and a HOLD by run control stays (R41). -/
def stillPending (u : State) : Option PendingCutter :=
  match u.cu.pendingCutter with
  | some .go => if GoMet u then some .go else none
  | some .holdByQueue => if GoMet u then none else some .holdByQueue
  | x => x

/-- The test of R40 made: in RUNNING a cutter on GO is told HOLD, and a cutter on HOLD is told GO, when the condition for it is met; outside
RUNNING nothing changes. A HOLD that replaces a pending HOLD of run control stays one of run control (log 15). -/
def CutterTested (u t : State) : Prop :=
  (u.rc.state ≠ .running → t = u) ∧
  (u.rc.state = .running →
    let v := withCu u { u.cu with pendingCutter := stillPending u }
    (u.cu.hold = .go → HoldMet u →
      CutterTold .hold (if u.cu.pendingCutter = some .holdByRun then .holdByRun else .holdByQueue) v t) ∧
    (u.cu.hold = .hold → GoMet u → CutterTold .go .go v t) ∧
    ((u.cu.hold = .go → ¬HoldMet u) → (u.cu.hold = .hold → ¬GoMet u) → t = v))

/-- A cause of a stop has come: a run that is RUNNING or DRAINING becomes STOPPED, with its resume state and a stop record, and the cutter is
told HOLD whatever the hold state; in STOPPED and IDLE nothing changes (R40, R157). -/
abbrev RunStopped (cause : StopCause) (addr : Option Addr) (u t : State) : Prop :=
  ((u.rc.state = .running ∨ u.rc.state = .draining) →
    CutterTold .hold .holdByRun
      (withRc u ⟨.stopped, u.rc.run, some u.rc.state, some ⟨cause, addr, u.tu.pitch⟩⟩) t) ∧
  (u.rc.state ≠ .running → u.rc.state ≠ .draining → t = u)

/-! ## Drains of the completion log (R13, R170) -/

/-- Whether a drained entry frees a slot: it is SORTED and carries the slot, and the slot is SORTED with the entry's ID (R13). -/
abbrev Frees (u : State) (e : Entry) (n : Nat) : Prop :=
  e.outcome = .sorted ∧ e.slot = some n ∧ (descAt u n).any (fun d => decide (d.state = .sorted ∧ e.id = some d.id)) = true

/-- Drains in order: the head leaves the log, the test of R40 is made on the new headroom, and a SORTED entry's slot is freed (R170). -/
def Drained : Nat → State → State → Prop
  | 0, u, t => t = u
  | k + 1, u, t => ∃ e rest m v, u.cl.log = e :: rest ∧ CutterTested (withCl u { u.cl with log := rest }) m ∧
      (∀ n, Frees m e n → v = setDesc m n none) ∧ ((∀ n, ¬Frees m e n) → v = m) ∧ Drained k v t

/-! ## The end of DRAINING (R149, R156) -/

/-- A feeder's move when a map copy takes its enabled flag from one value to another (R74). -/
def movedFeeder (was is : Bool) (x : Feeder) : Feeder :=
  if is = false then { x with state := .offline }
  else if was then x
  else { x with state := levelState x.level, consecutive := 0 }

/-- Whether a map copy makes a feeder EMPTY (R74). -/
def becomesEmpty (u : State) (f : Nat) : Bool :=
  !(tget MapSlot.off u.iu.active f).enabled && (tget MapSlot.off u.iu.staged f).enabled && decide ((feederAt u f).level = .empty)

/-- The feeder map is copied (R73, R74). -/
abbrev MapCopied (u t : State) : Prop :=
  t.iu = { u.iu with active := u.iu.staged, commitPending := false, feeders := t.iu.feeders } ∧
    (TablesLaw u → ∀ f, f < 8 → feederAt t f =
      movedFeeder (tget MapSlot.off u.iu.active f).enabled (tget MapSlot.off u.iu.staged f).enabled (feederAt u f))

/-- The feeder map copied, with FEEDER_EMPTY when a feeder becomes EMPTY, and nothing else (R73, R74). That the lowest-numbered of several
gives the capture its address is the model's choice (log 31). -/
def MapCopyMade (u t : State) : Prop :=
  ∃ m, m = withIu u m.iu ∧ MapCopied u m ∧
    (∀ f, f < 8 → becomesEmpty u f = true → (∀ g, g < f → becomesEmpty u g = false) →
      FlagOnly .feederEmpty (some (placeAt u f).addr) none none m t) ∧
    ((∀ f, f < 8 → becomesEmpty u f = false) → t = m)

/-- The sort plan copied, and nothing else: the active bank, the generation, the end of the commit, the group break with its TRAY_CHANGEs,
and the new generation in the empty trays of OPEN bins (R128, R129, R132, R142). -/
abbrev PlanCopied (u t : State) : Prop :=
  (∀ b, b ∈ closingBins u →
    binAt t b = closedBin .groupBreak (decide (b ∈ (closingBins u).drop (commandFree u))) (binAt u b)) ∧
  (∀ b, b < 17 → (binAt u b).state = .opened → b ∉ closingBins u → binAt t b =
    { binAt u b with tray := (binAt u b).tray.map (fun y => { y with generation := u.su.generation + 1 }) }) ∧
  (∀ b, ((binAt u b).state ≠ .opened ∨ 17 ≤ b) → binAt t b = binAt u b) ∧
  ChangesSent u
    (withSu (withBu (changesQueued u) { u.bu with bins := t.bu.bins })
      { u.su with active := u.su.staged, generation := u.su.generation + 1, commitPending := false }) t

/-- The pending copies made as the run becomes IDLE, the feeder map's and then the sort plan's (R73, R127). -/
def CopiesMade (u t : State) : Prop :=
  ∃ m, (u.iu.commitPending = true → MapCopyMade u m) ∧ (u.iu.commitPending = false → m = u) ∧
    (u.su.commitPending = true → PlanCopied m t) ∧ (u.su.commitPending = false → t = m)

/-- Every bin is settled: DISABLED, or OPEN with an empty tray (R149). -/
abbrev AllSettled (u : State) : Prop :=
  ∀ b, b < 17 → (binAt u b).state = .disabled ∨ ((binAt u b).state = .opened ∧ (binAt u b).tray.any trayEmpty = true)

/-- The drain end: IDLE, RUN_COMPLETE, and the pending copies of the feeder map and of the sort plan (R73, R127, R156). That RUN_COMPLETE
is set ahead of the copies, and so takes the capture of an empty summary ahead of a FEEDER_EMPTY of the map copy, is the model's choice
(DESIGN CHOICE, log 34). -/
def DrainEnds (u t : State) : Prop :=
  ∃ a, FlagOnly .runComplete none (some u.tu.pitch) none (withRc u { u.rc with state := .idle }) a ∧ CopiesMade a t

/-- Whether the drain end is reached (R156). -/
abbrev DrainReached (u : State) : Prop := u.rc.state = .draining ∧ inFlight u = 0 ∧ AllSettled u

/-- The test for the drain end has been made (R156). -/
abbrev DrainTested (u t : State) : Prop := (DrainReached u → DrainEnds u t) ∧ (¬DrainReached u → t = u)

/-- A piece has left flight: in DRAINING with none in flight the run-end close is made and the drain end tested (R149, R156). -/
def FlightFell (u t : State) : Prop :=
  (u.rc.state = .draining → inFlight u = 0 → ∃ c, BinsClosed .runEnd u c ∧ DrainTested c t) ∧
    ((u.rc.state ≠ .draining ∨ inFlight u ≠ 0) → t = u)

/-! ## Pieces that leave, and faults (R62, R63, R104-R109) -/

/-- A piece with one more fault recorded: the first, or a further one (R104). -/
def faulted (f : PieceFault) (p : Piece) : Piece :=
  { p with fault := some (p.fault.getD f), further := p.further || p.fault.isSome }

/-- A piece has left the track with an outcome, an exit fault or none, and a bin and tray or none: its slot, its completion entry, the
counters, and the exit state of the descriptor it carried (R12, R62, R63, R168, R171). -/
abbrev Left (k : Nat) (p : Piece) (o : Outcome) (exit : Option PieceFault) (bin : Option Nat) (tray : Option (BitVec 16))
    (u t : State) : Prop :=
  pieceAt t k = none ∧ (∀ j, j ≠ k → pieceAt t j = pieceAt u j) ∧ t.tu = { u.tu with ring := t.tu.ring } ∧
    t.cl.log = u.cl.log ++ [⟨u.rc.run, some p.entry, p.id, p.slot, o, bin, tray, p.fault.or exit,
      p.further || (exit.isSome && p.fault.isSome), p.held, p.mass, (p.slot.bind (descAt u)).map Descriptor.reprint⟩] ∧
    t.cl.counters = { u.cl.counters with
      exited := u.cl.counters.exited + 1
      sorted := if o = .sorted then u.cl.counters.sorted + 1 else u.cl.counters.sorted
      diverted := if o = .sorted then u.cl.counters.diverted else u.cl.counters.diverted + 1 } ∧
    t.ds = { u.ds with slots := t.ds.slots } ∧
    (∀ n, descAt t n = if p.slot = some n then (descAt u n).map (fun d => { d with state := if o = .sorted then .sorted else .diverted })
      else descAt u n) ∧
    SameLines u t ∧ t.cu = u.cu ∧ t.iu = u.iu ∧ t.pp = u.pp ∧ t.su = u.su ∧ t.rc = u.rc

/-- The slots of the pieces on the track whose positions a test takes in, each once, the furthest position first (R160, R162). -/
abbrev RemovalOrder (u : State) (takes : Int → Prop) (slots : List Nat) : Prop :=
  let position := fun (k : Nat) => (pieceAt u k).elim 0 (fun p => pitchDiff u.tu.pitch p.entry)
  slots.Nodup ∧ (∀ k, k ∈ slots ↔ (pieceAt u k).isSome = true ∧ takes (position k)) ∧
    slots.Pairwise (fun j k => position k ≤ position j)

/-- The pieces in listed slots have left REMOVED, one after the other, each giving up its place in a tray, with no cause taken (R147,
R160, R162). -/
def PiecesRemoved : List Nat → State → State → Prop
  | [], u, t => t = u
  | k :: ks, u, t => ∃ p m, pieceAt u k = some p ∧ Left k p .removed (some .removed) none none u m ∧ Unreserved p u m ∧
      m.bu = { u.bu with bins := m.bu.bins } ∧ NoCause u m ∧ PiecesRemoved ks m t

/-- The sets of the collation unit in the order they leave: the queue from its head, then the place (R42). -/
def setsHeld (u : State) : List SetRec := u.cu.queue ++ (u.cu.place.map OpenRec.set).toList

/-- The completion entry of a set removed from collation (R42, R169). -/
def removedSet (u : State) (x : SetRec) : Entry :=
  ⟨u.rc.run, none, x.id, x.slot, .removed, none, none, some (x.fault.getD .removed), x.further || x.fault.isSome, x.held, none,
    (x.slot.bind (descAt u)).map Descriptor.reprint⟩

/-- The collation unit has given up its sets, and nothing else has changed: the entries in order, the counters, and the claimed
descriptors DIVERTED (R12, R42, R169). -/
abbrev SetsRemoved (u t : State) : Prop :=
  t.cu = { u.cu with place := none, queue := [] } ∧ t.cl.log = u.cl.log ++ (setsHeld u).map (removedSet u) ∧
    t.cl.counters = { u.cl.counters with
      exited := u.cl.counters.exited + BitVec.ofNat 32 (setsHeld u).length
      diverted := u.cl.counters.diverted + BitVec.ofNat 32 (setsHeld u).length } ∧
    t.ds = { u.ds with slots := t.ds.slots } ∧
    (∀ n, descAt t n = if some n ∈ (setsHeld u).map SetRec.slot then (descAt u n).map (fun d => { d with state := .diverted })
      else descAt u n) ∧
    NoCause u t ∧ SameLines u t ∧ t.tu = u.tu ∧ t.iu = u.iu ∧ t.pp = u.pp ∧ t.su = u.su ∧ t.bu = u.bu ∧ t.rc = u.rc

/-- Nothing but one slot of the ring, the bins, the originate queue and the summary may have changed. -/
abbrev OnlyPiece (k : Nat) (u t : State) : Prop :=
  (∀ j, j ≠ k → pieceAt t j = pieceAt u j) ∧ t.tu = { u.tu with ring := t.tu.ring } ∧ t.bu = { u.bu with bins := t.bu.bins } ∧
    SameLines u t ∧ t.ds = u.ds ∧ t.cu = u.cu ∧ t.iu = u.iu ∧ t.pp = u.pp ∧ t.su = u.su ∧ t.rc = u.rc ∧ t.cl.log = u.cl.log ∧
    t.cl.counters = u.cl.counters

/-- Whether the gate can still be told of a piece (R106). -/
abbrev GateInReach (u : State) (p : Piece) : Prop :=
  (u.tu.timing.lg : Int) ≤ pitchDiff (p.entry + BitVec.ofNat 32 u.tu.layout.gate.pos) u.tu.pitch

/-- Whether the sorter can still be told of a piece (R109). -/
abbrev SorterInReach (u : State) (p : Piece) : Prop :=
  (u.tu.timing.ls : Int) ≤ pitchDiff (p.entry + BitVec.ofNat 32 u.tu.layout.sorter.pos) u.tu.pitch

/-- The DIVERT of a piece (R108). -/
def divertOf (u : State) (p : Piece) : Frame :=
  ⟨u.tu.layout.gate.addr, .divert, stampOf (p.entry + BitVec.ofNat 32 u.tu.layout.gate.pos), be3 (p.id.getD 16777215#24).toNat⟩

/-- The BIN of a piece to a bin, or to BR with the superseding mark (R109, R141). -/
def binOrder (u : State) (p : Piece) (code mark : Byte) : Frame :=
  ⟨u.tu.layout.sorter.addr, .bin, stampOf (p.entry + BitVec.ofNat 32 u.tu.layout.sorter.pos), [code, mark]⟩

/-- The path rule on a piece with a fault (R106-R109): a DIVERT and path GATE while the gate is in reach and an entry is free; otherwise
an UNDECIDED piece goes to REJECT without a command, one on SORT by a superseding BIN while the sorter is in reach and an entry is free,
and any other stays. A path left gives up its reservation; each command that finds no entry sets COMMAND_QUEUE_FULL. -/
abbrev PathChosen (k : Nat) (p : Piece) (u t : State) : Prop :=
  (GateInReach u p → commandRoom u = true → pieceAt t k = some { p with path := .gate } ∧ Unreserved p u t ∧
    t.rp = { u.rp with originate := u.rp.originate ++ [divertOf u p] } ∧ t.cl = u.cl) ∧
  (¬GateInReach u p → onSort p.path = true → SorterInReach u p → commandRoom u = true →
    pieceAt t k = some { p with path := .reject } ∧ Unreserved p u t ∧
    t.rp = { u.rp with originate := u.rp.originate ++ [binOrder u p 17 1] } ∧ t.cl = u.cl) ∧
  ((¬GateInReach u p ∨ commandRoom u = false) → (onSort p.path = false ∨ ¬SorterInReach u p ∨ commandRoom u = false) →
    pieceAt t k = some (if p.path = .undecided then { p with path := .reject } else p) ∧ t.bu = u.bu ∧ commands t = commands u ∧
    (GateInReach u p → CauseTaken .commandQueueFull (some u.tu.layout.gate.addr) (some u.tu.pitch) p.id u t) ∧
    (¬GateInReach u p → onSort p.path = true → SorterInReach u p →
      CauseTaken .commandQueueFull (some u.tu.layout.sorter.addr) (some u.tu.pitch) p.id u t) ∧
    (¬GateInReach u p → (onSort p.path = false ∨ ¬SorterInReach u p) → t.cl = u.cl ∧ t.rp = u.rp))

/-- A fault recorded in the piece p of a slot: a first fault brings on the path rule, a further one nothing more (R104, R106). -/
abbrev FaultRecorded (k : Nat) (f : PieceFault) (p : Piece) (u t : State) : Prop :=
  OnlyPiece k u t ∧ (p.fault = none → PathChosen k (faulted f p) u t) ∧
    (p.fault.isSome = true → pieceAt t k = some (faulted f p) ∧ t.bu = u.bu ∧ t.rp = u.rp ∧ t.cl = u.cl)

/-! ## Feeders and inserts (R70, R75-R79, R82-R87) -/

/-- A saturating count one higher (R69). -/
def countedUp (top n : Nat) : Nat := if n < top then n + 1 else n

/-- A feeder with its condition value and degraded flag as its counts give them (R87). -/
def judged (threshold : Nat) (x : Feeder) : Feeder :=
  if x.calls < 100 then { x with condition := 100, degraded := false }
  else { x with
    condition := 100 - 100 * x.misses / x.calls
    degraded := decide (100 - 100 * x.misses / x.calls < threshold) }

/-- A feeder with one call counted that fed (R80, R81, R83). -/
def fedFeeder (threshold : Nat) (double : Bool) (x : Feeder) : Feeder :=
  judged threshold { x with
    calls := countedUp 4294967295 x.calls
    consecutive := 0
    doubles := if double then countedUp 4294967295 x.doubles else x.doubles }

/-- Whether one more miss in a row brings a feeder to its limit, while it is READY, LOW or EMPTY (R86). -/
abbrev AtLimit (limit : Nat) (x : Feeder) : Prop :=
  limit ≠ 0 ∧ limit ≤ countedUp 15 x.consecutive ∧ (x.state = .ready ∨ x.state = .low ∨ x.state = .empty)

/-- A feeder with one call counted that missed: FAILED at the limit (R82, R84, R86, R87). -/
def missedFeeder (limit threshold : Nat) (x : Feeder) : Feeder :=
  judged threshold { x with
    calls := countedUp 4294967295 x.calls
    misses := countedUp 4294967295 x.misses
    consecutive := countedUp 15 x.consecutive
    state := if AtLimit limit x then .failed else x.state }

/-- A miss counted at a feeder, with FEEDER_FAILED at the limit, and nothing else (R82, R84, R86, R87). -/
abbrev MissCounted (f : Nat) (at_ : Pitch) (id : Option PieceId) (u t : State) : Prop :=
  t.iu = { u.iu with feeders := t.iu.feeders } ∧ feederAt t f = missedFeeder u.iu.limit u.iu.threshold (feederAt u f) ∧
    (∀ g, g ≠ f → feederAt t g = feederAt u g) ∧ SameLines u t ∧ t.ds = u.ds ∧ t.cu = u.cu ∧ t.tu = u.tu ∧ t.pp = u.pp ∧
    t.su = u.su ∧ t.bu = u.bu ∧ t.rc = u.rc ∧
    (AtLimit u.iu.limit (feederAt u f) →
      FlagTaken .feederFailed (some (placeAt u f).addr) (some at_) id u t ∧ commands t = commands u) ∧
    (¬AtLimit u.iu.limit (feederAt u f) → t.cl = u.cl ∧ t.rp = u.rp)

/-- Whether a feeder can be called for an insert (R70). -/
abbrev Callable (u : State) (f i : Nat) : Prop :=
  f < 8 ∧ (placeAt u f).present = true ∧ ((feederAt u f).state = .ready ∨ (feederAt u f).state = .low) ∧
    (tget MapSlot.off u.iu.active f).enabled = true ∧ (tget MapSlot.off u.iu.active f).insert = i

/-- The primary of an insert: a callable feeder at the lowest position, degraded ones after the others; none when none is callable (R76). -/
def PrimaryIs (u : State) (i : Nat) : Option Nat → Prop
  | some f => Callable u f i ∧ ∀ g, Callable u g i →
      if (feederAt u f).degraded = (feederAt u g).degraded then (placeAt u f).pos ≤ (placeAt u g).pos else (feederAt u g).degraded = true
  | none => ∀ f, ¬Callable u f i

/-- The backup of an insert: the callable feeder next past the primary, none in single-attempt mode (R76). -/
def BackupIs (u : State) (i : Nat) : Option Nat → Option Nat → Prop
  | some f, some g => u.iu.single = false ∧ Callable u g i ∧ (placeAt u f).pos < (placeAt u g).pos ∧
      ∀ h, Callable u h i → (placeAt u f).pos < (placeAt u h).pos → (placeAt u g).pos ≤ (placeAt u h).pos
  | some f, none => u.iu.single = true ∨ ∀ h, Callable u h i → (placeAt u h).pos ≤ (placeAt u f).pos
  | none, g => g = none

/-- The CALL of a piece's insert at a feeder (R78, R82). -/
def callOf (u : State) (p : Piece) (f i : Nat) : Frame :=
  ⟨(placeAt u f).addr, .call, stampOf (p.entry + BitVec.ofNat 32 (placeAt u f).pos), [BitVec.ofNat 8 i]⟩

/-- A piece with the status of one insert's entry changed (R75). -/
def entryAs (i : Nat) (x : InsertStatus) (p : Piece) : Piece :=
  { p with planned := p.planned.map (fun e => if e.insert = i then { e with status := x } else e) }

/-- Whether the backup of an entry is called: it was the primary that missed, and the backup is callable and in reach of the feeder
lead, single-attempt mode off (R82). -/
abbrev BackupCalled (u : State) (p : Piece) (e : Planned) (g : Nat) : Prop :=
  e.status = .called ∧ e.backup = some g ∧ u.iu.single = false ∧ Callable u g e.insert ∧
    (u.tu.timing.lf : Int) ≤ pitchDiff (p.entry + BitVec.ofNat 32 (placeAt u g).pos) u.tu.pitch

/-- What a miss of the feeder an entry waits on does to the piece (R82-R85): the CALL of the backup; COMMAND_OVERFLOW when that finds no
entry; otherwise the entry is MISSED with the fault given. -/
def MissSettled (k : Nat) (f : PieceFault) (p : Piece) (e : Planned) (u t : State) : Prop :=
  (∀ g, BackupCalled u p e g →
    (commandRoom u = true → pieceAt t k = some (entryAs e.insert .backupCalled p) ∧ OnlyPiece k u t ∧ t.bu = u.bu ∧ t.cl = u.cl ∧
      t.rp = { u.rp with originate := u.rp.originate ++ [callOf u p g e.insert] }) ∧
    (commandRoom u = false →
      ∃ m, FlagOnly .commandQueueFull (some (placeAt u g).addr) (some u.tu.pitch) p.id u m ∧
        FaultRecorded k .commandOverflow (entryAs e.insert .missed p) m t)) ∧
  ((∀ g, ¬BackupCalled u p e g) → FaultRecorded k f (entryAs e.insert .missed p) u t)

/-! ## The release (R51-R54, R75-R79, R95-R101) -/

/-- The inserts a selection code names, in ascending order (R66, R75). -/
def selectedInserts (u : State) (code : Byte) : List Nat :=
  (List.range 12).filter (fun i => (tget 0#12 u.iu.selection code.toNat).getLsbD i)

/-- The fill caliper of a number of sheets and some inserts, in micrometres (R97). -/
def fillCaliper (u : State) (sheets : Nat) (inserts : List Nat) : Nat :=
  u.pp.panels * sheets * u.pp.sheetCaliper + (inserts.map (fun i => (tget InsertSpec.off u.iu.inserts i).caliper)).sum

/-- The mass of an envelope, a number of sheets and some inserts, in decigrams rounded up (R98). -/
def wholeMass (u : State) (envelope sheets : Nat) (inserts : List Nat) : Nat :=
  (envelope + sheets * u.pp.sheetMass + (inserts.map (fun i => (tget InsertSpec.off u.iu.inserts i).mass)).sum + 99) / 100

/-- The band of a mass: the least whose limit holds it (R99). -/
def bandFor (u : State) (mass : Nat) : Option Nat := u.pp.bands.findIdx? (fun l => decide (mass ≤ l))

/-- The planner's figures in a piece: class, fill caliper, mass and band, all absent where it computes none (R96, R100). -/
abbrev Figures (u : State) (x : SetRec) (d : Descriptor) (inserts : List Nat) (p : Piece) : Prop :=
  p.fill = some (fillCaliper u x.held inserts) ∧
    p.mass = some (wholeMass u (tget EnvClass.off u.pp.classes d.envClass.toNat).mass x.held inserts) ∧
    p.band = bandFor u (wholeMass u (tget EnvClass.off u.pp.classes d.envClass.toNat).mass x.held inserts)

/-- A piece's list of planned inserts, resolved (R75, R76). -/
abbrev InsertsResolved (u : State) (code : Byte) (p : Piece) : Prop :=
  p.planned.map Planned.insert = selectedInserts u code ∧
    ∀ e ∈ p.planned, PrimaryIs u e.insert e.primary ∧ BackupIs u e.insert e.primary e.backup

/-- The faults that step 3 of a release finds in a set, in the order of its tests: INSERT_UNAVAILABLE (R77), ENVELOPE_CLASS (R95),
OVERSTUFFED (R97), OVERWEIGHT (R99); a set that came with a fault is looked at for its class alone (R75, R96, R100). -/
def planFaults (u : State) (x : SetRec) (p : Piece) : List PieceFault :=
  match x.slot.bind (descAt u) with
  | none => []
  | some d =>
    let c := tget EnvClass.off u.pp.classes d.envClass.toNat
    let missing := x.fault.isNone && p.planned.any (fun e => e.primary.isNone)
    let tested := x.fault.isNone && !missing && c.enabled
    (if missing then [.insertUnavailable] else []) ++ (if c.enabled then [] else [.envelopeClass]) ++
      (if tested && decide (c.fill < p.fill.getD 0) then [.overstuffed] else []) ++
      (if tested && p.band.isNone then [.overweight] else [])

/-- What step 3 of a release computes in the piece of a set (R75-R77, R95-R101). -/
abbrev PlannedPiece (u : State) (x : SetRec) (p : Piece) : Prop :=
  (x.slot.bind (descAt u) = none → p.planned = [] ∧ p.envClass = none ∧ p.fill = none ∧ p.mass = none ∧ p.band = none) ∧
  (∀ d, x.slot.bind (descAt u) = some d →
    p.envClass = some d.envClass ∧
    (x.fault = none → InsertsResolved u d.selection p) ∧ (x.fault.isSome = true → p.planned = []) ∧
    ((tget EnvClass.off u.pp.classes d.envClass.toNat).enabled = true →
      (x.fault.isSome = true → Figures u x d [] p) ∧
      (x.fault = none → (∀ e ∈ p.planned, e.primary.isSome = true) → Figures u x d (selectedInserts u d.selection) p)) ∧
    (((tget EnvClass.off u.pp.classes d.envClass.toNat).enabled = false ∨
        (x.fault = none ∧ ∃ e ∈ p.planned, e.primary = none)) → p.fill = none ∧ p.mass = none ∧ p.band = none))

/-- The faults of a released set: its own from collation, what planning found, and COMMAND_OVERFLOW when the CALLs of a set without
either did not all find an entry behind the RELEASE (R75, R79). -/
def releaseFaults (u : State) (x : SetRec) (p : Piece) : List PieceFault :=
  x.fault.toList ++ planFaults u x p ++
    (if x.fault.isNone && (planFaults u x p).isEmpty && decide (commandFree u < 1 + p.planned.length) then [.commandOverflow] else [])

/-- The number of CALLs queued at a release: one for each entry of a set without a fault, while entries are free (R78, R79). -/
def callsMade (u : State) (x : SetRec) (p : Piece) : Nat :=
  if x.fault.isNone && (planFaults u x p).isEmpty then min p.planned.length (commandFree u - 1) else 0

/-- The commands a release queues: RELEASE, the CALLs in order of the inserts, and the DIVERT of a piece with a fault while the gate is in
reach and an entry is free (R52, R78, R79, R105, R106). -/
def releaseFrames (u : State) (x : SetRec) (p : Piece) : List Frame :=
  ⟨u.tu.layout.accumulator, .release, stampOf p.entry, []⟩ ::
    (p.planned.take (callsMade u x p)).map (fun e => callOf u p (e.primary.getD 0) e.insert) ++
    (if p.path = .gate then [divertOf u p] else [])

/-- The path a released piece takes (R105-R107). -/
def releasePath (u : State) (x : SetRec) (p : Piece) : Path :=
  if p.fault = none then .undecided
  else if GateInReach u p ∧ 1 + callsMade u x p < commandFree u then .gate
  else .reject

/-! ## Collation (R10, R25-R35) -/

/-- A set with faults recorded in order (R104's fields, chapter 2). -/
def withFaults (fs : List PieceFault) (x : SetRec) : SetRec :=
  { x with fault := (x.fault.toList ++ fs).head?, further := x.further || decide (2 ≤ (x.fault.toList ++ fs).length) }

/-- What a claim gives (R10): the slot and its descriptor as claimed, or a fault. -/
def claimGives (u : State) (id : PieceId) : Except PieceFault (Nat × Descriptor) :=
  match lookup u id with
  | .found n d =>
    if d.state = .loaded then .ok (n, { d with state := .inTrack })
    else if d.state = .diverted then
      if d.reprint < 3 then .ok (n, { d with state := .inTrack, reprint := d.reprint + 1 }) else .error .reprintLimit
    else .error .duplicate
  | _ => .error .noDescriptor

/-- The slot a claim gives. -/
def claimSlot (u : State) (id : PieceId) : Option Nat :=
  match claimGives u id with
  | .ok e => some e.1
  | .error _ => none

/-- The faults of a claim with an expected count: the claim's own, or SHEET_COUNT (R10, R25). -/
def claimFaults (u : State) (id : PieceId) (n : Nat) : List PieceFault :=
  match claimGives u id with
  | .ok e => if e.2.sheets = n then [] else [.sheetCount]
  | .error f => [f]

/-- The state after a claim (R10). -/
def claimMade (u : State) (id : PieceId) : State :=
  match claimGives u id with
  | .ok e => setDesc u e.1 (some e.2)
  | .error _ => u

/-- Whether a SHEET is readable (R23). -/
abbrev Readable (id : PieceId) (i n : Byte) : Prop := id ≠ 16777215#24 ∧ 1 ≤ i.toNat ∧ i.toNat ≤ n.toNat ∧ n.toNat ≤ 16

/-- The state with a recorded sheet counted (R23, R171). -/
def sheetCounted (opens noRead : Bool) (u : State) : State :=
  withCl u { u.cl with counters := { u.cl.counters with
    opened := if opens then u.cl.counters.opened + 1 else u.cl.counters.opened
    sheets := u.cl.counters.sheets + 1
    noReads := if noRead then u.cl.counters.noReads + 1 else u.cl.counters.noReads } }

/-- The set that a readable sheet opens: its claim, SHEET_COUNT and SEQUENCE (R25, R26). -/
def openedSet (u : State) (id : PieceId) (i n : Nat) : SetRec :=
  withFaults (claimFaults u id n ++ (if i = 1 then [] else [.sequence])) ⟨some id, claimSlot u id, some n, 1, none, false⟩

/-- A sheet that finds no place, and nothing else: ACCUMULATOR_OVERRUN, and the stop of a run that is RUNNING or DRAINING (R28, R35, R157). -/
def Overrun (src : Addr) (id : Option PieceId) (u t : State) : Prop :=
  ∃ m, FlagOnly .accumulatorOverrun (some src) none id u m ∧ RunStopped .accumulatorOverrun (some src) m t

/-- A record opened in the empty place, and nothing else: it is counted, LOG_HEADROOM is set when the headroom falls from above 8 to 8 or
below, and the test of R40 is made (R23, R39, R40). That LOG_HEADROOM goes ahead of that test is the model's choice (log 30). -/
def RecordOpened (noRead : Bool) (r : OpenRec) (u t : State) : Prop :=
  let v := sheetCounted true noRead (withCu u { u.cu with place := some r })
  ∃ m, (8 < headroom u → headroom v ≤ 8 → FlagOnly .logHeadroom none none none v m) ∧
    (headroom u ≤ 8 ∨ 8 < headroom v → m = v) ∧ CutterTested m t

/-- A record completes, and nothing else: to the tail of a queue of fewer than four, the test of R40 following, or COMPLETE_WAITING in the
place (R34, R40). -/
def RecordCompleted (r : OpenRec) (u t : State) : Prop :=
  (u.cu.queue.length < 4 → CutterTested (withCu u { u.cu with place := none, queue := u.cu.queue ++ [r.set] }) t) ∧
    (4 ≤ u.cu.queue.length → t = withCu u { u.cu with place := some { r with waiting := true } })

/-- What becomes of a record that a sheet was added to: it completes; completes OVERSIZE when it is left holding 16 sheets; or stays OPEN
(R32, R34). -/
def RecordLeft (done : Bool) (r : OpenRec) (u t : State) : Prop :=
  (done = true → RecordCompleted r u t) ∧
    (done = false → r.set.held = 16 → RecordCompleted { r with set := withFaults [.oversize] r.set } u t) ∧
    (done = false → r.set.held ≠ 16 → t = withCu u { u.cu with place := some r })

/-- A sheet that comes with no record open: it opens one, complete at once when it is the last of its set, or finds no headroom (R25-R28). -/
def SheetOpens (src : Addr) (id : PieceId) (i n : Byte) (u t : State) : Prop :=
  (headroom u = 0 → Overrun src (if Readable id i n then some id else none) u t) ∧
  (0 < headroom u → Readable id i n →
    let r : OpenRec := ⟨openedSet u id i.toNat n.toNat, i.toNat + 1, false⟩
    ∃ m, RecordOpened false r (claimMade u id) m ∧ (i = n → RecordCompleted r m t) ∧ (i ≠ n → t = m)) ∧
  (0 < headroom u → ¬Readable id i n → RecordOpened true ⟨⟨none, none, none, 1, some .noreadSheet, false⟩, 2, false⟩ u t)

/-- A sheet that ends a record: the record completes, and the sheet opens the next unless the place is still taken (R31, R33, R35). -/
def SheetEnds (r : OpenRec) (src : Addr) (id : PieceId) (i n : Byte) (u t : State) : Prop :=
  ∃ m, RecordCompleted r u m ∧ (m.cu.place = none → SheetOpens src id i n m t) ∧ (m.cu.place.isSome = true → Overrun src none m t)

/-- The end of a run at the open-record place: an OPEN record completes INCOMPLETE_AT_END, and any other place stays (R38). -/
def RecordEnded (u t : State) : Prop :=
  (∀ r, u.cu.place = some r → r.waiting = false → RecordCompleted { r with set := withFaults [.incompleteAtEnd] r.set } u t) ∧
    ((∀ r, u.cu.place = some r → r.waiting = true) → t = u)

/-! ## Sorting (R118-R123, R139-R141) -/

/-- Whether a key meets a test: within a range, among the keys that begin with k given digits of nine, or one of two (R119). -/
def KeyMeets (key : Nat) : KeyTest → Prop
  | .range low high => low ≤ key ∧ key ≤ high
  | .leading k value => value * 10 ^ (9 - k) ≤ key ∧ key < (value + 1) * 10 ^ (9 - k)
  | .pair a b => key = a ∨ key = b

/-- Whether a service meets a condition (R120). -/
def ServiceMeets (x : Service) : ServiceCond → Prop
  | .any => True
  | .standard => x = .standard
  | .priority => x = .priority

/-- Whether an element matches a piece's key, band and service with an action (R118-R120). -/
def ElementSays (key band : Nat) (service : Service) (a : Action) : Element → Prop
  | .disabled => False
  | .enabled t bands c act => KeyMeets key t ∧ bands.getLsbD band = true ∧ ServiceMeets service c ∧ act = a

/-- The first element of a bank that matches, with its action; the fallback where none matches (R123, R134). -/
def FirstSays (u : State) (bank : Table Element) (key band : Nat) (service : Service) : Option Nat → Action → Prop
  | some n, a => n < 64 ∧ ElementSays key band service a (tget Element.disabled bank n) ∧
      ∀ m, m < n → ∀ a', ¬ElementSays key band service a' (tget Element.disabled bank m)
  | none, a => (∀ m, m < 64 → ∀ a', ¬ElementSays key band service a' (tget Element.disabled bank m)) ∧ u.su.fallback = a

/-- The sort decision on the active bank: the action of the first element that matches, else the fallback (R123). -/
def Decides (u : State) (key band : Nat) (service : Service) (a : Action) : Prop :=
  ∃ n, FirstSays u u.su.active key band service n a

/-- The bins the cascade tries: the decided one, BO, and the bin of a RESIDUAL fallback, each once (R140). -/
def triedBins (b : Nat) (fallback : Action) : List Nat :=
  b :: ((if b = 16 then [] else [16]) ++
    (match fallback with
      | .bin f => if f = b ∨ f = 16 then [] else [f]
      | .reject => []))

/-- The limits and the tray of a bin that is OPEN (R136, R139). -/
def openTrayOf (x : Bin) : Option (Limits × Tray) :=
  match x.state, x.limits, x.tray with
  | .opened, some l, some y => some (l, y)
  | _, _, _ => none

/-- Whether a piece is alone too heavy for an empty tray (R139). -/
def goesSolo (mass : Nat) (x : Bin) : Bool := (openTrayOf x).any (fun e => decide (e.2.reserved = 0 ∧ e.1.maxMass < mass))

/-- Whether a bin takes a piece: OPEN, and alone in its tray or within both limits (R139). -/
def takesPiece (mass : Nat) (x : Bin) : Bool :=
  goesSolo mass x ||
    (openTrayOf x).any (fun e => decide (e.2.reserved + 1 ≤ e.1.maxCount ∧ e.2.reservedMass + mass ≤ e.1.maxMass))

/-- Bins that do not take a piece, passed one after the other: one that is OPEN is closed by the limit the piece would break, the count
first (R139, R140, R142). -/
def PassedOver (mass : Nat) : List Nat → State → State → Prop
  | [], u, t => t = u
  | b :: bs, u, t => takesPiece mass (binAt u b) = false ∧ ∃ m,
      (openTrayOf (binAt u b) = none → m = u) ∧
      (∀ l y, openTrayOf (binAt u b) = some (l, y) →
        TrayClosed b (if l.maxCount < y.reserved + 1 then .countLimit else .massLimit) u m) ∧
      PassedOver mass bs m t

/-- The state with a place reserved for a piece in the tray of a bin, its BIN queued and its path SORT (R141). -/
def placeReserved (k : Nat) (p : Piece) (c : Nat) (y : Tray) (u : State) : State :=
  withRp
    (setPiece
      (setBin u c { binAt u c with
        tray := some { y with reserved := y.reserved + 1, reservedMass := y.reservedMass + p.mass.getD 0 } })
      k (some { p with path := .sort c y.seq }))
    { u.rp with originate := u.rp.originate ++ [binOrder u p (BitVec.ofNat 8 c) 0] }

/-- The bin that takes a piece: with a command entry free the place is reserved, and a piece that goes alone has its tray closed after it;
with none free COMMAND_QUEUE_FULL is set, and the piece has the fault NO_OUTPUT (R139, R141, R142). -/
def PieceTaken (k : Nat) (p : Piece) (c : Nat) (y : Tray) (u t : State) : Prop :=
  (commandRoom u = true →
    (goesSolo (p.mass.getD 0) (binAt u c) = true → TrayClosed c .solo (placeReserved k p c y u) t) ∧
    (goesSolo (p.mass.getD 0) (binAt u c) = false → t = placeReserved k p c y u)) ∧
  (commandRoom u = false →
    ∃ x, FlagOnly .commandQueueFull (some u.tu.layout.sorter.addr) (some u.tu.pitch) p.id u x ∧ FaultRecorded k .noOutput p x t)

/-! ## Records in results (R188) -/

/-- The run states in the order of R152. -/
def runStates : List RunState := [.idle, .running, .draining, .stopped]

/-- The services in the order of R1. -/
def services : List Service := [.standard, .priority]

/-- The states of a descriptor slot in the order of R1: FREE, LOADED, IN_TRACK, SORTED, DIVERTED. -/
def slotStates : List (Option DescState) := [none, some .loaded, some .inTrack, some .sorted, some .diverted]

/-- The rows of the piece fault catalogue in the order of section 6.1. -/
def faultRows : List PieceFault :=
  [.noDescriptor, .duplicate, .reprintLimit, .noreadSheet, .sequence, .sheetCount, .mixed, .oversize, .lateSheet, .incompleteAtEnd,
    .insertUnavailable, .envelopeClass, .overstuffed, .overweight, .commandOverflow, .insertMissed, .insertDouble, .noFeedReport,
    .verifyNoread, .verifyMismatch, .unsortable, .noOutput, .gateDivert, .sorterReject, .misrouted, .lost, .removed]

/-- The attention flags in the order of section 10.3. -/
def attentionFlags : List Flag :=
  [.linkCheck, .forwardOverrun, .staleStamp, .lateReport, .unexpectedReport, .unknownSource, .commandQueueFull, .pitchInStop,
    .accumulatorOverrun, .logHeadroom, .jam, .phantom, .feederFailed, .feederEmpty, .trayLogWait, .contaminatedTray, .lateLanding,
    .runComplete]

/-- The close reasons in the order of R188. -/
def closeReasons : List CloseReason := [.countLimit, .massLimit, .solo, .groupBreak, .runEnd]

/-- A first fault: its row from 1, 0 when absent. -/
def faultField (f : Option PieceFault) : List Byte := field 1 (f.elim 0 (fun x => faultRows.idxOf x + 1))

/-- An action: a bin by its number, REJECT as 18. -/
def actionField : Action → List Byte
  | .bin b => field 1 b
  | .reject => [18#8]

/-- A placed role: its address and position. -/
def stationRecord (x : Station) : List Byte := field 1 x.addr.toNat ++ field 1 x.pos

/-- The layout record of 36 bytes. -/
def layoutRecord (l : Layout) : List Byte :=
  field 1 l.cutter.toNat ++ field 1 l.sheetReader.toNat ++ field 1 l.accumulator.toNat ++ field 1 l.lineComputer.toNat ++
    stationRecord l.folder ++
    (List.range 8).flatMap (fun f =>
      let x := tget FeederPlace.off l.feeders f
      field 1 x.addr.toNat ++ field 1 x.pos ++ flagField x.present) ++
    stationRecord l.verify ++ stationRecord l.gate ++ stationRecord l.sorter

/-- Pitch, run state, and the occupancy of the ring with bit i for slot i (R65). -/
def trackRecord (u : State) : List Byte :=
  field 4 u.tu.pitch.toNat ++ placeIn runStates u.rc.state ++ bitField 8 (fun i => (pieceAt u i).isSome)

/-- A path with the bin and the tray sequence of SORT, FFh and 0 for any other. -/
def pathField : Path → List Byte
  | .undecided => [0#8, 255#8, 0#8, 0#8]
  | .gate => [1#8, 255#8, 0#8, 0#8]
  | .sort b seq => 2#8 :: field 1 b ++ field 2 seq.toNat
  | .reject => [3#8, 255#8, 0#8, 0#8]

/-- The piece record of READ TRACK. -/
def pieceRecord (p : Piece) : List Byte :=
  field 4 p.entry.toNat ++ idField p.id ++ fieldOr 2 p.slot ++ field 1 p.held ++ fieldOr 1 (p.envClass.map BitVec.toNat) ++
    fieldOr 3 p.fill ++ field 2 (p.mass.getD 0) ++ fieldOr 1 p.band ++ faultField p.fault ++ flagField p.further ++
    placeIn [Verify.pending, .matched, .failed] p.verify ++ pathField p.path ++ field 1 p.planned.length ++
    p.planned.flatMap (fun e => field 1 e.insert ++ fieldOr 1 e.primary ++ fieldOr 1 e.backup ++
      placeIn [InsertStatus.notCalled, .called, .backupCalled, .fed, .missed, .doubled] e.status)

/-- A feeder record of 17 bytes. -/
def feederRecord (x : Feeder) : List Byte :=
  placeIn [FeederState.offline, .ready, .low, .empty, .failed] x.state ++ placeIn [Level.ok, .low, .empty] x.level ++
    field 1 x.consecutive ++ field 4 x.calls ++ field 4 x.misses ++ field 4 x.doubles ++ field 1 x.condition ++ flagField x.degraded

/-- A feeder map bank of 16 bytes. -/
def mapRecord (bank : Table MapSlot) : List Byte :=
  (List.range 8).flatMap (fun f => flagField (tget MapSlot.off bank f).enabled ++ field 1 (tget MapSlot.off bank f).insert)

/-- The kind and the two key arguments of an element. -/
def keyField : KeyTest → List Byte
  | .range low high => 1#8 :: field 4 low ++ field 4 high
  | .leading k value => 2#8 :: field 4 k ++ field 4 value
  | .pair a b => 3#8 :: field 4 a ++ field 4 b

/-- An element record of 12 bytes. -/
def elementRecord : Element → List Byte
  | .disabled => List.replicate 12 0#8
  | .enabled t bands c a => keyField t ++ [bands] ++ placeIn [ServiceCond.any, .standard, .priority] c ++ actionField a

/-- A tray record of 22 bytes. -/
def trayRecord (r : TrayRec) : List Byte :=
  field 2 r.run.toNat ++ field 2 r.seq.toNat ++ field 1 r.bin ++ placeOr closeReasons r.reason ++ field 2 r.landed ++
    field 4 r.landedMass ++ idField r.firstId ++ idField r.lastId ++ [r.bands] ++ field 2 r.generation.toNat ++
    field 1 ((if r.underMin then 1 else 0) + if r.contaminated then 2 else 0)

/-- A current tray of 25 bytes. -/
def currentTrayRecord (y : Tray) : List Byte :=
  field 2 y.run.toNat ++ field 2 y.seq.toNat ++ field 2 y.generation.toNat ++ field 2 y.reserved ++ field 3 y.reservedMass ++
    field 2 y.landed ++ field 3 y.landedMass ++ idField y.firstId ++ idField y.lastId ++ [y.bands] ++ flagField y.contaminated ++
    placeOr closeReasons y.reason

/-- A bin of 57 bytes: what is absent has every byte FFh. -/
def binRecord (x : Bin) : List Byte :=
  placeIn [BinState.disabled, .opened, .full, .closePending] x.state ++
    x.limits.elim (List.replicate 7 255#8) (fun l => field 2 l.maxCount ++ field 3 l.maxMass ++ field 2 l.minCount) ++
    flagField x.owed ++ flagField x.carried ++ x.tray.elim (List.replicate 25 255#8) currentTrayRecord ++
    x.held.elim (List.replicate 22 255#8) trayRecord

/-- A completion entry of 21 bytes; the bytes of an absent entry pitch, whose marker is a flag bit, are FFh (log 14). -/
def completionRecord (e : Entry) : List Byte :=
  field 2 e.run.toNat ++ fieldOr 4 (e.entry.map BitVec.toNat) ++ idField e.id ++ fieldOr 2 e.slot ++
    placeIn [Outcome.sorted, .divertedGate, .rejectedSorter, .missorted, .lost, .removed] e.outcome ++ fieldOr 1 e.bin ++
    field 2 (e.tray.elim 0 BitVec.toNat) ++ faultField e.fault ++
    field 1 ((if e.further then 1 else 0) + if e.entry.isSome then 2 else 0) ++ field 1 e.held ++ field 2 (e.mass.getD 0) ++
    fieldOr 1 e.reprint

/-- The capture of nine bytes, each FFh when there is none. -/
def captureRecord (c : Option Capture) : List Byte :=
  c.elim (List.replicate 9 255#8) (fun x =>
    placeIn attentionFlags x.flag ++ addrField x.addr ++ fieldOr 4 (x.pitch.map BitVec.toNat) ++ idField x.id)

/-- Whether the selected window of an ID is window i: the first enabled one whose range holds it (R5). -/
abbrev Selected (u : State) (id : PieceId) (i : Nat) : Prop :=
  let holds := fun (j : Nat) =>
    (tget Window.off u.ds.windows j).enabled = true ∧ (tget Window.off u.ds.windows j).base.toNat ≤ id.toNat ∧
      id.toNat < (tget Window.off u.ds.windows j).base.toNat + 2 ^ (tget Window.off u.ds.windows j).exp
  i < 4 ∧ holds i ∧ ∀ j, j < i → ¬holds j

/-- The results of FIND PIECE: lookup result, window, map index, slot reached, and for FOUND state and reprint count (R5-R8, R19). -/
def FindAnswers (u : State) (id : PieceId) (results : List Byte) : Prop :=
  let row := fun (code : Nat) (window index slot : Option Nat) (d : Option Descriptor) =>
    field 1 code ++ fieldOr 1 window ++ fieldOr 2 index ++ fieldOr 2 slot ++
      placeOr slotStates (d.map (fun x => some x.state)) ++ fieldOr 1 (d.map Descriptor.reprint)
  let reached := fun (window : Nat) (index : Option Nat) (n : Nat) =>
    (descAt u n = none → results = row 5 (some window) index (some n) none) ∧
    (∀ d, descAt u n = some d → d.id = id → results = row 0 (some window) index (some n) (some d)) ∧
    (∀ d, descAt u n = some d → d.id ≠ id → results = row 6 (some window) index (some n) none)
  ((∀ i, ¬Selected u id i) → results = row 1 none none none none) ∧
  ∀ i, Selected u id i →
    let w := tget Window.off u.ds.windows i
    let n := w.start + (id.toNat - w.base.toNat)
    let e := tget MapEntry.off u.ds.map n
    (w.mode = .direct → n < 4096 → reached i none n) ∧
    (w.mode = .direct → 4096 ≤ n → results = row 2 (some i) none none none) ∧
    (w.mode = .mapped → 8192 ≤ n → results = row 3 (some i) none none none) ∧
    (w.mode = .mapped → n < 8192 → e.valid = false → results = row 4 (some i) (some n) none none) ∧
    (w.mode = .mapped → n < 8192 → e.valid = true → reached i (some n) e.slot)

/-! ## Element records and actions as staged (R118-R121, R188) -/

/-- The action a byte stands for: a bin of B0-B15 or BO by its number, REJECT as 18. -/
def ActionIs (action : Byte) (a : Action) : Prop := (action.toNat < 17 ∧ a = .bin action.toNat) ∨ (action.toNat = 18 ∧ a = .reject)

/-- The key test that a kind and two arguments stand for. -/
def KeyTestIs (kind x y : Nat) : KeyTest → Prop
  | .range low high => kind = 1 ∧ low = x ∧ high = y ∧ x ≤ y ∧ y ≤ 999999999
  | .leading k value => kind = 2 ∧ k = x ∧ value = y ∧ 1 ≤ x ∧ x ≤ 9 ∧ y < 10 ^ x
  | .pair a b => kind = 3 ∧ a = x ∧ b = y ∧ x ≤ 999999999 ∧ y ≤ 999999999

/-- The element that a record stands for. -/
def ElementIs (r : ElementRecord) : Element → Prop
  | .disabled => r.kind = 0#8
  | .enabled t bands c a =>
    KeyTestIs r.kind.toNat r.first.toNat r.second.toNat t ∧ bands = r.bands ∧
      r.service.toNat = [ServiceCond.any, .standard, .priority].idxOf c ∧ ActionIs r.action a

/-! ## Landings (R145, R146) -/

/-- A tray with one landing counted (R145). -/
def landedTray (p : Piece) (y : Tray) : Tray :=
  { y with
    landed := y.landed + 1
    landedMass := y.landedMass + p.mass.getD 0
    firstId := if y.landed = 0 then p.id else y.firstId
    lastId := p.id
    bands := p.band.elim y.bands (fun j => y.bands ||| (1#8 <<< j)) }

/-- A bin that a MISSORTED piece fell into (R146). -/
def soiledBin (x : Bin) : Bin :=
  match x.state with
  | .opened => { x with tray := x.tray.map (fun y => { y with contaminated := true }) }
  | .full => { x with tray := x.tray.map (fun y => { y with contaminated := true }) }
  | .closePending => { x with carried := true }
  | .disabled => x

/-! ## The ten checks of START RUN (R48, R49, R94) -/

/-- The addresses of the line: the eight roles and the present feeders (R48). -/
def addressesOf (u : State) : List Addr :=
  [u.tu.layout.cutter, u.tu.layout.sheetReader, u.tu.layout.accumulator, u.tu.layout.lineComputer, u.tu.layout.folder.addr,
    u.tu.layout.verify.addr, u.tu.layout.gate.addr, u.tu.layout.sorter.addr] ++
    ((List.range 8).filter (fun f => (placeAt u f).present)).map (fun f => (placeAt u f).addr)

/-- What each check asks of the tables (R48, R49, R94). -/
def Passes (u : State) (n : Nat) : Prop :=
  match n with
  | 1 => (addressesOf u).Nodup ∧ ∀ a ∈ addressesOf u, a ≠ 63#6 ∧ a ≠ u.rp.own
  | 2 => 1 ≤ u.tu.layout.folder.pos ∧ ∀ f, f < 8 → (placeAt u f).present = true → u.tu.layout.folder.pos < (placeAt u f).pos
  | 3 => ∀ f, f < 8 → ∀ g, g < 8 → (placeAt u f).present = true → (placeAt u g).present = true → f ≠ g →
      (placeAt u f).pos ≠ (placeAt u g).pos
  | 4 => ∀ f, f < 8 → (placeAt u f).present = true → u.tu.timing.lf ≤ (placeAt u f).pos + u.tu.timing.lr
  | 5 => (∀ f, f < 8 → (placeAt u f).present = true → (placeAt u f).pos + u.tu.timing.allowance + 2 ≤ u.tu.layout.verify.pos) ∧
      ((∀ f, f < 8 → (placeAt u f).present = false) →
        u.tu.layout.folder.pos + u.tu.timing.allowance + 2 ≤ u.tu.layout.verify.pos)
  | 6 => u.tu.layout.verify.pos + u.tu.timing.allowance + u.tu.timing.lg ≤ u.tu.layout.gate.pos
  | 7 => u.tu.layout.verify.pos + u.tu.timing.allowance + u.tu.timing.ls ≤ u.tu.layout.sorter.pos
  | 8 => u.tu.layout.gate.pos + u.tu.timing.allowance + u.tu.timing.lr ≤ 63 ∧
      u.tu.layout.sorter.pos + u.tu.timing.allowance + u.tu.timing.lr ≤ 63
  | 9 => ∃ c, c < 4 ∧ (tget EnvClass.off u.pp.classes c).enabled = true
  | 10 => u.pp.bands ≠ [] ∧ u.pp.bands.Pairwise (· < ·)
  | _ => True

/-! ## Frames and request messages (R178, R179, R184, R188) -/

/-- Whether a received frame passes the check: a length field of at most 56, header, payload and two check bytes in number (a wrong number is
the model's choice, log 9), and the check of header and payload in the last two bytes (R178, R179). -/
abbrev FrameIntact (bytes : List Byte) : Prop :=
  let n := (byteAt bytes 4).toNat
  n ≤ 56 ∧ bytes.length = 7 + n ∧ bytes.drop (5 + n) = field 2 (crcOf (bytes.take (5 + n))).toNat

/-- The lengths that R188 gives a request body by its code and its count byte; none for a code that names no request. -/
def bodyLengths (body : List Byte) : List Nat :=
  let at_ := fun (i : Nat) => body.getD i 0#8
  match (at_ 0).toNat with
  | 1 => [10] | 2 => [4 + 3 * countField (at_ 3)] | 3 => [2 + 10 * countField (at_ 1)] | 4 => [5] | 5 => [3] | 6 => [4] | 7 => [37]
  | 8 => [1] | 9 => [6] | 10 => [1, 2] | 11 => [3 + 2 * countField (at_ 2)] | 12 => [3 + 4 * (at_ 2).toNat] | 13 => [4] | 14 => [17]
  | 15 => [1] | 16 => [3] | 17 => [1] | 18 => [3] | 19 => [6] | 20 => [9] | 21 => [2 + 2 * (at_ 1).toNat] | 22 => [1]
  | 23 => [3 + 12 * (at_ 2).toNat] | 24 => [2] | 25 => [1] | 26 => [4] | 27 => [7] | 28 => [10] | 29 => [2] | 30 => [1] | 31 => [1]
  | 32 => [1] | 33 => [1] | 34 => [1] | 35 => [5] | 36 => [1] | 37 => [1] | 38 => [1] | 39 => [2] | 40 => [1] | 41 => [4] | 42 => [1]
  | 43 => [1] | _ => []

/-- The body held when a segment has been added: the segment's own at number 0, behind the assembly held when that expects the segment
from its source with its tag, none when no assembly does (R184). -/
def gathered (u : State) (src : Addr) (tag : Tag) (segment : Byte) (body : List Byte) : Option (List Byte) :=
  if segment.toNat % 128 = 0 then some body
  else (u.rp.assembly.filter (fun a => a.src == src && a.tag == tag && a.expect == segment.toNat % 128)).map (fun a => a.body ++ body)

/-! ## Batches of descriptors (R14-R16) -/

/-- Whether a record's fields are in range (R14). -/
abbrev FieldsOk (r : DescriptorRecord) : Prop :=
  r.id ≠ 16777215#24 ∧ 1 ≤ r.sheets.toNat ∧ r.sheets.toNat ≤ 16 ∧ r.key.toNat ≤ 999999999

/-- The state and reprint count a record takes in a slot, none where the slot is not to be loaded (R15). -/
def loadsAs (r : DescriptorRecord) (slot : Option Descriptor) : Option (DescState × Nat) :=
  match slot with
  | none => some (.loaded, 0)
  | some d =>
    if d.id ≠ r.id then none
    else if d.state = .loaded then some (.loaded, 0)
    else if d.state = .diverted then some (.diverted, d.reprint)
    else none

/-- A record is loaded into the slot its ID reaches, and nothing else changes (R14, R15). -/
def RecordLoaded (r : DescriptorRecord) (u t : State) : Prop :=
  FieldsOk r ∧ ∃ w i n x, reach u r.id = .slot w i n ∧ loadsAs r (descAt u n) = some x ∧
    t = setDesc u n (some ⟨x.1, r.id, r.sheets.toNat, r.selection, r.envClass, r.key.toNat,
      if r.priority then .priority else .standard, x.2⟩)

/-- A record is refused, with a status and, for NOT_FOUND, the result of its lookup (R14-R16). -/
def RecordRefused (r : DescriptorRecord) (u : State) (x : Status) (found : Nat) : Prop :=
  (¬FieldsOk r ∧ x = .badArgument ∧ found = 0) ∨
  (FieldsOk r ∧
    ((reach u r.id = .noWindow ∧ x = .notFound ∧ found = 1) ∨
    ((∃ w, reach u r.id = .slotRange w) ∧ x = .notFound ∧ found = 2) ∨
    ((∃ w, reach u r.id = .mapRange w) ∧ x = .notFound ∧ found = 3) ∨
    ((∃ w i, reach u r.id = .mapInvalid w i) ∧ x = .notFound ∧ found = 4) ∨
    ((∃ w i n, reach u r.id = .slot w i n ∧ loadsAs r (descAt u n) = none) ∧ x = .slotBusy ∧ found = 0)))

/-- Records are loaded one after the other, each in the state the one before it left (R16). -/
def LoadedInTurn : List DescriptorRecord → State → State → Prop
  | [], u, t => t = u
  | r :: rs, u, t => ∃ m, RecordLoaded r u m ∧ LoadedInTurn rs m t

/-! ## Requests as bodies (R188) -/

/-- A descriptor record of ten bytes. -/
def descriptorRecordBytes (r : DescriptorRecord) : List Byte :=
  be3 r.id.toNat ++ [r.sheets, r.selection, BitVec.ofNat 8 (r.envClass.toNat + (if r.priority then 4 else 0))] ++ be4 r.key.toNat

/-- A sort element record of 12 bytes. -/
def elementRecordBytes (r : ElementRecord) : List Byte :=
  r.kind :: (be4 r.first.toNat ++ be4 r.second.toNat ++ [r.bands, r.service, r.action])

/-- The request code and arguments of a management request in the layout of R188; none for any other command. -/
def requestBody (c : Instr) : Option (List Byte) :=
  match c with
  | .setWindow _ _ w en base k mode start =>
    some (1#8 :: w :: (flagByte en ++ be3 base.toNat ++ [k, mode] ++ be2 start.toNat))
  | .writeMapEntries _ _ first count entries =>
    some (2#8 :: (be2 first.toNat ++ count :: entries.flatMap (fun e => flagByte e.1 ++ be2 e.2.toNat)))
  | .loadDescriptors _ _ count records => some (3#8 :: count :: records.flatMap descriptorRecordBytes)
  | .retire _ _ first last => some (4#8 :: (be2 first.toNat ++ be2 last.toNat))
  | .readDescriptor _ _ slot => some (5#8 :: be2 slot.toNat)
  | .findPiece _ _ id => some (6#8 :: be3 id.toNat)
  | .setLayout _ _ record => some (7#8 :: record)
  | .readLayout _ _ => some [8#8]
  | .setTiming _ _ lr lf lg ls a => some [9#8, lr, lf, lg, ls, a]
  | .readTrack _ _ slot => some (10#8 :: slot.toList)
  | .setSelection _ _ first count sets => some (11#8 :: first :: count :: sets.flatMap (fun x => be2 x.toNat))
  | .setInserts _ _ first count entries =>
    some (12#8 :: first :: count :: entries.flatMap (fun e => be2 e.1.toNat ++ be2 e.2.toNat))
  | .setInsertPolicy _ _ limit threshold single => some (13#8 :: limit :: threshold :: flagByte single)
  | .stageFeederMap _ _ bank => some (14#8 :: bank.flatMap (fun e => flagByte e.1 ++ [e.2]))
  | .commitFeederMap _ _ => some [15#8]
  | .restoreFeeder _ _ feeder reset => some (16#8 :: feeder :: flagByte reset)
  | .readFeeders _ _ => some [17#8]
  | .readInsertTables _ _ first => some (18#8 :: be2 first.toNat)
  | .setSheetParameters _ _ mass caliper panels => some (19#8 :: (be2 mass.toNat ++ be2 caliper.toNat ++ [panels]))
  | .setEnvelopeClass _ _ cls en mass wall fill =>
    some (20#8 :: cls :: (flagByte en ++ be2 mass.toNat ++ be2 wall.toNat ++ be2 fill.toNat))
  | .setBands _ _ count limits => some (21#8 :: count :: limits.flatMap (fun x => be2 x.toNat))
  | .readPlannerTables _ _ => some [22#8]
  | .stageSortElements _ _ first count elements => some (23#8 :: first :: count :: elements.flatMap elementRecordBytes)
  | .setFallback _ _ action => some [24#8, action]
  | .commitSortPlan _ _ => some [25#8]
  | .readSortPlan _ _ bank first count => some [26#8, bank, first, count]
  | .trySortKey _ _ key band service => some (27#8 :: (be4 key.toNat ++ [band, service]))
  | .setBinLimits _ _ bin disabled maxCount maxMass minCount =>
    some (28#8 :: bin :: (flagByte disabled ++ be2 maxCount.toNat ++ be3 maxMass.toNat ++ be2 minCount.toNat))
  | .readTrays _ _ count => some [29#8, count]
  | .readBins _ _ => some [30#8]
  | .startRun _ _ => some [31#8]
  | .endRun _ _ => some [32#8]
  | .stop _ _ => some [33#8]
  | .resume _ _ => some [34#8]
  | .declareRemoved _ _ range lo hi accumulator => some (35#8 :: (flagByte range ++ [lo, hi] ++ flagByte accumulator))
  | .abortRun _ _ => some [36#8]
  | .restart _ _ => some [37#8]
  | .readRunStatus _ _ => some [38#8]
  | .readCompletions _ _ count => some [39#8, count]
  | .readRunCounters _ _ => some [40#8]
  | .clearSummary _ _ flags => some (41#8 :: be3 flags.toNat)
  | .readSummary _ _ => some [42#8]
  | .readPort _ _ => some [43#8]
  | .powerOnReset _ => none
  | .pitchArrival => none
  | .release => none
  | .exitDeadline _ => none
  | .feedDeadline _ _ => none
  | .verifyDeadline _ => none
  | .feederMapCopy => none
  | .sortPlanCopy => none
  | .trayChangeRetry => none
  | .frameArrival _ => none
  | .downstreamSendBegin => none
  | .frameSent => none
  | .pendingCutterCommandQueued => none
  | .responseSegmentQueued => none
  | .alert => none
  | .sheet _ _ _ _ => none
  | .feed _ _ _ => none
  | .material _ _ => none
  | .read _ _ _ => none
  | .landed _ _ _ => none
  | .trayReady _ _ => none
  | .heldRecordAppended => none
  | .jam _ => none
  | .request _ _ _ _ => none
  | .resetLineHeld => none

/-- An action byte that names no bin of B0-B15 and BO and is not REJECT (R118, R188). -/
abbrev BadAction (action : Byte) : Prop := 17 ≤ action.toNat ∧ action.toNat ≠ 18

/-- Whether an element record is refused (R118, R119, R121). -/
abbrev BadElement (r : ElementRecord) : Prop :=
  3 < r.kind.toNat ∨
    (r.kind = 1 ∧ (r.second.toNat < r.first.toNat ∨ 999999999 < r.second.toNat)) ∨
    (r.kind = 2 ∧ (r.first.toNat = 0 ∨ 9 < r.first.toNat ∨ 10 ^ r.first.toNat ≤ r.second.toNat)) ∨
    (r.kind = 3 ∧ (999999999 < r.first.toNat ∨ 999999999 < r.second.toNat)) ∨
    (r.kind ≠ 0 ∧ (BadAction r.action ∨ 2 < r.service.toNat))

/-- Whether a value lies outside a range. -/
abbrev Outside (low high n : Nat) : Prop := n < low ∨ high < n

/-- The arguments of a well-formed request that are refused with BAD_ARGUMENT whatever the state (R4, R9, R14, R17-R19, R46, R47, R65-R68,
R72, R88, R89, R91-R93, R121, R122, R133, R134, R138, R148, R170, R174). A count above 32 where one to 32 are meant is refused by log 11. -/
def BadArguments (c : Instr) : Prop :=
  match c with
  | .setWindow _ _ w en base k mode start => 4 ≤ w.toNat ∨ (en = true ∧ (Outside 4 20 k.toNat ∨ base.toNat % 2 ^ k.toNat ≠ 0 ∨
      1 < mode.toNat ∨ (mode = 0 ∧ 4096 ≤ start.toNat) ∨ (mode = 1 ∧ 8192 ≤ start.toNat)))
  | .writeMapEntries _ _ first _ entries =>
    32 < entries.length ∨ 8192 < first.toNat + entries.length ∨ ∃ e ∈ entries, e.1 = true ∧ 4096 ≤ e.2.toNat
  | .loadDescriptors _ _ _ records => 32 < records.length
  | .retire _ _ first last => last.toNat < first.toNat ∨ 4096 ≤ last.toNat
  | .readDescriptor _ _ slot => 4096 ≤ slot.toNat
  | .findPiece _ _ id => id = 16777215#24
  | .setLayout _ _ record => ∃ i, i < 36 ∧ i ∉ [8, 11, 14, 17, 20, 23, 26, 29] ∧ 63 < (byteAt record i).toNat
  | .setTiming _ _ lr lf lg ls a =>
    Outside 1 4 lr.toNat ∨ Outside 1 8 lf.toNat ∨ Outside 1 8 lg.toNat ∨ Outside 1 8 ls.toNat ∨ Outside 1 4 a.toNat
  | .readTrack _ _ slot => ∃ k, slot = some k ∧ 64 ≤ k.toNat
  | .setSelection _ _ first _ sets =>
    32 < sets.length ∨ 256 < first.toNat + sets.length ∨ ∃ x ∈ sets, 4096 ≤ x.toNat
  | .setInserts _ _ first _ entries =>
    entries = [] ∨ 12 < first.toNat + entries.length ∨ ∃ e ∈ entries, 60000 < e.1.toNat ∨ 6000 < e.2.toNat
  | .setInsertPolicy _ _ limit threshold _ => 15 < limit.toNat ∨ Outside 50 99 threshold.toNat
  | .stageFeederMap _ _ bank => ∃ e ∈ bank, e.1 = true ∧ 12 ≤ e.2.toNat
  | .restoreFeeder _ _ feeder _ => 8 ≤ feeder.toNat
  | .readInsertTables _ _ first => 256 ≤ first.toNat
  | .setSheetParameters _ _ mass caliper panels =>
    Outside 1 20000 mass.toNat ∨ Outside 20 400 caliper.toNat ∨ Outside 1 3 panels.toNat
  | .setEnvelopeClass _ _ cls en mass wall fill =>
    4 ≤ cls.toNat ∨ (en = true ∧ (Outside 1 60000 mass.toNat ∨ 2000 < wall.toNat ∨ Outside 1 20000 fill.toNat))
  | .setBands _ _ _ limits =>
    8 < limits.length ∨ (∃ l ∈ limits, Outside 1 20000 l.toNat) ∨ ¬(limits.map BitVec.toNat).Pairwise (· < ·)
  | .stageSortElements _ _ first _ elements =>
    elements = [] ∨ 16 < elements.length ∨ 64 < first.toNat + elements.length ∨ ∃ r ∈ elements, BadElement r
  | .setFallback _ _ action => BadAction action
  | .readSortPlan _ _ bank first count => 1 < bank.toNat ∨ Outside 1 16 count.toNat ∨ 64 < first.toNat + count.toNat
  | .trySortKey _ _ key band service => 999999999 < key.toNat ∨ 7 < band.toNat ∨ 1 < service.toNat
  | .setBinLimits _ _ bin disabled maxCount maxMass minCount => 17 ≤ bin.toNat ∨
    (disabled = false ∧ (Outside 1 4000 maxCount.toNat ∨ Outside 1 400000 maxMass.toNat ∨ maxCount.toNat < minCount.toNat))
  | .readTrays _ _ count => Outside 1 8 count.toNat
  | .readCompletions _ _ count => Outside 1 16 count.toNat
  | .clearSummary _ _ flags => 262144 ≤ flags.toNat
  | .readLayout _ _ => False
  | .commitFeederMap _ _ => False
  | .readFeeders _ _ => False
  | .readPlannerTables _ _ => False
  | .commitSortPlan _ _ => False
  | .readBins _ _ => False
  | .startRun _ _ => False
  | .endRun _ _ => False
  | .stop _ _ => False
  | .resume _ _ => False
  | .declareRemoved _ _ _ _ _ _ => False
  | .abortRun _ _ => False
  | .restart _ _ => False
  | .readRunStatus _ _ => False
  | .readRunCounters _ _ => False
  | .readSummary _ _ => False
  | .readPort _ _ => False
  | .powerOnReset _ => False
  | .pitchArrival => False
  | .release => False
  | .exitDeadline _ => False
  | .feedDeadline _ _ => False
  | .verifyDeadline _ => False
  | .feederMapCopy => False
  | .sortPlanCopy => False
  | .trayChangeRetry => False
  | .frameArrival _ => False
  | .downstreamSendBegin => False
  | .frameSent => False
  | .pendingCutterCommandQueued => False
  | .responseSegmentQueued => False
  | .alert => False
  | .sheet _ _ _ _ => False
  | .feed _ _ _ => False
  | .material _ _ => False
  | .read _ _ _ => False
  | .landed _ _ _ => False
  | .trayReady _ _ => False
  | .heldRecordAppended => False
  | .jam _ => False
  | .request _ _ _ _ => False
  | .resetLineHeld => False

/-- The requester and the tag of a management request. -/
def requester (c : Instr) : Option (Addr × Tag) :=
  match c with
  | .setWindow src tag _ _ _ _ _ _ => some (src, tag)
  | .writeMapEntries src tag _ _ _ => some (src, tag)
  | .loadDescriptors src tag _ _ => some (src, tag)
  | .retire src tag _ _ => some (src, tag)
  | .readDescriptor src tag _ => some (src, tag)
  | .findPiece src tag _ => some (src, tag)
  | .setLayout src tag _ => some (src, tag)
  | .readLayout src tag => some (src, tag)
  | .setTiming src tag _ _ _ _ _ => some (src, tag)
  | .readTrack src tag _ => some (src, tag)
  | .setSelection src tag _ _ _ => some (src, tag)
  | .setInserts src tag _ _ _ => some (src, tag)
  | .setInsertPolicy src tag _ _ _ => some (src, tag)
  | .stageFeederMap src tag _ => some (src, tag)
  | .commitFeederMap src tag => some (src, tag)
  | .restoreFeeder src tag _ _ => some (src, tag)
  | .readFeeders src tag => some (src, tag)
  | .readInsertTables src tag _ => some (src, tag)
  | .setSheetParameters src tag _ _ _ => some (src, tag)
  | .setEnvelopeClass src tag _ _ _ _ _ => some (src, tag)
  | .setBands src tag _ _ => some (src, tag)
  | .readPlannerTables src tag => some (src, tag)
  | .stageSortElements src tag _ _ _ => some (src, tag)
  | .setFallback src tag _ => some (src, tag)
  | .commitSortPlan src tag => some (src, tag)
  | .readSortPlan src tag _ _ _ => some (src, tag)
  | .trySortKey src tag _ _ _ => some (src, tag)
  | .setBinLimits src tag _ _ _ _ _ => some (src, tag)
  | .readTrays src tag _ => some (src, tag)
  | .readBins src tag => some (src, tag)
  | .startRun src tag => some (src, tag)
  | .endRun src tag => some (src, tag)
  | .stop src tag => some (src, tag)
  | .resume src tag => some (src, tag)
  | .declareRemoved src tag _ _ _ _ => some (src, tag)
  | .abortRun src tag => some (src, tag)
  | .restart src tag => some (src, tag)
  | .readRunStatus src tag => some (src, tag)
  | .readCompletions src tag _ => some (src, tag)
  | .readRunCounters src tag => some (src, tag)
  | .clearSummary src tag _ => some (src, tag)
  | .readSummary src tag => some (src, tag)
  | .readPort src tag => some (src, tag)
  | .powerOnReset _ => none
  | .pitchArrival => none
  | .release => none
  | .exitDeadline _ => none
  | .feedDeadline _ _ => none
  | .verifyDeadline _ => none
  | .feederMapCopy => none
  | .sortPlanCopy => none
  | .trayChangeRetry => none
  | .frameArrival _ => none
  | .downstreamSendBegin => none
  | .frameSent => none
  | .pendingCutterCommandQueued => none
  | .responseSegmentQueued => none
  | .alert => none
  | .sheet _ _ _ _ => none
  | .feed _ _ _ => none
  | .material _ _ => none
  | .read _ _ _ => none
  | .landed _ _ _ => none
  | .trayReady _ _ => none
  | .heldRecordAppended => none
  | .jam _ => none
  | .request _ _ _ _ => none
  | .resetLineHeld => none

end Sys2Proof.Machine
end

