-- ==== Sys2Proof/Laws/PerInstr.lean ====
section
/-! SUPPORT. Statements made of every command as syntax, one lemma per constructor. -/

namespace Sys2Proof.Laws.RequestFits

open Sys2Proof.Machine

/-- The body of a request, spelt from its code and arguments, has the length that the table of R188 gives (`bodyLength`); a well-formed
request's is between one byte and the 384 bytes of R184, and the ring port knows its code and takes its length (R185). -/
def Statement (i : Instr) : Prop :=
  ∀ body, requestBody i = some body → bodyLength i = some body.length ∧
    (wellFormed i = true → 1 ≤ body.length ∧ body.length ≤ 384 ∧
      ∀ src, (requestEffect src (body.headD 0).toNat body.tail).isSome = true)

/-- A command without a body has nothing to fit. -/
theorem of_none {i : Instr} (h : requestBody i = none) : Statement i := by
  intro body hb; rw [h] at hb; cases hb

/-- A request's statement from its code and its arguments: their length, and that the ring port takes it when the shape is right. -/
theorem of_parts {i : Instr} {code : Byte} {args : List Byte} (hb : requestBody i = some (code :: args))
    (hl : bodyLength i = some (args.length + 1))
    (he : shapeOk i = true → ∀ src, (requestEffect src code.toNat args).isSome = true) : Statement i := by
  intro body h
  rw [hb] at h; cases h
  refine ⟨hl, fun hw => ?_⟩
  simp only [wellFormed, hl, Bool.and_eq_true, decide_eq_true_eq] at hw
  exact ⟨by simp, hw.2, fun src => by simpa using he hw.1 src⟩

/-- The length of records of k bytes each. -/
theorem length_records {α : Type} (enc : α → List Byte) (k : Nat) (h : ∀ x, (enc x).length = k) (xs : List α) :
    (xs.flatMap enc).length = k * xs.length := by
  simp [List.length_flatMap, h, Nat.mul_comm]

theorem powerOnReset (straps : Addr) : Statement (.powerOnReset straps) := of_none rfl

theorem pitchArrival : Statement (.pitchArrival) := of_none rfl

theorem release : Statement (.release) := of_none rfl

theorem exitDeadline (slot : BitVec 6) : Statement (.exitDeadline slot) := of_none rfl

theorem feedDeadline (slot : BitVec 6) (insert : BitVec 4) : Statement (.feedDeadline slot insert) := of_none rfl

theorem verifyDeadline (slot : BitVec 6) : Statement (.verifyDeadline slot) := of_none rfl

theorem feederMapCopy : Statement (.feederMapCopy) := of_none rfl

theorem sortPlanCopy : Statement (.sortPlanCopy) := of_none rfl

theorem trayChangeRetry : Statement (.trayChangeRetry) := of_none rfl

theorem frameArrival (bytes : List Byte) : Statement (.frameArrival bytes) := of_none rfl

theorem downstreamSendBegin : Statement (.downstreamSendBegin) := of_none rfl

theorem frameSent : Statement (.frameSent) := of_none rfl

theorem pendingCutterCommandQueued : Statement (.pendingCutterCommandQueued) := of_none rfl

theorem responseSegmentQueued : Statement (.responseSegmentQueued) := of_none rfl

theorem alert : Statement (.alert) := of_none rfl

theorem sheet (src : Addr) (id : PieceId) (index count : Byte) : Statement (.sheet src id index count) := of_none rfl

theorem feed (src : Addr) (stamp : Stamp) (outcome : Byte) : Statement (.feed src stamp outcome) := of_none rfl

theorem material (src : Addr) (level : Byte) : Statement (.material src level) := of_none rfl

theorem read (src : Addr) (stamp : Stamp) (id : PieceId) : Statement (.read src stamp id) := of_none rfl

theorem landed (src : Addr) (stamp : Stamp) (place : Byte) : Statement (.landed src stamp place) := of_none rfl

theorem trayReady (src : Addr) (bin : Byte) : Statement (.trayReady src bin) := of_none rfl

theorem heldRecordAppended : Statement (.heldRecordAppended) := of_none rfl

theorem jam (src : Addr) : Statement (.jam src) := of_none rfl

theorem request (src : Addr) (tag : Tag) (segment : Byte) (body : List Byte) : Statement (.request src tag segment body) := of_none rfl

theorem setWindow (src : Addr) (tag : Tag) (window : Byte) (enabled : Bool) (base : PieceId) (k mode : Byte) (start : BitVec 16) : Statement (.setWindow src tag window enabled base k mode start) := of_parts rfl rfl (fun _ _ => rfl)

theorem writeMapEntries (src : Addr) (tag : Tag) (first : BitVec 16) (count : Byte) (entries : List (Bool × BitVec 16)) : Statement (.writeMapEntries src tag first count entries) := by
  have hk := length_records (fun e : Bool × BitVec 16 => flagByte e.1 ++ be2 e.2.toNat) 3 (fun _ => rfl) entries
  refine of_parts rfl (by simp [bodyLength, hk, show (be2 first.toNat).length = 2 from rfl]; omega) (fun h src => ?_)
  simp only [shapeOk, beq_iff_eq] at h
  rw [h] at hk
  generalize List.flatMap _ _ = x at hk ⊢
  simp [requestEffect, ofLength, byteAt, be2, hk, show countOf count = countField count from rfl]; omega

theorem loadDescriptors (src : Addr) (tag : Tag) (count : Byte) (records : List DescriptorRecord) : Statement (.loadDescriptors src tag count records) := by
  have hk := length_records descriptorRecordBytes 10 (fun _ => rfl) records
  refine of_parts rfl (by simp [bodyLength, hk]; omega) (fun h src => ?_)
  simp only [shapeOk, beq_iff_eq] at h
  rw [h] at hk
  generalize List.flatMap _ _ = x at hk ⊢
  simp [requestEffect, ofLength, byteAt, hk, show countOf count = countField count from rfl]; omega

theorem retire (src : Addr) (tag : Tag) (first last : BitVec 16) : Statement (.retire src tag first last) := of_parts rfl rfl (fun _ _ => rfl)

theorem readDescriptor (src : Addr) (tag : Tag) (slot : BitVec 16) : Statement (.readDescriptor src tag slot) := of_parts rfl rfl (fun _ _ => rfl)

theorem findPiece (src : Addr) (tag : Tag) (id : PieceId) : Statement (.findPiece src tag id) := of_parts rfl rfl (fun _ _ => rfl)

theorem setLayout (src : Addr) (tag : Tag) (record : List Byte) : Statement (.setLayout src tag record) :=
  of_parts rfl (by simp [bodyLength]; omega) (fun h src => by simp [requestEffect, ofLength, show record.length = 36 by simpa [shapeOk] using h])

theorem readLayout (src : Addr) (tag : Tag) : Statement (.readLayout src tag) := of_parts rfl rfl (fun _ _ => rfl)

theorem setTiming (src : Addr) (tag : Tag) (lr lf lg ls allowance : Byte) : Statement (.setTiming src tag lr lf lg ls allowance) := of_parts rfl rfl (fun _ _ => rfl)

theorem readTrack (src : Addr) (tag : Tag) (slot : Option Byte) : Statement (.readTrack src tag slot) := by
  cases slot <;> exact of_parts rfl rfl (fun _ _ => rfl)

theorem setSelection (src : Addr) (tag : Tag) (first count : Byte) (sets : List (BitVec 16)) : Statement (.setSelection src tag first count sets) := by
  have hk := length_records (fun x : BitVec 16 => be2 x.toNat) 2 (fun _ => rfl) sets
  refine of_parts rfl (by simp [bodyLength, hk]; omega) (fun h src => ?_)
  simp only [shapeOk, beq_iff_eq] at h
  rw [h] at hk
  generalize List.flatMap _ _ = x at hk ⊢
  simp [requestEffect, ofLength, byteAt, hk, show countOf count = countField count from rfl]; omega

theorem setInserts (src : Addr) (tag : Tag) (first count : Byte) (entries : List (BitVec 16 × BitVec 16)) : Statement (.setInserts src tag first count entries) := by
  have hk := length_records (fun e : BitVec 16 × BitVec 16 => be2 e.1.toNat ++ be2 e.2.toNat) 4 (fun _ => rfl) entries
  refine of_parts rfl (by simp [bodyLength, hk]; omega) (fun h src => ?_)
  simp only [shapeOk, beq_iff_eq] at h
  rw [h] at hk
  generalize List.flatMap _ _ = x at hk ⊢
  simp [requestEffect, ofLength, byteAt, hk]; omega

theorem setInsertPolicy (src : Addr) (tag : Tag) (limit threshold : Byte) (single : Bool) : Statement (.setInsertPolicy src tag limit threshold single) := of_parts rfl rfl (fun _ _ => rfl)

theorem stageFeederMap (src : Addr) (tag : Tag) (bank : List (Bool × Byte)) : Statement (.stageFeederMap src tag bank) := by
  have hk := length_records (fun e : Bool × Byte => flagByte e.1 ++ [e.2]) 2 (fun _ => rfl) bank
  refine of_parts rfl (by simp [bodyLength, hk]; omega) (fun h src => ?_)
  simp only [shapeOk, beq_iff_eq, Config.feeders] at h
  rw [h] at hk
  generalize List.flatMap _ _ = x at hk ⊢
  simp [requestEffect, ofLength, hk]

theorem commitFeederMap (src : Addr) (tag : Tag) : Statement (.commitFeederMap src tag) := of_parts rfl rfl (fun _ _ => rfl)

theorem restoreFeeder (src : Addr) (tag : Tag) (feeder : Byte) (reset : Bool) : Statement (.restoreFeeder src tag feeder reset) := of_parts rfl rfl (fun _ _ => rfl)

theorem readFeeders (src : Addr) (tag : Tag) : Statement (.readFeeders src tag) := of_parts rfl rfl (fun _ _ => rfl)

theorem readInsertTables (src : Addr) (tag : Tag) (first : BitVec 16) : Statement (.readInsertTables src tag first) := of_parts rfl rfl (fun _ _ => rfl)

theorem setSheetParameters (src : Addr) (tag : Tag) (mass caliper : BitVec 16) (panels : Byte) : Statement (.setSheetParameters src tag mass caliper panels) := of_parts rfl rfl (fun _ _ => rfl)

theorem setEnvelopeClass (src : Addr) (tag : Tag) (cls : Byte) (enabled : Bool) (mass wall fill : BitVec 16) : Statement (.setEnvelopeClass src tag cls enabled mass wall fill) := of_parts rfl rfl (fun _ _ => rfl)

theorem setBands (src : Addr) (tag : Tag) (count : Byte) (limits : List (BitVec 16)) : Statement (.setBands src tag count limits) := by
  have hk := length_records (fun x : BitVec 16 => be2 x.toNat) 2 (fun _ => rfl) limits
  refine of_parts rfl (by simp [bodyLength, hk]; omega) (fun h src => ?_)
  simp only [shapeOk, beq_iff_eq] at h
  rw [h] at hk
  generalize List.flatMap _ _ = x at hk ⊢
  simp [requestEffect, ofLength, byteAt, hk]; omega

theorem readPlannerTables (src : Addr) (tag : Tag) : Statement (.readPlannerTables src tag) := of_parts rfl rfl (fun _ _ => rfl)

theorem stageSortElements (src : Addr) (tag : Tag) (first count : Byte) (elements : List ElementRecord) : Statement (.stageSortElements src tag first count elements) := by
  have hk := length_records elementRecordBytes 12 (fun _ => rfl) elements
  refine of_parts rfl (by simp [bodyLength, hk]; omega) (fun h src => ?_)
  simp only [shapeOk, beq_iff_eq] at h
  rw [h] at hk
  generalize List.flatMap _ _ = x at hk ⊢
  simp [requestEffect, ofLength, byteAt, hk]; omega

theorem setFallback (src : Addr) (tag : Tag) (action : Byte) : Statement (.setFallback src tag action) := of_parts rfl rfl (fun _ _ => rfl)

theorem commitSortPlan (src : Addr) (tag : Tag) : Statement (.commitSortPlan src tag) := of_parts rfl rfl (fun _ _ => rfl)

theorem readSortPlan (src : Addr) (tag : Tag) (bank first count : Byte) : Statement (.readSortPlan src tag bank first count) := of_parts rfl rfl (fun _ _ => rfl)

theorem trySortKey (src : Addr) (tag : Tag) (key : BitVec 32) (band service : Byte) : Statement (.trySortKey src tag key band service) := of_parts rfl rfl (fun _ _ => rfl)

theorem setBinLimits (src : Addr) (tag : Tag) (bin : Byte) (disabled : Bool) (maxCount : BitVec 16) (maxMass : BitVec 24) (minCount : BitVec 16) : Statement (.setBinLimits src tag bin disabled maxCount maxMass minCount) := of_parts rfl rfl (fun _ _ => rfl)

theorem readTrays (src : Addr) (tag : Tag) (count : Byte) : Statement (.readTrays src tag count) := of_parts rfl rfl (fun _ _ => rfl)

theorem readBins (src : Addr) (tag : Tag) : Statement (.readBins src tag) := of_parts rfl rfl (fun _ _ => rfl)

theorem startRun (src : Addr) (tag : Tag) : Statement (.startRun src tag) := of_parts rfl rfl (fun _ _ => rfl)

theorem endRun (src : Addr) (tag : Tag) : Statement (.endRun src tag) := of_parts rfl rfl (fun _ _ => rfl)

theorem stop (src : Addr) (tag : Tag) : Statement (.stop src tag) := of_parts rfl rfl (fun _ _ => rfl)

theorem resume (src : Addr) (tag : Tag) : Statement (.resume src tag) := of_parts rfl rfl (fun _ _ => rfl)

theorem declareRemoved (src : Addr) (tag : Tag) (range : Bool) (lo hi : Byte) (accumulator : Bool) : Statement (.declareRemoved src tag range lo hi accumulator) := of_parts rfl rfl (fun _ _ => rfl)

theorem abortRun (src : Addr) (tag : Tag) : Statement (.abortRun src tag) := of_parts rfl rfl (fun _ _ => rfl)

theorem restart (src : Addr) (tag : Tag) : Statement (.restart src tag) := of_parts rfl rfl (fun _ _ => rfl)

theorem readRunStatus (src : Addr) (tag : Tag) : Statement (.readRunStatus src tag) := of_parts rfl rfl (fun _ _ => rfl)

theorem readCompletions (src : Addr) (tag : Tag) (count : Byte) : Statement (.readCompletions src tag count) := of_parts rfl rfl (fun _ _ => rfl)

theorem readRunCounters (src : Addr) (tag : Tag) : Statement (.readRunCounters src tag) := of_parts rfl rfl (fun _ _ => rfl)

theorem clearSummary (src : Addr) (tag : Tag) (flags : BitVec 24) : Statement (.clearSummary src tag flags) := of_parts rfl rfl (fun _ _ => rfl)

theorem readSummary (src : Addr) (tag : Tag) : Statement (.readSummary src tag) := of_parts rfl rfl (fun _ _ => rfl)

theorem readPort (src : Addr) (tag : Tag) : Statement (.readPort src tag) := of_parts rfl rfl (fun _ _ => rfl)

theorem resetLineHeld : Statement (.resetLineHeld) := of_none rfl

end Sys2Proof.Laws.RequestFits
end

