-- ==== Sys2Proof/Certificates/Slice0/Obligations.lean ====
section
/-! DEFINITION. The statements for the provers. In every one, `settle s` is the state after the work that the commands before have
brought about (logs 3, 4 and 35): what stands when the command acts. -/

open Sys2Proof Sys2Proof.Machine

/-! ## The step, the reset line and the pitch line -/

/-- The front command acts on the state with the rest of the queue; with no command waiting the part idles (log 2, the model's choice). -/
def Obligations.StepRunsFrontCommand : Prop :=
  (∀ (c : Instr) (rest : List Instr) (s : State), s.pending = c :: rest → step s = exec c (withPending s rest)) ∧
  (∀ s : State, s.pending = [] → step s = .next s)

/-- R164: RESET_LINE_HELD completes, and while the line is held no command but the line's own changes anything. That the state is
kept meanwhile is the model's choice (log 7). -/
def Obligations.HeldResetLineStopsCommands : Prop :=
  ∀ s : State,
    exec .resetLineHeld s = .next (withResetHeld s true) ∧
    (s.resetHeld = true → ∀ c : Instr, (∀ a, c ≠ .powerOnReset a) → c ≠ .resetLineHeld → exec c s = .next s)

/-- What POWER_ON_RESET leaves, block by block, and the own address read from the straps. -/
def Obligations.PowerOnResetValues : Prop :=
  ∀ (straps : Addr) (s : State), ∃ t, exec (.powerOnReset straps) s = .next t ∧
    (∀ n, descAt t n = none) ∧ (∀ w, tget Window.off t.ds.windows w = ⟨false, 0#24, 4, .direct, 0⟩) ∧
    (∀ m, tget MapEntry.off t.ds.map m = ⟨false, 0⟩) ∧
    t.cu = ⟨none, [], .hold, none⟩ ∧
    t.tu.pitch = 0 ∧ (∀ k, pieceAt t k = none) ∧ t.tu.layout.cutter = 63#6 ∧ t.tu.layout.sheetReader = 63#6 ∧
    t.tu.layout.accumulator = 63#6 ∧ t.tu.layout.lineComputer = 63#6 ∧ t.tu.layout.folder = ⟨63#6, 0⟩ ∧
    t.tu.layout.verify = ⟨63#6, 0⟩ ∧ t.tu.layout.gate = ⟨63#6, 0⟩ ∧ t.tu.layout.sorter = ⟨63#6, 0⟩ ∧
    (∀ f, placeAt t f = ⟨63#6, 0, false⟩) ∧ t.tu.timing = ⟨2, 2, 2, 2, 2⟩ ∧
    (∀ c, tget 0#12 t.iu.selection c = 0#12) ∧ (∀ i, tget InsertSpec.off t.iu.inserts i = ⟨0, 0⟩) ∧
    t.iu.limit = 3 ∧ t.iu.threshold = 90 ∧ t.iu.single = false ∧
    (∀ f, tget MapSlot.off t.iu.staged f = ⟨false, 0⟩ ∧ tget MapSlot.off t.iu.active f = ⟨false, 0⟩) ∧
    (∀ f, feederAt t f = ⟨.offline, .ok, 0, 0, 0, 0, 100, false⟩) ∧ t.iu.commitPending = false ∧
    t.pp.sheetMass = 4990 ∧ t.pp.sheetCaliper = 100 ∧ t.pp.panels = 3 ∧
    (∀ c, tget EnvClass.off t.pp.classes c = ⟨false, 1, 0, 1⟩) ∧ t.pp.bands = [] ∧
    (∀ n, tget Element.disabled t.su.active n = .disabled ∧ tget Element.disabled t.su.staged n = .disabled) ∧
    t.su.generation = 0 ∧ t.su.commitPending = false ∧ t.su.fallback = .reject ∧
    (∀ b, binAt t b = ⟨.disabled, none, none, false, none, false⟩) ∧
    t.bu.brCount = 0 ∧ t.bu.brMass = 0 ∧ t.bu.nextSeq = 1 ∧ t.bu.log = [] ∧
    t.rc = ⟨.idle, 0, none, none⟩ ∧ t.cl = ⟨[], ⟨0, 0, 0, 0, 0, 0, 0⟩, 0, none, false⟩ ∧
    t.rp = ⟨straps, [], [], none, .forward, none, none⟩ ∧ t.due = ⟨false, false, false, false, false⟩ ∧
    t.pending = s.pending ∧ t.resetHeld = false

/-- R44: a pitch arrival advances the counter by 1 in RUNNING and DRAINING, modulo 2^32, sets PITCH_IN_STOP in STOPPED with the current
pitch, and is ignored in IDLE. -/
def Obligations.PitchArrivalByRunState : Prop :=
  ∀ s : State, s.resetHeld = false → ∃ t, exec .pitchArrival s = .next t ∧
    (((settle s).rc.state = .running ∨ (settle s).rc.state = .draining) →
      t = withDue (withTu (settle s) { (settle s).tu with pitch := (settle s).tu.pitch + 1 })
        ⟨true, (settle s).iu.commitPending, (settle s).su.commitPending, true, true⟩) ∧
    ((settle s).rc.state = .stopped → FlagOnly .pitchInStop none (some (settle s).tu.pitch) none (settle s) t) ∧
    ((settle s).rc.state = .idle → t = settle s)

/-! ## The works of an arrival -/

/-- R56: the resolved pitch is the pitch from c - 126 to c + 1 whose low eight bits are the stamp, and there is none outside them. -/
def Obligations.StampResolvesInWindow : Prop :=
  ∀ (c : Pitch) (st : Stamp) (P : Pitch),
    resolveStamp c st = some P ↔ stampOf P = st ∧ -1 ≤ pitchDiff c P ∧ pitchDiff c P ≤ 126

/-- R40, R51-R54, R75-R79, R95-R101, R105-R107, R171: a release queues RELEASE stamped with the entry pitch c + L_r, the CALLs of a set
without a fault, and the DIVERT of one with a fault; a piece still in the slot leaves LOST first, giving up its place in a tray; the head
leaves the queue and stands in the slot with its inserts resolved, its figures computed, its faults in the order of the tests and its path;
and then the test of R40 is made. With the command part full the release is not made: COMMAND_QUEUE_FULL, and every block stays as it was. -/
def Obligations.ReleasePlacesHeadSet : Prop :=
  ∀ (x : SetRec) (rest : List SetRec) (s : State), s.resetHeld = false → s.due.release = true →
    (s.rc.state = .running ∨ s.rc.state = .draining) → s.cu.queue = x :: rest →
    ∃ t, exec .release s = .next t ∧
      (commandRoom s = false → FlagOnly .commandQueueFull none none none (withDue s { s.due with release := false }) t) ∧
      (commandRoom s = true → ∃ p m,
        let e : Pitch := s.tu.pitch + BitVec.ofNat 32 s.tu.timing.lr
        let old := pieceAt s (ringSlot e)
        pieceAt m (ringSlot e) = some p ∧ (∀ j, j ≠ ringSlot e → pieceAt m j = pieceAt s j) ∧
        p.entry = e ∧ p.id = x.id ∧ p.slot = x.slot ∧ p.held = x.held ∧ p.verify = .pending ∧ PlannedPiece s x p ∧
        p.fault = (releaseFaults s x p).head? ∧ p.further = (x.further || decide (2 ≤ (releaseFaults s x p).length)) ∧
        p.path = releasePath s x p ∧
        (∀ i y, p.planned[i]? = some y → y.status = if i < callsMade s x p then .called else .notCalled) ∧
        commands m = commands s ++ releaseFrames s x p ∧
        (∀ y, x.fault = none → planFaults s x p = [] → p.planned[callsMade s x p]? = some y →
          CauseAmong .commandQueueFull (some (placeAt s (y.primary.getD 0)).addr) (some s.tu.pitch) p.id s m) ∧
        ((x.fault.isSome = true ∨ planFaults s x p ≠ []) → GateInReach s p → p.path = .reject →
          CauseAmong .commandQueueFull (some s.tu.layout.gate.addr) (some s.tu.pitch) p.id s m) ∧
        (∀ b, binAt m b = old.elim (binAt s b) (fun y => unreserved y.path y.mass b (binAt s b))) ∧
        m.cl.log = s.cl.log ++ old.toList.map (fun y => ⟨s.rc.run, some y.entry, y.id, y.slot, .lost, none, none,
          some (y.fault.getD .lost), y.further || y.fault.isSome, y.held, y.mass, (y.slot.bind (descAt s)).map Descriptor.reprint⟩) ∧
        m.cl.counters = { s.cl.counters with
          released := s.cl.counters.released + 1
          exited := if old.isSome then s.cl.counters.exited + 1 else s.cl.counters.exited
          diverted := if old.isSome then s.cl.counters.diverted + 1 else s.cl.counters.diverted } ∧
        (∀ n, descAt m n = if old.bind Piece.slot = some n then (descAt s n).map (fun d => { d with state := .diverted })
          else descAt s n) ∧
        m.cu = { s.cu with
          queue := rest ++ ((s.cu.place.filter OpenRec.waiting).map OpenRec.set).toList
          place := s.cu.place.filter (fun r => !r.waiting) } ∧
        m.ds = { s.ds with slots := m.ds.slots } ∧ m.tu = { s.tu with ring := m.tu.ring } ∧ m.bu = { s.bu with bins := m.bu.bins } ∧
        m.iu = s.iu ∧ m.pp = s.pp ∧ m.su = s.su ∧ m.rc = s.rc ∧ m.due = { s.due with release := false } ∧ SamePort s m ∧
        CutterTested m t)

/-- R12, R61-R63, R147, R149, R156, R168, R171: a piece past its exit deadline leaves LOST and gives up its place in a tray, and in DRAINING
the run-end close and the test for the drain end follow when it was the last in flight; a piece that is not past it is left alone. -/
def Obligations.ExitDeadlineLosesPiece : Prop :=
  ∀ (slot : BitVec 6) (p : Piece) (s : State), s.resetHeld = false → s.due.deadlines = true →
    pieceAt s slot.toNat = some p → TablesLaw s →
    ∃ t, exec (.exitDeadline slot) s = .next t ∧
      (pitchDiff s.tu.pitch p.entry ≤ (if p.path = .gate then s.tu.layout.gate.pos else s.tu.layout.sorter.pos : Nat) +
        (s.tu.timing.allowance : Int) → t = s) ∧
      ((if p.path = .gate then s.tu.layout.gate.pos else s.tu.layout.sorter.pos : Nat) + (s.tu.timing.allowance : Int) <
        pitchDiff s.tu.pitch p.entry →
        ∃ m, Left slot.toNat p .lost (some .lost) none none s m ∧ Unreserved p s m ∧ m.bu = { s.bu with bins := m.bu.bins } ∧
          NoCause s m ∧ FlightFell m t)

/-- R82, R84-R87, R104-R109: a feed deadline that passes counts a call and a miss at the feeder the entry waits on, with its condition, and
at the miss limit FAILED with FEEDER_FAILED; then the backup is called, or the entry is MISSED with NO_FEED_REPORT, or COMMAND_OVERFLOW
when the CALL finds no entry. A deadline that has not passed changes nothing. -/
def Obligations.FeedDeadlineCountsMiss : Prop :=
  ∀ (slot : BitVec 6) (insert : BitVec 4) (p : Piece) (e : Planned) (f : Nat) (s : State),
    s.resetHeld = false → s.due.deadlines = true → pieceAt s slot.toNat = some p →
    p.planned.find? (fun x => x.insert == insert.toNat) = some e → waitsOn e = some f →
    ∃ t, exec (.feedDeadline slot insert) s = .next t ∧
      (pitchDiff s.tu.pitch p.entry ≤ ((placeAt s f).pos : Int) + s.tu.timing.allowance → t = s) ∧
      (((placeAt s f).pos : Int) + s.tu.timing.allowance < pitchDiff s.tu.pitch p.entry →
        ∃ m, MissCounted f s.tu.pitch p.id s m ∧ MissSettled slot.toNat .noFeedReport p e m t)

/-- R104-R109, R115: a verify deadline that passes leaves the piece FAILED, with the fault VERIFY_NOREAD and the path it brings on when it
has an ID, and with no new fault when it has none; one that has not passed changes nothing. -/
def Obligations.VerifyDeadlineFailsPiece : Prop :=
  ∀ (slot : BitVec 6) (p : Piece) (s : State), s.resetHeld = false → s.due.deadlines = true → pieceAt s slot.toNat = some p →
    ∃ t, exec (.verifyDeadline slot) s = .next t ∧
      ((p.verify ≠ .pending ∨ pitchDiff s.tu.pitch p.entry ≤ (s.tu.layout.verify.pos : Int) + s.tu.timing.allowance) → t = s) ∧
      (p.verify = .pending → (s.tu.layout.verify.pos : Int) + s.tu.timing.allowance < pitchDiff s.tu.pitch p.entry →
        (p.id = none → t = setPiece s slot.toNat (some { p with verify := .failed })) ∧
        (p.id.isSome = true → FaultRecorded slot.toNat .verifyNoread { p with verify := .failed } s t))

/-- R73, R74: the copy of a pending feeder map at an arrival: the active bank, the end of the commit, each feeder's move, and FEEDER_EMPTY
when one becomes EMPTY. That the lowest-numbered of several gives the capture its address is the model's choice (log 31). -/
def Obligations.FeederMapCopyMovesFeeders : Prop :=
  ∀ s : State, s.resetHeld = false → s.due.mapCopy = true → s.iu.commitPending = true →
    TablesLaw s →
    ∃ t, exec .feederMapCopy s = .next t ∧ t.iu.active = s.iu.staged ∧ t.iu.staged = s.iu.staged ∧ t.iu.commitPending = false ∧
      (∀ f, f < 8 → feederAt t f =
        match (tget MapSlot.off s.iu.active f).enabled, (tget MapSlot.off s.iu.staged f).enabled with
        | false, true => { feederAt s f with state := levelState (feederAt s f).level, consecutive := 0 }
        | true, true => feederAt s f
        | _, false => { feederAt s f with state := .offline }) ∧
      (∀ f, f < 8 → becomesEmpty s f = true → (∀ g, g < f → becomesEmpty s g = false) →
        CauseTaken .feederEmpty (some (placeAt s f).addr) none none s t) ∧
      ((∀ f, f < 8 → becomesEmpty s f = false) → t.cl = s.cl ∧ t.rp = s.rp) ∧
      t.iu = { s.iu with active := s.iu.staged, commitPending := false, feeders := t.iu.feeders } ∧
      t.ds = s.ds ∧ t.cu = s.cu ∧ t.tu = s.tu ∧ t.pp = s.pp ∧ t.su = s.su ∧ t.bu = s.bu ∧ t.rc = s.rc ∧ t.cl.log = s.cl.log ∧
      t.cl.counters = s.cl.counters ∧ t.due = { s.due with mapCopy := false }

/-- R128, R129, R132, R142: the copy of a pending sort plan at an arrival: the bank, the generation raised by 1, and the group break. An OPEN
bin with a tray that is not empty goes FULL with GROUP_BREAK and its TRAY_CHANGE is queued, or owed with COMMAND_QUEUE_FULL when no entry
is free; one with an empty tray gives it the new generation; any other bin stays. -/
def Obligations.SortPlanCopyMakesGroupBreak : Prop :=
  ∀ s : State, s.resetHeld = false → s.due.planCopy = true → s.su.commitPending = true →
    ∃ t, exec .sortPlanCopy s = .next t ∧ PlanCopied (withDue s { s.due with planCopy := false }) t

/-- R142: at an arrival the owed TRAY_CHANGEs are tried again from B0 to B15 and then BO: as many as command entries are free are queued, each
with its tray's reserved count, and are no longer owed. The rest stay owed without a flag, and nothing else changes. -/
def Obligations.TrayChangeRetryQueuesOwed : Prop :=
  ∀ s : State, s.resetHeld = false → s.due.trayRetry = true →
    ∃ t, exec .trayChangeRetry s = .next t ∧
      let sent := (owingBins s).take (commandFree s)
      (∀ b, binAt t b = if b ∈ sent then { binAt s b with owed := false } else binAt s b) ∧
      t = withDue
        (withRp (withBu s { s.bu with bins := t.bu.bins }) { s.rp with
          originate := s.rp.originate ++ sent.map (fun b => changeFrame s b ((binAt s b).tray.elim 0 Tray.reserved)) })
        { s.due with trayRetry := false }

/-! ## What freed entries and places are offered to -/

/-- R40, R41: the test of R40, which follows every change of the release queue and of the headroom: in RUNNING HOLD to a cutter on GO at a
queue of three or more or a headroom of 8 or less, GO to one on HOLD at a queue of at most one and a headroom above 8, and a pending command
withdrawn when its condition is gone; with the command part full COMMAND_QUEUE_FULL and the command pending. A pending command is queued when
an entry is free and the hold state takes its value; with none free, or none pending, nothing changes. -/
def Obligations.CutterIsRegulated : Prop :=
  ∀ s : State, CutterTested s (cutterTest s) ∧
    (s.resetHeld = false → ∃ t, exec .pendingCutterCommandQueued s = .next t ∧
      (∀ p, s.cu.pendingCutter = some p → commandRoom s = true →
        t = withRp (withCu s { s.cu with hold := cutterOf p, pendingCutter := none })
          { s.rp with originate := s.rp.originate ++ [⟨s.tu.layout.cutter, cutterKind (cutterOf p), stampNow s, []⟩] }) ∧
      ((s.cu.pendingCutter = none ∨ commandRoom s = false) → t = s))

/-- R175, R184, R186: a freed management entry goes to the next segment of a buffered response, with its number and the last mark. While
segments are left nothing stands behind it and they stay in the buffer; after the last one the buffer is empty, and a pending ALERT is placed
right behind it when an entry is left free and the line computer has an address. With no entry free nothing changes. A pending ALERT is placed
when an entry is free, no response waits and the line computer has an address, with the summary as it stands. -/
def Obligations.ManagementEntriesAreOffered : Prop :=
  ∀ s : State, s.resetHeld = false →
    (∀ r seg rest, s.rp.response = some r → r.segments = seg :: rest →
      ∃ t, exec .responseSegmentQueued s = .next t ∧
        (managementRoom s = true →
          let sent : Frame := ⟨r.dest, .response, stampNow s, segmentPayload r.tag r.next (decide (rest = [])) seg⟩
          (rest ≠ [] → t = withRp s { s.rp with
            originate := s.rp.originate ++ [sent]
            response := some { r with next := r.next + 1, segments := rest } }) ∧
          (rest = [] → t = alertOffered (withRp s { s.rp with originate := s.rp.originate ++ [sent], response := none })) ∧
          (rest = [] → s.cl.alertPending = true → managementCount s < 3 → s.tu.layout.lineComputer ≠ 63#6 →
            t.rp.originate = s.rp.originate ++
              [sent, ⟨s.tu.layout.lineComputer, .alert, stampNow s, field 3 s.cl.summary.toNat⟩] ∧ t.cl.alertPending = false)) ∧
        (managementRoom s = false → t = s)) ∧
    (∃ t, exec .alert s = .next t ∧
      (s.cl.alertPending = true → managementRoom s = true → s.rp.response = none → s.tu.layout.lineComputer ≠ 63#6 →
        t = withRp (withCl s { s.cl with alertPending := false })
          { s.rp with
              originate := s.rp.originate ++
                [⟨s.tu.layout.lineComputer, .alert, stampNow s, be3 s.cl.summary.toNat⟩] }) ∧
      ((s.cl.alertPending = false ∨ managementRoom s = false ∨ s.rp.response ≠ none ∨ s.tu.layout.lineComputer = 63#6) → t = s))

/-- R148, R156: with room in the tray log the held record of the lowest CLOSE_PENDING bin joins it, and the bin opens a tray, contaminated if
the bin carried a contamination; in DRAINING the drain end is tested after it. -/
def Obligations.HeldRecordIsAppended : Prop :=
  ∀ (b : Nat) (r : TrayRec) (s : State), s.resetHeld = false → s.bu.log.length < 256 → b < 17 →
    (binAt s b).state = .closePending → (binAt s b).held = some r → (∀ j, j < b → (binAt s j).state ≠ .closePending) →
    ∃ t m, exec .heldRecordAppended s = .next t ∧ m.bu.log = s.bu.log ++ [r] ∧
      binAt m b = ⟨.opened, (binAt s b).limits, some ⟨s.rc.run, s.bu.nextSeq, s.su.generation, 0, 0, 0, 0, none, none, 0,
        (binAt s b).carried, none⟩, false, none, false⟩ ∧
      (∀ j, j ≠ b → binAt m j = binAt s j) ∧
      m.bu.nextSeq = (if s.bu.nextSeq = 65535#16 then 1#16 else s.bu.nextSeq + 1) ∧ m = withBu s m.bu ∧ DrainTested m t

/-! ## The ring port -/

/-- R178-R180: a frame arrival: LINK_CHECK with an empty capture for a frame whose length field exceeds 56, whose bytes are not as many as its
length asks for, or whose last two bytes are not the check of its header and payload; a frame of the own source dropped; and any frame that is
not the part's to the tail of the forward queue as it arrived, or FORWARD_OVERRUN when that holds eight. That a wrong number of bytes fails
the check is the model's choice (log 9). -/
def Obligations.FrameArrivalChecksAndForwards : Prop :=
  ∀ (bytes : List Byte) (s : State), s.resetHeld = false → ∃ t, exec (.frameArrival bytes) s = .next t ∧
    (¬FrameIntact bytes → FlagOnly .linkCheck none none none (settle s) t) ∧
    (FrameIntact bytes → (settle s).rp.own ≠ 63#6 → addrOf (byteAt bytes 1) = (settle s).rp.own → t = settle s) ∧
    (FrameIntact bytes →
      ((settle s).rp.own = 63#6 ∨ (addrOf (byteAt bytes 1) ≠ (settle s).rp.own ∧ addrOf (byteAt bytes 0) ≠ (settle s).rp.own)) →
      ((settle s).rp.forward.length < 8 →
        t = withRp (settle s) { (settle s).rp with forward := (settle s).rp.forward ++ [bytes] }) ∧
      (8 ≤ (settle s).rp.forward.length →
        FlagOnly .forwardOverrun (some (addrOf (byteAt bytes 1))) none none (settle s) t))

/-- R178, R181, R188: a frame with a right check, addressed to the part from another station, acts as the report its kind and payload
spell; one of a kind the part does not take, or of another length than its kind has, is dropped with UNEXPECTED_REPORT. The frame is
written out byte by byte. -/
def Obligations.ConsumedFramesActAsReports : Prop :=
  ∀ (src : Addr) (stamp : Stamp) (s : State), (settle s).rp.own ≠ 63 → src ≠ (settle s).rp.own →
    let frame := fun (kind : Byte) (x : List Byte) =>
      let body := addrByte (settle s).rp.own :: addrByte src :: kind :: stamp :: BitVec.ofNat 8 x.length :: x
      Instr.frameArrival (body ++ be2 (crcOf body).toNat)
    (∀ id i n, exec (frame 1 (be3 id.toNat ++ [i, n])) s = exec (.sheet src id i n) s) ∧
    (∀ o, exec (frame 2 [o]) s = exec (.feed src stamp o) s) ∧
    (∀ l, exec (frame 3 [l]) s = exec (.material src l) s) ∧
    (∀ id, exec (frame 4 (be3 id.toNat)) s = exec (.read src stamp id) s) ∧
    (∀ x, exec (frame 5 [x]) s = exec (.landed src stamp x) s) ∧
    (∀ b, exec (frame 6 [b]) s = exec (.trayReady src b) s) ∧
    exec (frame 7 []) s = exec (.jam src) s ∧
    (∀ (tag : Tag) seg body, body.length ≤ 53 → exec (frame 15 (be2 tag.toNat ++ seg :: body)) s = exec (.request src tag seg body) s) ∧
    (∀ (kind : Byte) (x : List Byte), s.resetHeld = false → x.length ≤ 56 →
      (kind.toNat, x.length) ∉ [(1, 5), (2, 1), (3, 1), (4, 3), (5, 1), (6, 1), (7, 0)] → (kind = 15 → x.length < 3) →
      ∃ t, exec (frame kind x) s = .next t ∧ FlagOnly .unexpectedReport (some src) none none (settle s) t)

/-- R180, R182, R183: a frame is begun when the port is not sending: from the queue the turn names when both hold frames, from the one
that does otherwise; the turn goes to the other queue. When the port finishes, the frame leaves its queue. -/
def Obligations.DownstreamPortSendsByTurn : Prop :=
  ∀ s : State, s.resetHeld = false →
    (∃ t, exec .downstreamSendBegin s = .next t ∧
      (((settle s).rp.sending ≠ none ∨ ((settle s).rp.forward = [] ∧ (settle s).rp.originate = [])) → t = settle s) ∧
      ((settle s).rp.sending = none → (settle s).rp.forward ≠ [] → ((settle s).rp.originate = [] ∨ (settle s).rp.turn = .forward) →
        t = withRp (settle s) { (settle s).rp with sending := some .forward, turn := .originate }) ∧
      ((settle s).rp.sending = none → (settle s).rp.originate ≠ [] → ((settle s).rp.forward = [] ∨ (settle s).rp.turn = .originate) →
        t = withRp (settle s) { (settle s).rp with sending := some .originate, turn := .forward })) ∧
    (∃ t, exec .frameSent s = .next t ∧
      ((settle s).rp.sending = none → t = settle s) ∧
      ((settle s).rp.sending = some .forward →
        t = withRp (settle s) { (settle s).rp with sending := none, forward := (settle s).rp.forward.drop 1 }) ∧
      ((settle s).rp.sending = some .originate →
        t = withRp (settle s) { (settle s).rp with sending := none, originate := (settle s).rp.originate.drop 1 }))

/-- R184, R185, R188: a segment that no assembly expects is dropped with UNEXPECTED_REPORT and the assembly is kept. One that begins or
continues a message is gathered: without the last mark and within 384 bytes it waits for the next; with it, or past 384 bytes, the message is
complete and the assembly is given up, the message dropped when no response can be taken, and answered BAD_ARGUMENT when it is empty, its
first byte is no code of 1 to 43, its length is not the one R188 gives that code, or it passed 384 bytes. -/
def Obligations.RequestSegmentsAssemble : Prop :=
  ∀ (src : Addr) (tag : Tag) (seg : Byte) (body : List Byte) (s : State), s.resetHeld = false →
    ∃ t, exec (.request src tag seg body) s = .next t ∧
      (gathered (settle s) src tag seg body = none → FlagOnly .unexpectedReport (some src) none none (settle s) t) ∧
      (∀ whole, gathered (settle s) src tag seg body = some whole →
        (seg.toNat < 128 → whole.length ≤ 384 →
          t = withRp (settle s) { (settle s).rp with assembly := some ⟨src, tag, seg.toNat + 1, whole⟩ }) ∧
        ((128 ≤ seg.toNat ∨ 384 < whole.length) → requestTaken (settle s) = false →
          t = withRp (settle s) { (settle s).rp with assembly := none }) ∧
        ((128 ≤ seg.toNat ∨ 384 < whole.length) → requestTaken (settle s) = true →
          (whole = [] ∨ whole.length ∉ bodyLengths whole ∨ 384 < whole.length) →
          Answered src tag (whole.headD 0) ⟨.badArgument, 0, 0, []⟩
            (withRp (settle s) { (settle s).rp with assembly := none }) t))

/-- R184, R185, R188: the segment with the last mark that completes the body of a well-formed request, in one segment or behind the assembly
held, acts as that request does in the state with the assembly given up. -/
def Obligations.RequestBodiesSpellTheirCommands : Prop :=
  ∀ (c : Instr) (src : Addr) (tag : Tag) (seg : Byte) (body whole : List Byte) (s u : State), wellFormed c = true →
    requester c = some (src, tag) → requestBody c = some whole → 128 ≤ seg.toNat → gathered (settle s) src tag seg body = some whole →
    s.resetHeld = false → u.resetHeld = false → settle u = withRp (settle s) { (settle s).rp with assembly := none } →
    exec (.request src tag seg body) s = exec c u

/-- R184: every well-formed request's body fits the limit of a message. -/
def Obligations.WellFormedRequestsFit : Prop := ∀ i : Instr, Laws.RequestFits.Statement i

/-- R185: a request that finds the response buffer taken or no management entry free is dropped without effect. That a pending ALERT has
taken the last freed entry before the request comes is the model's choice (log 35; R175 lets either go first). -/
def Obligations.RequestsDroppedWhenNotTaken : Prop :=
  ∀ (c : Instr) (s : State), isRequest c = true → s.resetHeld = false → requestTaken (settle s) = false →
    exec c s = .next (settle s)

/-- R4, R9, R14, R17-R19, R46, R47, R65-R68, R72, R88, R89, R91-R93, R121, R122, R133, R134, R138, R148, R153, R170, R174, R185: outside IDLE
the requests of IDLE alone are answered WRONG_STATE; and a request whose arguments are out of range is answered BAD_ARGUMENT, one of IDLE
alone in IDLE, any other in every state. Nothing changes. A count above 32 where one to 32 are meant is refused by log 11. -/
def Obligations.RequestsRefusedByStateOrArguments : Prop :=
  ∀ (c : Instr) (src : Addr) (tag : Tag) (body : List Byte) (s : State), wellFormed c = true → requester c = some (src, tag) →
    requestBody c = some body → Takes s →
    let idleAlone := body.head? ∈ [some 1#8, some 7#8, some 9#8, some 11#8, some 12#8, some 13#8, some 19#8, some 20#8, some 21#8,
      some 24#8, some 31#8]
    (idleAlone → (settle s).rc.state ≠ .idle →
      ∃ t, exec c s = .next t ∧ Answered src tag (body.headD 0) ⟨.wrongState, 0, 0, []⟩ (settle s) t) ∧
    (BadArguments c → (idleAlone → (settle s).rc.state = .idle) →
      ∃ t, exec c s = .next t ∧ Answered src tag (body.headD 0) ⟨.badArgument, 0, 0, []⟩ (settle s) t)

/-! ## The tables -/

/-- R4, R9: SET WINDOW in IDLE and WRITE MAP ENTRIES in any state, with accepted arguments, write their places and nothing else.
That an invalid entry keeps the low bits of its slot is the model's choice (log 13). -/
def Obligations.WindowsAndMapAreWritten : Prop :=
  ∀ (src : Addr) (tag : Tag) (s : State), Takes s →
    (∀ (w k mode : Byte) (base : PieceId) (start : BitVec 16), (settle s).rc.state = .idle → w.toNat < 4 → 4 ≤ k.toNat → k.toNat ≤ 20 →
      base.toNat % 2 ^ k.toNat = 0 → (mode = 0 ∧ start.toNat < 4096 ∨ mode = 1 ∧ start.toNat < 8192) →
      ∃ t, exec (.setWindow src tag w true base k mode start) s = .next t ∧
        Answered src tag 1 ⟨.done, 0, 0, []⟩ (withDs (settle s) { (settle s).ds with
            windows := tput .off (settle s).ds.windows w.toNat
              ⟨true, base, k.toNat, if mode = 0 then .direct else .mapped, start.toNat⟩ }) t) ∧
    (∀ (w k mode : Byte) (base : PieceId) (start : BitVec 16), (settle s).rc.state = .idle → w.toNat < 4 →
      ∃ t, exec (.setWindow src tag w false base k mode start) s = .next t ∧
        Answered src tag 1 ⟨.done, 0, 0, []⟩ (withDs (settle s) { (settle s).ds with
            windows := tput .off (settle s).ds.windows w.toNat
              { tget Window.off (settle s).ds.windows w.toNat with enabled := false } }) t) ∧
    (∀ (first : BitVec 16) (count : Byte) (entries : List (Bool × BitVec 16)), entries.length = countField count →
      entries.length ≤ 32 → first.toNat + entries.length ≤ 8192 → (∀ e ∈ entries, e.1 = true → e.2.toNat < 4096) →
      ∃ t, exec (.writeMapEntries src tag first count entries) s = .next t ∧
        Answered src tag 2 ⟨.done, entries.length, 0, []⟩ (withDs (settle s) { (settle s).ds with
          map := tputRun .off (settle s).ds.map first.toNat (entries.map (fun e => ⟨e.1, e.2.toNat % 4096⟩)) }) t)

/-- R5-R7, with the results of the slot check of R8: a lookup by its selected window: NO_WINDOW without one; in DIRECT mode SLOT_RANGE or the
slot; in MAPPED mode MAP_RANGE, MAP_INVALID or the slot of the map entry; and at the slot SLOT_FREE, FOUND or OTHER_ID. -/
def Obligations.LookupFollowsSelectedWindow : Prop :=
  ∀ (s : State) (id : PieceId),
    ((∀ i, ¬Selected s id i) → reach s id = .noWindow ∧ lookup s id = .noWindow) ∧
    (∀ i, Selected s id i →
      let w := tget Window.off s.ds.windows i
      let n := w.start + (id.toNat - w.base.toNat)
      let e := tget MapEntry.off s.ds.map n
      let reached := fun (index : Option Nat) (k : Nat) =>
        reach s id = .slot i index k ∧ (descAt s k = none → lookup s id = .slotFree) ∧
          ∀ d, descAt s k = some d → lookup s id = if d.id = id then .found k d else .otherId
      (w.mode = .direct → 4096 ≤ n → reach s id = .slotRange i ∧ lookup s id = .slotRange) ∧
      (w.mode = .direct → n < 4096 → reached none n) ∧
      (w.mode = .mapped → 8192 ≤ n → reach s id = .mapRange i ∧ lookup s id = .mapRange) ∧
      (w.mode = .mapped → n < 8192 → e.valid = false → reach s id = .mapInvalid i n ∧ lookup s id = .mapInvalid) ∧
      (w.mode = .mapped → n < 8192 → e.valid = true → reached (some n) e.slot))

/-- R14-R16: a batch with its count is loaded record by record, in order, and answered DONE; or it stops at the first refused record, those
before it loaded, it and those after it not, and its number, its reason and the rest are answered. For one record: BAD_ARGUMENT for a field
out of range; NOT_FOUND with the result of the lookup that reaches no slot; and by the slot reached, LOADED with reprint count 0 in a FREE
slot or over LOADED fields of the same ID, DIVERTED with its reprint count kept over DIVERTED fields of the same ID, SLOT_BUSY for any
other. -/
def Obligations.DescriptorBatchesLoad : Prop :=
  ∀ (src : Addr) (tag : Tag) (count : Byte) (records : List DescriptorRecord) (s : State), Takes s →
    records.length = countField count → records.length ≤ 32 →
    ∃ t x, exec (.loadDescriptors src tag count records) s = .next t ∧
      ((LoadedInTurn records (settle s) x ∧ Answered src tag 3 ⟨.done, records.length, 0, []⟩ x t) ∨
        ∃ before r rest y found, records = before ++ r :: rest ∧ LoadedInTurn before (settle s) x ∧ RecordRefused r x y found ∧
          Answered src tag 3 ⟨if before = [] then y else .partly, before.length, rest.length + 1, be1 (statusCode y) ++ be1 found⟩ x t) ∧
      (∀ r, records = [r] →
        let fields := r.id ≠ 16777215#24 ∧ 1 ≤ r.sheets.toNat ∧ r.sheets.toNat ≤ 16 ∧ r.key.toNat ≤ 999999999
        let loads := fun (n : Nat) (state : DescState) (reprint : Nat) =>
          Answered src tag 3 ⟨.done, 1, 0, []⟩ (setDesc (settle s) n (some ⟨state, r.id, r.sheets.toNat, r.selection, r.envClass,
            r.key.toNat, if r.priority then .priority else .standard, reprint⟩)) t
        let refused := fun (x : Status) (code found : Byte) => Answered src tag 3 ⟨x, 0, 1, [code, found]⟩ (settle s) t
        (¬fields → refused .badArgument 3 0) ∧
        (fields → reach (settle s) r.id = .noWindow → refused .notFound 5 1) ∧
        (∀ w, fields → reach (settle s) r.id = .slotRange w → refused .notFound 5 2) ∧
        (∀ w, fields → reach (settle s) r.id = .mapRange w → refused .notFound 5 3) ∧
        (∀ w i, fields → reach (settle s) r.id = .mapInvalid w i → refused .notFound 5 4) ∧
        (∀ w i n, fields → reach (settle s) r.id = .slot w i n →
          (descAt (settle s) n = none → loads n .loaded 0) ∧
          (∀ d, descAt (settle s) n = some d →
            (d.id = r.id → d.state = .loaded → loads n .loaded 0) ∧
            (d.id = r.id → d.state = .diverted → loads n .diverted d.reprint) ∧
            ((d.id ≠ r.id ∨ d.state = .inTrack ∨ d.state = .sorted) → refused .slotBusy 4 0))))

/-- R17: RETIRE of a valid range frees the LOADED and DIVERTED slots in it, leaves every other slot, the FREE ones FREE, and answers the
number freed; a range outside 0-4095 or with its first slot above its last is refused with BAD_ARGUMENT and changes nothing. -/
def Obligations.RetireFreesRange : Prop :=
  ∀ (src : Addr) (tag : Tag) (first last : BitVec 16) (s : State), Takes s →
    ∃ t, exec (.retire src tag first last) s = .next t ∧
      ((last.toNat < first.toNat ∨ 4095 < last.toNat) → Answered src tag 4 ⟨.badArgument, 0, 0, []⟩ (settle s) t) ∧
      (first.toNat ≤ last.toNat → last.toNat ≤ 4095 → TablesLaw (settle s) →
        (∀ n, first.toNat ≤ n → n ≤ last.toNat → (∀ d, descAt (settle s) n = some d → d.state = .loaded ∨ d.state = .diverted) →
          descAt t n = none) ∧
        (∀ n, descAt (settle s) n = none → descAt t n = none) ∧
        (∀ n d, descAt (settle s) n = some d → (n < first.toNat ∨ last.toNat < n ∨ d.state = .inTrack ∨ d.state = .sorted) →
          descAt t n = some d) ∧
        Answered src tag 4 ⟨.done, (settle s).ds.slots.length - t.ds.slots.length, 0, []⟩
          (withDs (settle s) { (settle s).ds with slots := t.ds.slots }) t)

/-- R46, R47, R91-R93: in IDLE, SET LAYOUT with addresses and positions of 0-63, SET TIMING, SET SHEET PARAMETERS, SET ENVELOPE CLASS and
SET BANDS with values in range replace their tables and nothing else. That an ALERT which waited for the line computer's address follows the
response to the SET LAYOUT that gives it is the model's choice (log 33). -/
def Obligations.LineAndPlannerTablesAreReplaced : Prop :=
  ∀ (src : Addr) (tag : Tag) (s : State), Takes s → (settle s).rc.state = .idle →
    (∀ record : List Byte, record.length = 36 → (∀ i, i < 36 → i ∉ [8, 11, 14, 17, 20, 23, 26, 29] → (byteAt record i).toNat ≤ 63) →
      ∃ t, exec (.setLayout src tag record) s = .next t ∧
        Answered src tag 7 ⟨.done, 0, 0, []⟩ (withTu (settle s) { (settle s).tu with layout := t.tu.layout }) t ∧
        addrByte t.tu.layout.cutter = byteAt record 0 ∧ addrByte t.tu.layout.sheetReader = byteAt record 1 ∧
        addrByte t.tu.layout.accumulator = byteAt record 2 ∧ addrByte t.tu.layout.lineComputer = byteAt record 3 ∧
        t.tu.layout.folder = ⟨addrOf (byteAt record 4), (byteAt record 5).toNat⟩ ∧
        (∀ f, f < 8 → placeAt t f =
          ⟨addrOf (byteAt record (6 + 3 * f)), (byteAt record (7 + 3 * f)).toNat, (byteAt record (8 + 3 * f)).getLsbD 0⟩) ∧
        t.tu.layout.verify = ⟨addrOf (byteAt record 30), (byteAt record 31).toNat⟩ ∧
        t.tu.layout.gate = ⟨addrOf (byteAt record 32), (byteAt record 33).toNat⟩ ∧
        t.tu.layout.sorter = ⟨addrOf (byteAt record 34), (byteAt record 35).toNat⟩) ∧
    (∀ lr lf lg ls a : Byte, 1 ≤ lr.toNat → lr.toNat ≤ 4 → 1 ≤ lf.toNat → lf.toNat ≤ 8 → 1 ≤ lg.toNat → lg.toNat ≤ 8 →
      1 ≤ ls.toNat → ls.toNat ≤ 8 → 1 ≤ a.toNat → a.toNat ≤ 4 →
      ∃ t, exec (.setTiming src tag lr lf lg ls a) s = .next t ∧
        Answered src tag 9 ⟨.done, 0, 0, []⟩ (withTu (settle s) { (settle s).tu with
          timing := ⟨lr.toNat, lf.toNat, lg.toNat, ls.toNat, a.toNat⟩ }) t) ∧
    (∀ (mass caliper : BitVec 16) (panels : Byte), 1 ≤ mass.toNat → mass.toNat ≤ 20000 → 20 ≤ caliper.toNat → caliper.toNat ≤ 400 →
      1 ≤ panels.toNat → panels.toNat ≤ 3 →
      ∃ t, exec (.setSheetParameters src tag mass caliper panels) s = .next t ∧
        Answered src tag 19 ⟨.done, 0, 0, []⟩ (withPp (settle s) { (settle s).pp with
          sheetMass := mass.toNat, sheetCaliper := caliper.toNat, panels := panels.toNat }) t) ∧
    (∀ (cls : Byte) (mass wall fill : BitVec 16), cls.toNat < 4 → 1 ≤ mass.toNat → mass.toNat ≤ 60000 → wall.toNat ≤ 2000 →
      1 ≤ fill.toNat → fill.toNat ≤ 20000 →
      ∃ t, exec (.setEnvelopeClass src tag cls true mass wall fill) s = .next t ∧
        Answered src tag 20 ⟨.done, 0, 0, []⟩ (withPp (settle s) { (settle s).pp with
          classes := tput .off (settle s).pp.classes cls.toNat ⟨true, mass.toNat, wall.toNat, fill.toNat⟩ }) t) ∧
    (∀ (cls : Byte) (mass wall fill : BitVec 16), cls.toNat < 4 →
      ∃ t, exec (.setEnvelopeClass src tag cls false mass wall fill) s = .next t ∧
        Answered src tag 20 ⟨.done, 0, 0, []⟩ (withPp (settle s) { (settle s).pp with
          classes := tput .off (settle s).pp.classes cls.toNat
            { tget EnvClass.off (settle s).pp.classes cls.toNat with enabled := false } }) t) ∧
    (∀ (count : Byte) (limits : List (BitVec 16)), limits.length = count.toNat → limits.length ≤ 8 →
      (∀ l ∈ limits, 1 ≤ l.toNat ∧ l.toNat ≤ 20000) → ascending (limits.map BitVec.toNat) = true →
      ∃ t, exec (.setBands src tag count limits) s = .next t ∧
        Answered src tag 21 ⟨.done, 0, 0, []⟩ (withPp (settle s) { (settle s).pp with bands := limits.map BitVec.toNat }) t)

/-- R66-R68, R72: the insert unit's tables take accepted arguments, and nothing else changes; a new threshold re-evaluates each feeder's
degraded flag on its condition value. -/
def Obligations.InsertTablesAreWritten : Prop :=
  ∀ (src : Addr) (tag : Tag) (s : State), Takes s →
    (∀ (first count : Byte) (sets : List (BitVec 16)), (settle s).rc.state = .idle → sets.length = countField count → sets.length ≤ 32 →
      first.toNat + sets.length ≤ 256 → (∀ x ∈ sets, x.toNat < 4096) →
      ∃ t, exec (.setSelection src tag first count sets) s = .next t ∧
        Answered src tag 11 ⟨.done, sets.length, 0, []⟩ (withIu (settle s) { (settle s).iu with
          selection := tputRun 0#12 (settle s).iu.selection first.toNat (sets.map (BitVec.setWidth 12)) }) t) ∧
    (∀ (first count : Byte) (entries : List (BitVec 16 × BitVec 16)), (settle s).rc.state = .idle → entries.length = count.toNat →
      entries ≠ [] → first.toNat + entries.length ≤ 12 → (∀ e ∈ entries, e.1.toNat ≤ 60000 ∧ e.2.toNat ≤ 6000) →
      ∃ t, exec (.setInserts src tag first count entries) s = .next t ∧
        Answered src tag 12 ⟨.done, 0, 0, []⟩ (withIu (settle s) { (settle s).iu with
          inserts := tputRun .off (settle s).iu.inserts first.toNat (entries.map (fun e => ⟨e.1.toNat, e.2.toNat⟩)) }) t) ∧
    (∀ (limit threshold : Byte) (single : Bool), (settle s).rc.state = .idle → limit.toNat ≤ 15 → 50 ≤ threshold.toNat →
      threshold.toNat ≤ 99 →
      ∃ t, exec (.setInsertPolicy src tag limit threshold single) s = .next t ∧
        Answered src tag 13 ⟨.done, 0, 0, []⟩ (withIu (settle s) { (settle s).iu with
          limit := limit.toNat, threshold := threshold.toNat, single := single, feeders := t.iu.feeders }) t ∧
        (TablesLaw (settle s) → ∀ f, f < 8 → feederAt t f =
          { feederAt (settle s) f with degraded := decide ((feederAt (settle s) f).condition < threshold.toNat) })) ∧
    (∀ bank : List (Bool × Byte), bank.length = 8 → (∀ e ∈ bank, e.2.toNat < 12) →
      ∃ t, exec (.stageFeederMap src tag bank) s = .next t ∧
        Answered src tag 14 ⟨.done, 0, 0, []⟩ (withIu (settle s) { (settle s).iu with
          staged := tputRun .off [] 0 (bank.map (fun e => ⟨e.1, e.2.toNat⟩)) }) t)

/-- R73, R74, R87, R88: COMMIT FEEDER MAP is answered DONE: outside IDLE the commit stays pending; in IDLE the map is copied at once, with the
feeders' moves and FEEDER_EMPTY. RESTORE FEEDER takes a feeder out of FAILED by its material level, with FEEDER_EMPTY when that makes it
EMPTY, makes its consecutive misses 0, resets its counts, condition and degraded flag when asked to and keeps them otherwise, and answers
the record. That the lowest-numbered of several feeders made EMPTY gives the capture its address is the model's choice (log 31). -/
def Obligations.FeedersAreCommittedAndRestored : Prop :=
  ∀ (src : Addr) (tag : Tag) (s : State), Takes s →
    (∃ t, exec (.commitFeederMap src tag) s = .next t ∧
      ((settle s).rc.state ≠ .idle →
        Answered src tag 15 ⟨.done, 0, 0, []⟩ (withIu (settle s) { (settle s).iu with commitPending := true }) t) ∧
      ((settle s).rc.state = .idle → Handled src tag 15 ⟨.done, 0, 0, []⟩ MapCopyMade (settle s) t)) ∧
    (∀ (feeder : Byte) (reset : Bool), feeder.toNat < 8 →
      ∃ t, exec (.restoreFeeder src tag feeder reset) s = .next t ∧
        let old := feederAt (settle s) feeder.toNat
        let new : Feeder := ⟨if old.state = .failed then levelState old.level else old.state, old.level, 0,
          if reset then 0 else old.calls, if reset then 0 else old.misses, if reset then 0 else old.doubles,
          if reset then 100 else old.condition, if reset then false else old.degraded⟩
        Handled src tag 16 ⟨.done, 0, 0, feederRecord new⟩ (fun u v =>
          (old.state = .failed → old.level = .empty →
            FlagOnly .feederEmpty (some (placeAt u feeder.toNat).addr) none none (setFeeder u feeder.toNat new) v) ∧
          ((old.state ≠ .failed ∨ old.level ≠ .empty) → v = setFeeder u feeder.toNat new)) (settle s) t ∧
        (TablesLaw (settle s) → feederAt t feeder.toNat = new ∧ ∀ g, g ≠ feeder.toNat → feederAt t g = feederAt (settle s) g))

/-- R118, R119, R121, R122, R127-R129, R132, R142, R188: sort elements are staged as their records spell them, kind, key arguments, bands,
service and action, the fallback is set in IDLE to the action its byte names, and COMMIT SORT PLAN, outside IDLE, leaves the
mark and answers that no copy is made, with the generation; in IDLE it copies at once, with the group break on the bins and its
TRAY_CHANGEs, and answers that the copy is made, with the new generation. -/
def Obligations.SortPlanIsStagedAndCommitted : Prop :=
  ∀ (src : Addr) (tag : Tag) (s : State), Takes s →
    (∀ (first count : Byte) (elements : List ElementRecord), elements.length = count.toNat → elements ≠ [] →
      elements.length ≤ 16 → first.toNat + elements.length ≤ 64 → (∀ r ∈ elements, ¬BadElement r) →
      ∃ t es, exec (.stageSortElements src tag first count elements) s = .next t ∧ List.Forall₂ ElementIs elements es ∧
        Answered src tag 23 ⟨.done, elements.length, 0, []⟩ (withSu (settle s) { (settle s).su with
          staged := tputRun .disabled (settle s).su.staged first.toNat es }) t) ∧
    (∀ action : Byte, (settle s).rc.state = .idle → ¬BadAction action →
      ∃ t a, exec (.setFallback src tag action) s = .next t ∧ ActionIs action a ∧
        Answered src tag 24 ⟨.done, 0, 0, []⟩ (withSu (settle s) { (settle s).su with fallback := a }) t) ∧
    (∃ t, exec (.commitSortPlan src tag) s = .next t ∧
      ((settle s).rc.state ≠ .idle → Answered src tag 25 ⟨.done, 0, 0, 0#8 :: be2 (settle s).su.generation.toNat⟩
        (withSu (settle s) { (settle s).su with commitPending := true }) t) ∧
      ((settle s).rc.state = .idle →
        Handled src tag 25 ⟨.done, 0, 0, 1#8 :: be2 ((settle s).su.generation + 1).toNat⟩ PlanCopied (settle s) t))

/-- R136-R138: SET BIN LIMITS is refused BAD_ARGUMENT for a bin that is none of the 17 and, unless it disables, for limits out of range. It
opens a DISABLED bin with a new tray, gives an OPEN bin with an empty tray new limits or disables it, whatever limits a disabling request
carries, and is refused WRONG_STATE for a FULL or CLOSE_PENDING bin or a tray that is not empty. -/
def Obligations.BinLimitsByBinState : Prop :=
  ∀ (src : Addr) (tag : Tag) (bin : Byte) (maxCount minCount : BitVec 16) (maxMass : BitVec 24) (s : State), Takes s →
    let inRange := 1 ≤ maxCount.toNat ∧ maxCount.toNat ≤ 4000 ∧ 1 ≤ maxMass.toNat ∧ maxMass.toNat ≤ 400000 ∧
      minCount.toNat ≤ maxCount.toNat
    (∃ t, exec (.setBinLimits src tag bin false maxCount maxMass minCount) s = .next t ∧
      ((17 ≤ bin.toNat ∨ ¬inRange) → Answered src tag 28 ⟨.badArgument, 0, 0, []⟩ (settle s) t) ∧
      (bin.toNat < 17 → inRange →
        ((binAt (settle s) bin.toNat).state = .disabled →
          binAt t bin.toNat = ⟨.opened, some ⟨maxCount.toNat, maxMass.toNat, minCount.toNat⟩,
            some ⟨(settle s).rc.run, (settle s).bu.nextSeq, (settle s).su.generation, 0, 0, 0, 0, none, none, 0,
              (binAt (settle s) bin.toNat).carried, none⟩, false, none, false⟩ ∧
          (∀ j, j ≠ bin.toNat → binAt t j = binAt (settle s) j) ∧
          t.bu.nextSeq = (if (settle s).bu.nextSeq = 65535#16 then 1#16 else (settle s).bu.nextSeq + 1) ∧
          Answered src tag 28 ⟨.done, 0, 0, []⟩ (withBu (settle s) { (settle s).bu with
            bins := t.bu.bins
            nextSeq := t.bu.nextSeq }) t) ∧
        (∀ x, (binAt (settle s) bin.toNat).state = .opened → (binAt (settle s) bin.toNat).tray = some x → trayEmpty x = true →
          Answered src tag 28 ⟨.done, 0, 0, []⟩ (setBin (settle s) bin.toNat { binAt (settle s) bin.toNat with
            limits := some ⟨maxCount.toNat, maxMass.toNat, minCount.toNat⟩ }) t) ∧
        (((binAt (settle s) bin.toNat).state = .full ∨ (binAt (settle s) bin.toNat).state = .closePending ∨
            ∃ x, (binAt (settle s) bin.toNat).tray = some x ∧ trayEmpty x = false ∧ (binAt (settle s) bin.toNat).state = .opened) →
          Answered src tag 28 ⟨.wrongState, 0, 0, []⟩ (settle s) t))) ∧
    (∃ t, exec (.setBinLimits src tag bin true maxCount maxMass minCount) s = .next t ∧
      (17 ≤ bin.toNat → Answered src tag 28 ⟨.badArgument, 0, 0, []⟩ (settle s) t) ∧
      (bin.toNat < 17 →
        ((binAt (settle s) bin.toNat).state = .disabled → Answered src tag 28 ⟨.done, 0, 0, []⟩ (settle s) t) ∧
        (∀ x, (binAt (settle s) bin.toNat).state = .opened → (binAt (settle s) bin.toNat).tray = some x → trayEmpty x = true →
          Answered src tag 28 ⟨.done, 0, 0, []⟩ (setBin (settle s) bin.toNat .off) t) ∧
        (((binAt (settle s) bin.toNat).state = .full ∨ (binAt (settle s) bin.toNat).state = .closePending ∨
            ∃ x, (binAt (settle s) bin.toNat).tray = some x ∧ trayEmpty x = false ∧ (binAt (settle s) bin.toNat).state = .opened) →
          Answered src tag 28 ⟨.wrongState, 0, 0, []⟩ (settle s) t)))

/-! ## Reads and drains -/

/-- R18: READ DESCRIPTOR of a slot of 0-4095 answers its state and, unless it is FREE, its fields, and changes nothing; a slot above 4095
is refused with BAD_ARGUMENT. -/
def Obligations.ReadDescriptorAnswersSlot : Prop :=
  ∀ (src : Addr) (tag : Tag) (slot : BitVec 16) (s : State), Takes s →
    ∃ t, exec (.readDescriptor src tag slot) s = .next t ∧
      (4095 < slot.toNat → Answered src tag 5 ⟨.badArgument, 0, 0, []⟩ (settle s) t) ∧
      (slot.toNat ≤ 4095 → descAt (settle s) slot.toNat = none → Answered src tag 5 ⟨.done, 0, 0, [0#8]⟩ (settle s) t) ∧
      (∀ d, slot.toNat ≤ 4095 → descAt (settle s) slot.toNat = some d →
        Answered src tag 5 ⟨.done, 0, 0, be1 (descStateCode d.state) ++ be3 d.id.toNat ++ be1 d.sheets ++ [d.selection] ++
          be1 d.envClass.toNat ++ be4 d.key ++ be1 (serviceCode d.service) ++ be1 d.reprint⟩ (settle s) t)

/-- R19, R46, R65, R89, R102, R133, R134: the reads of the stores and tables answer what they hold, byte by byte in the layouts of R188, and
change nothing. -/
def Obligations.TableReadsChangeNothing : Prop :=
  ∀ (src : Addr) (tag : Tag) (s : State), Takes s →
    let u := settle s
    (∀ id : PieceId, id ≠ 16777215#24 → ∃ t r, exec (.findPiece src tag id) s = .next t ∧ FindAnswers u id r ∧
      Answered src tag 6 ⟨.done, 0, 0, r⟩ u t) ∧
    (∃ t, exec (.readLayout src tag) s = .next t ∧
      Answered src tag 8 ⟨.done, 0, 0, layoutRecord u.tu.layout ++ field 1 u.rp.own.toNat⟩ u t) ∧
    (∃ t, exec (.readTrack src tag none) s = .next t ∧ Answered src tag 10 ⟨.done, 0, 0, trackRecord u⟩ u t) ∧
    (∀ k : Byte, k.toNat < 64 → ∃ t, exec (.readTrack src tag (some k)) s = .next t ∧
      Answered src tag 10 ⟨.done, 0, 0, trackRecord u ++ (pieceAt u k.toNat).elim [] pieceRecord⟩ u t) ∧
    (∃ t r, exec (.readFeeders src tag) s = .next t ∧ r.length = 172 ∧
      r = (List.range 8).flatMap (fun f => feederRecord (feederAt u f)) ++ mapRecord u.iu.staged ++ mapRecord u.iu.active ++
        flagField u.iu.commitPending ++ field 1 u.iu.limit ++ field 1 u.iu.threshold ++ flagField u.iu.single ∧
      Answered src tag 17 ⟨.done, 0, 0, r⟩ u t) ∧
    (∀ first : BitVec 16, first.toNat < 256 → ∃ t r, exec (.readInsertTables src tag first) s = .next t ∧
      r.length = 49 + 2 * min 32 (256 - first.toNat) ∧
      r = (List.range 12).flatMap (fun i => field 2 (tget InsertSpec.off u.iu.inserts i).mass ++
          field 2 (tget InsertSpec.off u.iu.inserts i).caliper) ++ field 1 (min 32 (256 - first.toNat)) ++
        (List.range (min 32 (256 - first.toNat))).flatMap (fun j =>
          bitField 2 (fun i => (tget 0#12 u.iu.selection (first.toNat + j)).getLsbD i)) ∧
      Answered src tag 18 ⟨.done, 0, 0, r⟩ u t) ∧
    (∃ t r, exec (.readPlannerTables src tag) s = .next t ∧ r.length = 34 + 2 * u.pp.bands.length ∧
      r = field 2 u.pp.sheetMass ++ field 2 u.pp.sheetCaliper ++ field 1 u.pp.panels ++
        [0, 1, 2, 3].flatMap (fun c => flagField (tget EnvClass.off u.pp.classes c).enabled ++
          field 2 (tget EnvClass.off u.pp.classes c).mass ++ field 2 (tget EnvClass.off u.pp.classes c).wall ++
          field 2 (tget EnvClass.off u.pp.classes c).fill) ++
        field 1 u.pp.bands.length ++ u.pp.bands.flatMap (field 2) ∧
      Answered src tag 22 ⟨.done, 0, 0, r⟩ u t) ∧
    (∀ bank first count : Byte, bank.toNat ≤ 1 → 1 ≤ count.toNat → count.toNat ≤ 16 → first.toNat + count.toNat ≤ 64 →
      ∃ t r, exec (.readSortPlan src tag bank first count) s = .next t ∧
        r = field 2 u.su.generation.toNat ++ flagField u.su.commitPending ++ actionField u.su.fallback ++
          (List.range count.toNat).flatMap (fun i => elementRecord (tget .disabled
            (if bank = 0 then u.su.active else u.su.staged) (first.toNat + i))) ∧
        r.length = 4 + 12 * count.toNat ∧ Answered src tag 26 ⟨.done, 0, 0, r⟩ u t) ∧
    (∀ (key : BitVec 32) (band service : Byte), key.toNat ≤ 999999999 → band.toNat ≤ 7 → service.toNat ≤ 1 →
      ∃ t n a m b, exec (.trySortKey src tag key band service) s = .next t ∧
        FirstSays u u.su.active key.toNat band.toNat (if service = 0 then .standard else .priority) n a ∧
        FirstSays u u.su.staged key.toNat band.toNat (if service = 0 then .standard else .priority) m b ∧
        Answered src tag 27 ⟨.done, 0, 0, fieldOr 1 n ++ actionField a ++ fieldOr 1 m ++ actionField b⟩ u t)

/-- R150, R165, R171, R176, R187: the reads of bins, run, counters, summary and port answer what they hold, byte by byte in the layouts of
R188, and change nothing. READ PORT shows no response, since a request is taken only with none in the buffer (log 14); BR's counts show
their low four bytes (log 18). -/
def Obligations.StatusReadsChangeNothing : Prop :=
  ∀ (src : Addr) (tag : Tag) (s : State), Takes s →
    let u := settle s
    (∃ t r, exec (.readBins src tag) s = .next t ∧ r.length = 17 * 57 + 12 ∧
      r = (List.range 17).flatMap (fun b => binRecord (binAt u b)) ++ field 4 u.bu.brCount ++ field 4 u.bu.brMass ++
        field 2 u.bu.nextSeq.toNat ++ field 2 u.bu.log.length ∧ Answered src tag 30 ⟨.done, 0, 0, r⟩ u t) ∧
    (∃ t r, exec (.readRunStatus src tag) s = .next t ∧ r.length = 23 ∧ Answered src tag 38 ⟨.done, 0, 0, r⟩ u t ∧
      r = placeIn runStates u.rc.state ++ placeOr runStates u.rc.resume ++
        u.rc.stop.elim (List.replicate 6 255#8) (fun x =>
          placeIn [StopCause.stopRequest, .jam, .phantom, .accumulatorOverrun] x.cause ++ addrField x.addr ++ field 4 x.pitch.toNat) ++
        field 2 u.rc.run.toNat ++ field 4 u.tu.pitch.toNat ++
        [if u.cu.hold = .hold then 0#8 else 1#8, u.cu.pendingCutter.elim 255#8 (fun x => if x = .go then 1#8 else 0#8),
          u.cu.place.elim 0#8 (fun x => if x.waiting then 2#8 else 1#8)] ++
        field 1 u.cu.queue.length ++ field 1 u.tu.ring.length ++ field 2 u.cl.log.length ++ field 2 (headroom u)) ∧
    (∃ t, exec (.readRunCounters src tag) s = .next t ∧
      let c := u.cl.counters
      Answered src tag 40 ⟨.done, 0, 0, [c.opened, c.released, c.exited, c.sorted, c.diverted, c.sheets, c.noReads].flatMap
        (fun n => field 4 n.toNat) ++ field 2 u.rc.run.toNat ++ field 2 (inFlight u)⟩ u t) ∧
    (∃ t, exec (.readSummary src tag) s = .next t ∧
      Answered src tag 42 ⟨.done, 0, 0, bitField 3 (fun i => u.cl.summary.getLsbD i) ++ captureRecord u.cl.capture ++
        flagField u.cl.alertPending⟩ u t) ∧
    (∃ t r, exec (.readPort src tag) s = .next t ∧ r.length = 10 ∧ Answered src tag 43 ⟨.done, 0, 0, r⟩ u t ∧
      r = field 1 u.rp.own.toNat ++ field 1 u.rp.forward.length ++ field 1 (commands u).length ++
        field 1 (u.rp.originate.filter isManagement).length ++ placeIn [Port.forward, .originate] u.rp.turn ++
        u.rp.assembly.elim [0#8, 255#8, 255#8] (fun a => 1#8 :: field 1 a.src.toNat ++ field 1 a.expect) ++ [0#8, 255#8])

/-- R13, R40, R148, R167, R170, R188: READ COMPLETIONS and READ TRAYS answer the oldest entries of their log, up to the count, byte by byte
with their number, and these leave the log. READ COMPLETIONS answers the occupancy left as well; its drains are made one by one, each with the test of R40 and the
freeing of the SORTED descriptor its entry carries, so that every such slot is FREE and no other changes. That held tray records waiting
for room are appended after READ TRAYS, as work of their own, is the model's choice (log 4). -/
def Obligations.LogReadsDrainOldestEntries : Prop :=
  ∀ (src : Addr) (tag : Tag) (count : Byte) (s : State), Takes s → 1 ≤ count.toNat →
    (count.toNat ≤ 16 → ∃ t, exec (.readCompletions src tag count) s = .next t ∧
      let reply : Reply := ⟨.done, 0, 0, field 1 (min count.toNat (settle s).cl.log.length) ++
        field 2 ((settle s).cl.log.length - min count.toNat (settle s).cl.log.length) ++
        ((settle s).cl.log.take count.toNat).flatMap completionRecord⟩
      Handled src tag 39 reply (Drained (min count.toNat (settle s).cl.log.length)) (settle s) t ∧
      t.cl.log = (settle s).cl.log.drop count.toNat ∧ t.cl.counters = (settle s).cl.counters ∧ t.tu = (settle s).tu ∧
      t.iu = (settle s).iu ∧ t.pp = (settle s).pp ∧ t.su = (settle s).su ∧ t.bu = (settle s).bu ∧ t.rc = (settle s).rc ∧
      t.cu.place = (settle s).cu.place ∧ t.cu.queue = (settle s).cu.queue ∧
      t.ds = { (settle s).ds with slots := t.ds.slots } ∧
      ((settle s).rc.state ≠ .running → Answered src tag 39 reply
          (withCl (withDs (settle s) t.ds) { (settle s).cl with log := (settle s).cl.log.drop count.toNat }) t) ∧
      (∀ n d, descAt (settle s) n = some d → d.state ≠ .sorted → descAt t n = some d) ∧
      (TablesLaw (settle s) →
        (∀ e ∈ (settle s).cl.log.take count.toNat, ∀ n, Frees (settle s) e n → descAt t n = none) ∧
        (∀ n, (∀ e ∈ (settle s).cl.log.take count.toNat, ¬Frees (settle s) e n) → descAt t n = descAt (settle s) n))) ∧
    (count.toNat ≤ 8 → ∃ t, exec (.readTrays src tag count) s = .next t ∧
      Answered src tag 29 ⟨.done, 0, 0, field 1 (min count.toNat (settle s).bu.log.length) ++
        ((settle s).bu.log.take count.toNat).flatMap trayRecord⟩
        (withBu (settle s) { (settle s).bu with log := (settle s).bu.log.drop count.toNat }) t)

/-- R174: CLEAR SUMMARY of flags among the eighteen clears them and answers the summary left; an empty summary loses its capture and its
pending ALERT, any other keeps its capture and has an ALERT pending or placed last. A flag outside the eighteen is refused with BAD_ARGUMENT. -/
def Obligations.ClearSummaryClearsNamedFlags : Prop :=
  ∀ (src : Addr) (tag : Tag) (flags : BitVec 24) (s : State), Takes s →
    ∃ t, exec (.clearSummary src tag flags) s = .next t ∧
      (262144 ≤ flags.toNat → Answered src tag 41 ⟨.badArgument, 0, 0, []⟩ (settle s) t) ∧
      (flags.toNat < 262144 →
        t.cl.summary = (settle s).cl.summary &&& ~~~(flags.setWidth 18) ∧
        (t.cl.summary = 0#18 → t.cl.capture = none ∧ t.cl.alertPending = false) ∧
        (t.cl.summary ≠ 0#18 → t.cl.capture = (settle s).cl.capture ∧ (t.cl.alertPending = true ∨
          ∃ before, t.rp.originate = before ++ [⟨t.tu.layout.lineComputer, .alert, stampNow t, be3 t.cl.summary.toNat⟩])) ∧
        let left := (settle s).cl.summary &&& ~~~(flags.setWidth 18)
        Answered src tag 41 ⟨.done, 0, 0, bitField 3 (fun i => left.getLsbD i)⟩ (withCl (settle s) { (settle s).cl with
          summary := left
          capture := if left = 0#18 then none else (settle s).cl.capture
          alertPending := decide (left ≠ 0#18) }) t)

/-- R172, R173, R175: a cause taken: the flag is set; on an empty summary the capture holds the cause's fields and an ALERT is made
pending, placed at once where it can be; on any other the capture and the pending ALERT stay; nothing else changes. -/
def Obligations.CauseSetsFlagAndCapture : Prop :=
  ∀ (f : Flag) (a : Option Addr) (p : Option Pitch) (i : Option PieceId) (s : State),
    FlagOnly f a p i s (raise f a p i s) ∧
    (s.cl.summary ≠ 0#18 → (raise f a p i s).cl.alertPending = s.cl.alertPending ∧ (raise f a p i s).rp = s.rp) ∧
    (s.cl.summary = 0#18 → managementRoom s = true → s.rp.response = none → s.tu.layout.lineComputer ≠ 63#6 →
      (raise f a p i s).cl.alertPending = false ∧
      (raise f a p i s).rp.originate = s.rp.originate ++ [⟨s.tu.layout.lineComputer, .alert, stampNow s, be3 (flagMask f).toNat⟩]) ∧
    (s.cl.summary = 0#18 → (managementRoom s = false ∨ s.rp.response ≠ none ∨ s.tu.layout.lineComputer = 63#6) →
      (raise f a p i s).cl.alertPending = true ∧ (raise f a p i s).rp = s.rp)

/-! ## The run -/

/-- R39-R41, R48, R49, R94, R137, R153, R154: START RUN in IDLE. The first check that does not pass is answered BAD_ARGUMENT with its number
and nothing changes; with all ten passed the run is RUNNING with the next number, pitch and counters 0, no stop record, no pending cutter
command, BR's counts 0 and a new tray in each OPEN bin from sequence 1, the test of R40 is made, and the number is answered. At a headroom of
8 or less LOG_HEADROOM is set; that it goes before the test and its HOLD is the model's choice (log 30). -/
def Obligations.StartRunChecksAndStarts : Prop :=
  ∀ (src : Addr) (tag : Tag) (s : State), Takes s → (settle s).rc.state = .idle →
    ∃ t, exec (.startRun src tag) s = .next t ∧
      (∀ n, 1 ≤ n → n ≤ 10 → ¬Passes (settle s) n → (∀ m, 1 ≤ m → m < n → Passes (settle s) m) →
        Answered src tag 31 ⟨.badArgument, n, 0, []⟩ (settle s) t) ∧
      ((∀ n, 1 ≤ n → n ≤ 10 → Passes (settle s) n) →
        let run := if (settle s).rc.run = 65535#16 then 1#16 else (settle s).rc.run + 1
        let opened := fun (b : Nat) => ((List.range b).filter (fun j => decide ((binAt (settle s) j).state = .opened))).length
        Handled src tag 31 ⟨.done, 0, 0, be2 run.toNat⟩ (fun u v => ∃ a m,
          a = { u with
            rc := ⟨.running, run, none, none⟩
            tu := { u.tu with pitch := 0 }
            cl := { u.cl with counters := ⟨0, 0, 0, 0, 0, 0, 0⟩ }
            cu := { u.cu with pendingCutter := none }
            bu := ⟨a.bu.bins, 0, 0, BitVec.ofNat 16 (1 + opened 17), u.bu.log⟩
            due := ⟨false, false, false, false, false⟩ } ∧
          (∀ b, b < 17 → (binAt u b).state = .opened → binAt a b = ⟨.opened, (binAt u b).limits,
            some ⟨run, BitVec.ofNat 16 (1 + opened b), u.su.generation, 0, 0, 0, 0, none, none, 0, (binAt u b).carried, none⟩,
            false, none, false⟩) ∧
          (∀ b, ((binAt u b).state ≠ .opened ∨ 17 ≤ b) → binAt a b = binAt u b) ∧
          (headroom u ≤ 8 → FlagOnly .logHeadroom none none none a m) ∧ (8 < headroom u → m = a) ∧ CutterTested m v) (settle s) t)

/-- R38, R40, R41, R149, R155, R156: END RUN in RUNNING makes the run DRAINING, HOLD is queued, or pending with COMMAND_QUEUE_FULL, an OPEN
record completes INCOMPLETE_AT_END, and with nothing in flight the run-end close and the test for the drain end follow, before the answer. In
STOPPED with resume state RUNNING the resume state becomes DRAINING, HOLD goes the same way and an OPEN record completes. In any other state
it is refused. R155 does not number its acts: that the HOLD, or its COMMAND_QUEUE_FULL, goes ahead of the completion, of the close's
TRAY_CHANGEs and of RUN_COMPLETE, is the model's choice (log 36). -/
def Obligations.EndRunDrains : Prop :=
  ∀ (src : Addr) (tag : Tag) (s : State), Takes s →
    ∃ t, exec (.endRun src tag) s = .next t ∧
      ((settle s).rc.state = .running →
        Handled src tag 32 ⟨.done, 0, 0, []⟩ (fun u v => ∃ a b,
          CutterTold .hold .holdByRun (withRc u { u.rc with state := .draining }) a ∧ RecordEnded a b ∧ FlightFell b v) (settle s) t) ∧
      ((settle s).rc.state = .stopped → (settle s).rc.resume = some .running →
        Handled src tag 32 ⟨.done, 0, 0, []⟩ (fun u v => ∃ a,
          CutterTold .hold .holdByRun (withRc u { u.rc with resume := some .draining }) a ∧ RecordEnded a v) (settle s) t) ∧
      (((settle s).rc.state = .idle ∨ (settle s).rc.state = .draining ∨
          ((settle s).rc.state = .stopped ∧ (settle s).rc.resume ≠ some .running)) →
        Answered src tag 32 ⟨.wrongState, 0, 0, []⟩ (settle s) t)

/-- R40, R41, R157, R158: STOP in RUNNING or DRAINING makes the run STOPPED with the resume state, a stop record and HOLD queued, or pending
with COMMAND_QUEUE_FULL when no entry is free; in STOPPED it is answered DONE and changes nothing; in IDLE it is refused with WRONG_STATE. -/
def Obligations.StopRequestStopsRun : Prop :=
  ∀ (src : Addr) (tag : Tag) (s : State), Takes s →
    ∃ t, exec (.stop src tag) s = .next t ∧
      ((settle s).rc.state ≠ .idle → Handled src tag 33 ⟨.done, 0, 0, []⟩ (RunStopped .stopRequest (some src)) (settle s) t) ∧
      ((settle s).rc.state = .idle → Answered src tag 33 ⟨.wrongState, 0, 0, []⟩ (settle s) t)

/-- R38, R40, R41, R149, R156, R161: RESUME in STOPPED returns the run to its resume state, keeps the stop record and the pitch, and is refused
elsewhere. Into RUNNING a pending HOLD is withdrawn when the condition for GO is met, and the test of R40 is made. Into DRAINING an OPEN
record completes, and with nothing in flight the run-end close and the test for the drain end follow, before the answer. -/
def Obligations.ResumeReturnsToResumeState : Prop :=
  ∀ (src : Addr) (tag : Tag) (s : State), Takes s →
    ∃ t, exec (.resume src tag) s = .next t ∧
      ((settle s).rc.state = .stopped → (settle s).rc.resume = some .running →
        Handled src tag 34 ⟨.done, 0, 0, []⟩ (fun u v =>
          CutterTested (withCu (withRc u { u.rc with state := .running, resume := none })
            { u.cu with pendingCutter := if GoMet u then none else u.cu.pendingCutter }) v) (settle s) t) ∧
      ((settle s).rc.state = .stopped → (settle s).rc.resume = some .draining →
        Handled src tag 34 ⟨.done, 0, 0, []⟩ (fun u v => ∃ a,
          RecordEnded (withRc u { u.rc with state := .draining, resume := none }) a ∧ FlightFell a v) (settle s) t) ∧
      ((settle s).rc.state ≠ .stopped → Answered src tag 34 ⟨.wrongState, 0, 0, []⟩ (settle s) t)

/-- R12, R42, R62, R63, R147, R159, R160, R168, R169, R171: DECLARE REMOVED outside STOPPED is refused with WRONG_STATE, and with bad arguments
with BAD_ARGUMENT. A range takes out the pieces whose positions lie in it, and no others, the furthest first: each leaves REMOVED with its
completion entry, the fault REMOVED, its place in a tray given up and its descriptor DIVERTED. The accumulator option then takes out every
set of the collation unit, the queue from its head and then the place, with an entry for each. Both numbers are answered. -/
def Obligations.DeclareRemovedTakesOut : Prop :=
  ∀ (src : Addr) (tag : Tag) (range : Bool) (lo hi : Byte) (accumulator : Bool) (s : State), Takes s →
    ∃ t, exec (.declareRemoved src tag range lo hi accumulator) s = .next t ∧
      ((settle s).rc.state ≠ .stopped → Answered src tag 35 ⟨.wrongState, 0, 0, []⟩ (settle s) t) ∧
      ((settle s).rc.state = .stopped →
        ((range = false ∧ accumulator = false) ∨
          (range = true ∧ ((hi.toNat : Int) < lo.toInt ∨ lo.toInt < -((settle s).tu.timing.lr : Int) ∨ 63 < hi.toNat))) →
        Answered src tag 35 ⟨.badArgument, 0, 0, []⟩ (settle s) t) ∧
      ((settle s).rc.state = .stopped → range = true ∨ accumulator = true →
        (range = true → -((settle s).tu.timing.lr : Int) ≤ lo.toInt ∧ lo.toInt ≤ (hi.toNat : Int) ∧ hi.toNat ≤ 63 ∧ TablesLaw (settle s)) →
        (∃ ks, RemovalOrder (settle s) (fun q => range = true ∧ lo.toInt ≤ q ∧ q ≤ (hi.toNat : Int)) ks ∧
          Handled src tag 35 ⟨.done, ks.length, if accumulator then (setsHeld (settle s)).length else 0, []⟩ (fun u v =>
            ∃ a, PiecesRemoved ks u a ∧ (accumulator = true → SetsRemoved a v) ∧ (accumulator = false → v = a)) (settle s) t) ∧
        t.rc = (settle s).rc ∧ t.tu.pitch = (settle s).tu.pitch ∧
        ∀ k, pieceAt t k = (pieceAt (settle s) k).filter (fun p => !(range && decide (lo.toInt ≤ pitchDiff (settle s).tu.pitch p.entry) &&
          decide (pitchDiff (settle s).tu.pitch p.entry ≤ hi.toNat))))

/-- R12, R42, R62, R63, R73, R127, R147, R149, R162, R168, R169, R171: ABORT RUN in STOPPED takes out every piece on the track, the furthest
first, and then every set of the collation unit, each REMOVED with its completion entry and its descriptor DIVERTED; closes the bins RUN_END;
makes the run IDLE with the stop record, pitch and run number kept; and makes the pending copies. The number taken out, the sets among them,
is answered (log 27, the model's inference). Elsewhere it is refused with WRONG_STATE. -/
def Obligations.AbortRunEndsInIdle : Prop :=
  ∀ (src : Addr) (tag : Tag) (s : State), Takes s →
    ∃ t, exec (.abortRun src tag) s = .next t ∧
      ((settle s).rc.state ≠ .stopped → Answered src tag 36 ⟨.wrongState, 0, 0, []⟩ (settle s) t) ∧
      ((settle s).rc.state = .stopped → TablesLaw (settle s) →
        ∃ ks, RemovalOrder (settle s) (fun _ => True) ks ∧
          Handled src tag 36 ⟨.done, ks.length + (setsHeld (settle s)).length, 0, []⟩ (fun u v => ∃ a b c,
            PiecesRemoved ks u a ∧ SetsRemoved a b ∧ BinsClosed .runEnd b c ∧
            CopiesMade (withRc c { c.rc with state := .idle, resume := none }) v) (settle s) t) ∧
      ((settle s).rc.state = .stopped →
        t.rc = { (settle s).rc with state := .idle, resume := none } ∧ t.cu.place = none ∧ t.cu.queue = [] ∧
        t.cu.hold = (settle s).cu.hold ∧ t.tu.pitch = (settle s).tu.pitch ∧ t.tu.layout = (settle s).tu.layout ∧
        t.pp = (settle s).pp ∧ t.bu.log = (settle s).bu.log ∧
        (LogLaw (settle s) → t.tu.ring = [] ∧ t.cl.log.length = (settle s).cl.log.length + inFlight (settle s)))

/-- R21, R43, R44, R50, R66-R69, R90, R135, R151, R152, R163, R177, R187: what RESTART keeps and gives up, block by block, taken in every run
state, and its answer as the first frame the part originates after the one being sent. -/
def Obligations.RestartKeepsLoadedTables : Prop :=
  ∀ (src : Addr) (tag : Tag) (s : State), Takes s →
    ∃ t, exec (.restart src tag) s = .next t ∧
      t.rc = ⟨.idle, (settle s).rc.run, none, none⟩ ∧ t.cu = ⟨none, [], .hold, none⟩ ∧
      t.tu = { (settle s).tu with pitch := 0, ring := [] } ∧
      t.ds.windows = (settle s).ds.windows ∧ t.ds.map = (settle s).ds.map ∧
      (TablesLaw (settle s) → ∀ n, descAt t n =
        (match descAt (settle s) n with
          | none => none
          | some d => if d.state = .sorted then none else if d.state = .inTrack then some { d with state := .diverted } else some d)) ∧
      t.pp = (settle s).pp ∧ t.su = { (settle s).su with commitPending := false } ∧
      t.iu = { (settle s).iu with commitPending := false, feeders := t.iu.feeders } ∧
      (TablesLaw (settle s) → ∀ f, f < 8 → feederAt t f = { feederAt (settle s) f with
        consecutive := 0
        state := if (feederAt (settle s) f).state = .failed then .failed
          else if (tget MapSlot.off (settle s).iu.active f).enabled = true then levelState (feederAt (settle s) f).level
          else .offline }) ∧
      t.bu.log = [] ∧ t.bu.brCount = 0 ∧ t.bu.brMass = 0 ∧
      (TablesLaw (settle s) →
        let limited := fun (b : Nat) => ((List.range b).filter (fun j => (binAt (settle s) j).limits.isSome)).length
        (∀ b, b < 17 → (binAt (settle s) b).limits = none → binAt t b = ⟨.disabled, none, none, false, none, false⟩) ∧
        (∀ b, b < 17 → (binAt (settle s) b).limits.isSome = true → binAt t b = ⟨.opened, (binAt (settle s) b).limits,
          some ⟨(settle s).rc.run, BitVec.ofNat 16 (1 + limited b), (settle s).su.generation, 0, 0, 0, 0, none, none, 0, false, none⟩,
          false, none, false⟩) ∧
        t.bu.nextSeq = BitVec.ofNat 16 (1 + limited 17)) ∧
      t.cl = ⟨[], ⟨0, 0, 0, 0, 0, 0, 0⟩, 0, none, false⟩ ∧
      t.rp.own = (settle s).rp.own ∧ t.rp.turn = .forward ∧ t.rp.assembly = none ∧ t.rp.response = none ∧
      t.rp.forward = (if (settle s).rp.sending = some .forward then (settle s).rp.forward.take 1 else []) ∧
      t.rp.originate = (if (settle s).rp.sending = some .originate then (settle s).rp.originate.take 1 else []) ++
        [⟨src, .response, 0, be2 tag.toNat ++ [128, 37, 0, 0, 0, 0, 0]⟩]

/-! ## Reports -/

/-- R23, R55-R60: reports from an address outside the line set UNKNOWN_SOURCE, and reports from a role that does not send their kind, or a
LANDED whose place is not its sender's, set UNEXPECTED_REPORT, each with the source. A FEED, READ or LANDED of its own station is dropped
with STALE_STAMP when its stamp resolves to no pitch or to one too old, outside IDLE with LATE_REPORT past the allowance, and with
UNEXPECTED_REPORT when the pitch resolved has no piece there; a READ of an ID that finds none outside IDLE is another statement's
(PHANTOM). Nothing else changes. That the late test is not made in IDLE is the model's inference (log 29). -/
def Obligations.ReportsFromWrongSourcesDropped : Prop :=
  (∀ (c : Instr) (src : Addr) (s : State), s.resetHeld = false →
    ((∃ id i n, c = .sheet src id i n ∧ src ≠ (settle s).tu.layout.sheetReader) ∨
      (∃ st o, c = .feed src st o ∧ feederOf (settle s) src = none) ∨
      (∃ l, c = .material src l ∧ feederOf (settle s) src = none) ∨
      (∃ st id, c = .read src st id ∧ src ≠ (settle s).tu.layout.verify.addr) ∨
      (∃ st x, c = .landed src st x ∧ (src ≠ (settle s).tu.layout.gate.addr ∨ x ≠ 18) ∧
        (src ≠ (settle s).tu.layout.sorter.addr ∨ 18 ≤ x.toNat)) ∨
      (∃ b, c = .trayReady src b ∧ src ≠ (settle s).tu.layout.sorter.addr) ∨
      (c = .jam src ∧ isRole (settle s) src = false)) →
    ∃ t, exec c s = .next t ∧
      (isRole (settle s) src = false → FlagOnly .unknownSource (some src) none none (settle s) t) ∧
      (isRole (settle s) src = true → FlagOnly .unexpectedReport (some src) none none (settle s) t)) ∧
  (∀ (c : Instr) (src : Addr) (st : Stamp) (q : Nat) (s : State), s.resetHeld = false → src ≠ 63#6 →
    ((∃ o f, c = .feed src st o ∧ feederOf (settle s) src = some f ∧ q = (placeAt (settle s) f).pos) ∨
      (∃ id, c = .read src st id ∧ src = (settle s).tu.layout.verify.addr ∧ q = (settle s).tu.layout.verify.pos) ∨
      (c = .landed src st 18 ∧ src = (settle s).tu.layout.gate.addr ∧ q = (settle s).tu.layout.gate.pos) ∨
      (∃ x, c = .landed src st x ∧ x.toNat < 18 ∧ src = (settle s).tu.layout.sorter.addr ∧ q = (settle s).tu.layout.sorter.pos)) →
    ∃ t, exec c s = .next t ∧
      (resolveStamp (settle s).tu.pitch st = none → FlagOnly .staleStamp (some src) none none (settle s) t) ∧
      (∀ P, resolveStamp (settle s).tu.pitch st = some P →
        let age := pitchDiff (settle s).tu.pitch P
        let entry := P - BitVec.ofNat 32 q
        let there := (pieceAt (settle s) (ringSlot entry)).filter (fun p => decide (p.entry = entry))
        ((q : Int) + (settle s).tu.timing.allowance + 8 < age → FlagOnly .staleStamp (some src) (some P) none (settle s) t) ∧
        (age ≤ (q : Int) + (settle s).tu.timing.allowance + 8 → ((settle s).tu.timing.allowance : Int) < age →
          (settle s).rc.state ≠ .idle → FlagOnly .lateReport (some src) (some P) (there.bind Piece.id) (settle s) t) ∧
        (age ≤ (q : Int) + (settle s).tu.timing.allowance + 8 →
          (age ≤ (settle s).tu.timing.allowance ∨ (settle s).rc.state = .idle) → there = none →
          ((settle s).rc.state = .idle ∨ ∀ id, id ≠ 16777215#24 → c ≠ .read src st id) →
          FlagOnly .unexpectedReport (some src) (some P) none (settle s) t)))

/-- R10, R23, R25-R35, R39-R41, R157, R171: what a sheet does in RUNNING or STOPPED. With no record open, a readable one claims its slot and
opens a named record, with the faults of the claim, of its count and of an index above 1, complete at once when it is the last; a no-read
opens an anonymous one; with no headroom it finds no place. At a named record, a sheet of its piece is added, with SHEET_COUNT and SEQUENCE
as they apply, a no-read is added, and a sheet of another piece ends it MIXED and opens the next. At an anonymous record, a no-read is added,
a sheet of index above 1 is adopted with its claim, and one of index 1 ends it and opens the next. A record left holding 16 sheets completes
OVERSIZE; one that completes with four sets queued waits in the place; a sheet that finds no place sets ACCUMULATOR_OVERRUN and stops the
run. An opening sets LOG_HEADROOM as the headroom falls to 8, and openings and completions make the test of R40. -/
def Obligations.SheetsAreCollated : Prop :=
  ∀ (src : Addr) (id : PieceId) (i n : Byte) (s : State), s.resetHeld = false →
    src = (settle s).tu.layout.sheetReader → src ≠ 63#6 → ((settle s).rc.state = .running ∨ (settle s).rc.state = .stopped) →
    ∃ t, exec (.sheet src id i n) s = .next t ∧
      let u := settle s
      (u.cu.place = none → SheetOpens src id i n u t) ∧
      (∀ r, u.cu.place = some r → r.waiting = false →
        let added := { r.set with held := r.set.held + 1 }
        (∀ x m, r.set.id = some x → r.set.count = some m →
          (Readable id i n → id = x →
            RecordLeft (decide (i.toNat = r.next ∧ i.toNat = m ∨ r.next < i.toNat ∧ m ≤ i.toNat))
              ⟨withFaults ((if n.toNat = m then [] else [.sheetCount]) ++ (if i.toNat = r.next then [] else [.sequence])) added,
                if i.toNat < r.next then r.next else i.toNat + 1, false⟩ (sheetCounted false false u) t) ∧
          (¬Readable id i n → RecordLeft (decide (r.next = m)) ⟨withFaults [.noreadSheet] added, r.next + 1, false⟩
            (sheetCounted false true u) t) ∧
          (Readable id i n → id ≠ x → SheetEnds { r with set := withFaults [.mixed] r.set } src id i n u t)) ∧
        ((r.set.id = none ∨ r.set.count = none) →
          (¬Readable id i n → RecordLeft false ⟨withFaults [.noreadSheet] added, r.next + 1, false⟩ (sheetCounted false true u) t) ∧
          (Readable id i n → 1 < i.toNat →
            RecordLeft (decide (i = n)) ⟨withFaults (claimFaults u id n.toNat ++ (if i.toNat = r.next then [] else [.sequence]))
              { added with id := some id, slot := (claimSlot u id).or r.set.slot, count := some n.toNat }, i.toNat + 1, false⟩
              (sheetCounted false false (claimMade u id)) t) ∧
          (Readable id i n → i = 1 → SheetEnds r src id i n u t))) ∧
      t.tu = u.tu ∧ t.iu = u.iu ∧ t.pp = u.pp ∧ t.su = u.su ∧ t.bu = u.bu ∧ t.cl.log = u.cl.log

/-- R23, R28, R34, R35, R37, R39-R41: a sheet in IDLE is dropped with UNEXPECTED_REPORT; a sheet that finds a COMPLETE_WAITING record in the
place is not recorded, sets ACCUMULATOR_OVERRUN and stops the run; and in DRAINING a sheet forms a record of its own, faulted LATE_SHEET with
its claim's fault behind it, that completes at once, or finds no headroom and no place. -/
def Obligations.SheetsOutsideNormalCollation : Prop :=
  ∀ (src : Addr) (id : PieceId) (i n : Byte) (s : State), s.resetHeld = false →
    src = (settle s).tu.layout.sheetReader → src ≠ 63#6 →
    ∃ t, exec (.sheet src id i n) s = .next t ∧
      let u := settle s
      (u.rc.state = .idle → FlagOnly .unexpectedReport (some src) none none u t) ∧
      (∀ r, u.rc.state ≠ .idle → u.cu.place = some r → r.waiting = true → Overrun src none u t) ∧
      (u.rc.state = .draining → u.cu.place = none → headroom u = 0 → Overrun src (if Readable id i n then some id else none) u t) ∧
      (u.rc.state = .draining → u.cu.place = none → 0 < headroom u →
        (Readable id i n →
          let r : OpenRec := ⟨withFaults (match claimGives u id with | .error f => [.lateSheet, f] | .ok _ => [.lateSheet])
            ⟨some id, claimSlot u id, some n.toNat, 1, none, false⟩, i.toNat + 1, false⟩
          ∃ m, RecordOpened false r (claimMade u id) m ∧ RecordCompleted r m t) ∧
        (¬Readable id i n →
          let r : OpenRec := ⟨⟨none, none, none, 1, some .lateSheet, false⟩, 2, false⟩
          ∃ m, RecordOpened true r u m ∧ RecordCompleted r m t)) ∧
      t.tu = u.tu ∧ t.iu = u.iu ∧ t.pp = u.pp ∧ t.su = u.su ∧ t.bu = u.bu ∧ t.cl.log = u.cl.log

/-- R80-R87, R104-R109: a FEED applied to a piece with an entry that waits on the feeder counts a call there, with its condition. FED
settles the entry and nothing else; DOUBLE settles it DOUBLED with the fault INSERT_DOUBLE; MISS counts a miss, at the limit FAILED with
FEEDER_FAILED, and then the backup is called, or the entry is MISSED with INSERT_MISSED, or COMMAND_OVERFLOW when the CALL finds no entry.
Other feeders and slots stay. A FEED for which no entry of the piece waits on the feeder, and an outcome that is none of the three, is
dropped. -/
def Obligations.FeedReportsSettleEntries : Prop :=
  ∀ (src : Addr) (stamp : Stamp) (o : Byte) (f k : Nat) (P : Pitch) (p : Piece) (s : State), s.resetHeld = false →
    feederOf (settle s) src = some f → AppliesTo (settle s) (placeAt (settle s) f).pos stamp P k p →
    ∃ t, exec (.feed src stamp o) s = .next t ∧
      (((∀ e ∈ p.planned, waitsOn e ≠ some f) ∨ 3 ≤ o.toNat) → FlagOnly .unexpectedReport (some src) none none (settle s) t) ∧
      ∀ e, waitingEntry p f = some e →
      (o = 0 →
        feederAt t f = fedFeeder (settle s).iu.threshold false (feederAt (settle s) f) ∧
        (∀ g, g ≠ f → feederAt t g = feederAt (settle s) g) ∧ t.iu = { (settle s).iu with feeders := t.iu.feeders } ∧
        pieceAt t k = some (entryAs e.insert .fed p) ∧ (∀ j, j ≠ k → pieceAt t j = pieceAt (settle s) j) ∧
        t.tu = { (settle s).tu with ring := t.tu.ring } ∧ t = withIu (withTu (settle s) t.tu) t.iu) ∧
      (o = 1 → ∃ m, MissCounted f P p.id (settle s) m ∧ MissSettled k .insertMissed p e m t) ∧
      (o = 2 →
        feederAt t f = fedFeeder (settle s).iu.threshold true (feederAt (settle s) f) ∧
        (∀ g, g ≠ f → feederAt t g = feederAt (settle s) g) ∧ t.iu = { (settle s).iu with feeders := t.iu.feeders } ∧
        FaultRecorded k .insertDouble (entryAs e.insert .doubled p) (withIu (settle s) t.iu) t)

/-- R71: a MATERIAL from a present feeder gives it the level, and its state except in OFFLINE and FAILED; a feeder that becomes EMPTY sets
FEEDER_EMPTY with its address; another level is dropped with UNEXPECTED_REPORT. -/
def Obligations.MaterialReportsMoveFeeders : Prop :=
  ∀ (src : Addr) (level : Byte) (f : Nat) (s : State), s.resetHeld = false → feederOf (settle s) src = some f →
    TablesLaw (settle s) →
    ∃ t, exec (.material src level) s = .next t ∧
      (3 ≤ level.toNat → FlagOnly .unexpectedReport (some src) none none (settle s) t) ∧
      (∀ l, levelOf level = some l →
        feederAt t f = { feederAt (settle s) f with
          level := l
          state := if (feederAt (settle s) f).state = .offline ∨ (feederAt (settle s) f).state = .failed
            then (feederAt (settle s) f).state else levelState l } ∧
        (∀ g, g ≠ f → feederAt t g = feederAt (settle s) g) ∧
        SameBlocks (withIu (settle s) t.iu) t ∧ SamePort (settle s) t ∧
        (levelOf level = some .empty → (feederAt (settle s) f).state ≠ .offline → (feederAt (settle s) f).state ≠ .failed →
          FlagTaken .feederEmpty (some src) none none (settle s) t) ∧
        ((levelOf level ≠ some .empty ∨ (feederAt (settle s) f).state = .offline ∨ (feederAt (settle s) f).state = .failed) →
          t.cl = (settle s).cl ∧ t.rp = (settle s).rp))

/-- R59, R104-R115, R157: a READ applied to a piece that is not PENDING is dropped; its own ID makes a PENDING piece MATCHED and changes
nothing else of a piece with a fault; a no-read makes it FAILED, with VERIFY_NOREAD when it has an ID. Another ID makes it FAILED, with
VERIFY_MISMATCH when it has one, and gives VERIFY_MISMATCH to every other piece on the track that carries the ID read. A first fault takes
its path. A READ with an ID that finds no piece outside IDLE sets PHANTOM and stops the run. -/
def Obligations.VerifyReadsSettlePieces : Prop :=
  ∀ (src : Addr) (stamp : Stamp) (id : PieceId) (P : Pitch) (s : State), s.resetHeld = false →
    src = (settle s).tu.layout.verify.addr → src ≠ 63#6 →
    ∃ t, exec (.read src stamp id) s = .next t ∧
      (∀ k p, AppliesTo (settle s) (settle s).tu.layout.verify.pos stamp P k p →
        (p.verify ≠ .pending → FlagOnly .unexpectedReport (some src) (some P) p.id (settle s) t) ∧
        (p.verify = .pending → id ≠ 16777215#24 → p.id = some id → p.fault.isSome = true →
          t = setPiece (settle s) k (some { p with verify := .matched })) ∧
        (p.verify = .pending → id = 16777215#24 →
          (p.id = none → t = setPiece (settle s) k (some { p with verify := .failed })) ∧
          (p.id.isSome = true → FaultRecorded k .verifyNoread { p with verify := .failed } (settle s) t)) ∧
        (p.verify = .pending → id ≠ 16777215#24 → p.id ≠ some id → TablesLaw (settle s) →
          ∃ m,
            (p.id = none → m = setPiece (settle s) k (some { p with verify := .failed })) ∧
            (p.id.isSome = true → FaultRecorded k .verifyMismatch { p with verify := .failed } (settle s) m) ∧
            pieceAt t k = pieceAt m k ∧
            ((∀ j y, j ≠ k → pieceAt (settle s) j = some y → y.id ≠ some id) → t = m) ∧
            (∀ j y, j ≠ k → pieceAt (settle s) j = some y → y.id = some id →
              (∃ z, pieceAt t j = some z ∧ z.fault = some (y.fault.getD .verifyMismatch) ∧ z.further = (y.further || y.fault.isSome) ∧
                z.entry = y.entry ∧ z.id = y.id ∧ z.planned = y.planned ∧ z.verify = y.verify) ∧
              ((∀ i w, i ≠ k → i ≠ j → pieceAt (settle s) i = some w → w.id ≠ some id) →
                FaultRecorded j .verifyMismatch y m t)) ∧
            (∀ j, j ≠ k → (∀ y, pieceAt (settle s) j = some y → y.id ≠ some id) → pieceAt t j = pieceAt (settle s) j) ∧
            t.ds = (settle s).ds ∧ t.cu = (settle s).cu ∧ t.iu = (settle s).iu ∧ t.pp = (settle s).pp ∧ t.su = (settle s).su ∧
            t.rc = (settle s).rc ∧ t.cl.log = (settle s).cl.log ∧ t.cl.counters = (settle s).cl.counters)) ∧
      (resolveStamp (settle s).tu.pitch stamp = some P → pitchDiff (settle s).tu.pitch P ≤ (settle s).tu.timing.allowance →
        targetPiece (settle s) (P - BitVec.ofNat 32 (settle s).tu.layout.verify.pos) = none → id ≠ 16777215#24 →
        (settle s).rc.state ≠ .idle →
        ∃ m, FlagOnly .phantom (some src) (some P) (some id) (settle s) m ∧ RunStopped .phantom (some src) m t)

/-- R111, R118-R125, R139-R142: the READ that matches an unfaulted PENDING piece decides it by the first matching element of the active bank,
else by the fallback. REJECT gives it the fault UNSORTABLE. A bin is tried first, then BO, then the bin of a RESIDUAL fallback: one that is
not OPEN is passed, one that would break a limit is closed and passed, its TRAY_CHANGE queued or owed with COMMAND_QUEUE_FULL, and the first
that takes the piece reserves a place in its tray, its BIN queued for the pitch at which the piece stands at the sorter and its path SORT; a
piece alone too heavy goes SOLO and its tray is closed. With every bin passed the fault is NO_OUTPUT, and so it is when the BIN finds no
entry. -/
def Obligations.MatchedReadReservesPlace : Prop :=
  ∀ (src : Addr) (stamp : Stamp) (id : PieceId) (P : Pitch) (k j : Nat) (p : Piece) (d : Descriptor) (s : State),
    s.resetHeld = false → src = (settle s).tu.layout.verify.addr → src ≠ 63#6 → id ≠ 16777215#24 →
    AppliesTo (settle s) (settle s).tu.layout.verify.pos stamp P k p → p.verify = .pending → p.id = some id → p.fault = none →
    p.slot.bind (descAt (settle s)) = some d → p.band = some j →
    ∃ t, exec (.read src stamp id) s = .next t ∧
      let u := settle s
      let q := { p with verify := .matched }
      let mass := p.mass.getD 0
      (Decides u d.key j d.service .reject → FaultRecorded k .unsortable q u t) ∧
      (∀ b, Decides u d.key j d.service (.bin b) →
        let tried := triedBins b u.su.fallback
        let passed := tried.takeWhile (fun c => !takesPiece mass (binAt u c))
        ∃ m, PassedOver mass passed (setPiece u k (some q)) m ∧
          (∀ c rest y, tried = passed ++ c :: rest → (binAt u c).tray = some y → PieceTaken k q c y m t) ∧
          (tried = passed → FaultRecorded k .noOutput q m t))

/-- R12, R62-R64, R136, R145-R147, R149, R156, R168, R171: how a piece leaves on a LANDED applied to it, by the place and its path. In the bin
of its SORT path it leaves SORTED without a fault and MISSORTED with one, counted in that tray while it is current and with LATE_LANDING
otherwise; in any other bin MISSORTED with MISROUTED; at the gate DIVERTED_GATE, with GATE_DIVERT off a SORT or UNDECIDED path; in BR
REJECTED_SORTER, with SORTER_REJECT off one, and BR's counts take it. A MISSORTED piece contaminates its bin with CONTAMINATED_TRAY; a place
in a tray that is not landed in is given up. In DRAINING the run-end close and the test for the drain end follow the last piece. That
LATE_LANDING goes before CONTAMINATED_TRAY is the model's choice (log 32). -/
def Obligations.LandedPiecesLeaveTrack : Prop :=
  ∀ (src : Addr) (stamp : Stamp) (P : Pitch) (k : Nat) (p : Piece) (s : State), s.resetHeld = false → src ≠ 63#6 →
    TablesLaw (settle s) →
    (∀ place : Byte, place.toNat < 17 → src = (settle s).tu.layout.sorter.addr →
      AppliesTo (settle s) (settle s).tu.layout.sorter.pos stamp P k p →
      ∃ t m, exec (.landed src stamp place) s = .next t ∧ FlightFell m t ∧ m.bu = { (settle s).bu with bins := m.bu.bins } ∧
        let u := settle s
        let b := place.toNat
        let outcome : Outcome := if p.fault = none then .sorted else .missorted
        let ends := fun (x : Bin) => if p.fault = none then x else soiledBin x
        (∀ seq y, p.path = .sort b seq → (binAt u b).tray = some y → y.seq = seq →
          ((binAt u b).state = .opened ∨ (binAt u b).state = .full) →
          Left k p outcome none (some b) (some seq) u m ∧
          (∀ j, binAt m j = if j = b then ends { binAt u b with tray := some (landedTray p y) } else binAt u j) ∧
          (p.fault = none → NoCause u m) ∧
          (p.fault.isSome = true → CauseTaken .contaminatedTray (some src) (some P) p.id u m)) ∧
        (∀ seq, p.path = .sort b seq →
          (∀ y, (binAt u b).tray = some y → y.seq = seq → (binAt u b).state ≠ .opened ∧ (binAt u b).state ≠ .full) →
          Left k p outcome none (some b) none u m ∧ (∀ j, binAt m j = if j = b then ends (binAt u b) else binAt u j) ∧
          m.cl.capture = (if u.cl.summary = 0#18 then some ⟨.lateLanding, some src, some P, p.id⟩ else u.cl.capture) ∧
          m.cl.summary = u.cl.summary ||| flagMask .lateLanding |||
            (if p.fault = none then 0#18 else flagMask .contaminatedTray)) ∧
        ((∀ seq, p.path ≠ .sort b seq) →
          Left k p .missorted (some .misrouted) (some b) none u m ∧
          (∀ j, binAt m j = if j = b then soiledBin (binAt u b) else unreserved p.path p.mass j (binAt u j)) ∧
          CauseTaken .contaminatedTray (some src) (some P) p.id u m)) ∧
    (src = (settle s).tu.layout.gate.addr → AppliesTo (settle s) (settle s).tu.layout.gate.pos stamp P k p →
      ∃ t m, exec (.landed src stamp 18) s = .next t ∧ FlightFell m t ∧
        Left k p .divertedGate (if p.path = .gate ∨ p.path = .reject then none else some .gateDivert) none none (settle s) m ∧
        Unreserved p (settle s) m ∧ m.bu = { (settle s).bu with bins := m.bu.bins } ∧ NoCause (settle s) m) ∧
    (src = (settle s).tu.layout.sorter.addr → AppliesTo (settle s) (settle s).tu.layout.sorter.pos stamp P k p →
      ∃ t m, exec (.landed src stamp 17) s = .next t ∧ FlightFell m t ∧
        Left k p .rejectedSorter (if p.path = .gate ∨ p.path = .reject then none else some .sorterReject) none none (settle s) m ∧
        Unreserved p (settle s) m ∧ m.bu = { (settle s).bu with
          bins := m.bu.bins
          brCount := (settle s).bu.brCount + 1
          brMass := (settle s).bu.brMass + p.mass.getD 0 } ∧
        NoCause (settle s) m)

/-- R137, R143, R144, R156: a TRAY_READY for a FULL bin whose change is not owed: with room its record joins the tray log and the bin opens a
tray; with a full log the record is held, the bin is CLOSE_PENDING and TRAY_LOG_WAIT is set; for any other bin the report is dropped. In
DRAINING the drain end is tested after it. -/
def Obligations.TrayReadyExchangesTray : Prop :=
  ∀ (src : Addr) (bin : Byte) (s : State), s.resetHeld = false → src = (settle s).tu.layout.sorter.addr → src ≠ 63#6 →
    ∃ t, exec (.trayReady src bin) s = .next t ∧
      (∀ l x, bin.toNat < 17 → binAt (settle s) bin.toNat = ⟨.full, some l, some x, false, none, false⟩ →
        let record : TrayRec := ⟨x.run, x.seq, bin.toNat, x.generation, x.reason, x.landed, x.landedMass, x.firstId, x.lastId, x.bands,
          decide (x.landed < l.minCount), x.contaminated⟩
        ((settle s).bu.log.length < 256 → ∃ m, DrainTested m t ∧ m = withBu (settle s) m.bu ∧
          m.bu.log = (settle s).bu.log ++ [record] ∧ (∀ j, j ≠ bin.toNat → binAt m j = binAt (settle s) j) ∧
          m.bu.nextSeq = (if (settle s).bu.nextSeq = 65535#16 then 1#16 else (settle s).bu.nextSeq + 1) ∧
          binAt m bin.toNat = ⟨.opened, some l, some ⟨(settle s).rc.run, (settle s).bu.nextSeq, (settle s).su.generation, 0, 0, 0, 0,
            none, none, 0, false, none⟩, false, none, false⟩) ∧
        (256 ≤ (settle s).bu.log.length → FlagTaken .trayLogWait (some src) none none (settle s) t ∧ t.bu.log = (settle s).bu.log ∧
          (∀ j, j ≠ bin.toNat → binAt t j = binAt (settle s) j) ∧
          binAt t bin.toNat = ⟨.closePending, some l, none, false, some record, false⟩ ∧
          t.tu = (settle s).tu ∧ t.ds = (settle s).ds ∧ t.cu = (settle s).cu ∧ t.rc = (settle s).rc)) ∧
      ((17 ≤ bin.toNat ∨ (binAt (settle s) bin.toNat).state ≠ .full ∨ (binAt (settle s) bin.toNat).owed = true) →
        FlagOnly .unexpectedReport (some src) none none (settle s) t)

/-- R40, R41, R157, R158: a JAM from any role of the line sets JAM with its address and the current pitch, and stops a RUNNING or DRAINING run
with HOLD queued, or pending with COMMAND_QUEUE_FULL when no entry is free; in STOPPED it sets the flag alone; in IDLE it is dropped with
UNEXPECTED_REPORT. -/
def Obligations.JamReportStopsRun : Prop :=
  ∀ (src : Addr) (s : State), s.resetHeld = false → isRole (settle s) src = true →
    ∃ t, exec (.jam src) s = .next t ∧
      ((settle s).rc.state ≠ .idle →
        ∃ m, FlagOnly .jam (some src) (some (settle s).tu.pitch) none (settle s) m ∧ RunStopped .jam (some src) m t) ∧
      ((settle s).rc.state = .idle → FlagOnly .unexpectedReport (some src) none none (settle s) t)

/-! ## Laws of the device -/

/-- The laws hold after reset. -/
def Obligations.DeviceLawsHoldAfterReset : Prop :=
  TablesLaw State.reset ∧ LogLaw State.reset ∧ QueueLaw State.reset ∧ BooksLaw State.reset

/-- Every step keeps every numbered store in its canonical form. -/
def Obligations.EveryStepKeepsTablesCanonical : Prop := ∀ s t : State, TablesLaw s → step s = .next t → TablesLaw t

/-- R39, R50, R166, R171: every step keeps the completion-log law, the ring's law and the opened count. -/
def Obligations.EveryStepKeepsCompletionLogLaw : Prop := ∀ s t : State, LogLaw s → step s = .next t → LogLaw t

/-- R180, R182: every step keeps the forward queue and both parts of the originate queue within their places. -/
def Obligations.EveryStepKeepsQueueBounds : Prop := ∀ s t : State, QueueLaw s → step s = .next t → QueueLaw t

/-- R152, R171, R173, R175: every step keeps the books: exited is sorted plus diverted, the resume state belongs to STOPPED, the capture and a
pending ALERT to a summary that is not empty. -/
def Obligations.EveryStepKeepsBooks : Prop := ∀ s t : State, BooksLaw s → step s = .next t → BooksLaw t
end

