-- ==== Sys2Proof/Laws/State.lean ====
section
/-! SUPPORT. What each block update leaves in each block: one lemma per field per update. -/

namespace Sys2Proof.Machine

@[simp] theorem withPending_pending (s : State) (x : List Instr) : (withPending s x).pending = x := rfl
@[simp] theorem withPending_due (s : State) (x : List Instr) : (withPending s x).due = s.due := rfl
@[simp] theorem withPending_resetHeld (s : State) (x : List Instr) : (withPending s x).resetHeld = s.resetHeld := rfl
@[simp] theorem withPending_ds (s : State) (x : List Instr) : (withPending s x).ds = s.ds := rfl
@[simp] theorem withPending_cu (s : State) (x : List Instr) : (withPending s x).cu = s.cu := rfl
@[simp] theorem withPending_tu (s : State) (x : List Instr) : (withPending s x).tu = s.tu := rfl
@[simp] theorem withPending_iu (s : State) (x : List Instr) : (withPending s x).iu = s.iu := rfl
@[simp] theorem withPending_pp (s : State) (x : List Instr) : (withPending s x).pp = s.pp := rfl
@[simp] theorem withPending_su (s : State) (x : List Instr) : (withPending s x).su = s.su := rfl
@[simp] theorem withPending_bu (s : State) (x : List Instr) : (withPending s x).bu = s.bu := rfl
@[simp] theorem withPending_rc (s : State) (x : List Instr) : (withPending s x).rc = s.rc := rfl
@[simp] theorem withPending_cl (s : State) (x : List Instr) : (withPending s x).cl = s.cl := rfl
@[simp] theorem withPending_rp (s : State) (x : List Instr) : (withPending s x).rp = s.rp := rfl
@[simp] theorem withDue_pending (s : State) (x : Due) : (withDue s x).pending = s.pending := rfl
@[simp] theorem withDue_due (s : State) (x : Due) : (withDue s x).due = x := rfl
@[simp] theorem withDue_resetHeld (s : State) (x : Due) : (withDue s x).resetHeld = s.resetHeld := rfl
@[simp] theorem withDue_ds (s : State) (x : Due) : (withDue s x).ds = s.ds := rfl
@[simp] theorem withDue_cu (s : State) (x : Due) : (withDue s x).cu = s.cu := rfl
@[simp] theorem withDue_tu (s : State) (x : Due) : (withDue s x).tu = s.tu := rfl
@[simp] theorem withDue_iu (s : State) (x : Due) : (withDue s x).iu = s.iu := rfl
@[simp] theorem withDue_pp (s : State) (x : Due) : (withDue s x).pp = s.pp := rfl
@[simp] theorem withDue_su (s : State) (x : Due) : (withDue s x).su = s.su := rfl
@[simp] theorem withDue_bu (s : State) (x : Due) : (withDue s x).bu = s.bu := rfl
@[simp] theorem withDue_rc (s : State) (x : Due) : (withDue s x).rc = s.rc := rfl
@[simp] theorem withDue_cl (s : State) (x : Due) : (withDue s x).cl = s.cl := rfl
@[simp] theorem withDue_rp (s : State) (x : Due) : (withDue s x).rp = s.rp := rfl
@[simp] theorem withResetHeld_pending (s : State) (x : Bool) : (withResetHeld s x).pending = s.pending := rfl
@[simp] theorem withResetHeld_due (s : State) (x : Bool) : (withResetHeld s x).due = s.due := rfl
@[simp] theorem withResetHeld_resetHeld (s : State) (x : Bool) : (withResetHeld s x).resetHeld = x := rfl
@[simp] theorem withResetHeld_ds (s : State) (x : Bool) : (withResetHeld s x).ds = s.ds := rfl
@[simp] theorem withResetHeld_cu (s : State) (x : Bool) : (withResetHeld s x).cu = s.cu := rfl
@[simp] theorem withResetHeld_tu (s : State) (x : Bool) : (withResetHeld s x).tu = s.tu := rfl
@[simp] theorem withResetHeld_iu (s : State) (x : Bool) : (withResetHeld s x).iu = s.iu := rfl
@[simp] theorem withResetHeld_pp (s : State) (x : Bool) : (withResetHeld s x).pp = s.pp := rfl
@[simp] theorem withResetHeld_su (s : State) (x : Bool) : (withResetHeld s x).su = s.su := rfl
@[simp] theorem withResetHeld_bu (s : State) (x : Bool) : (withResetHeld s x).bu = s.bu := rfl
@[simp] theorem withResetHeld_rc (s : State) (x : Bool) : (withResetHeld s x).rc = s.rc := rfl
@[simp] theorem withResetHeld_cl (s : State) (x : Bool) : (withResetHeld s x).cl = s.cl := rfl
@[simp] theorem withResetHeld_rp (s : State) (x : Bool) : (withResetHeld s x).rp = s.rp := rfl
@[simp] theorem withDs_pending (s : State) (x : Ds) : (withDs s x).pending = s.pending := rfl
@[simp] theorem withDs_due (s : State) (x : Ds) : (withDs s x).due = s.due := rfl
@[simp] theorem withDs_resetHeld (s : State) (x : Ds) : (withDs s x).resetHeld = s.resetHeld := rfl
@[simp] theorem withDs_ds (s : State) (x : Ds) : (withDs s x).ds = x := rfl
@[simp] theorem withDs_cu (s : State) (x : Ds) : (withDs s x).cu = s.cu := rfl
@[simp] theorem withDs_tu (s : State) (x : Ds) : (withDs s x).tu = s.tu := rfl
@[simp] theorem withDs_iu (s : State) (x : Ds) : (withDs s x).iu = s.iu := rfl
@[simp] theorem withDs_pp (s : State) (x : Ds) : (withDs s x).pp = s.pp := rfl
@[simp] theorem withDs_su (s : State) (x : Ds) : (withDs s x).su = s.su := rfl
@[simp] theorem withDs_bu (s : State) (x : Ds) : (withDs s x).bu = s.bu := rfl
@[simp] theorem withDs_rc (s : State) (x : Ds) : (withDs s x).rc = s.rc := rfl
@[simp] theorem withDs_cl (s : State) (x : Ds) : (withDs s x).cl = s.cl := rfl
@[simp] theorem withDs_rp (s : State) (x : Ds) : (withDs s x).rp = s.rp := rfl
@[simp] theorem withCu_pending (s : State) (x : Cu) : (withCu s x).pending = s.pending := rfl
@[simp] theorem withCu_due (s : State) (x : Cu) : (withCu s x).due = s.due := rfl
@[simp] theorem withCu_resetHeld (s : State) (x : Cu) : (withCu s x).resetHeld = s.resetHeld := rfl
@[simp] theorem withCu_ds (s : State) (x : Cu) : (withCu s x).ds = s.ds := rfl
@[simp] theorem withCu_cu (s : State) (x : Cu) : (withCu s x).cu = x := rfl
@[simp] theorem withCu_tu (s : State) (x : Cu) : (withCu s x).tu = s.tu := rfl
@[simp] theorem withCu_iu (s : State) (x : Cu) : (withCu s x).iu = s.iu := rfl
@[simp] theorem withCu_pp (s : State) (x : Cu) : (withCu s x).pp = s.pp := rfl
@[simp] theorem withCu_su (s : State) (x : Cu) : (withCu s x).su = s.su := rfl
@[simp] theorem withCu_bu (s : State) (x : Cu) : (withCu s x).bu = s.bu := rfl
@[simp] theorem withCu_rc (s : State) (x : Cu) : (withCu s x).rc = s.rc := rfl
@[simp] theorem withCu_cl (s : State) (x : Cu) : (withCu s x).cl = s.cl := rfl
@[simp] theorem withCu_rp (s : State) (x : Cu) : (withCu s x).rp = s.rp := rfl
@[simp] theorem withTu_pending (s : State) (x : Tu) : (withTu s x).pending = s.pending := rfl
@[simp] theorem withTu_due (s : State) (x : Tu) : (withTu s x).due = s.due := rfl
@[simp] theorem withTu_resetHeld (s : State) (x : Tu) : (withTu s x).resetHeld = s.resetHeld := rfl
@[simp] theorem withTu_ds (s : State) (x : Tu) : (withTu s x).ds = s.ds := rfl
@[simp] theorem withTu_cu (s : State) (x : Tu) : (withTu s x).cu = s.cu := rfl
@[simp] theorem withTu_tu (s : State) (x : Tu) : (withTu s x).tu = x := rfl
@[simp] theorem withTu_iu (s : State) (x : Tu) : (withTu s x).iu = s.iu := rfl
@[simp] theorem withTu_pp (s : State) (x : Tu) : (withTu s x).pp = s.pp := rfl
@[simp] theorem withTu_su (s : State) (x : Tu) : (withTu s x).su = s.su := rfl
@[simp] theorem withTu_bu (s : State) (x : Tu) : (withTu s x).bu = s.bu := rfl
@[simp] theorem withTu_rc (s : State) (x : Tu) : (withTu s x).rc = s.rc := rfl
@[simp] theorem withTu_cl (s : State) (x : Tu) : (withTu s x).cl = s.cl := rfl
@[simp] theorem withTu_rp (s : State) (x : Tu) : (withTu s x).rp = s.rp := rfl
@[simp] theorem withIu_pending (s : State) (x : Iu) : (withIu s x).pending = s.pending := rfl
@[simp] theorem withIu_due (s : State) (x : Iu) : (withIu s x).due = s.due := rfl
@[simp] theorem withIu_resetHeld (s : State) (x : Iu) : (withIu s x).resetHeld = s.resetHeld := rfl
@[simp] theorem withIu_ds (s : State) (x : Iu) : (withIu s x).ds = s.ds := rfl
@[simp] theorem withIu_cu (s : State) (x : Iu) : (withIu s x).cu = s.cu := rfl
@[simp] theorem withIu_tu (s : State) (x : Iu) : (withIu s x).tu = s.tu := rfl
@[simp] theorem withIu_iu (s : State) (x : Iu) : (withIu s x).iu = x := rfl
@[simp] theorem withIu_pp (s : State) (x : Iu) : (withIu s x).pp = s.pp := rfl
@[simp] theorem withIu_su (s : State) (x : Iu) : (withIu s x).su = s.su := rfl
@[simp] theorem withIu_bu (s : State) (x : Iu) : (withIu s x).bu = s.bu := rfl
@[simp] theorem withIu_rc (s : State) (x : Iu) : (withIu s x).rc = s.rc := rfl
@[simp] theorem withIu_cl (s : State) (x : Iu) : (withIu s x).cl = s.cl := rfl
@[simp] theorem withIu_rp (s : State) (x : Iu) : (withIu s x).rp = s.rp := rfl
@[simp] theorem withPp_pending (s : State) (x : Pp) : (withPp s x).pending = s.pending := rfl
@[simp] theorem withPp_due (s : State) (x : Pp) : (withPp s x).due = s.due := rfl
@[simp] theorem withPp_resetHeld (s : State) (x : Pp) : (withPp s x).resetHeld = s.resetHeld := rfl
@[simp] theorem withPp_ds (s : State) (x : Pp) : (withPp s x).ds = s.ds := rfl
@[simp] theorem withPp_cu (s : State) (x : Pp) : (withPp s x).cu = s.cu := rfl
@[simp] theorem withPp_tu (s : State) (x : Pp) : (withPp s x).tu = s.tu := rfl
@[simp] theorem withPp_iu (s : State) (x : Pp) : (withPp s x).iu = s.iu := rfl
@[simp] theorem withPp_pp (s : State) (x : Pp) : (withPp s x).pp = x := rfl
@[simp] theorem withPp_su (s : State) (x : Pp) : (withPp s x).su = s.su := rfl
@[simp] theorem withPp_bu (s : State) (x : Pp) : (withPp s x).bu = s.bu := rfl
@[simp] theorem withPp_rc (s : State) (x : Pp) : (withPp s x).rc = s.rc := rfl
@[simp] theorem withPp_cl (s : State) (x : Pp) : (withPp s x).cl = s.cl := rfl
@[simp] theorem withPp_rp (s : State) (x : Pp) : (withPp s x).rp = s.rp := rfl
@[simp] theorem withSu_pending (s : State) (x : Su) : (withSu s x).pending = s.pending := rfl
@[simp] theorem withSu_due (s : State) (x : Su) : (withSu s x).due = s.due := rfl
@[simp] theorem withSu_resetHeld (s : State) (x : Su) : (withSu s x).resetHeld = s.resetHeld := rfl
@[simp] theorem withSu_ds (s : State) (x : Su) : (withSu s x).ds = s.ds := rfl
@[simp] theorem withSu_cu (s : State) (x : Su) : (withSu s x).cu = s.cu := rfl
@[simp] theorem withSu_tu (s : State) (x : Su) : (withSu s x).tu = s.tu := rfl
@[simp] theorem withSu_iu (s : State) (x : Su) : (withSu s x).iu = s.iu := rfl
@[simp] theorem withSu_pp (s : State) (x : Su) : (withSu s x).pp = s.pp := rfl
@[simp] theorem withSu_su (s : State) (x : Su) : (withSu s x).su = x := rfl
@[simp] theorem withSu_bu (s : State) (x : Su) : (withSu s x).bu = s.bu := rfl
@[simp] theorem withSu_rc (s : State) (x : Su) : (withSu s x).rc = s.rc := rfl
@[simp] theorem withSu_cl (s : State) (x : Su) : (withSu s x).cl = s.cl := rfl
@[simp] theorem withSu_rp (s : State) (x : Su) : (withSu s x).rp = s.rp := rfl
@[simp] theorem withBu_pending (s : State) (x : Bu) : (withBu s x).pending = s.pending := rfl
@[simp] theorem withBu_due (s : State) (x : Bu) : (withBu s x).due = s.due := rfl
@[simp] theorem withBu_resetHeld (s : State) (x : Bu) : (withBu s x).resetHeld = s.resetHeld := rfl
@[simp] theorem withBu_ds (s : State) (x : Bu) : (withBu s x).ds = s.ds := rfl
@[simp] theorem withBu_cu (s : State) (x : Bu) : (withBu s x).cu = s.cu := rfl
@[simp] theorem withBu_tu (s : State) (x : Bu) : (withBu s x).tu = s.tu := rfl
@[simp] theorem withBu_iu (s : State) (x : Bu) : (withBu s x).iu = s.iu := rfl
@[simp] theorem withBu_pp (s : State) (x : Bu) : (withBu s x).pp = s.pp := rfl
@[simp] theorem withBu_su (s : State) (x : Bu) : (withBu s x).su = s.su := rfl
@[simp] theorem withBu_bu (s : State) (x : Bu) : (withBu s x).bu = x := rfl
@[simp] theorem withBu_rc (s : State) (x : Bu) : (withBu s x).rc = s.rc := rfl
@[simp] theorem withBu_cl (s : State) (x : Bu) : (withBu s x).cl = s.cl := rfl
@[simp] theorem withBu_rp (s : State) (x : Bu) : (withBu s x).rp = s.rp := rfl
@[simp] theorem withRc_pending (s : State) (x : Rc) : (withRc s x).pending = s.pending := rfl
@[simp] theorem withRc_due (s : State) (x : Rc) : (withRc s x).due = s.due := rfl
@[simp] theorem withRc_resetHeld (s : State) (x : Rc) : (withRc s x).resetHeld = s.resetHeld := rfl
@[simp] theorem withRc_ds (s : State) (x : Rc) : (withRc s x).ds = s.ds := rfl
@[simp] theorem withRc_cu (s : State) (x : Rc) : (withRc s x).cu = s.cu := rfl
@[simp] theorem withRc_tu (s : State) (x : Rc) : (withRc s x).tu = s.tu := rfl
@[simp] theorem withRc_iu (s : State) (x : Rc) : (withRc s x).iu = s.iu := rfl
@[simp] theorem withRc_pp (s : State) (x : Rc) : (withRc s x).pp = s.pp := rfl
@[simp] theorem withRc_su (s : State) (x : Rc) : (withRc s x).su = s.su := rfl
@[simp] theorem withRc_bu (s : State) (x : Rc) : (withRc s x).bu = s.bu := rfl
@[simp] theorem withRc_rc (s : State) (x : Rc) : (withRc s x).rc = x := rfl
@[simp] theorem withRc_cl (s : State) (x : Rc) : (withRc s x).cl = s.cl := rfl
@[simp] theorem withRc_rp (s : State) (x : Rc) : (withRc s x).rp = s.rp := rfl
@[simp] theorem withCl_pending (s : State) (x : Cl) : (withCl s x).pending = s.pending := rfl
@[simp] theorem withCl_due (s : State) (x : Cl) : (withCl s x).due = s.due := rfl
@[simp] theorem withCl_resetHeld (s : State) (x : Cl) : (withCl s x).resetHeld = s.resetHeld := rfl
@[simp] theorem withCl_ds (s : State) (x : Cl) : (withCl s x).ds = s.ds := rfl
@[simp] theorem withCl_cu (s : State) (x : Cl) : (withCl s x).cu = s.cu := rfl
@[simp] theorem withCl_tu (s : State) (x : Cl) : (withCl s x).tu = s.tu := rfl
@[simp] theorem withCl_iu (s : State) (x : Cl) : (withCl s x).iu = s.iu := rfl
@[simp] theorem withCl_pp (s : State) (x : Cl) : (withCl s x).pp = s.pp := rfl
@[simp] theorem withCl_su (s : State) (x : Cl) : (withCl s x).su = s.su := rfl
@[simp] theorem withCl_bu (s : State) (x : Cl) : (withCl s x).bu = s.bu := rfl
@[simp] theorem withCl_rc (s : State) (x : Cl) : (withCl s x).rc = s.rc := rfl
@[simp] theorem withCl_cl (s : State) (x : Cl) : (withCl s x).cl = x := rfl
@[simp] theorem withCl_rp (s : State) (x : Cl) : (withCl s x).rp = s.rp := rfl
@[simp] theorem withRp_pending (s : State) (x : Rp) : (withRp s x).pending = s.pending := rfl
@[simp] theorem withRp_due (s : State) (x : Rp) : (withRp s x).due = s.due := rfl
@[simp] theorem withRp_resetHeld (s : State) (x : Rp) : (withRp s x).resetHeld = s.resetHeld := rfl
@[simp] theorem withRp_ds (s : State) (x : Rp) : (withRp s x).ds = s.ds := rfl
@[simp] theorem withRp_cu (s : State) (x : Rp) : (withRp s x).cu = s.cu := rfl
@[simp] theorem withRp_tu (s : State) (x : Rp) : (withRp s x).tu = s.tu := rfl
@[simp] theorem withRp_iu (s : State) (x : Rp) : (withRp s x).iu = s.iu := rfl
@[simp] theorem withRp_pp (s : State) (x : Rp) : (withRp s x).pp = s.pp := rfl
@[simp] theorem withRp_su (s : State) (x : Rp) : (withRp s x).su = s.su := rfl
@[simp] theorem withRp_bu (s : State) (x : Rp) : (withRp s x).bu = s.bu := rfl
@[simp] theorem withRp_rc (s : State) (x : Rp) : (withRp s x).rc = s.rc := rfl
@[simp] theorem withRp_cl (s : State) (x : Rp) : (withRp s x).cl = s.cl := rfl
@[simp] theorem withRp_rp (s : State) (x : Rp) : (withRp s x).rp = x := rfl
@[simp] theorem setDesc_pending (s : State) (n : Nat) (d : Option Descriptor) : (setDesc s n d).pending = s.pending := rfl
@[simp] theorem setDesc_due (s : State) (n : Nat) (d : Option Descriptor) : (setDesc s n d).due = s.due := rfl
@[simp] theorem setDesc_resetHeld (s : State) (n : Nat) (d : Option Descriptor) : (setDesc s n d).resetHeld = s.resetHeld := rfl
@[simp] theorem setDesc_cu (s : State) (n : Nat) (d : Option Descriptor) : (setDesc s n d).cu = s.cu := rfl
@[simp] theorem setDesc_tu (s : State) (n : Nat) (d : Option Descriptor) : (setDesc s n d).tu = s.tu := rfl
@[simp] theorem setDesc_iu (s : State) (n : Nat) (d : Option Descriptor) : (setDesc s n d).iu = s.iu := rfl
@[simp] theorem setDesc_pp (s : State) (n : Nat) (d : Option Descriptor) : (setDesc s n d).pp = s.pp := rfl
@[simp] theorem setDesc_su (s : State) (n : Nat) (d : Option Descriptor) : (setDesc s n d).su = s.su := rfl
@[simp] theorem setDesc_bu (s : State) (n : Nat) (d : Option Descriptor) : (setDesc s n d).bu = s.bu := rfl
@[simp] theorem setDesc_rc (s : State) (n : Nat) (d : Option Descriptor) : (setDesc s n d).rc = s.rc := rfl
@[simp] theorem setDesc_cl (s : State) (n : Nat) (d : Option Descriptor) : (setDesc s n d).cl = s.cl := rfl
@[simp] theorem setDesc_rp (s : State) (n : Nat) (d : Option Descriptor) : (setDesc s n d).rp = s.rp := rfl
@[simp] theorem setPiece_pending (s : State) (k : Nat) (p : Option Piece) : (setPiece s k p).pending = s.pending := rfl
@[simp] theorem setPiece_due (s : State) (k : Nat) (p : Option Piece) : (setPiece s k p).due = s.due := rfl
@[simp] theorem setPiece_resetHeld (s : State) (k : Nat) (p : Option Piece) : (setPiece s k p).resetHeld = s.resetHeld := rfl
@[simp] theorem setPiece_ds (s : State) (k : Nat) (p : Option Piece) : (setPiece s k p).ds = s.ds := rfl
@[simp] theorem setPiece_cu (s : State) (k : Nat) (p : Option Piece) : (setPiece s k p).cu = s.cu := rfl
@[simp] theorem setPiece_iu (s : State) (k : Nat) (p : Option Piece) : (setPiece s k p).iu = s.iu := rfl
@[simp] theorem setPiece_pp (s : State) (k : Nat) (p : Option Piece) : (setPiece s k p).pp = s.pp := rfl
@[simp] theorem setPiece_su (s : State) (k : Nat) (p : Option Piece) : (setPiece s k p).su = s.su := rfl
@[simp] theorem setPiece_bu (s : State) (k : Nat) (p : Option Piece) : (setPiece s k p).bu = s.bu := rfl
@[simp] theorem setPiece_rc (s : State) (k : Nat) (p : Option Piece) : (setPiece s k p).rc = s.rc := rfl
@[simp] theorem setPiece_cl (s : State) (k : Nat) (p : Option Piece) : (setPiece s k p).cl = s.cl := rfl
@[simp] theorem setPiece_rp (s : State) (k : Nat) (p : Option Piece) : (setPiece s k p).rp = s.rp := rfl
@[simp] theorem setFeeder_pending (s : State) (f : Nat) (x : Feeder) : (setFeeder s f x).pending = s.pending := rfl
@[simp] theorem setFeeder_due (s : State) (f : Nat) (x : Feeder) : (setFeeder s f x).due = s.due := rfl
@[simp] theorem setFeeder_resetHeld (s : State) (f : Nat) (x : Feeder) : (setFeeder s f x).resetHeld = s.resetHeld := rfl
@[simp] theorem setFeeder_ds (s : State) (f : Nat) (x : Feeder) : (setFeeder s f x).ds = s.ds := rfl
@[simp] theorem setFeeder_cu (s : State) (f : Nat) (x : Feeder) : (setFeeder s f x).cu = s.cu := rfl
@[simp] theorem setFeeder_tu (s : State) (f : Nat) (x : Feeder) : (setFeeder s f x).tu = s.tu := rfl
@[simp] theorem setFeeder_pp (s : State) (f : Nat) (x : Feeder) : (setFeeder s f x).pp = s.pp := rfl
@[simp] theorem setFeeder_su (s : State) (f : Nat) (x : Feeder) : (setFeeder s f x).su = s.su := rfl
@[simp] theorem setFeeder_bu (s : State) (f : Nat) (x : Feeder) : (setFeeder s f x).bu = s.bu := rfl
@[simp] theorem setFeeder_rc (s : State) (f : Nat) (x : Feeder) : (setFeeder s f x).rc = s.rc := rfl
@[simp] theorem setFeeder_cl (s : State) (f : Nat) (x : Feeder) : (setFeeder s f x).cl = s.cl := rfl
@[simp] theorem setFeeder_rp (s : State) (f : Nat) (x : Feeder) : (setFeeder s f x).rp = s.rp := rfl
@[simp] theorem setBin_pending (s : State) (b : Nat) (x : Bin) : (setBin s b x).pending = s.pending := rfl
@[simp] theorem setBin_due (s : State) (b : Nat) (x : Bin) : (setBin s b x).due = s.due := rfl
@[simp] theorem setBin_resetHeld (s : State) (b : Nat) (x : Bin) : (setBin s b x).resetHeld = s.resetHeld := rfl
@[simp] theorem setBin_ds (s : State) (b : Nat) (x : Bin) : (setBin s b x).ds = s.ds := rfl
@[simp] theorem setBin_cu (s : State) (b : Nat) (x : Bin) : (setBin s b x).cu = s.cu := rfl
@[simp] theorem setBin_tu (s : State) (b : Nat) (x : Bin) : (setBin s b x).tu = s.tu := rfl
@[simp] theorem setBin_iu (s : State) (b : Nat) (x : Bin) : (setBin s b x).iu = s.iu := rfl
@[simp] theorem setBin_pp (s : State) (b : Nat) (x : Bin) : (setBin s b x).pp = s.pp := rfl
@[simp] theorem setBin_su (s : State) (b : Nat) (x : Bin) : (setBin s b x).su = s.su := rfl
@[simp] theorem setBin_rc (s : State) (b : Nat) (x : Bin) : (setBin s b x).rc = s.rc := rfl
@[simp] theorem setBin_cl (s : State) (b : Nat) (x : Bin) : (setBin s b x).cl = s.cl := rfl
@[simp] theorem setBin_rp (s : State) (b : Nat) (x : Bin) : (setBin s b x).rp = s.rp := rfl
@[simp] theorem enqueue_pending (s : State) (f : Frame) : (enqueue s f).pending = s.pending := rfl
@[simp] theorem enqueue_due (s : State) (f : Frame) : (enqueue s f).due = s.due := rfl
@[simp] theorem enqueue_resetHeld (s : State) (f : Frame) : (enqueue s f).resetHeld = s.resetHeld := rfl
@[simp] theorem enqueue_ds (s : State) (f : Frame) : (enqueue s f).ds = s.ds := rfl
@[simp] theorem enqueue_cu (s : State) (f : Frame) : (enqueue s f).cu = s.cu := rfl
@[simp] theorem enqueue_tu (s : State) (f : Frame) : (enqueue s f).tu = s.tu := rfl
@[simp] theorem enqueue_iu (s : State) (f : Frame) : (enqueue s f).iu = s.iu := rfl
@[simp] theorem enqueue_pp (s : State) (f : Frame) : (enqueue s f).pp = s.pp := rfl
@[simp] theorem enqueue_su (s : State) (f : Frame) : (enqueue s f).su = s.su := rfl
@[simp] theorem enqueue_bu (s : State) (f : Frame) : (enqueue s f).bu = s.bu := rfl
@[simp] theorem enqueue_rc (s : State) (f : Frame) : (enqueue s f).rc = s.rc := rfl
@[simp] theorem enqueue_cl (s : State) (f : Frame) : (enqueue s f).cl = s.cl := rfl
@[simp] theorem tally_pending (s : State) (f : Counters → Counters) : (tally s f).pending = s.pending := rfl
@[simp] theorem tally_due (s : State) (f : Counters → Counters) : (tally s f).due = s.due := rfl
@[simp] theorem tally_resetHeld (s : State) (f : Counters → Counters) : (tally s f).resetHeld = s.resetHeld := rfl
@[simp] theorem tally_ds (s : State) (f : Counters → Counters) : (tally s f).ds = s.ds := rfl
@[simp] theorem tally_cu (s : State) (f : Counters → Counters) : (tally s f).cu = s.cu := rfl
@[simp] theorem tally_tu (s : State) (f : Counters → Counters) : (tally s f).tu = s.tu := rfl
@[simp] theorem tally_iu (s : State) (f : Counters → Counters) : (tally s f).iu = s.iu := rfl
@[simp] theorem tally_pp (s : State) (f : Counters → Counters) : (tally s f).pp = s.pp := rfl
@[simp] theorem tally_su (s : State) (f : Counters → Counters) : (tally s f).su = s.su := rfl
@[simp] theorem tally_bu (s : State) (f : Counters → Counters) : (tally s f).bu = s.bu := rfl
@[simp] theorem tally_rc (s : State) (f : Counters → Counters) : (tally s f).rc = s.rc := rfl
@[simp] theorem tally_rp (s : State) (f : Counters → Counters) : (tally s f).rp = s.rp := rfl
@[simp] theorem setDesc_slots (s : State) (n : Nat) (d : Option Descriptor) : (setDesc s n d).ds.slots = tput none s.ds.slots n d := rfl
@[simp] theorem setDesc_windows (s : State) (n : Nat) (d : Option Descriptor) : (setDesc s n d).ds.windows = s.ds.windows := rfl
@[simp] theorem setDesc_map (s : State) (n : Nat) (d : Option Descriptor) : (setDesc s n d).ds.map = s.ds.map := rfl
@[simp] theorem setPiece_ring (s : State) (k : Nat) (p : Option Piece) : (setPiece s k p).tu.ring = tput none s.tu.ring k p := rfl
@[simp] theorem setPiece_pitch (s : State) (k : Nat) (p : Option Piece) : (setPiece s k p).tu.pitch = s.tu.pitch := rfl
@[simp] theorem setPiece_layout (s : State) (k : Nat) (p : Option Piece) : (setPiece s k p).tu.layout = s.tu.layout := rfl
@[simp] theorem setPiece_timing (s : State) (k : Nat) (p : Option Piece) : (setPiece s k p).tu.timing = s.tu.timing := rfl
@[simp] theorem setBin_bins (s : State) (b : Nat) (x : Bin) : (setBin s b x).bu.bins = tput .off s.bu.bins b x := rfl
@[simp] theorem enqueue_originate (s : State) (f : Frame) : (enqueue s f).rp.originate = s.rp.originate ++ [f] := rfl
@[simp] theorem enqueue_forward (s : State) (f : Frame) : (enqueue s f).rp.forward = s.rp.forward := rfl
@[simp] theorem enqueue_response (s : State) (f : Frame) : (enqueue s f).rp.response = s.rp.response := rfl
@[simp] theorem enqueue_own (s : State) (f : Frame) : (enqueue s f).rp.own = s.rp.own := rfl
@[simp] theorem enqueue_sending (s : State) (f : Frame) : (enqueue s f).rp.sending = s.rp.sending := rfl
@[simp] theorem enqueue_turn (s : State) (f : Frame) : (enqueue s f).rp.turn = s.rp.turn := rfl
@[simp] theorem enqueue_assembly (s : State) (f : Frame) : (enqueue s f).rp.assembly = s.rp.assembly := rfl
@[simp] theorem tally_log (s : State) (f : Counters → Counters) : (tally s f).cl.log = s.cl.log := rfl
@[simp] theorem tally_counters (s : State) (f : Counters → Counters) : (tally s f).cl.counters = f s.cl.counters := rfl
@[simp] theorem tally_summary (s : State) (f : Counters → Counters) : (tally s f).cl.summary = s.cl.summary := rfl
@[simp] theorem tally_capture (s : State) (f : Counters → Counters) : (tally s f).cl.capture = s.cl.capture := rfl
@[simp] theorem tally_alertPending (s : State) (f : Counters → Counters) : (tally s f).cl.alertPending = s.cl.alertPending := rfl

end Sys2Proof.Machine
end

