-- ==== Sys2Proof/Laws/Tables.lean ====
section
/-! SUPPORT. The numbered stores: what a place reads after a write, and the canonical form that every write keeps. -/

namespace Sys2Proof.Machine

section
variable {α : Type} [DecidableEq α] {z v : α} {t : Table α} {i j : Nat}

/-- A written place reads what was written, when that is not the default. -/
theorem tget_tput_same_ne (t : Table α) (i : Nat) (h : v ≠ z) : tget z (tput z t i v) i = v := by
  induction t with
  | nil => simp [tput, h, tget]
  | cons e t ih =>
    obtain ⟨k, w⟩ := e
    simp only [tput]
    split
    · simp [tget]
    · split
      · simp [tget]
      · rename_i h1 h2
        rw [tget, if_neg (by omega), ih]

/-- Every other place reads as before. -/
theorem tget_tput_other (z : α) (t : Table α) (v : α) (h : j ≠ i) : tget z (tput z t i v) j = tget z t j := by
  induction t with
  | nil => simp only [tput]; split <;> simp [tget, Ne.symm h]
  | cons e t ih =>
    obtain ⟨k, w⟩ := e
    simp only [tput]
    split
    · split
      · rfl
      · simp [tget, Ne.symm h]
    · split
      · rename_i h1 h2
        subst h2
        split <;> simp [tget, Ne.symm h]
      · simp only [tget]; split
        · rfl
        · exact ih

/-- Of two writes to one place, the first with a listed value, the second stands. -/
theorem tput_tput (h : v ≠ z) (t : Table α) (i : Nat) (w : α) : tput z (tput z t i v) i w = tput z t i w := by
  induction t with
  | nil => simp [tput, h]
  | cons e t ih =>
    obtain ⟨k, x⟩ := e
    by_cases h1 : i < k
    · simp [tput, h1, h]
    · by_cases h2 : i = k
      · subst h2; simp [tput, h]
      · simp only [tput, h1, h2, if_false, ih]

omit [DecidableEq α] in
/-- Places below every listed one read the default. -/
theorem tget_of_below {t : Table α} (h : ∀ e ∈ t, j < e.1) : tget z t j = z := by
  induction t with
  | nil => rfl
  | cons e t ih =>
    obtain ⟨k, w⟩ := e
    have hk := h (k, w) (by simp)
    have hk' : j < k := hk
    rw [tget, if_neg (by omega)]
    exact ih (fun e he => h e (by simp [he]))

/-- A written place of a canonical store reads what was written. -/
theorem tget_tput_same (h : Table.canonical z t) (i : Nat) (v : α) : tget z (tput z t i v) i = v := by
  by_cases hv : v = z
  · subst hv
    induction t with
    | nil => simp [tput, tget]
    | cons e t ih =>
      obtain ⟨k, w⟩ := e
      obtain ⟨hs, hb⟩ := h
      simp only [List.map_cons, List.pairwise_cons] at hs
      have htail : Table.canonical v t := ⟨hs.2, fun e he => hb e (by simp [he])⟩
      have hlt : ∀ e ∈ t, k < e.1 := fun e he => hs.1 e.1 (List.mem_map_of_mem he)
      simp only [tput]
      split
      · rename_i hik
        exact tget_of_below (fun e he => by
          rcases List.mem_cons.1 he with rfl | he
          · exact hik
          · exact lt_trans hik (hlt e he))
      · split
        · rename_i hik
          subst hik
          simpa using tget_of_below (z := v) hlt
        · rename_i h1 h2
          rw [tget, if_neg (by omega)]
          exact ih htail
  · exact tget_tput_same_ne t i hv

/-- Where the places of a written store come from. -/
theorem mem_tput {e : Nat × α} (h : e ∈ tput z t i v) : e ∈ t ∨ (e = (i, v) ∧ v ≠ z) := by
  induction t with
  | nil =>
    simp only [tput] at h
    split at h
    · simp at h
    · exact Or.inr ⟨by simpa using h, by assumption⟩
  | cons d t ih =>
    obtain ⟨k, w⟩ := d
    simp only [tput] at h
    split at h
    · split at h
      · exact Or.inl h
      · rcases List.mem_cons.1 h with h | h
        · exact Or.inr ⟨h, by assumption⟩
        · exact Or.inl h
    · split at h
      · split at h
        · exact Or.inl (List.mem_cons_of_mem _ h)
        · rcases List.mem_cons.1 h with h | h
          · exact Or.inr ⟨h, by assumption⟩
          · exact Or.inl (List.mem_cons_of_mem _ h)
      · rcases List.mem_cons.1 h with h | h
        · exact Or.inl (by simp [h])
        · rcases ih h with h | h
          · exact Or.inl (List.mem_cons_of_mem _ h)
          · exact Or.inr h

/-- A write keeps the canonical form. -/
theorem Table.canonical_tput (h : Table.canonical z t) (i : Nat) (v : α) : Table.canonical z (tput z t i v) := by
  refine ⟨?_, fun e he => ?_⟩
  · obtain ⟨hs, -⟩ := h
    induction t with
    | nil => simp only [tput]; split <;> simp
    | cons d t ih =>
      obtain ⟨k, w⟩ := d
      simp only [List.map_cons, List.pairwise_cons] at hs
      simp only [tput]
      split
      · split
        · simpa using hs
        · rename_i hik _
          simp only [List.map_cons, List.pairwise_cons]
          refine ⟨fun a ha => ?_, hs⟩
          rcases List.mem_cons.1 ha with rfl | ha
          · exact hik
          · exact lt_trans hik (hs.1 a ha)
      · split
        · rename_i _ hik
          subst hik
          split
          · exact hs.2
          · simpa using hs
        · simp only [List.map_cons, List.pairwise_cons]
          refine ⟨fun a ha => ?_, ih hs.2⟩
          obtain ⟨e, he, rfl⟩ := List.mem_map.1 ha
          rcases mem_tput he with he | ⟨rfl, -⟩
          · exact hs.1 _ (List.mem_map_of_mem he)
          · omega
  · rcases mem_tput he with he | ⟨rfl, hv⟩
    · exact h.2 e he
    · exact hv

/-- A run of writes keeps the canonical form. -/
theorem Table.canonical_tputRun (h : Table.canonical z t) (i : Nat) (vs : List α) :
    Table.canonical z (tputRun z t i vs) := by
  induction vs generalizing t i with
  | nil => exact h
  | cons v vs ih =>
    exact ih (Table.canonical_tput h i v) (i + 1)

/-- What a place reads after a run of writes to a canonical store. -/
theorem tget_tputRun (h : Table.canonical z t) (i : Nat) (vs : List α) (j : Nat) :
    tget z (tputRun z t i vs) j = if i ≤ j ∧ j < i + vs.length then vs.getD (j - i) z else tget z t j := by
  induction vs generalizing t i with
  | nil => simp only [tputRun, List.length_nil]; rw [if_neg (by omega)]
  | cons v vs ih =>
    rw [tputRun, ih (Table.canonical_tput h i v), List.length_cons]
    by_cases hj : j = i
    · subst hj
      rw [if_neg (by omega), if_pos (by omega), tget_tput_same h, Nat.sub_self]; rfl
    · rw [tget_tput_other z t v hj]
      by_cases hr : i + 1 ≤ j ∧ j < i + 1 + vs.length
      · rw [if_pos hr, if_pos (by omega), show j - i = (j - (i + 1)) + 1 from by omega]; rfl
      · rw [if_neg hr, if_neg (by omega)]

/-- A canonical store stays canonical when places are dropped. -/
theorem Table.canonical_filter (h : Table.canonical z t) (p : Nat × α → Bool) : Table.canonical z (t.filter p) :=
  ⟨h.1.sublist ((List.filter_sublist (l := t)).map Prod.fst), fun e he => h.2 e (List.mem_filter.1 he).1⟩

omit [DecidableEq α] in
/-- A place that does not read the default is listed. -/
theorem mem_of_tget (h : tget z t i ≠ z) : (i, tget z t i) ∈ t := by
  induction t with
  | nil => simp [tget] at h
  | cons e t ih =>
    obtain ⟨k, w⟩ := e
    rw [tget] at h ⊢
    split
    · rename_i hk; subst hk; simp
    · rename_i hk
      rw [if_neg hk] at h
      exact List.mem_cons_of_mem _ (ih h)

/-- Emptying a place that is taken shortens the store by one. -/
theorem length_tput_clear (h : Table.canonical z t) (hi : tget z t i ≠ z) : (tput z t i z).length + 1 = t.length := by
  induction t with
  | nil => simp [tget] at hi
  | cons e t ih =>
    obtain ⟨k, w⟩ := e
    obtain ⟨hs, hb⟩ := h
    simp only [List.map_cons, List.pairwise_cons] at hs
    have htail : Table.canonical z t := ⟨hs.2, fun e he => hb e (by simp [he])⟩
    simp only [tput]
    split
    · rename_i hik
      exact absurd (tget_of_below (fun e he => by
        rcases List.mem_cons.1 he with rfl | he
        · exact hik
        · exact lt_trans hik (hs.1 e.1 (List.mem_map_of_mem he)))) hi
    · split
      · simp
      · rename_i h1 h2
        rw [tget, if_neg (by omega)] at hi
        simp [ih htail hi]

/-- Filling a place lengthens the store by one when the place was empty, and not when it was taken. -/
theorem length_tput_fill (h : Table.canonical z t) (hv : v ≠ z) :
    (tput z t i v).length = t.length + (if tget z t i = z then 1 else 0) := by
  induction t with
  | nil => simp [tput, hv, tget]
  | cons e t ih =>
    obtain ⟨k, w⟩ := e
    obtain ⟨hs, hb⟩ := h
    simp only [List.map_cons, List.pairwise_cons] at hs
    have htail : Table.canonical z t := ⟨hs.2, fun e he => hb e (by simp [he])⟩
    simp only [tput]
    split
    · rename_i hik
      have : tget z ((k, w) :: t) i = z := tget_of_below (fun e he => by
        rcases List.mem_cons.1 he with rfl | he
        · exact hik
        · exact lt_trans hik (hs.1 e.1 (List.mem_map_of_mem he)))
      simp [this]
    · split
      · rename_i hik
        subst hik
        have := hb (i, w) (by simp)
        simp_all [tget]
      · rename_i h1 h2
        have hskip : tget z ((k, w) :: t) i = tget z t i := by rw [tget, if_neg (by omega)]
        rw [hskip, List.length_cons, ih htail, List.length_cons]
        omega

end

end Sys2Proof.Machine
end

