-- ==== Sys2Proof/Laws/FramesCutter.lean ====
section
/-! SUPPORT. What each operation of flags, the cutter and the descriptor store leaves as it was: one lemma per operation. -/

namespace Sys2Proof.Machine

@[simp] theorem placeAlert_keeps (s : State) :
    (placeAlert s).pending = s.pending ∧ (placeAlert s).due = s.due ∧ (placeAlert s).resetHeld = s.resetHeld ∧
    (placeAlert s).ds = s.ds ∧ (placeAlert s).cu = s.cu ∧ (placeAlert s).tu = s.tu ∧ (placeAlert s).iu = s.iu ∧
    (placeAlert s).pp = s.pp ∧ (placeAlert s).su = s.su ∧ (placeAlert s).bu = s.bu ∧ (placeAlert s).rc = s.rc ∧
    (placeAlert s).cl.log = s.cl.log ∧ (placeAlert s).cl.counters = s.cl.counters ∧ (placeAlert s).rp.own = s.rp.own ∧
    (placeAlert s).rp.forward = s.rp.forward ∧ (placeAlert s).rp.sending = s.rp.sending ∧
    (placeAlert s).rp.turn = s.rp.turn ∧ (placeAlert s).rp.assembly = s.rp.assembly ∧
    (placeAlert s).rp.response = s.rp.response := by
  generalize h : placeAlert s = t
  unfold placeAlert at h
  try dsimp only at h
  (repeat' split at h) <;> subst h <;> simp

@[simp] theorem raise_keeps (f : Flag) (a : Option Addr) (p : Option Pitch) (i : Option PieceId) (s : State) :
    (raise f a p i s).pending = s.pending ∧ (raise f a p i s).due = s.due ∧ (raise f a p i s).resetHeld = s.resetHeld ∧
    (raise f a p i s).ds = s.ds ∧ (raise f a p i s).cu = s.cu ∧ (raise f a p i s).tu = s.tu ∧ (raise f a p i s).iu = s.iu ∧
    (raise f a p i s).pp = s.pp ∧ (raise f a p i s).su = s.su ∧ (raise f a p i s).bu = s.bu ∧ (raise f a p i s).rc = s.rc ∧
    (raise f a p i s).cl.log = s.cl.log ∧ (raise f a p i s).cl.counters = s.cl.counters ∧
    (raise f a p i s).rp.own = s.rp.own ∧ (raise f a p i s).rp.forward = s.rp.forward ∧
    (raise f a p i s).rp.sending = s.rp.sending ∧ (raise f a p i s).rp.turn = s.rp.turn ∧
    (raise f a p i s).rp.assembly = s.rp.assembly ∧ (raise f a p i s).rp.response = s.rp.response := by
  generalize h : raise f a p i s = t
  unfold raise at h
  try dsimp only at h
  (repeat' split at h) <;> subst h <;> simp

@[simp] theorem queueCutter_keeps (p : PendingCutter) (s : State) :
    (queueCutter p s).pending = s.pending ∧ (queueCutter p s).due = s.due ∧ (queueCutter p s).resetHeld = s.resetHeld ∧
    (queueCutter p s).ds = s.ds ∧ (queueCutter p s).cu.place = s.cu.place ∧ (queueCutter p s).cu.queue = s.cu.queue ∧
    (queueCutter p s).tu = s.tu ∧ (queueCutter p s).iu = s.iu ∧ (queueCutter p s).pp = s.pp ∧ (queueCutter p s).su = s.su ∧
    (queueCutter p s).bu = s.bu ∧ (queueCutter p s).rc = s.rc ∧ (queueCutter p s).cl.log = s.cl.log ∧
    (queueCutter p s).cl.counters = s.cl.counters ∧ (queueCutter p s).rp.own = s.rp.own ∧
    (queueCutter p s).rp.forward = s.rp.forward ∧ (queueCutter p s).rp.sending = s.rp.sending ∧
    (queueCutter p s).rp.turn = s.rp.turn ∧ (queueCutter p s).rp.assembly = s.rp.assembly ∧
    (queueCutter p s).rp.response = s.rp.response := by
  generalize h : queueCutter p s = t
  unfold queueCutter at h
  try dsimp only at h
  (repeat' split at h) <;> subst h <;> simp

@[simp] theorem withdrawCutter_keeps (s : State) :
    (withdrawCutter s).pending = s.pending ∧ (withdrawCutter s).due = s.due ∧ (withdrawCutter s).resetHeld = s.resetHeld ∧
    (withdrawCutter s).ds = s.ds ∧ (withdrawCutter s).cu.place = s.cu.place ∧ (withdrawCutter s).cu.queue = s.cu.queue ∧
    (withdrawCutter s).tu = s.tu ∧ (withdrawCutter s).iu = s.iu ∧ (withdrawCutter s).pp = s.pp ∧
    (withdrawCutter s).su = s.su ∧ (withdrawCutter s).bu = s.bu ∧ (withdrawCutter s).rc = s.rc ∧
    (withdrawCutter s).cl = s.cl ∧ (withdrawCutter s).rp = s.rp := by
  generalize h : withdrawCutter s = t
  unfold withdrawCutter at h
  try dsimp only at h
  (repeat' split at h) <;> subst h <;> simp

@[simp] theorem decideCutter_keeps (s : State) :
    (decideCutter s).pending = s.pending ∧ (decideCutter s).due = s.due ∧ (decideCutter s).resetHeld = s.resetHeld ∧
    (decideCutter s).ds = s.ds ∧ (decideCutter s).cu.place = s.cu.place ∧ (decideCutter s).cu.queue = s.cu.queue ∧
    (decideCutter s).tu = s.tu ∧ (decideCutter s).iu = s.iu ∧ (decideCutter s).pp = s.pp ∧ (decideCutter s).su = s.su ∧
    (decideCutter s).bu = s.bu ∧ (decideCutter s).rc = s.rc ∧ (decideCutter s).cl.log = s.cl.log ∧
    (decideCutter s).cl.counters = s.cl.counters ∧ (decideCutter s).rp.own = s.rp.own ∧
    (decideCutter s).rp.forward = s.rp.forward ∧ (decideCutter s).rp.sending = s.rp.sending ∧
    (decideCutter s).rp.turn = s.rp.turn ∧ (decideCutter s).rp.assembly = s.rp.assembly ∧
    (decideCutter s).rp.response = s.rp.response := by
  generalize h : decideCutter s = t
  unfold decideCutter at h
  try dsimp only at h
  (repeat' split at h) <;> subst h <;> simp

@[simp] theorem cutterTest_keeps (s : State) :
    (cutterTest s).pending = s.pending ∧ (cutterTest s).due = s.due ∧ (cutterTest s).resetHeld = s.resetHeld ∧
    (cutterTest s).ds = s.ds ∧ (cutterTest s).cu.place = s.cu.place ∧ (cutterTest s).cu.queue = s.cu.queue ∧
    (cutterTest s).tu = s.tu ∧ (cutterTest s).iu = s.iu ∧ (cutterTest s).pp = s.pp ∧ (cutterTest s).su = s.su ∧
    (cutterTest s).bu = s.bu ∧ (cutterTest s).rc = s.rc ∧ (cutterTest s).cl.log = s.cl.log ∧
    (cutterTest s).cl.counters = s.cl.counters ∧ (cutterTest s).rp.own = s.rp.own ∧
    (cutterTest s).rp.forward = s.rp.forward ∧ (cutterTest s).rp.sending = s.rp.sending ∧
    (cutterTest s).rp.turn = s.rp.turn ∧ (cutterTest s).rp.assembly = s.rp.assembly ∧
    (cutterTest s).rp.response = s.rp.response := by
  generalize h : cutterTest s = t
  unfold cutterTest at h
  try dsimp only at h
  (repeat' split at h) <;> subst h <;> simp

@[simp] theorem offerCutter_keeps (s : State) :
    (offerCutter s).pending = s.pending ∧ (offerCutter s).due = s.due ∧ (offerCutter s).resetHeld = s.resetHeld ∧
    (offerCutter s).ds = s.ds ∧ (offerCutter s).cu.place = s.cu.place ∧ (offerCutter s).cu.queue = s.cu.queue ∧
    (offerCutter s).tu = s.tu ∧ (offerCutter s).iu = s.iu ∧ (offerCutter s).pp = s.pp ∧ (offerCutter s).su = s.su ∧
    (offerCutter s).bu = s.bu ∧ (offerCutter s).rc = s.rc ∧ (offerCutter s).cl.log = s.cl.log ∧
    (offerCutter s).cl.counters = s.cl.counters ∧ (offerCutter s).rp.own = s.rp.own ∧
    (offerCutter s).rp.forward = s.rp.forward ∧ (offerCutter s).rp.sending = s.rp.sending ∧
    (offerCutter s).rp.turn = s.rp.turn ∧ (offerCutter s).rp.assembly = s.rp.assembly ∧
    (offerCutter s).rp.response = s.rp.response := by
  generalize h : offerCutter s = t
  unfold offerCutter at h
  try dsimp only at h
  (repeat' split at h) <;> subst h <;> simp

@[simp] theorem headroomFell_keeps (n : Nat) (s : State) :
    (headroomFell n s).pending = s.pending ∧ (headroomFell n s).due = s.due ∧ (headroomFell n s).resetHeld = s.resetHeld ∧
    (headroomFell n s).ds = s.ds ∧ (headroomFell n s).cu = s.cu ∧ (headroomFell n s).tu = s.tu ∧
    (headroomFell n s).iu = s.iu ∧ (headroomFell n s).pp = s.pp ∧ (headroomFell n s).su = s.su ∧
    (headroomFell n s).bu = s.bu ∧ (headroomFell n s).rc = s.rc ∧ (headroomFell n s).cl.log = s.cl.log ∧
    (headroomFell n s).cl.counters = s.cl.counters ∧ (headroomFell n s).rp.own = s.rp.own ∧
    (headroomFell n s).rp.forward = s.rp.forward ∧ (headroomFell n s).rp.sending = s.rp.sending ∧
    (headroomFell n s).rp.turn = s.rp.turn ∧ (headroomFell n s).rp.assembly = s.rp.assembly ∧
    (headroomFell n s).rp.response = s.rp.response := by
  generalize h : headroomFell n s = t
  unfold headroomFell at h
  try dsimp only at h
  (repeat' split at h) <;> subst h <;> simp

@[simp] theorem runStop_keeps (c : StopCause) (a : Option Addr) (s : State) :
    (runStop c a s).pending = s.pending ∧ (runStop c a s).due = s.due ∧ (runStop c a s).resetHeld = s.resetHeld ∧
    (runStop c a s).ds = s.ds ∧ (runStop c a s).cu.place = s.cu.place ∧ (runStop c a s).cu.queue = s.cu.queue ∧
    (runStop c a s).tu = s.tu ∧ (runStop c a s).iu = s.iu ∧ (runStop c a s).pp = s.pp ∧ (runStop c a s).su = s.su ∧
    (runStop c a s).bu = s.bu ∧ (runStop c a s).rc.run = s.rc.run ∧ (runStop c a s).cl.log = s.cl.log ∧
    (runStop c a s).cl.counters = s.cl.counters ∧ (runStop c a s).rp.own = s.rp.own ∧
    (runStop c a s).rp.forward = s.rp.forward ∧ (runStop c a s).rp.sending = s.rp.sending ∧
    (runStop c a s).rp.turn = s.rp.turn ∧ (runStop c a s).rp.assembly = s.rp.assembly ∧
    (runStop c a s).rp.response = s.rp.response := by
  generalize h : runStop c a s = t
  unfold runStop at h
  try dsimp only at h
  (repeat' split at h) <;> subst h <;> simp

@[simp] theorem exitDescriptor_keeps (x : Option Nat) (o : Outcome) (s : State) :
    (exitDescriptor x o s).pending = s.pending ∧ (exitDescriptor x o s).due = s.due ∧
    (exitDescriptor x o s).resetHeld = s.resetHeld ∧ (exitDescriptor x o s).cu = s.cu ∧ (exitDescriptor x o s).tu = s.tu ∧
    (exitDescriptor x o s).iu = s.iu ∧ (exitDescriptor x o s).pp = s.pp ∧ (exitDescriptor x o s).su = s.su ∧
    (exitDescriptor x o s).bu = s.bu ∧ (exitDescriptor x o s).rc = s.rc ∧ (exitDescriptor x o s).cl = s.cl ∧
    (exitDescriptor x o s).rp = s.rp := by
  generalize h : exitDescriptor x o s = t
  unfold exitDescriptor at h
  try dsimp only at h
  (repeat' split at h) <;> subst h <;> simp

@[simp] theorem freeDrained_keeps (e : Entry) (s : State) :
    (freeDrained e s).pending = s.pending ∧ (freeDrained e s).due = s.due ∧ (freeDrained e s).resetHeld = s.resetHeld ∧
    (freeDrained e s).cu = s.cu ∧ (freeDrained e s).tu = s.tu ∧ (freeDrained e s).iu = s.iu ∧ (freeDrained e s).pp = s.pp ∧
    (freeDrained e s).su = s.su ∧ (freeDrained e s).bu = s.bu ∧ (freeDrained e s).rc = s.rc ∧ (freeDrained e s).cl = s.cl ∧
    (freeDrained e s).rp = s.rp := by
  generalize h : freeDrained e s = t
  unfold freeDrained at h
  try dsimp only at h
  (repeat' split at h) <;> subst h <;> simp

@[simp] theorem claim_keeps (id : PieceId) (s : State) :
    (claim id s).1.pending = s.pending ∧ (claim id s).1.due = s.due ∧ (claim id s).1.resetHeld = s.resetHeld ∧
    (claim id s).1.cu = s.cu ∧ (claim id s).1.tu = s.tu ∧ (claim id s).1.iu = s.iu ∧ (claim id s).1.pp = s.pp ∧
    (claim id s).1.su = s.su ∧ (claim id s).1.bu = s.bu ∧ (claim id s).1.rc = s.rc ∧ (claim id s).1.cl = s.cl ∧
    (claim id s).1.rp = s.rp := by
  generalize h : (claim id s).1 = t
  unfold claim at h
  try dsimp only at h
  (repeat' split at h) <;> subst h <;> simp

end Sys2Proof.Machine
end

