-- ==== Sys2Proof/Laws/FramesBins.lean ====
section
/-! SUPPORT. What each operation of the bins leaves as it was: one lemma per operation. -/

namespace Sys2Proof.Machine

@[simp] theorem openTray_keeps (b : Nat) (s : State) :
    (openTray b s).pending = s.pending ∧ (openTray b s).due = s.due ∧ (openTray b s).resetHeld = s.resetHeld ∧
    (openTray b s).ds = s.ds ∧ (openTray b s).cu = s.cu ∧ (openTray b s).tu = s.tu ∧ (openTray b s).iu = s.iu ∧
    (openTray b s).pp = s.pp ∧ (openTray b s).su = s.su ∧ (openTray b s).rc = s.rc ∧ (openTray b s).cl = s.cl ∧
    (openTray b s).rp = s.rp := by
  simp [openTray]

@[simp] theorem sendTrayChange_keeps (b r : Nat) (s : State) :
    (sendTrayChange b r s).pending = s.pending ∧ (sendTrayChange b r s).due = s.due ∧
    (sendTrayChange b r s).resetHeld = s.resetHeld ∧ (sendTrayChange b r s).ds = s.ds ∧ (sendTrayChange b r s).cu = s.cu ∧
    (sendTrayChange b r s).tu = s.tu ∧ (sendTrayChange b r s).iu = s.iu ∧ (sendTrayChange b r s).pp = s.pp ∧
    (sendTrayChange b r s).su = s.su ∧ (sendTrayChange b r s).rc = s.rc ∧ (sendTrayChange b r s).cl.log = s.cl.log ∧
    (sendTrayChange b r s).cl.counters = s.cl.counters ∧ (sendTrayChange b r s).rp.own = s.rp.own ∧
    (sendTrayChange b r s).rp.forward = s.rp.forward ∧ (sendTrayChange b r s).rp.sending = s.rp.sending ∧
    (sendTrayChange b r s).rp.turn = s.rp.turn ∧ (sendTrayChange b r s).rp.assembly = s.rp.assembly ∧
    (sendTrayChange b r s).rp.response = s.rp.response := by
  unfold sendTrayChange sendCommand
  split <;> (rename_i h; split at h <;> simp_all; try (subst h; simp))

@[simp] theorem closeTray_keeps (b : Nat) (w : CloseReason) (s : State) :
    (closeTray b w s).pending = s.pending ∧ (closeTray b w s).due = s.due ∧ (closeTray b w s).resetHeld = s.resetHeld ∧
    (closeTray b w s).ds = s.ds ∧ (closeTray b w s).cu = s.cu ∧ (closeTray b w s).tu = s.tu ∧ (closeTray b w s).iu = s.iu ∧
    (closeTray b w s).pp = s.pp ∧ (closeTray b w s).su = s.su ∧ (closeTray b w s).rc = s.rc ∧
    (closeTray b w s).cl.log = s.cl.log ∧ (closeTray b w s).cl.counters = s.cl.counters ∧
    (closeTray b w s).rp.own = s.rp.own ∧ (closeTray b w s).rp.forward = s.rp.forward ∧
    (closeTray b w s).rp.sending = s.rp.sending ∧ (closeTray b w s).rp.turn = s.rp.turn ∧
    (closeTray b w s).rp.assembly = s.rp.assembly ∧ (closeTray b w s).rp.response = s.rp.response := by
  generalize h : closeTray b w s = t
  unfold closeTray at h
  try dsimp only at h
  (repeat' split at h) <;> subst h <;> simp

@[simp] theorem closeNonEmpty_keeps (w : CloseReason) (l : List Nat) (s : State) :
    (closeNonEmpty w l s).pending = s.pending ∧ (closeNonEmpty w l s).due = s.due ∧
    (closeNonEmpty w l s).resetHeld = s.resetHeld ∧ (closeNonEmpty w l s).ds = s.ds ∧ (closeNonEmpty w l s).cu = s.cu ∧
    (closeNonEmpty w l s).tu = s.tu ∧ (closeNonEmpty w l s).iu = s.iu ∧ (closeNonEmpty w l s).pp = s.pp ∧
    (closeNonEmpty w l s).su = s.su ∧ (closeNonEmpty w l s).rc = s.rc ∧ (closeNonEmpty w l s).cl.log = s.cl.log ∧
    (closeNonEmpty w l s).cl.counters = s.cl.counters ∧ (closeNonEmpty w l s).rp.own = s.rp.own ∧
    (closeNonEmpty w l s).rp.forward = s.rp.forward ∧ (closeNonEmpty w l s).rp.sending = s.rp.sending ∧
    (closeNonEmpty w l s).rp.turn = s.rp.turn ∧ (closeNonEmpty w l s).rp.assembly = s.rp.assembly ∧
    (closeNonEmpty w l s).rp.response = s.rp.response := by
  induction l generalizing s with
  | nil => simp [closeNonEmpty]
  | cons b bs ih => simp only [closeNonEmpty, ih]; split <;> simp

@[simp] theorem renewGenerations_keeps (l : List Nat) (s : State) :
    (renewGenerations l s).pending = s.pending ∧ (renewGenerations l s).due = s.due ∧
    (renewGenerations l s).resetHeld = s.resetHeld ∧ (renewGenerations l s).ds = s.ds ∧ (renewGenerations l s).cu = s.cu ∧
    (renewGenerations l s).tu = s.tu ∧ (renewGenerations l s).iu = s.iu ∧ (renewGenerations l s).pp = s.pp ∧
    (renewGenerations l s).su = s.su ∧ (renewGenerations l s).rc = s.rc ∧ (renewGenerations l s).cl = s.cl ∧
    (renewGenerations l s).rp = s.rp := by
  induction l generalizing s with
  | nil => simp [renewGenerations]
  | cons b bs ih =>
    simp only [renewGenerations]
    split
    · split <;> simp [ih]
    · simp [ih]

@[simp] theorem retryOwed_keeps (l : List Nat) (s : State) :
    (retryOwed l s).pending = s.pending ∧ (retryOwed l s).due = s.due ∧ (retryOwed l s).resetHeld = s.resetHeld ∧
    (retryOwed l s).ds = s.ds ∧ (retryOwed l s).cu = s.cu ∧ (retryOwed l s).tu = s.tu ∧ (retryOwed l s).iu = s.iu ∧
    (retryOwed l s).pp = s.pp ∧ (retryOwed l s).su = s.su ∧ (retryOwed l s).rc = s.rc ∧ (retryOwed l s).cl = s.cl ∧
    (retryOwed l s).rp.own = s.rp.own ∧ (retryOwed l s).rp.forward = s.rp.forward ∧
    (retryOwed l s).rp.sending = s.rp.sending ∧ (retryOwed l s).rp.turn = s.rp.turn ∧
    (retryOwed l s).rp.assembly = s.rp.assembly ∧ (retryOwed l s).rp.response = s.rp.response := by
  induction l generalizing s with
  | nil => simp [retryOwed]
  | cons b bs ih =>
    simp only [retryOwed, sendCommand]
    split
    · split
      · rename_i h
        split at h <;> simp_all
        subst h; simp
      · simp [ih]
    · simp [ih]

@[simp] theorem setTray_keeps (b : Nat) (t : Tray) (s : State) :
    (setTray s b t).pending = s.pending ∧ (setTray s b t).due = s.due ∧ (setTray s b t).resetHeld = s.resetHeld ∧
    (setTray s b t).ds = s.ds ∧ (setTray s b t).cu = s.cu ∧ (setTray s b t).tu = s.tu ∧ (setTray s b t).iu = s.iu ∧
    (setTray s b t).pp = s.pp ∧ (setTray s b t).su = s.su ∧ (setTray s b t).rc = s.rc ∧ (setTray s b t).cl = s.cl ∧
    (setTray s b t).rp = s.rp := by
  simp [setTray]

@[simp] theorem releaseReservation_keeps (p : Path) (m : Option Nat) (s : State) :
    (releaseReservation p m s).pending = s.pending ∧ (releaseReservation p m s).due = s.due ∧
    (releaseReservation p m s).resetHeld = s.resetHeld ∧ (releaseReservation p m s).ds = s.ds ∧
    (releaseReservation p m s).cu = s.cu ∧ (releaseReservation p m s).tu = s.tu ∧ (releaseReservation p m s).iu = s.iu ∧
    (releaseReservation p m s).pp = s.pp ∧ (releaseReservation p m s).su = s.su ∧ (releaseReservation p m s).rc = s.rc ∧
    (releaseReservation p m s).cl = s.cl ∧ (releaseReservation p m s).rp = s.rp := by
  generalize h : releaseReservation p m s = t
  unfold releaseReservation at h
  try dsimp only at h
  (repeat' split at h) <;> subst h <;> simp

@[simp] theorem landInTray_keeps (p : Piece) (b : Nat) (q : BitVec 16) (a : Pitch) (s : State) :
    (landInTray p b q a s).1.pending = s.pending ∧ (landInTray p b q a s).1.due = s.due ∧
    (landInTray p b q a s).1.resetHeld = s.resetHeld ∧ (landInTray p b q a s).1.ds = s.ds ∧
    (landInTray p b q a s).1.cu = s.cu ∧ (landInTray p b q a s).1.tu = s.tu ∧ (landInTray p b q a s).1.iu = s.iu ∧
    (landInTray p b q a s).1.pp = s.pp ∧ (landInTray p b q a s).1.su = s.su ∧ (landInTray p b q a s).1.rc = s.rc ∧
    (landInTray p b q a s).1.cl.log = s.cl.log ∧ (landInTray p b q a s).1.cl.counters = s.cl.counters ∧
    (landInTray p b q a s).1.rp.own = s.rp.own ∧ (landInTray p b q a s).1.rp.forward = s.rp.forward ∧
    (landInTray p b q a s).1.rp.sending = s.rp.sending ∧ (landInTray p b q a s).1.rp.turn = s.rp.turn ∧
    (landInTray p b q a s).1.rp.assembly = s.rp.assembly ∧ (landInTray p b q a s).1.rp.response = s.rp.response := by
  unfold landInTray
  split <;> simp

@[simp] theorem contaminate_keeps (p : Piece) (b : Nat) (a : Pitch) (s : State) :
    (contaminate p b a s).pending = s.pending ∧ (contaminate p b a s).due = s.due ∧
    (contaminate p b a s).resetHeld = s.resetHeld ∧ (contaminate p b a s).ds = s.ds ∧ (contaminate p b a s).cu = s.cu ∧
    (contaminate p b a s).tu = s.tu ∧ (contaminate p b a s).iu = s.iu ∧ (contaminate p b a s).pp = s.pp ∧
    (contaminate p b a s).su = s.su ∧ (contaminate p b a s).rc = s.rc ∧ (contaminate p b a s).cl.log = s.cl.log ∧
    (contaminate p b a s).cl.counters = s.cl.counters ∧ (contaminate p b a s).rp.own = s.rp.own ∧
    (contaminate p b a s).rp.forward = s.rp.forward ∧ (contaminate p b a s).rp.sending = s.rp.sending ∧
    (contaminate p b a s).rp.turn = s.rp.turn ∧ (contaminate p b a s).rp.assembly = s.rp.assembly ∧
    (contaminate p b a s).rp.response = s.rp.response := by
  generalize h : contaminate p b a s = t
  unfold contaminate at h
  try dsimp only at h
  (repeat' split at h) <;> subst h <;> simp

@[simp] theorem landInReject_keeps (p : Piece) (s : State) :
    (landInReject p s).pending = s.pending ∧ (landInReject p s).due = s.due ∧ (landInReject p s).resetHeld = s.resetHeld ∧
    (landInReject p s).ds = s.ds ∧ (landInReject p s).cu = s.cu ∧ (landInReject p s).tu = s.tu ∧
    (landInReject p s).iu = s.iu ∧ (landInReject p s).pp = s.pp ∧ (landInReject p s).su = s.su ∧
    (landInReject p s).rc = s.rc ∧ (landInReject p s).cl = s.cl ∧ (landInReject p s).rp = s.rp := by
  simp [landInReject]

@[simp] theorem appendTrayRec_keeps (r : TrayRec) (s : State) :
    (appendTrayRec s r).pending = s.pending ∧ (appendTrayRec s r).due = s.due ∧
    (appendTrayRec s r).resetHeld = s.resetHeld ∧ (appendTrayRec s r).ds = s.ds ∧ (appendTrayRec s r).cu = s.cu ∧
    (appendTrayRec s r).tu = s.tu ∧ (appendTrayRec s r).iu = s.iu ∧ (appendTrayRec s r).pp = s.pp ∧
    (appendTrayRec s r).su = s.su ∧ (appendTrayRec s r).rc = s.rc ∧ (appendTrayRec s r).cl = s.cl ∧
    (appendTrayRec s r).rp = s.rp := by
  simp [appendTrayRec]

@[simp] theorem exchangeTray_keeps (b : Nat) (t : Tray) (s : State) :
    (exchangeTray b t s).pending = s.pending ∧ (exchangeTray b t s).due = s.due ∧
    (exchangeTray b t s).resetHeld = s.resetHeld ∧ (exchangeTray b t s).ds = s.ds ∧ (exchangeTray b t s).cu = s.cu ∧
    (exchangeTray b t s).tu = s.tu ∧ (exchangeTray b t s).iu = s.iu ∧ (exchangeTray b t s).pp = s.pp ∧
    (exchangeTray b t s).su = s.su ∧ (exchangeTray b t s).rc = s.rc ∧ (exchangeTray b t s).cl.log = s.cl.log ∧
    (exchangeTray b t s).cl.counters = s.cl.counters ∧ (exchangeTray b t s).rp.own = s.rp.own ∧
    (exchangeTray b t s).rp.forward = s.rp.forward ∧ (exchangeTray b t s).rp.sending = s.rp.sending ∧
    (exchangeTray b t s).rp.turn = s.rp.turn ∧ (exchangeTray b t s).rp.assembly = s.rp.assembly ∧
    (exchangeTray b t s).rp.response = s.rp.response := by
  generalize h : exchangeTray b t s = t
  unfold exchangeTray at h
  try dsimp only at h
  (repeat' split at h) <;> subst h <;> simp

@[simp] theorem restartBins_keeps (l : List Nat) (s : State) :
    (restartBins l s).pending = s.pending ∧ (restartBins l s).due = s.due ∧ (restartBins l s).resetHeld = s.resetHeld ∧
    (restartBins l s).ds = s.ds ∧ (restartBins l s).cu = s.cu ∧ (restartBins l s).tu = s.tu ∧ (restartBins l s).iu = s.iu ∧
    (restartBins l s).pp = s.pp ∧ (restartBins l s).su = s.su ∧ (restartBins l s).rc = s.rc ∧ (restartBins l s).cl = s.cl ∧
    (restartBins l s).rp = s.rp := by
  induction l generalizing s with
  | nil => simp [restartBins]
  | cons b bs ih =>
    simp only [restartBins]
    split <;> simp [ih]

@[simp] theorem startBins_keeps (l : List Nat) (s : State) :
    (startBins l s).pending = s.pending ∧ (startBins l s).due = s.due ∧ (startBins l s).resetHeld = s.resetHeld ∧
    (startBins l s).ds = s.ds ∧ (startBins l s).cu = s.cu ∧ (startBins l s).tu = s.tu ∧ (startBins l s).iu = s.iu ∧
    (startBins l s).pp = s.pp ∧ (startBins l s).su = s.su ∧ (startBins l s).rc = s.rc ∧ (startBins l s).cl = s.cl ∧
    (startBins l s).rp = s.rp := by
  induction l generalizing s with
  | nil => simp [startBins]
  | cons b bs ih => simp only [startBins, ih]; split <;> simp

end Sys2Proof.Machine
end

