-- ==== Sys2Proof/Laws/FramesLine.lean ====
section
/-! SUPPORT. What each operation of feeders, plan copy, drain end and verification leaves as it was: one lemma per operation. -/

namespace Sys2Proof.Machine

@[simp] theorem copyFeeders_keeps (o n : Table MapSlot) (l : List Nat) (s : State) :
    (copyFeeders o n l s).pending = s.pending ∧ (copyFeeders o n l s).due = s.due ∧
    (copyFeeders o n l s).resetHeld = s.resetHeld ∧ (copyFeeders o n l s).ds = s.ds ∧ (copyFeeders o n l s).cu = s.cu ∧
    (copyFeeders o n l s).tu = s.tu ∧ (copyFeeders o n l s).pp = s.pp ∧ (copyFeeders o n l s).su = s.su ∧
    (copyFeeders o n l s).bu = s.bu ∧ (copyFeeders o n l s).rc = s.rc ∧ (copyFeeders o n l s).cl.log = s.cl.log ∧
    (copyFeeders o n l s).cl.counters = s.cl.counters ∧ (copyFeeders o n l s).rp.own = s.rp.own ∧
    (copyFeeders o n l s).rp.forward = s.rp.forward ∧ (copyFeeders o n l s).rp.sending = s.rp.sending ∧
    (copyFeeders o n l s).rp.turn = s.rp.turn ∧ (copyFeeders o n l s).rp.assembly = s.rp.assembly ∧
    (copyFeeders o n l s).rp.response = s.rp.response := by
  induction l generalizing s with
  | nil => simp [copyFeeders]
  | cons b bs ih =>
    simp only [copyFeeders, ih, raiseFeederEmpty]
    split <;> simp

@[simp] theorem mapCopyIfPending_keeps (s : State) :
    (mapCopyIfPending s).pending = s.pending ∧ (mapCopyIfPending s).due = s.due ∧
    (mapCopyIfPending s).resetHeld = s.resetHeld ∧ (mapCopyIfPending s).ds = s.ds ∧ (mapCopyIfPending s).cu = s.cu ∧
    (mapCopyIfPending s).tu = s.tu ∧ (mapCopyIfPending s).pp = s.pp ∧ (mapCopyIfPending s).su = s.su ∧
    (mapCopyIfPending s).bu = s.bu ∧ (mapCopyIfPending s).rc = s.rc ∧ (mapCopyIfPending s).cl.log = s.cl.log ∧
    (mapCopyIfPending s).cl.counters = s.cl.counters ∧ (mapCopyIfPending s).rp.own = s.rp.own ∧
    (mapCopyIfPending s).rp.forward = s.rp.forward ∧ (mapCopyIfPending s).rp.sending = s.rp.sending ∧
    (mapCopyIfPending s).rp.turn = s.rp.turn ∧ (mapCopyIfPending s).rp.assembly = s.rp.assembly ∧
    (mapCopyIfPending s).rp.response = s.rp.response := by
  unfold mapCopyIfPending mapCopy
  split <;> simp

@[simp] theorem takeMaterial_keeps (f : Nat) (l : Level) (s : State) :
    (takeMaterial f l s).pending = s.pending ∧ (takeMaterial f l s).due = s.due ∧
    (takeMaterial f l s).resetHeld = s.resetHeld ∧ (takeMaterial f l s).ds = s.ds ∧ (takeMaterial f l s).cu = s.cu ∧
    (takeMaterial f l s).tu = s.tu ∧ (takeMaterial f l s).pp = s.pp ∧ (takeMaterial f l s).su = s.su ∧
    (takeMaterial f l s).bu = s.bu ∧ (takeMaterial f l s).rc = s.rc ∧ (takeMaterial f l s).cl.log = s.cl.log ∧
    (takeMaterial f l s).cl.counters = s.cl.counters ∧ (takeMaterial f l s).rp.own = s.rp.own ∧
    (takeMaterial f l s).rp.forward = s.rp.forward ∧ (takeMaterial f l s).rp.sending = s.rp.sending ∧
    (takeMaterial f l s).rp.turn = s.rp.turn ∧ (takeMaterial f l s).rp.assembly = s.rp.assembly ∧
    (takeMaterial f l s).rp.response = s.rp.response := by
  unfold takeMaterial raiseFeederEmpty
  dsimp only
  split <;> simp

@[simp] theorem countFeed_keeps (f : Nat) (d : Bool) (s : State) :
    (countFeed f d s).pending = s.pending ∧ (countFeed f d s).due = s.due ∧ (countFeed f d s).resetHeld = s.resetHeld ∧
    (countFeed f d s).ds = s.ds ∧ (countFeed f d s).cu = s.cu ∧ (countFeed f d s).tu = s.tu ∧ (countFeed f d s).pp = s.pp ∧
    (countFeed f d s).su = s.su ∧ (countFeed f d s).bu = s.bu ∧ (countFeed f d s).rc = s.rc ∧ (countFeed f d s).cl = s.cl ∧
    (countFeed f d s).rp = s.rp := by
  simp [countFeed]

@[simp] theorem countMiss_keeps (f : Nat) (a : Pitch) (i : Option PieceId) (s : State) :
    (countMiss f a i s).pending = s.pending ∧ (countMiss f a i s).due = s.due ∧
    (countMiss f a i s).resetHeld = s.resetHeld ∧ (countMiss f a i s).ds = s.ds ∧ (countMiss f a i s).cu = s.cu ∧
    (countMiss f a i s).tu = s.tu ∧ (countMiss f a i s).pp = s.pp ∧ (countMiss f a i s).su = s.su ∧
    (countMiss f a i s).bu = s.bu ∧ (countMiss f a i s).rc = s.rc ∧ (countMiss f a i s).cl.log = s.cl.log ∧
    (countMiss f a i s).cl.counters = s.cl.counters ∧ (countMiss f a i s).rp.own = s.rp.own ∧
    (countMiss f a i s).rp.forward = s.rp.forward ∧ (countMiss f a i s).rp.sending = s.rp.sending ∧
    (countMiss f a i s).rp.turn = s.rp.turn ∧ (countMiss f a i s).rp.assembly = s.rp.assembly ∧
    (countMiss f a i s).rp.response = s.rp.response := by
  unfold countMiss
  dsimp only
  split <;> simp

@[simp] theorem restartFeeders_keeps (l : List Nat) (s : State) :
    (restartFeeders l s).pending = s.pending ∧ (restartFeeders l s).due = s.due ∧
    (restartFeeders l s).resetHeld = s.resetHeld ∧ (restartFeeders l s).ds = s.ds ∧ (restartFeeders l s).cu = s.cu ∧
    (restartFeeders l s).tu = s.tu ∧ (restartFeeders l s).pp = s.pp ∧ (restartFeeders l s).su = s.su ∧
    (restartFeeders l s).bu = s.bu ∧ (restartFeeders l s).rc = s.rc ∧ (restartFeeders l s).cl = s.cl ∧
    (restartFeeders l s).rp = s.rp := by
  induction l generalizing s with
  | nil => simp [restartFeeders]
  | cons b bs ih => simp [restartFeeders, ih]

@[simp] theorem reevaluateAll_keeps (n : Nat) (l : List Nat) (s : State) :
    (reevaluateAll n l s).pending = s.pending ∧ (reevaluateAll n l s).due = s.due ∧
    (reevaluateAll n l s).resetHeld = s.resetHeld ∧ (reevaluateAll n l s).ds = s.ds ∧ (reevaluateAll n l s).cu = s.cu ∧
    (reevaluateAll n l s).tu = s.tu ∧ (reevaluateAll n l s).pp = s.pp ∧ (reevaluateAll n l s).su = s.su ∧
    (reevaluateAll n l s).bu = s.bu ∧ (reevaluateAll n l s).rc = s.rc ∧ (reevaluateAll n l s).cl = s.cl ∧
    (reevaluateAll n l s).rp = s.rp := by
  induction l generalizing s with
  | nil => simp [reevaluateAll]
  | cons b bs ih => simp [reevaluateAll, ih]

@[simp] theorem planCopyIfPending_keeps (s : State) :
    (planCopyIfPending s).pending = s.pending ∧ (planCopyIfPending s).due = s.due ∧
    (planCopyIfPending s).resetHeld = s.resetHeld ∧ (planCopyIfPending s).ds = s.ds ∧ (planCopyIfPending s).cu = s.cu ∧
    (planCopyIfPending s).tu = s.tu ∧ (planCopyIfPending s).iu = s.iu ∧ (planCopyIfPending s).pp = s.pp ∧
    (planCopyIfPending s).rc = s.rc ∧ (planCopyIfPending s).cl.log = s.cl.log ∧
    (planCopyIfPending s).cl.counters = s.cl.counters ∧ (planCopyIfPending s).rp.own = s.rp.own ∧
    (planCopyIfPending s).rp.forward = s.rp.forward ∧ (planCopyIfPending s).rp.sending = s.rp.sending ∧
    (planCopyIfPending s).rp.turn = s.rp.turn ∧ (planCopyIfPending s).rp.assembly = s.rp.assembly ∧
    (planCopyIfPending s).rp.response = s.rp.response := by
  unfold planCopyIfPending planCopy
  split <;> simp

@[simp] theorem runEndClose_keeps (s : State) :
    (runEndClose s).pending = s.pending ∧ (runEndClose s).due = s.due ∧ (runEndClose s).resetHeld = s.resetHeld ∧
    (runEndClose s).ds = s.ds ∧ (runEndClose s).cu = s.cu ∧ (runEndClose s).tu = s.tu ∧ (runEndClose s).iu = s.iu ∧
    (runEndClose s).pp = s.pp ∧ (runEndClose s).su = s.su ∧ (runEndClose s).rc = s.rc ∧ (runEndClose s).cl.log = s.cl.log ∧
    (runEndClose s).cl.counters = s.cl.counters ∧ (runEndClose s).rp.own = s.rp.own ∧
    (runEndClose s).rp.forward = s.rp.forward ∧ (runEndClose s).rp.sending = s.rp.sending ∧
    (runEndClose s).rp.turn = s.rp.turn ∧ (runEndClose s).rp.assembly = s.rp.assembly ∧
    (runEndClose s).rp.response = s.rp.response := by
  simp [runEndClose]

@[simp] theorem drainTest_keeps (s : State) :
    (drainTest s).pending = s.pending ∧ (drainTest s).due = s.due ∧ (drainTest s).resetHeld = s.resetHeld ∧
    (drainTest s).ds = s.ds ∧ (drainTest s).cu = s.cu ∧ (drainTest s).tu = s.tu ∧ (drainTest s).pp = s.pp ∧
    (drainTest s).rc.run = s.rc.run ∧ (drainTest s).cl.log = s.cl.log ∧ (drainTest s).cl.counters = s.cl.counters ∧
    (drainTest s).rp.own = s.rp.own ∧ (drainTest s).rp.forward = s.rp.forward ∧ (drainTest s).rp.sending = s.rp.sending ∧
    (drainTest s).rp.turn = s.rp.turn ∧ (drainTest s).rp.assembly = s.rp.assembly ∧
    (drainTest s).rp.response = s.rp.response := by
  unfold drainTest drainEnd
  split <;> simp

@[simp] theorem flightChanged_keeps (s : State) :
    (flightChanged s).pending = s.pending ∧ (flightChanged s).due = s.due ∧ (flightChanged s).resetHeld = s.resetHeld ∧
    (flightChanged s).ds = s.ds ∧ (flightChanged s).cu = s.cu ∧ (flightChanged s).tu = s.tu ∧ (flightChanged s).pp = s.pp ∧
    (flightChanged s).rc.run = s.rc.run ∧ (flightChanged s).cl.log = s.cl.log ∧
    (flightChanged s).cl.counters = s.cl.counters ∧ (flightChanged s).rp.own = s.rp.own ∧
    (flightChanged s).rp.forward = s.rp.forward ∧ (flightChanged s).rp.sending = s.rp.sending ∧
    (flightChanged s).rp.turn = s.rp.turn ∧ (flightChanged s).rp.assembly = s.rp.assembly ∧
    (flightChanged s).rp.response = s.rp.response := by
  generalize h : flightChanged s = t
  unfold flightChanged at h
  try dsimp only at h
  (repeat' split at h) <;> subst h <;> simp

@[simp] theorem supersede_keeps (k : Nat) (p : Piece) (s : State) :
    (supersede k p s).pending = s.pending ∧ (supersede k p s).due = s.due ∧ (supersede k p s).resetHeld = s.resetHeld ∧
    (supersede k p s).ds = s.ds ∧ (supersede k p s).cu = s.cu ∧ (supersede k p s).tu.pitch = s.tu.pitch ∧
    (supersede k p s).tu.layout = s.tu.layout ∧ (supersede k p s).tu.timing = s.tu.timing ∧ (supersede k p s).iu = s.iu ∧
    (supersede k p s).pp = s.pp ∧ (supersede k p s).su = s.su ∧ (supersede k p s).rc = s.rc ∧
    (supersede k p s).cl.log = s.cl.log ∧ (supersede k p s).cl.counters = s.cl.counters ∧
    (supersede k p s).rp.own = s.rp.own ∧ (supersede k p s).rp.forward = s.rp.forward ∧
    (supersede k p s).rp.sending = s.rp.sending ∧ (supersede k p s).rp.turn = s.rp.turn ∧
    (supersede k p s).rp.assembly = s.rp.assembly ∧ (supersede k p s).rp.response = s.rp.response := by
  unfold supersede sendCommand
  split <;> (rename_i h; split at h <;> simp_all; try (subst h; simp))

@[simp] theorem sorterBranch_keeps (k : Nat) (p : Piece) (s : State) :
    (sorterBranch k p s).pending = s.pending ∧ (sorterBranch k p s).due = s.due ∧
    (sorterBranch k p s).resetHeld = s.resetHeld ∧ (sorterBranch k p s).ds = s.ds ∧ (sorterBranch k p s).cu = s.cu ∧
    (sorterBranch k p s).tu.pitch = s.tu.pitch ∧ (sorterBranch k p s).tu.layout = s.tu.layout ∧
    (sorterBranch k p s).tu.timing = s.tu.timing ∧ (sorterBranch k p s).iu = s.iu ∧ (sorterBranch k p s).pp = s.pp ∧
    (sorterBranch k p s).su = s.su ∧ (sorterBranch k p s).rc = s.rc ∧ (sorterBranch k p s).cl.log = s.cl.log ∧
    (sorterBranch k p s).cl.counters = s.cl.counters ∧ (sorterBranch k p s).rp.own = s.rp.own ∧
    (sorterBranch k p s).rp.forward = s.rp.forward ∧ (sorterBranch k p s).rp.sending = s.rp.sending ∧
    (sorterBranch k p s).rp.turn = s.rp.turn ∧ (sorterBranch k p s).rp.assembly = s.rp.assembly ∧
    (sorterBranch k p s).rp.response = s.rp.response := by
  generalize h : sorterBranch k p s = t
  unfold sorterBranch at h
  try dsimp only at h
  (repeat' split at h) <;> subst h <;> simp

@[simp] theorem pathRule_keeps (k : Nat) (p : Piece) (s : State) :
    (pathRule k p s).pending = s.pending ∧ (pathRule k p s).due = s.due ∧ (pathRule k p s).resetHeld = s.resetHeld ∧
    (pathRule k p s).ds = s.ds ∧ (pathRule k p s).cu = s.cu ∧ (pathRule k p s).tu.pitch = s.tu.pitch ∧
    (pathRule k p s).tu.layout = s.tu.layout ∧ (pathRule k p s).tu.timing = s.tu.timing ∧ (pathRule k p s).iu = s.iu ∧
    (pathRule k p s).pp = s.pp ∧ (pathRule k p s).su = s.su ∧ (pathRule k p s).rc = s.rc ∧
    (pathRule k p s).cl.log = s.cl.log ∧ (pathRule k p s).cl.counters = s.cl.counters ∧ (pathRule k p s).rp.own = s.rp.own ∧
    (pathRule k p s).rp.forward = s.rp.forward ∧ (pathRule k p s).rp.sending = s.rp.sending ∧
    (pathRule k p s).rp.turn = s.rp.turn ∧ (pathRule k p s).rp.assembly = s.rp.assembly ∧
    (pathRule k p s).rp.response = s.rp.response := by
  unfold pathRule sendCommand
  split
  · split <;> (rename_i h; split at h <;> simp_all; try (subst h; simp))
  · simp

@[simp] theorem markFault_keeps (k : Nat) (f : PieceFault) (s : State) :
    (markFault k f s).pending = s.pending ∧ (markFault k f s).due = s.due ∧ (markFault k f s).resetHeld = s.resetHeld ∧
    (markFault k f s).ds = s.ds ∧ (markFault k f s).cu = s.cu ∧ (markFault k f s).tu.pitch = s.tu.pitch ∧
    (markFault k f s).tu.layout = s.tu.layout ∧ (markFault k f s).tu.timing = s.tu.timing ∧ (markFault k f s).iu = s.iu ∧
    (markFault k f s).pp = s.pp ∧ (markFault k f s).su = s.su ∧ (markFault k f s).bu = s.bu ∧ (markFault k f s).rc = s.rc ∧
    (markFault k f s).cl = s.cl ∧ (markFault k f s).rp = s.rp := by
  generalize h : markFault k f s = t
  unfold markFault at h
  try dsimp only at h
  (repeat' split at h) <;> subst h <;> simp

@[simp] theorem recordFault_keeps (k : Nat) (f : PieceFault) (s : State) :
    (recordFault k f s).pending = s.pending ∧ (recordFault k f s).due = s.due ∧
    (recordFault k f s).resetHeld = s.resetHeld ∧ (recordFault k f s).ds = s.ds ∧ (recordFault k f s).cu = s.cu ∧
    (recordFault k f s).tu.pitch = s.tu.pitch ∧ (recordFault k f s).tu.layout = s.tu.layout ∧
    (recordFault k f s).tu.timing = s.tu.timing ∧ (recordFault k f s).iu = s.iu ∧ (recordFault k f s).pp = s.pp ∧
    (recordFault k f s).su = s.su ∧ (recordFault k f s).rc = s.rc ∧ (recordFault k f s).cl.log = s.cl.log ∧
    (recordFault k f s).cl.counters = s.cl.counters ∧ (recordFault k f s).rp.own = s.rp.own ∧
    (recordFault k f s).rp.forward = s.rp.forward ∧ (recordFault k f s).rp.sending = s.rp.sending ∧
    (recordFault k f s).rp.turn = s.rp.turn ∧ (recordFault k f s).rp.assembly = s.rp.assembly ∧
    (recordFault k f s).rp.response = s.rp.response := by
  generalize h : recordFault k f s = t
  unfold recordFault at h
  try dsimp only at h
  (repeat' split at h) <;> subst h <;> simp

@[simp] theorem pathAtRelease_keeps (k : Nat) (s : State) :
    (pathAtRelease k s).pending = s.pending ∧ (pathAtRelease k s).due = s.due ∧
    (pathAtRelease k s).resetHeld = s.resetHeld ∧ (pathAtRelease k s).ds = s.ds ∧ (pathAtRelease k s).cu = s.cu ∧
    (pathAtRelease k s).tu.pitch = s.tu.pitch ∧ (pathAtRelease k s).tu.layout = s.tu.layout ∧
    (pathAtRelease k s).tu.timing = s.tu.timing ∧ (pathAtRelease k s).iu = s.iu ∧ (pathAtRelease k s).pp = s.pp ∧
    (pathAtRelease k s).su = s.su ∧ (pathAtRelease k s).rc = s.rc ∧ (pathAtRelease k s).cl.log = s.cl.log ∧
    (pathAtRelease k s).cl.counters = s.cl.counters ∧ (pathAtRelease k s).rp.own = s.rp.own ∧
    (pathAtRelease k s).rp.forward = s.rp.forward ∧ (pathAtRelease k s).rp.sending = s.rp.sending ∧
    (pathAtRelease k s).rp.turn = s.rp.turn ∧ (pathAtRelease k s).rp.assembly = s.rp.assembly ∧
    (pathAtRelease k s).rp.response = s.rp.response := by
  generalize h : pathAtRelease k s = t
  unfold pathAtRelease at h
  try dsimp only at h
  (repeat' split at h) <;> subst h <;> simp

@[simp] theorem setVerify_keeps (k : Nat) (v : Verify) (s : State) :
    (setVerify k v s).pending = s.pending ∧ (setVerify k v s).due = s.due ∧ (setVerify k v s).resetHeld = s.resetHeld ∧
    (setVerify k v s).ds = s.ds ∧ (setVerify k v s).cu = s.cu ∧ (setVerify k v s).tu.pitch = s.tu.pitch ∧
    (setVerify k v s).tu.layout = s.tu.layout ∧ (setVerify k v s).tu.timing = s.tu.timing ∧ (setVerify k v s).iu = s.iu ∧
    (setVerify k v s).pp = s.pp ∧ (setVerify k v s).su = s.su ∧ (setVerify k v s).bu = s.bu ∧ (setVerify k v s).rc = s.rc ∧
    (setVerify k v s).cl = s.cl ∧ (setVerify k v s).rp = s.rp := by
  generalize h : setVerify k v s = t
  unfold setVerify at h
  try dsimp only at h
  (repeat' split at h) <;> subst h <;> simp

/-- What reserving into a tray leaves as it was. -/
theorem reserveInto_cases (k : Nat) (p : Piece) (b : Nat) (t : Tray) (solo : Bool) (s : State) :
    (∃ s', reserveInto k p b t solo s = .failed s' ∧ s' = raise .commandQueueFull (some s.tu.layout.sorter.addr) (some s.tu.pitch) p.id s) ∨
    (∃ s', reserveInto k p b t solo s = .placed s' ∧ ∃ s2, (s' = s2 ∨ s' = closeTray b .solo s2) ∧
      s2 = setPiece (setTray (enqueue s (binFrame s p b false)) b
        { t with reserved := t.reserved + 1, reservedMass := t.reservedMass + p.mass.getD 0 }) k (some { p with path := .sort b t.seq })) := by
  unfold reserveInto sendCommand
  by_cases h : commandRoom s = true
  · right
    simp only [h, if_true]
    refine ⟨_, rfl, _, ?_, rfl⟩
    cases solo <;> simp
  · left
    simp only [h]
    exact ⟨_, rfl, rfl⟩

/-- What an offer to one bin leaves as it was. -/
theorem offerBin_keeps (k : Nat) (p : Piece) (b : Nat) (s x : State)
    (h : offerBin k p b s = .placed x ∨ offerBin k p b s = .passed x ∨ offerBin k p b s = .failed x) :
    x.pending = s.pending ∧ x.due = s.due ∧ x.resetHeld = s.resetHeld ∧ x.ds = s.ds ∧ x.cu = s.cu ∧ x.tu.pitch = s.tu.pitch ∧ x.tu.layout = s.tu.layout ∧ x.tu.timing = s.tu.timing ∧ x.iu = s.iu ∧ x.pp = s.pp ∧ x.su = s.su ∧ x.rc = s.rc ∧ x.cl.log = s.cl.log ∧ x.cl.counters = s.cl.counters ∧ x.rp.own = s.rp.own ∧ x.rp.forward = s.rp.forward ∧ x.rp.sending = s.rp.sending ∧ x.rp.turn = s.rp.turn ∧ x.rp.assembly = s.rp.assembly ∧ x.rp.response = s.rp.response := by
  have hr : ∀ t solo, (reserveInto k p b t solo s = .placed x ∨ reserveInto k p b t solo s = .passed x ∨
      reserveInto k p b t solo s = .failed x) →
      x.pending = s.pending ∧ x.due = s.due ∧ x.resetHeld = s.resetHeld ∧ x.ds = s.ds ∧ x.cu = s.cu ∧ x.tu.pitch = s.tu.pitch ∧ x.tu.layout = s.tu.layout ∧ x.tu.timing = s.tu.timing ∧ x.iu = s.iu ∧ x.pp = s.pp ∧ x.su = s.su ∧ x.rc = s.rc ∧ x.cl.log = s.cl.log ∧ x.cl.counters = s.cl.counters ∧ x.rp.own = s.rp.own ∧ x.rp.forward = s.rp.forward ∧ x.rp.sending = s.rp.sending ∧ x.rp.turn = s.rp.turn ∧ x.rp.assembly = s.rp.assembly ∧ x.rp.response = s.rp.response := by
    intro t solo hx
    rcases reserveInto_cases k p b t solo s with ⟨s', he, rfl⟩ | ⟨s', he, s2, h2, rfl⟩
    · simp only [he, Offer.failed.injEq, reduceCtorEq, false_or] at hx
      subst hx; simp
    · simp only [he, Offer.placed.injEq, reduceCtorEq, or_false] at hx
      subst hx
      rcases h2 with rfl | rfl <;> simp
  unfold offerBin at h
  split at h
  · split at h
    · exact hr _ _ h
    · split at h
      · exact hr _ _ h
      · simp only [Offer.passed.injEq, reduceCtorEq, false_or, or_false] at h
        subst h; simp
  · simp only [Offer.passed.injEq, reduceCtorEq, false_or, or_false] at h
    subst h; simp

@[simp] theorem cascade_keeps (k : Nat) (p : Piece) (l : List Nat) (s : State) :
    (cascade k p l s).1.pending = s.pending ∧ (cascade k p l s).1.due = s.due ∧
    (cascade k p l s).1.resetHeld = s.resetHeld ∧ (cascade k p l s).1.ds = s.ds ∧ (cascade k p l s).1.cu = s.cu ∧
    (cascade k p l s).1.tu.pitch = s.tu.pitch ∧ (cascade k p l s).1.tu.layout = s.tu.layout ∧
    (cascade k p l s).1.tu.timing = s.tu.timing ∧ (cascade k p l s).1.iu = s.iu ∧ (cascade k p l s).1.pp = s.pp ∧
    (cascade k p l s).1.su = s.su ∧ (cascade k p l s).1.rc = s.rc ∧ (cascade k p l s).1.cl.log = s.cl.log ∧
    (cascade k p l s).1.cl.counters = s.cl.counters ∧ (cascade k p l s).1.rp.own = s.rp.own ∧
    (cascade k p l s).1.rp.forward = s.rp.forward ∧ (cascade k p l s).1.rp.sending = s.rp.sending ∧
    (cascade k p l s).1.rp.turn = s.rp.turn ∧ (cascade k p l s).1.rp.assembly = s.rp.assembly ∧
    (cascade k p l s).1.rp.response = s.rp.response := by
  induction l generalizing s with
  | nil => simp [cascade]
  | cons b bs ih =>
    rw [cascade]
    split <;> rename_i x hx
    · exact offerBin_keeps k p b s x (by simp [hx])
    · have h := offerBin_keeps k p b s x (by simp [hx])
      simp only [ih]
      exact h
    · exact offerBin_keeps k p b s x (by simp [hx])

@[simp] theorem sortPiece_keeps (k : Nat) (s : State) :
    (sortPiece k s).pending = s.pending ∧ (sortPiece k s).due = s.due ∧ (sortPiece k s).resetHeld = s.resetHeld ∧
    (sortPiece k s).ds = s.ds ∧ (sortPiece k s).cu = s.cu ∧ (sortPiece k s).tu.pitch = s.tu.pitch ∧
    (sortPiece k s).tu.layout = s.tu.layout ∧ (sortPiece k s).tu.timing = s.tu.timing ∧ (sortPiece k s).iu = s.iu ∧
    (sortPiece k s).pp = s.pp ∧ (sortPiece k s).su = s.su ∧ (sortPiece k s).rc = s.rc ∧ (sortPiece k s).cl.log = s.cl.log ∧
    (sortPiece k s).cl.counters = s.cl.counters ∧ (sortPiece k s).rp.own = s.rp.own ∧
    (sortPiece k s).rp.forward = s.rp.forward ∧ (sortPiece k s).rp.sending = s.rp.sending ∧
    (sortPiece k s).rp.turn = s.rp.turn ∧ (sortPiece k s).rp.assembly = s.rp.assembly ∧
    (sortPiece k s).rp.response = s.rp.response := by
  unfold sortPiece
  split
  · split
    · simp
    · rename_i p _ _ b _
      have h := cascade_keeps k p (cascadeBins b s.su.fallback) s
      split <;> rename_i hx <;> simp_all
  · simp

@[simp] theorem faultSlips_keeps (l : List Nat) (s : State) :
    (faultSlips l s).pending = s.pending ∧ (faultSlips l s).due = s.due ∧ (faultSlips l s).resetHeld = s.resetHeld ∧
    (faultSlips l s).ds = s.ds ∧ (faultSlips l s).cu = s.cu ∧ (faultSlips l s).tu.pitch = s.tu.pitch ∧
    (faultSlips l s).tu.layout = s.tu.layout ∧ (faultSlips l s).tu.timing = s.tu.timing ∧ (faultSlips l s).iu = s.iu ∧
    (faultSlips l s).pp = s.pp ∧ (faultSlips l s).su = s.su ∧ (faultSlips l s).rc = s.rc ∧
    (faultSlips l s).cl.log = s.cl.log ∧ (faultSlips l s).cl.counters = s.cl.counters ∧ (faultSlips l s).rp.own = s.rp.own ∧
    (faultSlips l s).rp.forward = s.rp.forward ∧ (faultSlips l s).rp.sending = s.rp.sending ∧
    (faultSlips l s).rp.turn = s.rp.turn ∧ (faultSlips l s).rp.assembly = s.rp.assembly ∧
    (faultSlips l s).rp.response = s.rp.response := by
  induction l generalizing s with
  | nil => simp [faultSlips]
  | cons b bs ih => simp [faultSlips, ih]

@[simp] theorem takeRead_keeps (k : Nat) (p : Piece) (i : PieceId) (s : State) :
    (takeRead k p i s).pending = s.pending ∧ (takeRead k p i s).due = s.due ∧ (takeRead k p i s).resetHeld = s.resetHeld ∧
    (takeRead k p i s).ds = s.ds ∧ (takeRead k p i s).cu = s.cu ∧ (takeRead k p i s).tu.pitch = s.tu.pitch ∧
    (takeRead k p i s).tu.layout = s.tu.layout ∧ (takeRead k p i s).tu.timing = s.tu.timing ∧ (takeRead k p i s).iu = s.iu ∧
    (takeRead k p i s).pp = s.pp ∧ (takeRead k p i s).su = s.su ∧ (takeRead k p i s).rc = s.rc ∧
    (takeRead k p i s).cl.log = s.cl.log ∧ (takeRead k p i s).cl.counters = s.cl.counters ∧
    (takeRead k p i s).rp.own = s.rp.own ∧ (takeRead k p i s).rp.forward = s.rp.forward ∧
    (takeRead k p i s).rp.sending = s.rp.sending ∧ (takeRead k p i s).rp.turn = s.rp.turn ∧
    (takeRead k p i s).rp.assembly = s.rp.assembly ∧ (takeRead k p i s).rp.response = s.rp.response := by
  unfold takeRead
  dsimp only
  split
  · split <;> simp
  · split
    · split <;> simp
    · split <;> simp

end Sys2Proof.Machine
end

