-- ==== Sys2Proof/Laws/FramesTrack.lean ====
section
/-! SUPPORT. What each operation of the track and the feeds leaves as it was: one lemma per operation. -/

namespace Sys2Proof.Machine

@[simp] theorem dropSource_keeps (a : Addr) (s : State) :
    (dropSource a s).pending = s.pending ∧ (dropSource a s).due = s.due ∧ (dropSource a s).resetHeld = s.resetHeld ∧
    (dropSource a s).ds = s.ds ∧ (dropSource a s).cu = s.cu ∧ (dropSource a s).tu = s.tu ∧ (dropSource a s).iu = s.iu ∧
    (dropSource a s).pp = s.pp ∧ (dropSource a s).su = s.su ∧ (dropSource a s).bu = s.bu ∧ (dropSource a s).rc = s.rc ∧
    (dropSource a s).cl.log = s.cl.log ∧ (dropSource a s).cl.counters = s.cl.counters ∧ (dropSource a s).rp.own = s.rp.own ∧
    (dropSource a s).rp.forward = s.rp.forward ∧ (dropSource a s).rp.sending = s.rp.sending ∧
    (dropSource a s).rp.turn = s.rp.turn ∧ (dropSource a s).rp.assembly = s.rp.assembly ∧
    (dropSource a s).rp.response = s.rp.response := by
  unfold dropSource dropUnexpected
  split <;> simp

@[simp] theorem writeEntry_keeps (e : Entry) (s : State) :
    (writeEntry e s).pending = s.pending ∧ (writeEntry e s).due = s.due ∧ (writeEntry e s).resetHeld = s.resetHeld ∧
    (writeEntry e s).cu = s.cu ∧ (writeEntry e s).tu = s.tu ∧ (writeEntry e s).iu = s.iu ∧ (writeEntry e s).pp = s.pp ∧
    (writeEntry e s).su = s.su ∧ (writeEntry e s).bu = s.bu ∧ (writeEntry e s).rc = s.rc ∧ (writeEntry e s).rp = s.rp := by
  simp [writeEntry]

@[simp] theorem accountLanding_keeps (x : Place) (o : Outcome) (p : Piece) (a : Pitch) (s : State) :
    (accountLanding x o p a s).1.pending = s.pending ∧ (accountLanding x o p a s).1.due = s.due ∧
    (accountLanding x o p a s).1.resetHeld = s.resetHeld ∧ (accountLanding x o p a s).1.ds = s.ds ∧
    (accountLanding x o p a s).1.cu = s.cu ∧ (accountLanding x o p a s).1.tu = s.tu ∧
    (accountLanding x o p a s).1.iu = s.iu ∧ (accountLanding x o p a s).1.pp = s.pp ∧
    (accountLanding x o p a s).1.su = s.su ∧ (accountLanding x o p a s).1.rc = s.rc ∧
    (accountLanding x o p a s).1.cl.log = s.cl.log ∧ (accountLanding x o p a s).1.cl.counters = s.cl.counters ∧
    (accountLanding x o p a s).1.rp.own = s.rp.own ∧ (accountLanding x o p a s).1.rp.forward = s.rp.forward ∧
    (accountLanding x o p a s).1.rp.sending = s.rp.sending ∧ (accountLanding x o p a s).1.rp.turn = s.rp.turn ∧
    (accountLanding x o p a s).1.rp.assembly = s.rp.assembly ∧ (accountLanding x o p a s).1.rp.response = s.rp.response := by
  unfold accountLanding
  cases x with
  | gate => simp
  | br => simp
  | bin b =>
    cases p.path <;> dsimp only <;> (repeat' split) <;> simp

@[simp] theorem leaveLanded_keeps (x : Place) (a : Pitch) (k : Nat) (p : Piece) (s : State) :
    (leaveLanded x a k p s).pending = s.pending ∧ (leaveLanded x a k p s).due = s.due ∧
    (leaveLanded x a k p s).resetHeld = s.resetHeld ∧ (leaveLanded x a k p s).cu = s.cu ∧
    (leaveLanded x a k p s).tu.pitch = s.tu.pitch ∧ (leaveLanded x a k p s).tu.layout = s.tu.layout ∧
    (leaveLanded x a k p s).tu.timing = s.tu.timing ∧ (leaveLanded x a k p s).pp = s.pp ∧
    (leaveLanded x a k p s).rc.run = s.rc.run ∧ (leaveLanded x a k p s).rp.own = s.rp.own ∧
    (leaveLanded x a k p s).rp.forward = s.rp.forward ∧ (leaveLanded x a k p s).rp.sending = s.rp.sending ∧
    (leaveLanded x a k p s).rp.turn = s.rp.turn ∧ (leaveLanded x a k p s).rp.assembly = s.rp.assembly ∧
    (leaveLanded x a k p s).rp.response = s.rp.response := by
  simp [leaveLanded]

@[simp] theorem leaveWithout_keeps (o : Outcome) (f : PieceFault) (k : Nat) (s : State) :
    (leaveWithout o f k s).pending = s.pending ∧ (leaveWithout o f k s).due = s.due ∧
    (leaveWithout o f k s).resetHeld = s.resetHeld ∧ (leaveWithout o f k s).cu = s.cu ∧
    (leaveWithout o f k s).tu.pitch = s.tu.pitch ∧ (leaveWithout o f k s).tu.layout = s.tu.layout ∧
    (leaveWithout o f k s).tu.timing = s.tu.timing ∧ (leaveWithout o f k s).pp = s.pp ∧
    (leaveWithout o f k s).rc.run = s.rc.run ∧ (leaveWithout o f k s).rp.own = s.rp.own ∧
    (leaveWithout o f k s).rp.forward = s.rp.forward ∧ (leaveWithout o f k s).rp.sending = s.rp.sending ∧
    (leaveWithout o f k s).rp.turn = s.rp.turn ∧ (leaveWithout o f k s).rp.assembly = s.rp.assembly ∧
    (leaveWithout o f k s).rp.response = s.rp.response := by
  unfold leaveWithout
  split <;> simp

@[simp] theorem writeRemovals_keeps (l : List SetRec) (s : State) :
    (writeRemovals l s).pending = s.pending ∧ (writeRemovals l s).due = s.due ∧
    (writeRemovals l s).resetHeld = s.resetHeld ∧ (writeRemovals l s).cu = s.cu ∧ (writeRemovals l s).tu = s.tu ∧
    (writeRemovals l s).iu = s.iu ∧ (writeRemovals l s).pp = s.pp ∧ (writeRemovals l s).su = s.su ∧
    (writeRemovals l s).bu = s.bu ∧ (writeRemovals l s).rc = s.rc ∧ (writeRemovals l s).rp = s.rp := by
  induction l generalizing s with
  | nil => simp [writeRemovals]
  | cons b bs ih => simp [writeRemovals, ih]

@[simp] theorem removeSets_keeps (s : State) :
    (removeSets s).pending = s.pending ∧ (removeSets s).due = s.due ∧ (removeSets s).resetHeld = s.resetHeld ∧
    (removeSets s).tu = s.tu ∧ (removeSets s).iu = s.iu ∧ (removeSets s).pp = s.pp ∧ (removeSets s).su = s.su ∧
    (removeSets s).bu = s.bu ∧ (removeSets s).rc = s.rc ∧ (removeSets s).rp = s.rp := by
  simp [removeSets]

@[simp] theorem removePieces_keeps (l : List Nat) (s : State) :
    (removePieces l s).pending = s.pending ∧ (removePieces l s).due = s.due ∧ (removePieces l s).resetHeld = s.resetHeld ∧
    (removePieces l s).cu = s.cu ∧ (removePieces l s).tu.pitch = s.tu.pitch ∧ (removePieces l s).tu.layout = s.tu.layout ∧
    (removePieces l s).tu.timing = s.tu.timing ∧ (removePieces l s).pp = s.pp ∧ (removePieces l s).rc.run = s.rc.run ∧
    (removePieces l s).rp.own = s.rp.own ∧ (removePieces l s).rp.forward = s.rp.forward ∧
    (removePieces l s).rp.sending = s.rp.sending ∧ (removePieces l s).rp.turn = s.rp.turn ∧
    (removePieces l s).rp.assembly = s.rp.assembly ∧ (removePieces l s).rp.response = s.rp.response := by
  induction l generalizing s with
  | nil => simp [removePieces]
  | cons b bs ih => simp [removePieces, ih]

@[simp] theorem exitDeadlineAt_keeps (k : Nat) (s : State) :
    (exitDeadlineAt k s).pending = s.pending ∧ (exitDeadlineAt k s).due = s.due ∧
    (exitDeadlineAt k s).resetHeld = s.resetHeld ∧ (exitDeadlineAt k s).cu = s.cu ∧
    (exitDeadlineAt k s).tu.pitch = s.tu.pitch ∧ (exitDeadlineAt k s).tu.layout = s.tu.layout ∧
    (exitDeadlineAt k s).tu.timing = s.tu.timing ∧ (exitDeadlineAt k s).pp = s.pp ∧ (exitDeadlineAt k s).rc.run = s.rc.run ∧
    (exitDeadlineAt k s).rp.own = s.rp.own ∧ (exitDeadlineAt k s).rp.forward = s.rp.forward ∧
    (exitDeadlineAt k s).rp.sending = s.rp.sending ∧ (exitDeadlineAt k s).rp.turn = s.rp.turn ∧
    (exitDeadlineAt k s).rp.assembly = s.rp.assembly ∧ (exitDeadlineAt k s).rp.response = s.rp.response := by
  generalize h : exitDeadlineAt k s = t
  unfold exitDeadlineAt at h
  try dsimp only at h
  (repeat' split at h) <;> subst h <;> simp

@[simp] theorem verifyDeadlineAt_keeps (k : Nat) (s : State) :
    (verifyDeadlineAt k s).pending = s.pending ∧ (verifyDeadlineAt k s).due = s.due ∧
    (verifyDeadlineAt k s).resetHeld = s.resetHeld ∧ (verifyDeadlineAt k s).ds = s.ds ∧ (verifyDeadlineAt k s).cu = s.cu ∧
    (verifyDeadlineAt k s).tu.pitch = s.tu.pitch ∧ (verifyDeadlineAt k s).tu.layout = s.tu.layout ∧
    (verifyDeadlineAt k s).tu.timing = s.tu.timing ∧ (verifyDeadlineAt k s).iu = s.iu ∧ (verifyDeadlineAt k s).pp = s.pp ∧
    (verifyDeadlineAt k s).su = s.su ∧ (verifyDeadlineAt k s).rc = s.rc ∧ (verifyDeadlineAt k s).cl.log = s.cl.log ∧
    (verifyDeadlineAt k s).cl.counters = s.cl.counters ∧ (verifyDeadlineAt k s).rp.own = s.rp.own ∧
    (verifyDeadlineAt k s).rp.forward = s.rp.forward ∧ (verifyDeadlineAt k s).rp.sending = s.rp.sending ∧
    (verifyDeadlineAt k s).rp.turn = s.rp.turn ∧ (verifyDeadlineAt k s).rp.assembly = s.rp.assembly ∧
    (verifyDeadlineAt k s).rp.response = s.rp.response := by
  generalize h : verifyDeadlineAt k s = t
  unfold verifyDeadlineAt at h
  try dsimp only at h
  (repeat' split at h) <;> subst h <;> simp

@[simp] theorem sendCalls_keeps (p : Piece) (l : List Planned) (s : State) :
    (sendCalls p l s).1.pending = s.pending ∧ (sendCalls p l s).1.due = s.due ∧
    (sendCalls p l s).1.resetHeld = s.resetHeld ∧ (sendCalls p l s).1.ds = s.ds ∧ (sendCalls p l s).1.cu = s.cu ∧
    (sendCalls p l s).1.tu = s.tu ∧ (sendCalls p l s).1.iu = s.iu ∧ (sendCalls p l s).1.pp = s.pp ∧
    (sendCalls p l s).1.su = s.su ∧ (sendCalls p l s).1.bu = s.bu ∧ (sendCalls p l s).1.rc = s.rc ∧
    (sendCalls p l s).1.cl.log = s.cl.log ∧ (sendCalls p l s).1.cl.counters = s.cl.counters ∧
    (sendCalls p l s).1.rp.own = s.rp.own ∧ (sendCalls p l s).1.rp.forward = s.rp.forward ∧
    (sendCalls p l s).1.rp.sending = s.rp.sending ∧ (sendCalls p l s).1.rp.turn = s.rp.turn ∧
    (sendCalls p l s).1.rp.assembly = s.rp.assembly ∧ (sendCalls p l s).1.rp.response = s.rp.response := by
  induction l generalizing s with
  | nil => simp [sendCalls]
  | cons b bs ih =>
    simp only [sendCalls, sendCommand]
    split
    · simp
    · split
      · rename_i h
        split at h <;> simp_all
        subst h; simp
      · simp

@[simp] theorem callPiece_keeps (k : Nat) (p : Piece) (s : State) :
    (callPiece k p s).pending = s.pending ∧ (callPiece k p s).due = s.due ∧ (callPiece k p s).resetHeld = s.resetHeld ∧
    (callPiece k p s).ds = s.ds ∧ (callPiece k p s).cu = s.cu ∧ (callPiece k p s).tu.pitch = s.tu.pitch ∧
    (callPiece k p s).tu.layout = s.tu.layout ∧ (callPiece k p s).tu.timing = s.tu.timing ∧ (callPiece k p s).iu = s.iu ∧
    (callPiece k p s).pp = s.pp ∧ (callPiece k p s).su = s.su ∧ (callPiece k p s).bu = s.bu ∧ (callPiece k p s).rc = s.rc ∧
    (callPiece k p s).cl.log = s.cl.log ∧ (callPiece k p s).cl.counters = s.cl.counters ∧
    (callPiece k p s).rp.own = s.rp.own ∧ (callPiece k p s).rp.forward = s.rp.forward ∧
    (callPiece k p s).rp.sending = s.rp.sending ∧ (callPiece k p s).rp.turn = s.rp.turn ∧
    (callPiece k p s).rp.assembly = s.rp.assembly ∧ (callPiece k p s).rp.response = s.rp.response := by
  unfold callPiece
  split <;> simp

@[simp] theorem placeAndPlan_keeps (e : Pitch) (x : SetRec) (s : State) :
    (placeAndPlan e x s).pending = s.pending ∧ (placeAndPlan e x s).due = s.due ∧
    (placeAndPlan e x s).resetHeld = s.resetHeld ∧ (placeAndPlan e x s).cu = s.cu ∧
    (placeAndPlan e x s).tu.pitch = s.tu.pitch ∧ (placeAndPlan e x s).tu.layout = s.tu.layout ∧
    (placeAndPlan e x s).tu.timing = s.tu.timing ∧ (placeAndPlan e x s).pp = s.pp ∧ (placeAndPlan e x s).rc.run = s.rc.run ∧
    (placeAndPlan e x s).rp.own = s.rp.own ∧ (placeAndPlan e x s).rp.forward = s.rp.forward ∧
    (placeAndPlan e x s).rp.sending = s.rp.sending ∧ (placeAndPlan e x s).rp.turn = s.rp.turn ∧
    (placeAndPlan e x s).rp.assembly = s.rp.assembly ∧ (placeAndPlan e x s).rp.response = s.rp.response := by
  simp [placeAndPlan]

@[simp] theorem shiftQueue_keeps (s : State) :
    (shiftQueue s).pending = s.pending ∧ (shiftQueue s).due = s.due ∧ (shiftQueue s).resetHeld = s.resetHeld ∧
    (shiftQueue s).ds = s.ds ∧ (shiftQueue s).tu = s.tu ∧ (shiftQueue s).iu = s.iu ∧ (shiftQueue s).pp = s.pp ∧
    (shiftQueue s).su = s.su ∧ (shiftQueue s).bu = s.bu ∧ (shiftQueue s).rc = s.rc ∧ (shiftQueue s).cl = s.cl ∧
    (shiftQueue s).rp = s.rp := by
  generalize h : shiftQueue s = t
  unfold shiftQueue at h
  try dsimp only at h
  (repeat' split at h) <;> subst h <;> simp

@[simp] theorem releaseHead_keeps (s : State) :
    (releaseHead s).pending = s.pending ∧ (releaseHead s).due = s.due ∧ (releaseHead s).resetHeld = s.resetHeld ∧
    (releaseHead s).tu.pitch = s.tu.pitch ∧ (releaseHead s).tu.layout = s.tu.layout ∧
    (releaseHead s).tu.timing = s.tu.timing ∧ (releaseHead s).pp = s.pp ∧ (releaseHead s).rc.run = s.rc.run ∧
    (releaseHead s).rp.own = s.rp.own ∧ (releaseHead s).rp.forward = s.rp.forward ∧
    (releaseHead s).rp.sending = s.rp.sending ∧ (releaseHead s).rp.turn = s.rp.turn ∧
    (releaseHead s).rp.assembly = s.rp.assembly ∧ (releaseHead s).rp.response = s.rp.response := by
  unfold releaseHead sendCommand
  dsimp only
  split
  · simp
  · split <;> (rename_i h; split at h <;> simp_all; try (subst h; simp))

@[simp] theorem setEntryStatus_keeps (k i : Nat) (x : InsertStatus) (s : State) :
    (setEntryStatus k i x s).pending = s.pending ∧ (setEntryStatus k i x s).due = s.due ∧
    (setEntryStatus k i x s).resetHeld = s.resetHeld ∧ (setEntryStatus k i x s).ds = s.ds ∧
    (setEntryStatus k i x s).cu = s.cu ∧ (setEntryStatus k i x s).tu.pitch = s.tu.pitch ∧
    (setEntryStatus k i x s).tu.layout = s.tu.layout ∧ (setEntryStatus k i x s).tu.timing = s.tu.timing ∧
    (setEntryStatus k i x s).iu = s.iu ∧ (setEntryStatus k i x s).pp = s.pp ∧ (setEntryStatus k i x s).su = s.su ∧
    (setEntryStatus k i x s).bu = s.bu ∧ (setEntryStatus k i x s).rc = s.rc ∧ (setEntryStatus k i x s).cl = s.cl ∧
    (setEntryStatus k i x s).rp = s.rp := by
  generalize h : setEntryStatus k i x s = t
  unfold setEntryStatus at h
  try dsimp only at h
  (repeat' split at h) <;> subst h <;> simp

@[simp] theorem missEntry_keeps (k i : Nat) (f : PieceFault) (s : State) :
    (missEntry k i f s).pending = s.pending ∧ (missEntry k i f s).due = s.due ∧
    (missEntry k i f s).resetHeld = s.resetHeld ∧ (missEntry k i f s).ds = s.ds ∧ (missEntry k i f s).cu = s.cu ∧
    (missEntry k i f s).tu.pitch = s.tu.pitch ∧ (missEntry k i f s).tu.layout = s.tu.layout ∧
    (missEntry k i f s).tu.timing = s.tu.timing ∧ (missEntry k i f s).iu = s.iu ∧ (missEntry k i f s).pp = s.pp ∧
    (missEntry k i f s).su = s.su ∧ (missEntry k i f s).rc = s.rc ∧ (missEntry k i f s).cl.log = s.cl.log ∧
    (missEntry k i f s).cl.counters = s.cl.counters ∧ (missEntry k i f s).rp.own = s.rp.own ∧
    (missEntry k i f s).rp.forward = s.rp.forward ∧ (missEntry k i f s).rp.sending = s.rp.sending ∧
    (missEntry k i f s).rp.turn = s.rp.turn ∧ (missEntry k i f s).rp.assembly = s.rp.assembly ∧
    (missEntry k i f s).rp.response = s.rp.response := by
  simp [missEntry]

@[simp] theorem decideBackup_keeps (k : Nat) (p : Piece) (e : Planned) (f : PieceFault) (s : State) :
    (decideBackup k p e f s).pending = s.pending ∧ (decideBackup k p e f s).due = s.due ∧
    (decideBackup k p e f s).resetHeld = s.resetHeld ∧ (decideBackup k p e f s).ds = s.ds ∧
    (decideBackup k p e f s).cu = s.cu ∧ (decideBackup k p e f s).tu.pitch = s.tu.pitch ∧
    (decideBackup k p e f s).tu.layout = s.tu.layout ∧ (decideBackup k p e f s).tu.timing = s.tu.timing ∧
    (decideBackup k p e f s).iu = s.iu ∧ (decideBackup k p e f s).pp = s.pp ∧ (decideBackup k p e f s).su = s.su ∧
    (decideBackup k p e f s).rc = s.rc ∧ (decideBackup k p e f s).cl.log = s.cl.log ∧
    (decideBackup k p e f s).cl.counters = s.cl.counters ∧ (decideBackup k p e f s).rp.own = s.rp.own ∧
    (decideBackup k p e f s).rp.forward = s.rp.forward ∧ (decideBackup k p e f s).rp.sending = s.rp.sending ∧
    (decideBackup k p e f s).rp.turn = s.rp.turn ∧ (decideBackup k p e f s).rp.assembly = s.rp.assembly ∧
    (decideBackup k p e f s).rp.response = s.rp.response := by
  unfold decideBackup sendCommand
  split
  · split
    · split <;> (rename_i h; split at h <;> simp_all; try (subst h; simp))
    · simp
  · simp

@[simp] theorem takeMiss_keeps (k : Nat) (p : Piece) (e : Planned) (g : Nat) (f : PieceFault) (a : Pitch) (s : State) :
    (takeMiss k p e g f a s).pending = s.pending ∧ (takeMiss k p e g f a s).due = s.due ∧
    (takeMiss k p e g f a s).resetHeld = s.resetHeld ∧ (takeMiss k p e g f a s).ds = s.ds ∧
    (takeMiss k p e g f a s).cu = s.cu ∧ (takeMiss k p e g f a s).tu.pitch = s.tu.pitch ∧
    (takeMiss k p e g f a s).tu.layout = s.tu.layout ∧ (takeMiss k p e g f a s).tu.timing = s.tu.timing ∧
    (takeMiss k p e g f a s).pp = s.pp ∧ (takeMiss k p e g f a s).su = s.su ∧ (takeMiss k p e g f a s).rc = s.rc ∧
    (takeMiss k p e g f a s).cl.log = s.cl.log ∧ (takeMiss k p e g f a s).cl.counters = s.cl.counters ∧
    (takeMiss k p e g f a s).rp.own = s.rp.own ∧ (takeMiss k p e g f a s).rp.forward = s.rp.forward ∧
    (takeMiss k p e g f a s).rp.sending = s.rp.sending ∧ (takeMiss k p e g f a s).rp.turn = s.rp.turn ∧
    (takeMiss k p e g f a s).rp.assembly = s.rp.assembly ∧ (takeMiss k p e g f a s).rp.response = s.rp.response := by
  unfold takeMiss
  dsimp only
  split <;> simp

@[simp] theorem takeFeed_keeps (k : Nat) (p : Piece) (e : Planned) (g o : Nat) (a : Pitch) (s : State) :
    (takeFeed k p e g o a s).pending = s.pending ∧ (takeFeed k p e g o a s).due = s.due ∧
    (takeFeed k p e g o a s).resetHeld = s.resetHeld ∧ (takeFeed k p e g o a s).ds = s.ds ∧
    (takeFeed k p e g o a s).cu = s.cu ∧ (takeFeed k p e g o a s).tu.pitch = s.tu.pitch ∧
    (takeFeed k p e g o a s).tu.layout = s.tu.layout ∧ (takeFeed k p e g o a s).tu.timing = s.tu.timing ∧
    (takeFeed k p e g o a s).pp = s.pp ∧ (takeFeed k p e g o a s).su = s.su ∧ (takeFeed k p e g o a s).rc = s.rc ∧
    (takeFeed k p e g o a s).cl.log = s.cl.log ∧ (takeFeed k p e g o a s).cl.counters = s.cl.counters ∧
    (takeFeed k p e g o a s).rp.own = s.rp.own ∧ (takeFeed k p e g o a s).rp.forward = s.rp.forward ∧
    (takeFeed k p e g o a s).rp.sending = s.rp.sending ∧ (takeFeed k p e g o a s).rp.turn = s.rp.turn ∧
    (takeFeed k p e g o a s).rp.assembly = s.rp.assembly ∧ (takeFeed k p e g o a s).rp.response = s.rp.response := by
  generalize h : takeFeed k p e g o a s = t
  unfold takeFeed at h
  try dsimp only at h
  (repeat' split at h) <;> subst h <;> simp

@[simp] theorem applyFeed_keeps (b : Addr) (g k : Nat) (p : Piece) (o : Byte) (a : Pitch) (s : State) :
    (applyFeed b g k p o a s).pending = s.pending ∧ (applyFeed b g k p o a s).due = s.due ∧
    (applyFeed b g k p o a s).resetHeld = s.resetHeld ∧ (applyFeed b g k p o a s).ds = s.ds ∧
    (applyFeed b g k p o a s).cu = s.cu ∧ (applyFeed b g k p o a s).tu.pitch = s.tu.pitch ∧
    (applyFeed b g k p o a s).tu.layout = s.tu.layout ∧ (applyFeed b g k p o a s).tu.timing = s.tu.timing ∧
    (applyFeed b g k p o a s).pp = s.pp ∧ (applyFeed b g k p o a s).su = s.su ∧ (applyFeed b g k p o a s).rc = s.rc ∧
    (applyFeed b g k p o a s).cl.log = s.cl.log ∧ (applyFeed b g k p o a s).cl.counters = s.cl.counters ∧
    (applyFeed b g k p o a s).rp.own = s.rp.own ∧ (applyFeed b g k p o a s).rp.forward = s.rp.forward ∧
    (applyFeed b g k p o a s).rp.sending = s.rp.sending ∧ (applyFeed b g k p o a s).rp.turn = s.rp.turn ∧
    (applyFeed b g k p o a s).rp.assembly = s.rp.assembly ∧ (applyFeed b g k p o a s).rp.response = s.rp.response := by
  unfold applyFeed dropUnexpected
  split
  · split <;> simp
  · simp

@[simp] theorem feedDeadlineAt_keeps (k i : Nat) (s : State) :
    (feedDeadlineAt k i s).pending = s.pending ∧ (feedDeadlineAt k i s).due = s.due ∧
    (feedDeadlineAt k i s).resetHeld = s.resetHeld ∧ (feedDeadlineAt k i s).ds = s.ds ∧ (feedDeadlineAt k i s).cu = s.cu ∧
    (feedDeadlineAt k i s).tu.pitch = s.tu.pitch ∧ (feedDeadlineAt k i s).tu.layout = s.tu.layout ∧
    (feedDeadlineAt k i s).tu.timing = s.tu.timing ∧ (feedDeadlineAt k i s).pp = s.pp ∧ (feedDeadlineAt k i s).su = s.su ∧
    (feedDeadlineAt k i s).rc = s.rc ∧ (feedDeadlineAt k i s).cl.log = s.cl.log ∧
    (feedDeadlineAt k i s).cl.counters = s.cl.counters ∧ (feedDeadlineAt k i s).rp.own = s.rp.own ∧
    (feedDeadlineAt k i s).rp.forward = s.rp.forward ∧ (feedDeadlineAt k i s).rp.sending = s.rp.sending ∧
    (feedDeadlineAt k i s).rp.turn = s.rp.turn ∧ (feedDeadlineAt k i s).rp.assembly = s.rp.assembly ∧
    (feedDeadlineAt k i s).rp.response = s.rp.response := by
  generalize h : feedDeadlineAt k i s = t
  unfold feedDeadlineAt at h
  try dsimp only at h
  (repeat' split at h) <;> subst h <;> simp

end Sys2Proof.Machine
end

