-- ==== Sys2Proof/Laws/FramesSets.lean ====
section
/-! SUPPORT. What each operation of collation leaves as it was: one lemma per operation. -/

namespace Sys2Proof.Machine

@[simp] theorem completeRecord_keeps (r : OpenRec) (s : State) :
    (completeRecord r s).pending = s.pending ∧ (completeRecord r s).due = s.due ∧
    (completeRecord r s).resetHeld = s.resetHeld ∧ (completeRecord r s).ds = s.ds ∧ (completeRecord r s).tu = s.tu ∧
    (completeRecord r s).iu = s.iu ∧ (completeRecord r s).pp = s.pp ∧ (completeRecord r s).su = s.su ∧
    (completeRecord r s).bu = s.bu ∧ (completeRecord r s).rc = s.rc ∧ (completeRecord r s).cl.log = s.cl.log ∧
    (completeRecord r s).cl.counters = s.cl.counters ∧ (completeRecord r s).rp.own = s.rp.own ∧
    (completeRecord r s).rp.forward = s.rp.forward ∧ (completeRecord r s).rp.sending = s.rp.sending ∧
    (completeRecord r s).rp.turn = s.rp.turn ∧ (completeRecord r s).rp.assembly = s.rp.assembly ∧
    (completeRecord r s).rp.response = s.rp.response := by
  generalize h : completeRecord r s = t
  unfold completeRecord at h
  try dsimp only at h
  (repeat' split at h) <;> subst h <;> simp

@[simp] theorem holdRecord_keeps (r : OpenRec) (s : State) :
    (holdRecord r s).pending = s.pending ∧ (holdRecord r s).due = s.due ∧ (holdRecord r s).resetHeld = s.resetHeld ∧
    (holdRecord r s).ds = s.ds ∧ (holdRecord r s).cu.queue = s.cu.queue ∧ (holdRecord r s).tu = s.tu ∧
    (holdRecord r s).iu = s.iu ∧ (holdRecord r s).pp = s.pp ∧ (holdRecord r s).su = s.su ∧ (holdRecord r s).bu = s.bu ∧
    (holdRecord r s).rc = s.rc ∧ (holdRecord r s).cl = s.cl ∧ (holdRecord r s).rp = s.rp := by
  simp [holdRecord]

@[simp] theorem settleRecord_keeps (d : Bool) (r : OpenRec) (s : State) :
    (settleRecord d r s).pending = s.pending ∧ (settleRecord d r s).due = s.due ∧
    (settleRecord d r s).resetHeld = s.resetHeld ∧ (settleRecord d r s).ds = s.ds ∧ (settleRecord d r s).tu = s.tu ∧
    (settleRecord d r s).iu = s.iu ∧ (settleRecord d r s).pp = s.pp ∧ (settleRecord d r s).su = s.su ∧
    (settleRecord d r s).bu = s.bu ∧ (settleRecord d r s).rc = s.rc ∧ (settleRecord d r s).cl.log = s.cl.log ∧
    (settleRecord d r s).cl.counters = s.cl.counters ∧ (settleRecord d r s).rp.own = s.rp.own ∧
    (settleRecord d r s).rp.forward = s.rp.forward ∧ (settleRecord d r s).rp.sending = s.rp.sending ∧
    (settleRecord d r s).rp.turn = s.rp.turn ∧ (settleRecord d r s).rp.assembly = s.rp.assembly ∧
    (settleRecord d r s).rp.response = s.rp.response := by
  generalize h : settleRecord d r s = t
  unfold settleRecord at h
  try dsimp only at h
  (repeat' split at h) <;> subst h <;> simp

@[simp] theorem countSheet_keeps (b : Bool) (s : State) :
    (countSheet b s).pending = s.pending ∧ (countSheet b s).due = s.due ∧ (countSheet b s).resetHeld = s.resetHeld ∧
    (countSheet b s).ds = s.ds ∧ (countSheet b s).cu = s.cu ∧ (countSheet b s).tu = s.tu ∧ (countSheet b s).iu = s.iu ∧
    (countSheet b s).pp = s.pp ∧ (countSheet b s).su = s.su ∧ (countSheet b s).bu = s.bu ∧ (countSheet b s).rc = s.rc ∧
    (countSheet b s).cl.log = s.cl.log ∧ (countSheet b s).rp = s.rp := by
  simp [countSheet]

@[simp] theorem sheetOverrun_keeps (a : Addr) (i : Option PieceId) (s : State) :
    (sheetOverrun a i s).pending = s.pending ∧ (sheetOverrun a i s).due = s.due ∧
    (sheetOverrun a i s).resetHeld = s.resetHeld ∧ (sheetOverrun a i s).ds = s.ds ∧
    (sheetOverrun a i s).cu.place = s.cu.place ∧ (sheetOverrun a i s).cu.queue = s.cu.queue ∧
    (sheetOverrun a i s).tu = s.tu ∧ (sheetOverrun a i s).iu = s.iu ∧ (sheetOverrun a i s).pp = s.pp ∧
    (sheetOverrun a i s).su = s.su ∧ (sheetOverrun a i s).bu = s.bu ∧ (sheetOverrun a i s).rc.run = s.rc.run ∧
    (sheetOverrun a i s).cl.log = s.cl.log ∧ (sheetOverrun a i s).cl.counters = s.cl.counters ∧
    (sheetOverrun a i s).rp.own = s.rp.own ∧ (sheetOverrun a i s).rp.forward = s.rp.forward ∧
    (sheetOverrun a i s).rp.sending = s.rp.sending ∧ (sheetOverrun a i s).rp.turn = s.rp.turn ∧
    (sheetOverrun a i s).rp.assembly = s.rp.assembly ∧ (sheetOverrun a i s).rp.response = s.rp.response := by
  simp [sheetOverrun]

@[simp] theorem openRecord_keeps (b : Bool) (r : OpenRec) (s : State) :
    (openRecord b r s).pending = s.pending ∧ (openRecord b r s).due = s.due ∧ (openRecord b r s).resetHeld = s.resetHeld ∧
    (openRecord b r s).ds = s.ds ∧ (openRecord b r s).cu.queue = s.cu.queue ∧ (openRecord b r s).tu = s.tu ∧
    (openRecord b r s).iu = s.iu ∧ (openRecord b r s).pp = s.pp ∧ (openRecord b r s).su = s.su ∧
    (openRecord b r s).bu = s.bu ∧ (openRecord b r s).rc = s.rc ∧ (openRecord b r s).cl.log = s.cl.log ∧
    (openRecord b r s).rp.own = s.rp.own ∧ (openRecord b r s).rp.forward = s.rp.forward ∧
    (openRecord b r s).rp.sending = s.rp.sending ∧ (openRecord b r s).rp.turn = s.rp.turn ∧
    (openRecord b r s).rp.assembly = s.rp.assembly ∧ (openRecord b r s).rp.response = s.rp.response := by
  simp [openRecord]

@[simp] theorem openSheet_keeps (a : Addr) (x : SheetRead) (s : State) :
    (openSheet a x s).pending = s.pending ∧ (openSheet a x s).due = s.due ∧ (openSheet a x s).resetHeld = s.resetHeld ∧
    (openSheet a x s).tu = s.tu ∧ (openSheet a x s).iu = s.iu ∧ (openSheet a x s).pp = s.pp ∧ (openSheet a x s).su = s.su ∧
    (openSheet a x s).bu = s.bu ∧ (openSheet a x s).rc.run = s.rc.run ∧ (openSheet a x s).cl.log = s.cl.log ∧
    (openSheet a x s).rp.own = s.rp.own ∧ (openSheet a x s).rp.forward = s.rp.forward ∧
    (openSheet a x s).rp.sending = s.rp.sending ∧ (openSheet a x s).rp.turn = s.rp.turn ∧
    (openSheet a x s).rp.assembly = s.rp.assembly ∧ (openSheet a x s).rp.response = s.rp.response := by
  unfold openSheet
  dsimp only
  split
  · simp
  · split
    · split <;> simp
    · simp

@[simp] theorem afterEnding_keeps (a : Addr) (x : SheetRead) (s : State) :
    (afterEnding a x s).pending = s.pending ∧ (afterEnding a x s).due = s.due ∧
    (afterEnding a x s).resetHeld = s.resetHeld ∧ (afterEnding a x s).tu = s.tu ∧ (afterEnding a x s).iu = s.iu ∧
    (afterEnding a x s).pp = s.pp ∧ (afterEnding a x s).su = s.su ∧ (afterEnding a x s).bu = s.bu ∧
    (afterEnding a x s).rc.run = s.rc.run ∧ (afterEnding a x s).cl.log = s.cl.log ∧ (afterEnding a x s).rp.own = s.rp.own ∧
    (afterEnding a x s).rp.forward = s.rp.forward ∧ (afterEnding a x s).rp.sending = s.rp.sending ∧
    (afterEnding a x s).rp.turn = s.rp.turn ∧ (afterEnding a x s).rp.assembly = s.rp.assembly ∧
    (afterEnding a x s).rp.response = s.rp.response := by
  generalize h : afterEnding a x s = t
  unfold afterEnding at h
  try dsimp only at h
  (repeat' split at h) <;> subst h <;> simp

@[simp] theorem ownSheet_keeps (r : OpenRec) (n i c : Nat) (s : State) :
    (ownSheet r n i c s).pending = s.pending ∧ (ownSheet r n i c s).due = s.due ∧
    (ownSheet r n i c s).resetHeld = s.resetHeld ∧ (ownSheet r n i c s).ds = s.ds ∧ (ownSheet r n i c s).tu = s.tu ∧
    (ownSheet r n i c s).iu = s.iu ∧ (ownSheet r n i c s).pp = s.pp ∧ (ownSheet r n i c s).su = s.su ∧
    (ownSheet r n i c s).bu = s.bu ∧ (ownSheet r n i c s).rc = s.rc ∧ (ownSheet r n i c s).cl.log = s.cl.log ∧
    (ownSheet r n i c s).rp.own = s.rp.own ∧ (ownSheet r n i c s).rp.forward = s.rp.forward ∧
    (ownSheet r n i c s).rp.sending = s.rp.sending ∧ (ownSheet r n i c s).rp.turn = s.rp.turn ∧
    (ownSheet r n i c s).rp.assembly = s.rp.assembly ∧ (ownSheet r n i c s).rp.response = s.rp.response := by
  simp [ownSheet]

@[simp] theorem noReadSheet_keeps (r : OpenRec) (n : Nat) (s : State) :
    (noReadSheet r n s).pending = s.pending ∧ (noReadSheet r n s).due = s.due ∧
    (noReadSheet r n s).resetHeld = s.resetHeld ∧ (noReadSheet r n s).ds = s.ds ∧ (noReadSheet r n s).tu = s.tu ∧
    (noReadSheet r n s).iu = s.iu ∧ (noReadSheet r n s).pp = s.pp ∧ (noReadSheet r n s).su = s.su ∧
    (noReadSheet r n s).bu = s.bu ∧ (noReadSheet r n s).rc = s.rc ∧ (noReadSheet r n s).cl.log = s.cl.log ∧
    (noReadSheet r n s).rp.own = s.rp.own ∧ (noReadSheet r n s).rp.forward = s.rp.forward ∧
    (noReadSheet r n s).rp.sending = s.rp.sending ∧ (noReadSheet r n s).rp.turn = s.rp.turn ∧
    (noReadSheet r n s).rp.assembly = s.rp.assembly ∧ (noReadSheet r n s).rp.response = s.rp.response := by
  simp [noReadSheet]

@[simp] theorem namedSheet_keeps (a : Addr) (r : OpenRec) (i : PieceId) (n : Nat) (x : SheetRead) (s : State) :
    (namedSheet a r i n x s).pending = s.pending ∧ (namedSheet a r i n x s).due = s.due ∧
    (namedSheet a r i n x s).resetHeld = s.resetHeld ∧ (namedSheet a r i n x s).tu = s.tu ∧
    (namedSheet a r i n x s).iu = s.iu ∧ (namedSheet a r i n x s).pp = s.pp ∧ (namedSheet a r i n x s).su = s.su ∧
    (namedSheet a r i n x s).bu = s.bu ∧ (namedSheet a r i n x s).rc.run = s.rc.run ∧
    (namedSheet a r i n x s).cl.log = s.cl.log ∧ (namedSheet a r i n x s).rp.own = s.rp.own ∧
    (namedSheet a r i n x s).rp.forward = s.rp.forward ∧ (namedSheet a r i n x s).rp.sending = s.rp.sending ∧
    (namedSheet a r i n x s).rp.turn = s.rp.turn ∧ (namedSheet a r i n x s).rp.assembly = s.rp.assembly ∧
    (namedSheet a r i n x s).rp.response = s.rp.response := by
  unfold namedSheet
  split
  · split <;> simp
  · simp

@[simp] theorem anonymousSheet_keeps (a : Addr) (r : OpenRec) (x : SheetRead) (s : State) :
    (anonymousSheet a r x s).pending = s.pending ∧ (anonymousSheet a r x s).due = s.due ∧
    (anonymousSheet a r x s).resetHeld = s.resetHeld ∧ (anonymousSheet a r x s).tu = s.tu ∧
    (anonymousSheet a r x s).iu = s.iu ∧ (anonymousSheet a r x s).pp = s.pp ∧ (anonymousSheet a r x s).su = s.su ∧
    (anonymousSheet a r x s).bu = s.bu ∧ (anonymousSheet a r x s).rc.run = s.rc.run ∧
    (anonymousSheet a r x s).cl.log = s.cl.log ∧ (anonymousSheet a r x s).rp.own = s.rp.own ∧
    (anonymousSheet a r x s).rp.forward = s.rp.forward ∧ (anonymousSheet a r x s).rp.sending = s.rp.sending ∧
    (anonymousSheet a r x s).rp.turn = s.rp.turn ∧ (anonymousSheet a r x s).rp.assembly = s.rp.assembly ∧
    (anonymousSheet a r x s).rp.response = s.rp.response := by
  unfold anonymousSheet
  dsimp only
  split
  · simp
  · split <;> simp

@[simp] theorem collateSheet_keeps (a : Addr) (x : SheetRead) (s : State) :
    (collateSheet a x s).pending = s.pending ∧ (collateSheet a x s).due = s.due ∧
    (collateSheet a x s).resetHeld = s.resetHeld ∧ (collateSheet a x s).tu = s.tu ∧ (collateSheet a x s).iu = s.iu ∧
    (collateSheet a x s).pp = s.pp ∧ (collateSheet a x s).su = s.su ∧ (collateSheet a x s).bu = s.bu ∧
    (collateSheet a x s).rc.run = s.rc.run ∧ (collateSheet a x s).cl.log = s.cl.log ∧
    (collateSheet a x s).rp.own = s.rp.own ∧ (collateSheet a x s).rp.forward = s.rp.forward ∧
    (collateSheet a x s).rp.sending = s.rp.sending ∧ (collateSheet a x s).rp.turn = s.rp.turn ∧
    (collateSheet a x s).rp.assembly = s.rp.assembly ∧ (collateSheet a x s).rp.response = s.rp.response := by
  generalize h : collateSheet a x s = t
  unfold collateSheet at h
  try dsimp only at h
  (repeat' split at h) <;> subst h <;> simp

@[simp] theorem lateSheet_keeps (a : Addr) (x : SheetRead) (s : State) :
    (lateSheet a x s).pending = s.pending ∧ (lateSheet a x s).due = s.due ∧ (lateSheet a x s).resetHeld = s.resetHeld ∧
    (lateSheet a x s).tu = s.tu ∧ (lateSheet a x s).iu = s.iu ∧ (lateSheet a x s).pp = s.pp ∧ (lateSheet a x s).su = s.su ∧
    (lateSheet a x s).bu = s.bu ∧ (lateSheet a x s).rc.run = s.rc.run ∧ (lateSheet a x s).cl.log = s.cl.log ∧
    (lateSheet a x s).rp.own = s.rp.own ∧ (lateSheet a x s).rp.forward = s.rp.forward ∧
    (lateSheet a x s).rp.sending = s.rp.sending ∧ (lateSheet a x s).rp.turn = s.rp.turn ∧
    (lateSheet a x s).rp.assembly = s.rp.assembly ∧ (lateSheet a x s).rp.response = s.rp.response := by
  unfold lateSheet
  dsimp only
  split
  · simp
  · split
    · simp
    · split <;> simp

@[simp] theorem takeSheet_keeps (a : Addr) (x : SheetRead) (s : State) :
    (takeSheet a x s).pending = s.pending ∧ (takeSheet a x s).due = s.due ∧ (takeSheet a x s).resetHeld = s.resetHeld ∧
    (takeSheet a x s).tu = s.tu ∧ (takeSheet a x s).iu = s.iu ∧ (takeSheet a x s).pp = s.pp ∧ (takeSheet a x s).su = s.su ∧
    (takeSheet a x s).bu = s.bu ∧ (takeSheet a x s).rc.run = s.rc.run ∧ (takeSheet a x s).cl.log = s.cl.log ∧
    (takeSheet a x s).rp.own = s.rp.own ∧ (takeSheet a x s).rp.forward = s.rp.forward ∧
    (takeSheet a x s).rp.sending = s.rp.sending ∧ (takeSheet a x s).rp.turn = s.rp.turn ∧
    (takeSheet a x s).rp.assembly = s.rp.assembly ∧ (takeSheet a x s).rp.response = s.rp.response := by
  unfold takeSheet dropUnexpected
  split <;> simp

@[simp] theorem completeAtEnd_keeps (s : State) :
    (completeAtEnd s).pending = s.pending ∧ (completeAtEnd s).due = s.due ∧ (completeAtEnd s).resetHeld = s.resetHeld ∧
    (completeAtEnd s).ds = s.ds ∧ (completeAtEnd s).tu = s.tu ∧ (completeAtEnd s).iu = s.iu ∧ (completeAtEnd s).pp = s.pp ∧
    (completeAtEnd s).su = s.su ∧ (completeAtEnd s).bu = s.bu ∧ (completeAtEnd s).rc = s.rc ∧
    (completeAtEnd s).cl.log = s.cl.log ∧ (completeAtEnd s).cl.counters = s.cl.counters ∧
    (completeAtEnd s).rp.own = s.rp.own ∧ (completeAtEnd s).rp.forward = s.rp.forward ∧
    (completeAtEnd s).rp.sending = s.rp.sending ∧ (completeAtEnd s).rp.turn = s.rp.turn ∧
    (completeAtEnd s).rp.assembly = s.rp.assembly ∧ (completeAtEnd s).rp.response = s.rp.response := by
  generalize h : completeAtEnd s = t
  unfold completeAtEnd at h
  try dsimp only at h
  (repeat' split at h) <;> subst h <;> simp

end Sys2Proof.Machine
end

