-- ==== Sys2Proof/Laws/FramesArrival.lean ====
section
/-! SUPPORT. What each operation of an arrival and the settling of outstanding work leaves as it was: one lemma per operation. -/

namespace Sys2Proof.Machine

@[simp] theorem pushSegment_keeps (s : State) :
    (pushSegment s).pending = s.pending ∧ (pushSegment s).due = s.due ∧ (pushSegment s).resetHeld = s.resetHeld ∧
    (pushSegment s).ds = s.ds ∧ (pushSegment s).cu = s.cu ∧ (pushSegment s).tu = s.tu ∧ (pushSegment s).iu = s.iu ∧
    (pushSegment s).pp = s.pp ∧ (pushSegment s).su = s.su ∧ (pushSegment s).bu = s.bu ∧ (pushSegment s).rc = s.rc ∧
    (pushSegment s).cl = s.cl ∧ (pushSegment s).rp.own = s.rp.own ∧ (pushSegment s).rp.forward = s.rp.forward ∧
    (pushSegment s).rp.sending = s.rp.sending ∧ (pushSegment s).rp.turn = s.rp.turn ∧
    (pushSegment s).rp.assembly = s.rp.assembly := by
  unfold pushSegment
  dsimp only
  split
  · split
    · split <;> simp
    · simp
  · simp

@[simp] theorem pushSegments_keeps (s : State) :
    (pushSegments s).pending = s.pending ∧ (pushSegments s).due = s.due ∧ (pushSegments s).resetHeld = s.resetHeld ∧
    (pushSegments s).ds = s.ds ∧ (pushSegments s).cu = s.cu ∧ (pushSegments s).tu = s.tu ∧ (pushSegments s).iu = s.iu ∧
    (pushSegments s).pp = s.pp ∧ (pushSegments s).su = s.su ∧ (pushSegments s).bu = s.bu ∧ (pushSegments s).rc = s.rc ∧
    (pushSegments s).cl = s.cl ∧ (pushSegments s).rp.own = s.rp.own ∧ (pushSegments s).rp.forward = s.rp.forward ∧
    (pushSegments s).rp.sending = s.rp.sending ∧ (pushSegments s).rp.turn = s.rp.turn ∧
    (pushSegments s).rp.assembly = s.rp.assembly := by
  simp [pushSegments]

@[simp] theorem appendHeld_keeps (s : State) :
    (appendHeld s).pending = s.pending ∧ (appendHeld s).due = s.due ∧ (appendHeld s).resetHeld = s.resetHeld ∧
    (appendHeld s).ds = s.ds ∧ (appendHeld s).cu = s.cu ∧ (appendHeld s).tu = s.tu ∧ (appendHeld s).pp = s.pp ∧
    (appendHeld s).rc.run = s.rc.run ∧ (appendHeld s).cl.log = s.cl.log ∧ (appendHeld s).cl.counters = s.cl.counters ∧
    (appendHeld s).rp.own = s.rp.own ∧ (appendHeld s).rp.forward = s.rp.forward ∧ (appendHeld s).rp.sending = s.rp.sending ∧
    (appendHeld s).rp.turn = s.rp.turn ∧ (appendHeld s).rp.assembly = s.rp.assembly ∧
    (appendHeld s).rp.response = s.rp.response := by
  generalize h : appendHeld s = t
  unfold appendHeld at h
  try dsimp only at h
  (repeat' split at h) <;> subst h <;> simp

@[simp] theorem appendAllHeld_keeps (n : Nat) (s : State) :
    (appendAllHeld n s).pending = s.pending ∧ (appendAllHeld n s).due = s.due ∧
    (appendAllHeld n s).resetHeld = s.resetHeld ∧ (appendAllHeld n s).ds = s.ds ∧ (appendAllHeld n s).cu = s.cu ∧
    (appendAllHeld n s).tu = s.tu ∧ (appendAllHeld n s).pp = s.pp ∧ (appendAllHeld n s).rc.run = s.rc.run ∧
    (appendAllHeld n s).cl.log = s.cl.log ∧ (appendAllHeld n s).cl.counters = s.cl.counters ∧
    (appendAllHeld n s).rp.own = s.rp.own ∧ (appendAllHeld n s).rp.forward = s.rp.forward ∧
    (appendAllHeld n s).rp.sending = s.rp.sending ∧ (appendAllHeld n s).rp.turn = s.rp.turn ∧
    (appendAllHeld n s).rp.assembly = s.rp.assembly ∧ (appendAllHeld n s).rp.response = s.rp.response := by
  induction n generalizing s with
  | zero => simp [appendAllHeld]
  | succ n ih => simp [appendAllHeld, ih]

@[simp] theorem feedDeadlines_keeps (l : List (Nat × Nat)) (s : State) :
    (feedDeadlines l s).pending = s.pending ∧ (feedDeadlines l s).due = s.due ∧
    (feedDeadlines l s).resetHeld = s.resetHeld ∧ (feedDeadlines l s).ds = s.ds ∧ (feedDeadlines l s).cu = s.cu ∧
    (feedDeadlines l s).tu.pitch = s.tu.pitch ∧ (feedDeadlines l s).tu.layout = s.tu.layout ∧
    (feedDeadlines l s).tu.timing = s.tu.timing ∧ (feedDeadlines l s).pp = s.pp ∧ (feedDeadlines l s).su = s.su ∧
    (feedDeadlines l s).rc = s.rc ∧ (feedDeadlines l s).cl.log = s.cl.log ∧
    (feedDeadlines l s).cl.counters = s.cl.counters ∧ (feedDeadlines l s).rp.own = s.rp.own ∧
    (feedDeadlines l s).rp.forward = s.rp.forward ∧ (feedDeadlines l s).rp.sending = s.rp.sending ∧
    (feedDeadlines l s).rp.turn = s.rp.turn ∧ (feedDeadlines l s).rp.assembly = s.rp.assembly ∧
    (feedDeadlines l s).rp.response = s.rp.response := by
  induction l generalizing s with
  | nil => simp [feedDeadlines]
  | cons b bs ih => simp [feedDeadlines, ih]

@[simp] theorem verifyDeadlines_keeps (l : List Nat) (s : State) :
    (verifyDeadlines l s).pending = s.pending ∧ (verifyDeadlines l s).due = s.due ∧
    (verifyDeadlines l s).resetHeld = s.resetHeld ∧ (verifyDeadlines l s).ds = s.ds ∧ (verifyDeadlines l s).cu = s.cu ∧
    (verifyDeadlines l s).tu.pitch = s.tu.pitch ∧ (verifyDeadlines l s).tu.layout = s.tu.layout ∧
    (verifyDeadlines l s).tu.timing = s.tu.timing ∧ (verifyDeadlines l s).iu = s.iu ∧ (verifyDeadlines l s).pp = s.pp ∧
    (verifyDeadlines l s).su = s.su ∧ (verifyDeadlines l s).rc = s.rc ∧ (verifyDeadlines l s).cl.log = s.cl.log ∧
    (verifyDeadlines l s).cl.counters = s.cl.counters ∧ (verifyDeadlines l s).rp.own = s.rp.own ∧
    (verifyDeadlines l s).rp.forward = s.rp.forward ∧ (verifyDeadlines l s).rp.sending = s.rp.sending ∧
    (verifyDeadlines l s).rp.turn = s.rp.turn ∧ (verifyDeadlines l s).rp.assembly = s.rp.assembly ∧
    (verifyDeadlines l s).rp.response = s.rp.response := by
  induction l generalizing s with
  | nil => simp [verifyDeadlines]
  | cons b bs ih => simp [verifyDeadlines, ih]

@[simp] theorem exitDeadlines_keeps (l : List Nat) (s : State) :
    (exitDeadlines l s).pending = s.pending ∧ (exitDeadlines l s).due = s.due ∧
    (exitDeadlines l s).resetHeld = s.resetHeld ∧ (exitDeadlines l s).cu = s.cu ∧
    (exitDeadlines l s).tu.pitch = s.tu.pitch ∧ (exitDeadlines l s).tu.layout = s.tu.layout ∧
    (exitDeadlines l s).tu.timing = s.tu.timing ∧ (exitDeadlines l s).pp = s.pp ∧ (exitDeadlines l s).rc.run = s.rc.run ∧
    (exitDeadlines l s).rp.own = s.rp.own ∧ (exitDeadlines l s).rp.forward = s.rp.forward ∧
    (exitDeadlines l s).rp.sending = s.rp.sending ∧ (exitDeadlines l s).rp.turn = s.rp.turn ∧
    (exitDeadlines l s).rp.assembly = s.rp.assembly ∧ (exitDeadlines l s).rp.response = s.rp.response := by
  induction l generalizing s with
  | nil => simp [exitDeadlines]
  | cons b bs ih => simp [exitDeadlines, ih]

@[simp] theorem dueDeadlines_keeps (s : State) :
    (dueDeadlines s).pending = s.pending ∧ (dueDeadlines s).resetHeld = s.resetHeld ∧ (dueDeadlines s).cu = s.cu ∧
    (dueDeadlines s).tu.pitch = s.tu.pitch ∧ (dueDeadlines s).tu.layout = s.tu.layout ∧
    (dueDeadlines s).tu.timing = s.tu.timing ∧ (dueDeadlines s).pp = s.pp ∧ (dueDeadlines s).rc.run = s.rc.run ∧
    (dueDeadlines s).rp.own = s.rp.own ∧ (dueDeadlines s).rp.forward = s.rp.forward ∧
    (dueDeadlines s).rp.sending = s.rp.sending ∧ (dueDeadlines s).rp.turn = s.rp.turn ∧
    (dueDeadlines s).rp.assembly = s.rp.assembly ∧ (dueDeadlines s).rp.response = s.rp.response := by
  unfold dueDeadlines allDeadlines
  split <;> simp

@[simp] theorem dueMapCopy_keeps (s : State) :
    (dueMapCopy s).pending = s.pending ∧ (dueMapCopy s).resetHeld = s.resetHeld ∧ (dueMapCopy s).ds = s.ds ∧
    (dueMapCopy s).cu = s.cu ∧ (dueMapCopy s).tu = s.tu ∧ (dueMapCopy s).pp = s.pp ∧ (dueMapCopy s).su = s.su ∧
    (dueMapCopy s).bu = s.bu ∧ (dueMapCopy s).rc = s.rc ∧ (dueMapCopy s).cl.log = s.cl.log ∧
    (dueMapCopy s).cl.counters = s.cl.counters ∧ (dueMapCopy s).rp.own = s.rp.own ∧
    (dueMapCopy s).rp.forward = s.rp.forward ∧ (dueMapCopy s).rp.sending = s.rp.sending ∧
    (dueMapCopy s).rp.turn = s.rp.turn ∧ (dueMapCopy s).rp.assembly = s.rp.assembly ∧
    (dueMapCopy s).rp.response = s.rp.response := by
  generalize h : dueMapCopy s = t
  unfold dueMapCopy at h
  try dsimp only at h
  (repeat' split at h) <;> subst h <;> simp

@[simp] theorem duePlanCopy_keeps (s : State) :
    (duePlanCopy s).pending = s.pending ∧ (duePlanCopy s).resetHeld = s.resetHeld ∧ (duePlanCopy s).ds = s.ds ∧
    (duePlanCopy s).cu = s.cu ∧ (duePlanCopy s).tu = s.tu ∧ (duePlanCopy s).iu = s.iu ∧ (duePlanCopy s).pp = s.pp ∧
    (duePlanCopy s).rc = s.rc ∧ (duePlanCopy s).cl.log = s.cl.log ∧ (duePlanCopy s).cl.counters = s.cl.counters ∧
    (duePlanCopy s).rp.own = s.rp.own ∧ (duePlanCopy s).rp.forward = s.rp.forward ∧
    (duePlanCopy s).rp.sending = s.rp.sending ∧ (duePlanCopy s).rp.turn = s.rp.turn ∧
    (duePlanCopy s).rp.assembly = s.rp.assembly ∧ (duePlanCopy s).rp.response = s.rp.response := by
  generalize h : duePlanCopy s = t
  unfold duePlanCopy at h
  try dsimp only at h
  (repeat' split at h) <;> subst h <;> simp

@[simp] theorem dueTrayRetry_keeps (s : State) :
    (dueTrayRetry s).pending = s.pending ∧ (dueTrayRetry s).resetHeld = s.resetHeld ∧ (dueTrayRetry s).ds = s.ds ∧
    (dueTrayRetry s).cu = s.cu ∧ (dueTrayRetry s).tu = s.tu ∧ (dueTrayRetry s).iu = s.iu ∧ (dueTrayRetry s).pp = s.pp ∧
    (dueTrayRetry s).su = s.su ∧ (dueTrayRetry s).rc = s.rc ∧ (dueTrayRetry s).cl = s.cl ∧
    (dueTrayRetry s).rp.own = s.rp.own ∧ (dueTrayRetry s).rp.forward = s.rp.forward ∧
    (dueTrayRetry s).rp.sending = s.rp.sending ∧ (dueTrayRetry s).rp.turn = s.rp.turn ∧
    (dueTrayRetry s).rp.assembly = s.rp.assembly ∧ (dueTrayRetry s).rp.response = s.rp.response := by
  generalize h : dueTrayRetry s = t
  unfold dueTrayRetry at h
  try dsimp only at h
  (repeat' split at h) <;> subst h <;> simp

@[simp] theorem dueRelease_keeps (s : State) :
    (dueRelease s).pending = s.pending ∧ (dueRelease s).resetHeld = s.resetHeld ∧ (dueRelease s).tu.pitch = s.tu.pitch ∧
    (dueRelease s).tu.layout = s.tu.layout ∧ (dueRelease s).tu.timing = s.tu.timing ∧ (dueRelease s).pp = s.pp ∧
    (dueRelease s).rc.run = s.rc.run ∧ (dueRelease s).rp.own = s.rp.own ∧ (dueRelease s).rp.forward = s.rp.forward ∧
    (dueRelease s).rp.sending = s.rp.sending ∧ (dueRelease s).rp.turn = s.rp.turn ∧
    (dueRelease s).rp.assembly = s.rp.assembly ∧ (dueRelease s).rp.response = s.rp.response := by
  unfold dueRelease
  dsimp only
  split
  · split <;> simp
  · simp

@[simp] theorem arrivalWork_keeps (s : State) :
    (arrivalWork s).pending = s.pending ∧ (arrivalWork s).resetHeld = s.resetHeld ∧ (arrivalWork s).tu.pitch = s.tu.pitch ∧
    (arrivalWork s).tu.layout = s.tu.layout ∧ (arrivalWork s).tu.timing = s.tu.timing ∧ (arrivalWork s).pp = s.pp ∧
    (arrivalWork s).rc.run = s.rc.run ∧ (arrivalWork s).rp.own = s.rp.own ∧ (arrivalWork s).rp.forward = s.rp.forward ∧
    (arrivalWork s).rp.sending = s.rp.sending ∧ (arrivalWork s).rp.turn = s.rp.turn ∧
    (arrivalWork s).rp.assembly = s.rp.assembly ∧ (arrivalWork s).rp.response = s.rp.response := by
  simp [arrivalWork]

@[simp] theorem offers_keeps (s : State) :
    (offers s).pending = s.pending ∧ (offers s).due = s.due ∧ (offers s).resetHeld = s.resetHeld ∧ (offers s).ds = s.ds ∧
    (offers s).cu.place = s.cu.place ∧ (offers s).cu.queue = s.cu.queue ∧ (offers s).tu = s.tu ∧ (offers s).pp = s.pp ∧
    (offers s).rc.run = s.rc.run ∧ (offers s).cl.log = s.cl.log ∧ (offers s).cl.counters = s.cl.counters ∧
    (offers s).rp.own = s.rp.own ∧ (offers s).rp.forward = s.rp.forward ∧ (offers s).rp.sending = s.rp.sending ∧
    (offers s).rp.turn = s.rp.turn ∧ (offers s).rp.assembly = s.rp.assembly := by
  simp [offers]

@[simp] theorem settle_keeps (s : State) :
    (settle s).pending = s.pending ∧ (settle s).resetHeld = s.resetHeld ∧ (settle s).tu.pitch = s.tu.pitch ∧
    (settle s).tu.layout = s.tu.layout ∧ (settle s).tu.timing = s.tu.timing ∧ (settle s).pp = s.pp ∧
    (settle s).rc.run = s.rc.run ∧ (settle s).rp.own = s.rp.own ∧ (settle s).rp.forward = s.rp.forward ∧
    (settle s).rp.sending = s.rp.sending ∧ (settle s).rp.turn = s.rp.turn ∧ (settle s).rp.assembly = s.rp.assembly := by
  simp [settle]

end Sys2Proof.Machine
end

