-- ==== Sys2Proof/Laws/Answers.lean ====
section
/-! SUPPORT. What the attention summary, a response and an answered request add to a state: one lemma for each shared operation. -/

namespace Sys2Proof.Machine

/-! ## Flags and the ALERT -/

/-- Placing an ALERT: nothing, or the pending mark down and one frame behind the others (R175). -/
theorem placeAlert_cases (s : State) :
    (alertPlaceable s = false ∧ placeAlert s = s) ∨
    (alertPlaceable s = true ∧ placeAlert s = withRp (withCl s { s.cl with alertPending := false })
      { s.rp with originate := s.rp.originate ++ [⟨s.tu.layout.lineComputer, .alert, stampNow s, summaryBytes s.cl.summary⟩] }) := by
  unfold placeAlert
  cases h : alertPlaceable s
  · exact Or.inl ⟨rfl, rfl⟩
  · exact Or.inr ⟨rfl, rfl⟩

theorem placeAlert_summary (s : State) :
    (placeAlert s).cl.summary = s.cl.summary ∧ (placeAlert s).cl.capture = s.cl.capture := by
  rcases placeAlert_cases s with ⟨-, h⟩ | ⟨-, h⟩ <;> rw [h] <;> exact ⟨rfl, rfl⟩

theorem placeAlert_pending {s : State} (h : (placeAlert s).cl.alertPending = true) : s.cl.alertPending = true := by
  rcases placeAlert_cases s with ⟨-, e⟩ | ⟨-, e⟩ <;> rw [e] at h
  · exact h
  · simp at h

/-- What joins the originate queue when an ALERT is placed: that one frame at most. -/
theorem placeAlert_adds (s : State) :
    ∃ more, (placeAlert s).rp.originate = s.rp.originate ++ more ∧ ∀ f ∈ more, f.kind = .alert := by
  rcases placeAlert_cases s with ⟨-, h⟩ | ⟨-, h⟩ <;> rw [h]
  · exact ⟨[], by simp⟩
  · exact ⟨[_], rfl, by simp⟩

theorem alertPlaceable_iff (s : State) : alertPlaceable s = true ↔
    s.cl.alertPending = true ∧ managementRoom s = true ∧ s.rp.response = none ∧ s.tu.layout.lineComputer ≠ 63#6 := by
  simp only [alertPlaceable, Bool.and_eq_true, bne_iff_ne, Option.isNone_iff_eq_none, and_assoc, Config.unassigned]

/-- A cause taken changes the flag, the capture and the ALERT alone (R172, R173, R175). -/
theorem raise_flagOnly (f : Flag) (a : Option Addr) (p : Option Pitch) (i : Option PieceId) (s : State) :
    FlagOnly f a p i s (raise f a p i s) := by
  have k := raise_keeps f a p i s
  refine ⟨⟨?_, ?_, by simp, by simp⟩, by simp [SameBlocks], fun h => ?_, fun h => by simp [raise, h]⟩
  · unfold raise; split
    · rename_i h; rw [(placeAlert_summary _).1, h]; simp
    · rfl
  · unfold raise; split
    · rw [(placeAlert_summary _).2]; rfl
    · rfl
  · unfold raise; rw [if_pos h]
    generalize hu : withCl s { s.cl with summary := flagMask f, capture := some ⟨f, a, p, i⟩, alertPending := true } = u
    have hp := alertPlaceable_iff u
    refine ⟨fun h1 h2 h3 => ?_, fun h => ?_⟩
    · have : alertPlaceable u = true := by rw [hp]; subst hu; exact ⟨rfl, h1, h2, h3⟩
      unfold placeAlert; rw [if_pos this]; subst hu; exact ⟨rfl, rfl⟩
    · have : ¬alertPlaceable u = true := by
        rw [hp]; subst hu
        rintro ⟨-, h1, h2, h3⟩
        rcases h with h | h | h
        · have h1' : managementRoom s = true := h1
          rw [h] at h1'; cases h1'
        · exact h h2
        · exact h3 h
      unfold placeAlert; rw [if_neg this]; subst hu; exact ⟨rfl, rfl⟩

/-- A cause that comes while a response is in the buffer places no ALERT (R175). -/
theorem raise_originate_of_response (f : Flag) (a : Option Addr) (p : Option Pitch) (i : Option PieceId) (s : State)
    (h : s.rp.response.isSome = true) : (raise f a p i s).rp = s.rp := by
  unfold raise; split
  · rcases placeAlert_cases (withCl s { s.cl with summary := flagMask f, capture := some ⟨f, a, p, i⟩, alertPending := true })
      with ⟨-, e⟩ | ⟨hp, -⟩
    · rw [e]; rfl
    · simp [alertPlaceable, Option.isSome_iff_exists] at hp h
      obtain ⟨r, hr⟩ := h; simp [hr] at hp
  · rfl

/-! ## Bytes -/

theorem field_one (n : Nat) : field 1 n = be1 n := rfl
theorem field_two (n : Nat) : field 2 n = be2 n := rfl
theorem field_three (n : Nat) : field 3 n = be3 n := by
  show [_, _, _] = [_, _, _]
  rw [Nat.div_div_eq_div_mul]
theorem field_four (n : Nat) : field 4 n = be4 n := by
  show [_, _, _, _] = [_, _, _, _]
  simp only [Nat.div_div_eq_div_mul]

/-! ## Responses -/

theorem managementCount_eq (s : State) : (s.rp.originate.filter isManagement).length = managementCount s :=
  List.countP_eq_length_filter.symm

theorem managementFree_pos (s : State) : 0 < managementFree s ↔ managementRoom s = true := by
  unfold managementFree managementRoom
  rw [managementCount_eq, decide_eq_true_iff]
  show 0 < 4 - _ ↔ _ < 4
  omega

/-- An ALERT is offered its entry as R175 has it. -/
theorem placeAlert_offered (s : State) : placeAlert s = alertOffered s := by
  unfold placeAlert alertOffered
  by_cases h : s.cl.alertPending = true ∧ 0 < managementFree s ∧ s.rp.response = none ∧ s.tu.layout.lineComputer ≠ 63#6
  · rw [if_pos h, if_pos ((alertPlaceable_iff s).mpr ⟨h.1, (managementFree_pos s).mp h.2.1, h.2.2⟩)]
    simp only [field_three]; rfl
  · rw [if_neg h, if_neg]
    rw [alertPlaceable_iff, ← managementFree_pos]; exact h

theorem replyBody_eq (code : Byte) (r : Reply) : replyBody code r = responseBody code r := by
  unfold replyBody responseBody
  rw [field_two, field_two]
  cases r.status <;> rfl

theorem segmentsOf_short {b : List Byte} (hb : b ≠ []) (h : b.length ≤ 53) : segmentsOf b = [b] := by
  have h1 : (b.length + 52) / 53 = 1 := by
    have := List.length_pos_iff.mpr hb; omega
  unfold segmentsOf
  rw [h1]
  simp [List.take_of_length_le h]

theorem segmentsOf_long {b : List Byte} (h : 53 < b.length) : segmentsOf b = b.take 53 :: segmentsOf (b.drop 53) := by
  have h1 : (b.length + 52) / 53 = ((b.drop 53).length + 52) / 53 + 1 := by rw [List.length_drop]; omega
  unfold segmentsOf
  rw [h1, List.range_succ_eq_map, List.map_cons, List.map_map]
  simp only [Nat.mul_zero, List.drop_zero, List.cons.injEq, true_and]
  refine List.map_congr_left fun i _ => ?_
  simp only [Function.comp, List.drop_drop, Nat.mul_succ, Nat.add_comm]

/-- A body is cut as R186 has it. -/
theorem cutSegments_eq (n : Nat) : ∀ {b : List Byte}, b ≠ [] → b.length ≤ n → cutSegments n b = segmentsOf b := by
  induction n with
  | zero => intro b hb hn; exact absurd (List.length_pos_iff.mpr hb) (by omega)
  | succ n ih =>
    intro b hb hn
    unfold cutSegments
    by_cases h : b.length ≤ 53
    · rw [if_pos (by exact h), segmentsOf_short hb h]
    · have h' : 53 < b.length := by omega
      rw [if_neg (by exact h), segmentsOf_long h']
      have hd : b.drop 53 ≠ [] := List.length_pos_iff.mp (by rw [List.length_drop]; omega)
      have hn' : (b.drop 53).length ≤ n := by rw [List.length_drop]; omega
      exact congrArg _ (ih hd hn')

theorem segmentByte_eq (i : Nat) (last : Bool) (x : List Byte) : segmentByte i last :: x = field 1 (i % 128 + if last then 128 else 0) ++ x := by
  show _ = [BitVec.ofNat 8 _] ++ x
  rw [List.singleton_append]
  congr 1
  unfold segmentByte
  have h : i % 128 < 128 := Nat.mod_lt _ (by decide)
  generalize i % 128 = m at h
  cases last
  · simp
  · simp only [if_true]
    revert m; decide

/-- The frame of segment i of a response whose buffer was given the parts from number j on. -/
def partFrame (d : Addr) (tag : Tag) (stamp : Stamp) (j : Nat) (parts : List (List Byte)) (i : Nat) : Frame :=
  ⟨d, .response, stamp, segmentPayload tag (j + i) (decide (i + 1 = parts.length)) (parts.getD i [])⟩

/-- The state with frames originated and a response in the buffer. -/
def portWith (s : State) (o : List Frame) (x : Option Response) : State := withRp s { s.rp with originate := o, response := x }

theorem pushSegment_none {s : State} {o : List Frame} : pushSegment (portWith s o none) = portWith s o none := rfl

theorem pushSegment_full {s : State} {o : List Frame} {x : Option Response} (h : 4 ≤ (o.filter isManagement).length) :
    pushSegment (portWith s o x) = portWith s o x := by
  have hr : managementRoom (portWith s o x) = false := by
    unfold managementRoom
    rw [← managementCount_eq, decide_eq_false_iff_not]
    show ¬_ < 4
    exact Nat.not_lt.mpr h
  unfold pushSegment
  simp only [hr, Bool.false_eq_true, if_false]
  repeat' split
  all_goals rfl

theorem pushSegment_next {s : State} {o : List Frame} {d : Addr} {tag : Tag} {j : Nat} {seg : List Byte} {rest : List (List Byte)}
    (h : (o.filter isManagement).length < 4) :
    pushSegment (portWith s o (some ⟨d, tag, j, seg :: rest⟩)) =
      portWith s (o ++ [partFrame d tag (stampNow s) j (seg :: rest) 0]) (if rest = [] then none else some ⟨d, tag, j + 1, rest⟩) := by
  have hr : managementRoom (portWith s o (some ⟨d, tag, j, seg :: rest⟩)) = true := by
    unfold managementRoom
    rw [← managementCount_eq, decide_eq_true_iff]
    exact h
  unfold pushSegment
  show (if managementRoom _ then _ else _) = _
  rw [if_pos hr]
  have hf : segmentFrame (portWith s o (some ⟨d, tag, j, seg :: rest⟩)) ⟨d, tag, j, seg :: rest⟩ seg rest.isEmpty =
      partFrame d tag (stampNow s) j (seg :: rest) 0 := by
    unfold segmentFrame partFrame segmentPayload
    rw [segmentByte_eq, field_two, List.append_assoc]
    cases rest <;> rfl
  rw [hf]
  cases rest <;> rfl

/-- Some pushes of a response's segments, while management entries are free (R186). -/
theorem pushSegments_spec (s : State) (d : Addr) (tag : Tag) (n : Nat) : ∀ (o : List Frame) (j : Nat) (parts : List (List Byte)), parts ≠ [] →
    let k := min parts.length (min n (4 - (o.filter isManagement).length))
    pushSegment^[n] (portWith s o (some ⟨d, tag, j, parts⟩)) =
      portWith s (o ++ (List.range k).map (partFrame d tag (stampNow s) j parts))
        (if k = parts.length then none else some ⟨d, tag, j + k, parts.drop k⟩) := by
  induction n with
  | zero =>
    intro o j parts hp
    have : 0 ≠ parts.length := (List.length_pos_iff.mpr hp).ne
    simp [this]
  | succ n ih =>
    intro o j parts hp
    obtain ⟨seg, rest, rfl⟩ := List.exists_cons_of_ne_nil hp
    rw [Function.iterate_succ_apply]
    by_cases h : (o.filter isManagement).length < 4
    · rw [pushSegment_next h]
      by_cases hr : rest = []
      · subst hr
        rw [if_pos rfl, Function.iterate_fixed pushSegment_none]
        have : min [seg].length (min (n + 1) (4 - (o.filter isManagement).length)) = 1 := by simp; omega
        simp only [this]; rfl
      · rw [if_neg hr, ih _ _ rest hr]
        have hm : isManagement (partFrame d tag (stampNow s) j (seg :: rest) 0) = true := rfl
        rw [List.filter_append, List.filter_cons, if_pos hm, List.filter_nil, List.length_append, List.length_singleton]
        have hk : min (seg :: rest).length (min (n + 1) (4 - (o.filter isManagement).length)) =
            min rest.length (min n (4 - ((o.filter isManagement).length + 1))) + 1 := by simp only [List.length_cons]; omega
        simp only [hk]
        generalize min rest.length (min n (4 - ((o.filter isManagement).length + 1))) = k
        rw [List.range_succ_eq_map, List.map_cons, List.map_map, List.append_assoc, List.singleton_append]
        have hf : partFrame d tag (stampNow s) (j + 1) rest = partFrame d tag (stampNow s) j (seg :: rest) ∘ Nat.succ := by
          funext i
          simp [partFrame, Function.comp, Nat.add_assoc, Nat.add_comm 1 i]
        rw [hf]
        simp [Nat.add_comm 1 k, Nat.add_assoc]
    · have h' : 4 - (o.filter isManagement).length = 0 := by omega
      rw [pushSegment_full (by omega), Function.iterate_fixed (pushSegment_full (by omega)), h']
      simp

/-- The response built in the buffer, its segments queued or kept, and then a pending ALERT offered its entry (R184-R186, R175). -/
theorem respond_answered (src : Addr) (tag : Tag) (code : Byte) (r : Reply) (u : State) :
    Answered src tag code r u (respond src tag code r u) := by
  have hne : segmentsOf (responseBody code r) ≠ [] := by
    rw [Ne, ← List.length_eq_zero_iff]; simp [segmentsOf, responseBody]
  have h := pushSegments_spec u src tag 4 u.rp.originate 0 (segmentsOf (responseBody code r)) hne
  unfold Answered respond
  rw [placeAlert_offered]
  congr 1
  show pushSegment^[4] (portWith u u.rp.originate (some ⟨src, tag, 0, _⟩)) = _
  rw [cutSegments_eq _ (by rw [replyBody_eq]; simp [responseBody]) le_rfl, replyBody_eq, h]
  unfold responseQueued managementFree
  have : min 4 (4 - (u.rp.originate.filter isManagement).length) = 4 - (u.rp.originate.filter isManagement).length := by omega
  have hf : partFrame src tag (stampNow u) 0 (segmentsOf (responseBody code r)) = fun i => ⟨src, .response, stampOf u.tu.pitch,
      segmentPayload tag i (decide (i + 1 = (segmentsOf (responseBody code r)).length))
        ((segmentsOf (responseBody code r)).getD i [])⟩ := by
    funext i; unfold partFrame; rw [Nat.zero_add]; rfl
  simp only [this, Nat.zero_add, hf]
  rfl

/-- An ALERT offered its entry: nothing, or the pending mark down and that one frame behind the others (R175). -/
theorem alertOffered_cases (x : State) : alertOffered x = x ∨ alertOffered x = withRp (withCl x { x.cl with alertPending := false })
    { x.rp with originate := x.rp.originate ++ [⟨x.tu.layout.lineComputer, .alert, stampOf x.tu.pitch, field 3 x.cl.summary.toNat⟩] } := by
  unfold alertOffered
  split
  · exact .inr rfl
  · exact .inl rfl

/-- What an answer leaves as it was. -/
theorem Answered.keeps {src : Addr} {tag : Tag} {code : Byte} {r : Reply} {u t : State} (h : Answered src tag code r u t) :
    SameBlocks u t ∧ SamePort u t ∧ t.cl.log = u.cl.log ∧ t.cl.counters = u.cl.counters ∧ t.cl.summary = u.cl.summary ∧
      t.cl.capture = u.cl.capture ∧ (t.cl.alertPending = true → u.cl.alertPending = true) := by
  rw [h]
  rcases alertOffered_cases (responseQueued src tag code r u) with e | e <;> rw [e]
  · exact ⟨⟨rfl, rfl, rfl, rfl, rfl, rfl, rfl, rfl, rfl, rfl, rfl⟩, ⟨rfl, rfl, rfl, rfl, rfl⟩, rfl, rfl, rfl, rfl, id⟩
  · exact ⟨⟨rfl, rfl, rfl, rfl, rfl, rfl, rfl, rfl, rfl, rfl, rfl⟩, ⟨rfl, rfl, rfl, rfl, rfl⟩, rfl, rfl, rfl, rfl, fun h => nomatch h⟩

theorem managementRoom_of_originate {s u : State} (h : s.rp.originate = u.rp.originate) : managementRoom s = managementRoom u := by
  unfold managementRoom managementCount; rw [h]

/-! ## Requests -/

/-- A live event acts on the settled state. -/
theorem event_live {f : State → State} {s : State} (h : s.resetHeld = false) : event f s = f (settle s) := by
  simp [event, live, h]

/-- A request taken by a live part is answered with what its effect makes of the settled state u (R185). -/
theorem manage_eq {src : Addr} {tag : Tag} {code : Nat} {act : State → State × Reply} {s u : State} (h : Takes s) (hu : settle s = u) :
    manage src tag code act s = .next (respond src tag (BitVec.ofNat 8 code)
      (act (reserveBuffer src tag u)).2 (act (reserveBuffer src tag u)).1) := by
  subst hu
  simp [manage, event_live h.1, answer, h.2]

theorem Takes.room {s u : State} (h : Takes s) (hu : settle s = u) : managementRoom u = true := by
  subst hu
  have := h.2; simp [requestTaken] at this; exact this.2

theorem Takes.response {s u : State} (h : Takes s) (hu : settle s = u) : u.rp.response = none := by
  subst hu
  have := h.2; simp [requestTaken] at this; exact this.1

/-- A request handled by a live part: its effect, made while its response has the buffer, and its answer (R175, R185). -/
theorem manage_handled {src : Addr} {tag : Tag} {code : Nat} {act : State → State × Reply} {effect : State → State → Prop} {r : Reply}
    {s u w : State} (h : Takes s) (hu : settle s = u) (ha : act (reserveBuffer src tag u) = (w, r))
    (he : effect (reserveBuffer src tag u) w) :
    ∃ t, manage src tag code act s = .next t ∧ Handled src tag (BitVec.ofNat 8 code) r effect u t := by
  refine ⟨_, manage_eq h hu, w, he, ?_⟩
  rw [ha]
  exact respond_answered src tag _ r w

/-- The reserved buffer is overwritten by the response. -/
theorem respond_reserveBuffer (src : Addr) (tag : Tag) (code : Byte) (r : Reply) (w : State) :
    respond src tag code r (reserveBuffer src tag w) = respond src tag code r w := rfl

end Sys2Proof.Machine
end

