-- ==== Sys2Proof/Laws/Feeders.lean ====
section
/-! SUPPORT. What the operations over all feeders leave at each feeder (R68, R74, R90). -/

namespace Sys2Proof.Machine

@[simp] theorem raiseFeederEmpty_keeps (f : Nat) (s : State) :
    (raiseFeederEmpty f s).pending = s.pending ∧ (raiseFeederEmpty f s).due = s.due ∧
    (raiseFeederEmpty f s).resetHeld = s.resetHeld ∧ (raiseFeederEmpty f s).ds = s.ds ∧ (raiseFeederEmpty f s).cu = s.cu ∧
    (raiseFeederEmpty f s).tu = s.tu ∧ (raiseFeederEmpty f s).iu = s.iu ∧ (raiseFeederEmpty f s).pp = s.pp ∧
    (raiseFeederEmpty f s).su = s.su ∧ (raiseFeederEmpty f s).bu = s.bu ∧ (raiseFeederEmpty f s).rc = s.rc ∧
    (raiseFeederEmpty f s).cl.log = s.cl.log ∧ (raiseFeederEmpty f s).cl.counters = s.cl.counters ∧
    (raiseFeederEmpty f s).rp.own = s.rp.own ∧ (raiseFeederEmpty f s).rp.forward = s.rp.forward ∧
    (raiseFeederEmpty f s).rp.sending = s.rp.sending ∧ (raiseFeederEmpty f s).rp.turn = s.rp.turn ∧
    (raiseFeederEmpty f s).rp.assembly = s.rp.assembly ∧ (raiseFeederEmpty f s).rp.response = s.rp.response := by
  simp [raiseFeederEmpty]

/-- Changing one feeder changes no other. -/
theorem feederAt_setFeeder (s : State) (hc : Table.canonical .off s.iu.feeders) (f g : Nat) (x : Feeder) :
    feederAt (setFeeder s f x) g = if g = f then x else feederAt s g := by
  by_cases h : g = f
  · subst h; rw [if_pos rfl]; exact tget_tput_same hc _ _
  · rw [if_neg h]; exact tget_tput_other _ _ _ h

theorem setFeeder_canonical {s : State} (hc : Table.canonical .off s.iu.feeders) (f : Nat) (x : Feeder) :
    Table.canonical .off (setFeeder s f x).iu.feeders := Table.canonical_tput hc f x

/-- The moves of a map copy touch the feeder table alone of the insert unit. -/
theorem copyFeeders_iu (old new : Table MapSlot) (l : List Nat) (s : State) :
    (copyFeeders old new l s).iu = { s.iu with feeders := (copyFeeders old new l s).iu.feeders } := by
  induction l generalizing s with
  | nil => rfl
  | cons f fs ih =>
    rw [copyFeeders]; dsimp only
    split
    · rw [ih]; simp [setFeeder]
    · rw [ih]; simp [setFeeder]

/-- Each listed feeder makes its move, and no other (R74). -/
theorem feederAt_copyFeeders (old new : Table MapSlot) {l : List Nat} (hn : l.Nodup) (s : State)
    (hc : Table.canonical .off s.iu.feeders) (g : Nat) :
    feederAt (copyFeeders old new l s) g =
      if g ∈ l then copyFeeder (tget MapSlot.off old g).enabled (tget MapSlot.off new g).enabled (feederAt s g) else feederAt s g := by
  induction l generalizing s with
  | nil => simp [copyFeeders]
  | cons f fs ih =>
    rw [List.nodup_cons] at hn
    have step : ∀ y : Feeder, ∀ s2 : State, s2.iu = (setFeeder s f y).iu →
        y = copyFeeder (tget MapSlot.off old f).enabled (tget MapSlot.off new f).enabled (feederAt s f) →
        feederAt (copyFeeders old new fs s2) g =
          if g ∈ f :: fs then copyFeeder (tget MapSlot.off old g).enabled (tget MapSlot.off new g).enabled (feederAt s g)
          else feederAt s g := by
      intro y s2 h2 hy
      have e : feederAt s2 g = if g = f then y else feederAt s g := by
        rw [← feederAt_setFeeder s hc]; simp only [feederAt, h2]
      rw [ih hn.2 s2 (by rw [h2]; exact setFeeder_canonical hc f y), e]
      by_cases hg : g = f
      · subst hg; simp [hn.1, hy]
      · simp [hg]
    rw [copyFeeders]
    split
    · exact step _ _ (raiseFeederEmpty_keeps _ _).2.2.2.2.2.2.1 rfl
    · exact step _ _ rfl rfl

/-- A new threshold touches the degraded flags alone (R68). -/
theorem reevaluateAll_eq (n : Nat) (l : List Nat) (s : State) :
    reevaluateAll n l s = withIu s { s.iu with feeders := (reevaluateAll n l s).iu.feeders } := by
  induction l generalizing s with
  | nil => rfl
  | cons f fs ih => rw [reevaluateAll]; exact ih _

/-- Each listed feeder's degraded flag follows the new threshold (R68). -/
theorem feederAt_reevaluateAll (n : Nat) {l : List Nat} (hn : l.Nodup) (s : State) (hc : Table.canonical .off s.iu.feeders) (g : Nat) :
    feederAt (reevaluateAll n l s) g =
      if g ∈ l then { feederAt s g with degraded := decide ((feederAt s g).condition < n) } else feederAt s g := by
  induction l generalizing s with
  | nil => simp [reevaluateAll]
  | cons f fs ih =>
    rw [List.nodup_cons] at hn
    rw [reevaluateAll]; dsimp only
    rw [ih hn.2 _ (setFeeder_canonical hc _ _), feederAt_setFeeder s hc]
    by_cases hg : g = f
    · subst hg; simp [hn.1]
    · have hm : g ∈ f :: fs ↔ g ∈ fs := by simp [hg]
      rw [if_neg hg]; simp only [hm]

/-- RESTART touches the feeder table alone of the insert unit, beside the commit mark (R90). -/
theorem restartFeeders_iu (l : List Nat) (s : State) :
    (restartFeeders l s).iu = { s.iu with feeders := (restartFeeders l s).iu.feeders } := by
  induction l generalizing s with
  | nil => rfl
  | cons f fs ih => rw [restartFeeders]; exact ih _

/-- Each listed feeder restarts (R90). -/
theorem feederAt_restartFeeders {l : List Nat} (hn : l.Nodup) (s : State) (hc : Table.canonical .off s.iu.feeders) (g : Nat) :
    feederAt (restartFeeders l s) g =
      if g ∈ l then restartFeeder (tget MapSlot.off s.iu.active g).enabled (feederAt s g) else feederAt s g := by
  induction l generalizing s with
  | nil => simp [restartFeeders]
  | cons f fs ih =>
    rw [List.nodup_cons] at hn
    rw [restartFeeders, ih hn.2 _ (setFeeder_canonical hc _ _), feederAt_setFeeder s hc]
    by_cases hg : g = f
    · subst hg; simp [hn.1]
    · have hm : g ∈ f :: fs ↔ g ∈ fs := by simp [hg]
      rw [if_neg hg]; simp only [hm]; rfl

end Sys2Proof.Machine
end

