-- ==== Sys2Proof/Laws/Slots.lean ====
section
/-! SUPPORT. What a ring slot, a descriptor slot and a bin read after the shared operations: faults, departures, trays and the cutter. -/

namespace Sys2Proof.Machine

/-! ## One place written -/

theorem pieceAt_setPiece_other {k j : Nat} (h : j ≠ k) (s : State) (p : Option Piece) : pieceAt (setPiece s k p) j = pieceAt s j :=
  tget_tput_other _ _ _ h

@[simp] theorem pieceAt_setPiece_some (k : Nat) (s : State) (p : Piece) : pieceAt (setPiece s k (some p)) k = some p :=
  tget_tput_same_ne _ _ (by simp)

theorem pieceAt_setPiece_none {s : State} (hc : Table.canonical none s.tu.ring) (k : Nat) : pieceAt (setPiece s k none) k = none :=
  tget_tput_same hc _ _

theorem descAt_setDesc_other {n m : Nat} (h : m ≠ n) (s : State) (d : Option Descriptor) : descAt (setDesc s n d) m = descAt s m :=
  tget_tput_other _ _ _ h

@[simp] theorem descAt_setDesc_some (n : Nat) (s : State) (d : Descriptor) : descAt (setDesc s n (some d)) n = some d :=
  tget_tput_same_ne _ _ (by simp)

theorem binAt_setBin_other {b j : Nat} (h : j ≠ b) (s : State) (x : Bin) : binAt (setBin s b x) j = binAt s j :=
  tget_tput_other _ _ _ h

theorem binAt_setBin {x : Bin} (h : x ≠ .off) (b : Nat) (s : State) : binAt (setBin s b x) b = x := tget_tput_same_ne _ _ h

/-- Two states with the same track unit have the same pieces, and so on for each block. -/
theorem pieceAt_congr {s t : State} (h : t.tu = s.tu) (k : Nat) : pieceAt t k = pieceAt s k := by simp [pieceAt, h]

theorem descAt_congr {s t : State} (h : t.ds = s.ds) (n : Nat) : descAt t n = descAt s n := by simp [descAt, h]

theorem binAt_congr {s t : State} (h : t.bu = s.bu) (b : Nat) : binAt t b = binAt s b := by simp [binAt, h]

/-! ## Trays -/

/-- A bin that opens a tray has it new and empty, contaminated if the bin carried a contamination (R137, R145). -/
theorem binAt_openTray (b : Nat) (s : State) :
    binAt (openTray b s) b = { binAt s b with
      state := .opened
      tray := some (newTray s (binAt s b).carried)
      owed := false
      held := none
      carried := false } := by
  unfold openTray
  exact binAt_setBin (by intro h; cases h) b s

theorem binAt_openTray_other {b j : Nat} (h : j ≠ b) (s : State) : binAt (openTray b s) j = binAt s j :=
  binAt_setBin_other h s _

/-- With a command entry free the TRAY_CHANGE of a closed tray is the next frame, and the bins stay. -/
theorem sendTrayChange_of_room {s : State} (h : commandRoom s = true) (b r : Nat) :
    sendTrayChange b r s = enqueue s (trayChangeFrame s b r) := by
  simp [sendTrayChange, sendCommand, h]

theorem binAt_sendTrayChange_other {b j : Nat} (h : j ≠ b) (r : Nat) (s : State) : binAt (sendTrayChange b r s) j = binAt s j := by
  unfold sendTrayChange sendCommand
  by_cases hr : commandRoom s = true
  · simp only [hr, if_true]; rfl
  · simp only [hr]
    exact (binAt_congr (raise_keeps _ _ _ _ _).2.2.2.2.2.2.2.2.2.1 j).trans (binAt_setBin_other h _ _)

/-- A closed tray: the bin FULL with the reason in its tray, its change owed exactly when the command part is full (R142). -/
theorem binAt_closeTray {b : Nat} {x : Tray} {s : State} (hx : (binAt s b).tray = some x) (ho : (binAt s b).owed = false)
    (why : CloseReason) :
    binAt (closeTray b why s) b =
      { binAt s b with state := .full, tray := some { x with reason := some why }, owed := !commandRoom s } := by
  unfold closeTray sendTrayChange sendCommand
  rw [hx]; dsimp only
  have hb : binAt (setBin s b { binAt s b with state := .full, tray := some { x with reason := some why } }) b =
      { binAt s b with state := .full, tray := some { x with reason := some why } } := binAt_setBin (by intro h; cases h) b s
  have hr : commandRoom (setBin s b { binAt s b with state := .full, tray := some { x with reason := some why } }) = commandRoom s := rfl
  by_cases hc : commandRoom s = true
  · simp only [hr, hc, if_true, Bool.not_true, ← ho]; exact hb
  · simp only [hr, hc]
    refine (binAt_congr (raise_keeps _ _ _ _ _).2.2.2.2.2.2.2.2.2.1 b).trans ?_
    rw [binAt_setBin (by rw [hb]; intro h; cases h), hb]
    simp

theorem binAt_closeTray_other {b j : Nat} (h : j ≠ b) (why : CloseReason) (s : State) : binAt (closeTray b why s) j = binAt s j := by
  unfold closeTray
  split
  · rw [binAt_sendTrayChange_other h, binAt_setBin_other h]
  · rfl

/-- Each listed bin that is OPEN with a tray that is not empty is closed, and no other changes (R129, R149). -/
theorem binAt_closeNonEmpty_unlisted {l : List Nat} {j : Nat} (h : j ∉ l) (why : CloseReason) (s : State) :
    binAt (closeNonEmpty why l s) j = binAt s j := by
  induction l generalizing s with
  | nil => rfl
  | cons b bs ih =>
    rw [List.mem_cons, not_or] at h
    rw [closeNonEmpty, ih h.2]
    split
    · exact binAt_closeTray_other h.1 _ _
    · rfl

/-! ## Faults and departures -/

/-- Giving back a reservation touches no piece. -/
theorem pieceAt_releaseReservation (path : Path) (m : Option Nat) (s : State) (j : Nat) :
    pieceAt (releaseReservation path m s) j = pieceAt s j :=
  pieceAt_congr (by simp) j

/-- The path rule on the piece in a slot changes no other slot, and of the piece itself its path alone (R106, R107). -/
theorem pathRule_pieces (k : Nat) (p : Piece) (s : State) (hp : pieceAt s k = some p) :
    (∃ x, pieceAt (pathRule k p s) k = some { p with path := x }) ∧ ∀ j, j ≠ k → pieceAt (pathRule k p s) j = pieceAt s j := by
  have set : ∀ (u : State) (x : Path), u.tu = s.tu →
      (∃ y, pieceAt (setPiece u k (some { p with path := x })) k = some { p with path := y }) ∧
        ∀ j, j ≠ k → pieceAt (setPiece u k (some { p with path := x })) j = pieceAt s j := fun u x hu =>
    ⟨⟨x, pieceAt_setPiece_some _ _ _⟩, fun j hj => (pieceAt_setPiece_other hj _ _).trans (pieceAt_congr hu j)⟩
  have stay : ∀ u : State, u.tu = s.tu →
      (∃ y, pieceAt u k = some { p with path := y }) ∧ ∀ j, j ≠ k → pieceAt u j = pieceAt s j := fun u hu =>
    ⟨⟨p.path, (pieceAt_congr hu k).trans hp⟩, fun j _ => pieceAt_congr hu j⟩
  have sup : ∀ u : State, u.tu = s.tu →
      (∃ y, pieceAt (supersede k p u) k = some { p with path := y }) ∧ ∀ j, j ≠ k → pieceAt (supersede k p u) j = pieceAt s j := by
    intro u hu
    unfold supersede sendCommand
    by_cases hr : commandRoom u = true
    · simp only [hr, if_true, pieceAt_releaseReservation]; exact set _ _ hu
    · simp only [hr]; exact stay _ (by simpa using hu)
  have sort : ∀ u : State, u.tu = s.tu →
      (∃ y, pieceAt (sorterBranch k p u) k = some { p with path := y }) ∧
        ∀ j, j ≠ k → pieceAt (sorterBranch k p u) j = pieceAt s j := by
    intro u hu
    unfold sorterBranch
    split
    · exact set _ _ hu
    · split
      · exact sup _ hu
      · exact stay _ hu
    · exact stay _ hu
    · exact stay _ hu
  unfold pathRule sendCommand
  split
  · by_cases hr : commandRoom s = true
    · simp only [hr, if_true, pieceAt_releaseReservation]; exact set _ _ rfl
    · simp only [hr]; exact sort _ (by simp)
  · exact sort _ rfl

/-- A fault recorded in the piece of a slot: its fault fields by R104, its path perhaps, and nothing else of it; no other slot changes. -/
theorem recordFault_pieces (k : Nat) (f : PieceFault) (p : Piece) (s : State) (hp : pieceAt s k = some p) :
    (∃ x, pieceAt (recordFault k f s) k = some { addFault f p with path := x }) ∧
      ∀ j, j ≠ k → pieceAt (recordFault k f s) j = pieceAt s j := by
  unfold recordFault
  rw [hp]; dsimp only
  cases hf : p.fault with
  | none =>
    obtain ⟨⟨x, hx⟩, ho⟩ := pathRule_pieces k (addFault f p) (setPiece s k (some (addFault f p))) (pieceAt_setPiece_some _ _ _)
    exact ⟨⟨x, hx⟩, fun j hj => (ho j hj).trans (pieceAt_setPiece_other hj _ _)⟩
  | some g => exact ⟨⟨(addFault f p).path, pieceAt_setPiece_some _ _ _⟩, fun j hj => pieceAt_setPiece_other hj _ _⟩

/-- The carried descriptor takes the exit state of the outcome, and no other descriptor changes (R12). -/
theorem descAt_exitDescriptor (o : Outcome) (slot : Option Nat) (s : State) :
    (∀ n d, slot = some n → descAt s n = some d → descAt (exitDescriptor slot o s) n = some { d with state := exitState o }) ∧
      ∀ n, slot ≠ some n → descAt (exitDescriptor slot o s) n = descAt s n := by
  unfold exitDescriptor
  cases slot with
  | none => exact ⟨fun _ _ h => (nomatch h), fun _ _ => rfl⟩
  | some m =>
    dsimp only
    cases hd : descAt s m with
    | none =>
      refine ⟨fun n d h1 h2 => ?_, fun _ _ => rfl⟩
      injection h1 with h1; subst h1; rw [hd] at h2; cases h2
    | some d0 =>
      refine ⟨fun n d h1 h2 => ?_, fun n hn => descAt_setDesc_other (fun e => hn (by rw [e])) _ _⟩
      injection h1 with h1; subst h1; rw [hd] at h2; injection h2 with h2; subst h2
      exact descAt_setDesc_some _ _ _

/-- A completion entry joins the tail of the log, and the run counters take it (R168, R171). -/
theorem writeEntry_account (e : Entry) (s : State) :
    (writeEntry e s).cl.log = s.cl.log ++ [e] ∧
      (writeEntry e s).cl.counters = { s.cl.counters with
        exited := s.cl.counters.exited + 1
        sorted := if e.outcome = .sorted then s.cl.counters.sorted + 1 else s.cl.counters.sorted
        diverted := if e.outcome = .sorted then s.cl.counters.diverted else s.cl.counters.diverted + 1 } := by
  unfold writeEntry exitDescriptor tally
  cases e.slot with
  | none => exact ⟨rfl, rfl⟩
  | some n => dsimp only; split <;> exact ⟨rfl, rfl⟩

/-- Outside DRAINING a change of the number in flight brings about nothing (R156). -/
theorem flightChanged_of_not_draining {s : State} (h : s.rc.state ≠ .draining) : flightChanged s = s := by
  simp [flightChanged, h]

theorem drainTest_of_not_draining {s : State} (h : s.rc.state ≠ .draining) : drainTest s = s := by
  simp [drainTest, h]

/-! ## The cutter -/

/-- With a command entry free, a cutter command is the next frame and the hold state takes its value (R40, R41). -/
theorem queueCutter_of_room {s : State} (h : commandRoom s = true) (p : PendingCutter) :
    queueCutter p s = enqueue (withCu s { s.cu with hold := cutterOf p, pendingCutter := none }) (cutterFrame s p) := by
  simp [queueCutter, h]

/-- Outside RUNNING the test of R40 does nothing. -/
theorem cutterTest_of_not_running {s : State} (h : s.rc.state ≠ .running) : cutterTest s = s := by
  simp [cutterTest, h]

/-- A stop in STOPPED or IDLE changes nothing (R157). -/
theorem runStop_of_not_moving {s : State} (h : s.rc.state = .stopped ∨ s.rc.state = .idle) (c : StopCause) (a : Option Addr) :
    runStop c a s = s := by
  rcases h with h | h <;> simp [runStop, h]

/-- A stop of a moving run with a command entry free: STOPPED with its resume state and stop record, and HOLD queued (R157). -/
theorem runStop_of_room {s : State} (h : s.rc.state = .running ∨ s.rc.state = .draining) (hr : commandRoom s = true) (c : StopCause)
    (a : Option Addr) :
    runStop c a s =
      enqueue
        (withCu (withRc s { s.rc with state := .stopped, resume := some s.rc.state, stop := some ⟨c, a, s.tu.pitch⟩ })
          { s.cu with hold := .hold, pendingCutter := none })
        (cutterFrame s .holdByRun) := by
  unfold runStop
  rw [if_pos h, queueCutter_of_room (by exact hr)]
  rfl

end Sys2Proof.Machine
end

