-- ==== Sys2Proof/Laws/Effects.lean ====
section
/-! SUPPORT. What the shared operations do, in the terms of Safety: one lemma for each that says all of it. -/

namespace Sys2Proof.Machine

/-! ## Commands and causes -/

theorem commandCount_eq (s : State) : commandCount s = (commands s).length := List.countP_eq_length_filter

theorem commandRoom_iff (s : State) : commandRoom s = true ↔ 0 < commandFree s := by
  simp only [commandRoom, commandFree, commandCount_eq, Config.commandEntries, decide_eq_true_eq]; omega

theorem commandRoom_false_iff (s : State) : commandRoom s = false ↔ commandFree s = 0 := by
  rw [← Bool.not_eq_true, commandRoom_iff]; omega

theorem commands_congr {s t : State} (h : t.rp = s.rp) : commands t = commands s := by simp [commands, h]

theorem commandRoom_congr {s t : State} (h : t.rp = s.rp) : commandRoom t = commandRoom s := by
  unfold commandRoom commandCount; rw [h]

theorem commands_enqueue {f : Frame} (h : isManagement f = false) (s : State) : commands (enqueue s f) = commands s ++ [f] := by
  simp [commands, h]

theorem commands_placeAlert (s : State) : commands (placeAlert s) = commands s := by
  rcases placeAlert_cases s with ⟨-, h⟩ | ⟨-, h⟩ <;> rw [h]
  simp [commands, isManagement]

theorem commands_raise (f : Flag) (a : Option Addr) (p : Option Pitch) (i : Option PieceId) (s : State) :
    commands (raise f a p i s) = commands s := by
  unfold raise; split
  · rw [commands_placeAlert]; rfl
  · rfl

theorem commandRoom_raise (f : Flag) (a : Option Addr) (p : Option Pitch) (i : Option PieceId) (s : State) :
    commandRoom (raise f a p i s) = commandRoom s := by
  rw [Bool.eq_iff_iff, commandRoom_iff, commandRoom_iff, commandFree, commandFree, commands_raise]

theorem raise_causeTaken (f : Flag) (a : Option Addr) (p : Option Pitch) (i : Option PieceId) (s : State) :
    CauseTaken f a p i s (raise f a p i s) :=
  ⟨(raise_flagOnly f a p i s).1.1, (raise_flagOnly f a p i s).1.2.1⟩

/-- The same cause taken a second time adds nothing to a summary that has its flag. -/
theorem CauseTaken.again {f : Flag} {a a' : Option Addr} {p p' : Option Pitch} {i i' : Option PieceId} {s t u : State}
    (h : CauseTaken f a p i s t) (h' : CauseTaken f a' p' i' t u) : CauseTaken f a p i s u := by
  have hm : flagMask f ≠ 0#18 := by cases f <;> decide
  have hne : t.cl.summary ≠ 0#18 := by
    rw [h.1]; intro he
    refine hm (BitVec.eq_of_getLsbD_eq fun j _ => ?_)
    have := congrArg (fun x => x.getLsbD j) he
    simp only [BitVec.getLsbD_or, BitVec.getLsbD_zero, Bool.or_eq_false_iff] at this
    simpa using this.2
  refine ⟨?_, by rw [h'.2, if_neg hne, h.2]⟩
  rw [h'.1, h.1, BitVec.or_assoc, BitVec.or_self]

/-! ## Reservations, the path rule and faults (R104-R109, R147) -/

/-- Giving up a reservation changes the bin of the path alone (R147). -/
theorem binAt_releaseReservation (path : Path) (mass : Option Nat) (s : State) (b : Nat) :
    binAt (releaseReservation path mass s) b = unreserved path mass b (binAt s b) := by
  unfold releaseReservation
  cases path with
  | sort c seq =>
    dsimp only
    by_cases hb : b = c
    · subst hb
      cases hs : (binAt s b).state <;> cases ht : (binAt s b).tray with
      | none => simp [currentTray, unreserved, hs, ht]
      | some y =>
        first
        | (by_cases hq : y.seq = seq
           · simp only [currentTray, unreserved, hs, ht, hq, if_true, setTray]
             rw [binAt_setBin (by intro h; cases h)]; simp
           · simp [currentTray, unreserved, hs, ht, hq])
        | simp [currentTray, unreserved, hs, ht]
    · have : ∀ x : Bin, unreserved (.sort c seq) mass b x = x := by
        intro x; unfold unreserved; cases x.tray <;> simp [hb]
      rw [this]; split
      · exact binAt_setBin_other hb _ _
      · rfl
  | undecided => simp [unreserved]
  | gate => simp [unreserved]
  | reject => simp [unreserved]

theorem releaseReservation_bu (path : Path) (mass : Option Nat) (s : State) :
    (releaseReservation path mass s).bu = { s.bu with bins := (releaseReservation path mass s).bu.bins } := by
  unfold releaseReservation
  split
  · split <;> rfl
  · rfl

theorem addFault_eq (f : PieceFault) (p : Piece) : addFault f p = faulted f p := by
  unfold addFault faulted
  cases h : p.fault <;> simp

/-- Nothing but the piece of one slot has changed. -/
theorem setPiece_onlyPiece (k : Nat) (p : Option Piece) (s : State) : OnlyPiece k s (setPiece s k p) :=
  ⟨fun _ h => pieceAt_setPiece_other h _ _, rfl, rfl, ⟨rfl, rfl, rfl⟩, rfl, rfl, rfl, rfl, rfl, rfl, rfl, rfl⟩

/-- The sorter branch of the path rule, in a state u that differs from s in the summary and the ALERT at most (R107, R109). -/
theorem sorterBranch_spec {k : Nat} {p : Piece} {s : State} (hp : pieceAt s k = some p) :
    OnlyPiece k s (sorterBranch k p s) ∧
    (onSort p.path = true → SorterInReach s p → commandRoom s = true →
      pieceAt (sorterBranch k p s) k = some { p with path := .reject } ∧ Unreserved p s (sorterBranch k p s) ∧
      (sorterBranch k p s).rp = { s.rp with originate := s.rp.originate ++ [binOrder s p 17 1] } ∧ (sorterBranch k p s).cl = s.cl) ∧
    ((onSort p.path = false ∨ ¬SorterInReach s p ∨ commandRoom s = false) →
      pieceAt (sorterBranch k p s) k = some (if p.path = .undecided then { p with path := .reject } else p) ∧
      (sorterBranch k p s).bu = s.bu ∧ commands (sorterBranch k p s) = commands s ∧
      (onSort p.path = true → SorterInReach s p →
        CauseTaken .commandQueueFull (some s.tu.layout.sorter.addr) (some s.tu.pitch) p.id s (sorterBranch k p s)) ∧
      ((onSort p.path = false ∨ ¬SorterInReach s p) → (sorterBranch k p s).cl = s.cl ∧ (sorterBranch k p s).rp = s.rp)) := by
  have self : OnlyPiece k s s := ⟨fun _ _ => rfl, rfl, rfl, ⟨rfl, rfl, rfl⟩, rfl, rfl, rfl, rfl, rfl, rfl, rfl, rfl⟩
  cases hpath : p.path with
  | undecided =>
    have e : sorterBranch k p s = setPiece s k (some { p with path := .reject }) := by simp [sorterBranch, hpath]
    rw [e]
    exact ⟨setPiece_onlyPiece _ _ _, by simp [onSort], fun _ => ⟨by simp, rfl, rfl, by simp [onSort], fun _ => ⟨rfl, rfl⟩⟩⟩
  | gate =>
    have e : sorterBranch k p s = s := by simp [sorterBranch, hpath]
    rw [e]; exact ⟨self, by simp [onSort], fun _ => ⟨by simpa using hp, rfl, rfl, by simp [onSort], fun _ => ⟨rfl, rfl⟩⟩⟩
  | reject =>
    have e : sorterBranch k p s = s := by simp [sorterBranch, hpath]
    rw [e]; exact ⟨self, by simp [onSort], fun _ => ⟨by simpa using hp, rfl, rfl, by simp [onSort], fun _ => ⟨rfl, rfl⟩⟩⟩
  | sort b seq =>
    by_cases hr : SorterInReach s p
    · by_cases hc : commandRoom s = true
      · have e : sorterBranch k p s = releaseReservation p.path p.mass
            (setPiece (enqueue s (binOrder s p 17 1)) k (some { p with path := .reject })) := by
          have : (s.tu.timing.ls : Int) ≤ leadTo s (pitchAt p.entry s.tu.layout.sorter.pos) := hr
          simp only [sorterBranch, hpath, this, if_true, supersede, sendCommand, hc]; rfl
        rw [e]
        refine ⟨⟨fun j hj => ?_, by simp; rfl, ?_, by simp [SameLines], by simp, by simp, by simp, by simp, by simp, by simp, by simp, by simp⟩,
          fun _ _ _ => ⟨?_, fun j => ?_, by simp [enqueue], by simp⟩, fun h => ?_⟩
        · rw [pieceAt_releaseReservation, pieceAt_setPiece_other hj]; rfl
        · rw [releaseReservation_bu]; rfl
        · rw [pieceAt_releaseReservation, pieceAt_setPiece_some]
        · rw [binAt_releaseReservation]; rfl
        · simp [onSort, hc, hr] at h
      · have e : sorterBranch k p s = raise .commandQueueFull (some s.tu.layout.sorter.addr) (some s.tu.pitch) p.id s := by
          have : (s.tu.timing.ls : Int) ≤ leadTo s (pitchAt p.entry s.tu.layout.sorter.pos) := hr
          simp only [sorterBranch, hpath, this, if_true, supersede, sendCommand, hc]; rfl
        rw [e]
        refine ⟨⟨fun j _ => pieceAt_congr (by simp) j, by simp, by simp, by simp [SameLines], by simp, by simp, by simp, by simp, by simp,
          by simp, by simp, by simp⟩, fun _ _ h => absurd h hc, fun _ => ⟨?_, by simp, commands_raise _ _ _ _ _,
          fun _ _ => raise_causeTaken _ _ _ _ _, fun h => ?_⟩⟩
        · rw [pieceAt_congr (s := s) (by simp)]; simpa using hp
        · simp [onSort, hr] at h
    · have e : sorterBranch k p s = s := by
        have : ¬(s.tu.timing.ls : Int) ≤ leadTo s (pitchAt p.entry s.tu.layout.sorter.pos) := hr
        simp [sorterBranch, hpath, this]
      rw [e]
      exact ⟨self, fun _ h => absurd h hr, fun _ => ⟨by simpa using hp, rfl, rfl, fun _ h => absurd h hr, fun _ => ⟨rfl, rfl⟩⟩⟩

/-- The path rule on a piece with a fault (R106-R109). -/
theorem pathRule_spec {k : Nat} {p : Piece} {s : State} (hp : pieceAt s k = some p) :
    OnlyPiece k s (pathRule k p s) ∧ PathChosen k p s (pathRule k p s) := by
  by_cases hg : GateInReach s p
  · have hl : (s.tu.timing.lg : Int) ≤ leadTo s (pitchAt p.entry s.tu.layout.gate.pos) := hg
    by_cases hc : commandRoom s = true
    · have e : pathRule k p s = releaseReservation p.path p.mass
          (setPiece (enqueue s (divertOf s p)) k (some { p with path := .gate })) := by
        simp only [pathRule, hl, if_true, sendCommand, hc]; rfl
      rw [e]
      refine ⟨⟨fun j hj => ?_, by simp; rfl, ?_, by simp [SameLines], by simp, by simp, by simp, by simp, by simp, by simp, by simp,
        by simp⟩, fun _ _ => ⟨?_, fun j => ?_, by simp [enqueue], by simp⟩, fun h => absurd hg h, fun h => ?_⟩
      · rw [pieceAt_releaseReservation, pieceAt_setPiece_other hj]; rfl
      · rw [releaseReservation_bu]; rfl
      · rw [pieceAt_releaseReservation, pieceAt_setPiece_some]
      · rw [binAt_releaseReservation]; rfl
      · simp [hg, hc] at h
    · have hc' : commandRoom s = false := by simpa using hc
      have e : pathRule k p s =
          sorterBranch k p (raise .commandQueueFull (some s.tu.layout.gate.addr) (some s.tu.pitch) p.id s) := by
        simp only [pathRule, hl, if_true, sendCommand, hc']; rfl
      have hu := raise_keeps .commandQueueFull (some s.tu.layout.gate.addr) (some s.tu.pitch) p.id s
      have hr := commandRoom_raise .commandQueueFull (some s.tu.layout.gate.addr) (some s.tu.pitch) p.id s
      have hk := commands_raise .commandQueueFull (some s.tu.layout.gate.addr) (some s.tu.pitch) p.id s
      have hf := raise_causeTaken .commandQueueFull (some s.tu.layout.gate.addr) (some s.tu.pitch) p.id s
      rw [e]
      generalize raise .commandQueueFull (some s.tu.layout.gate.addr) (some s.tu.pitch) p.id s = m at hu hr hk hf
      obtain ⟨h1, h2, h3, h4, h5, h6, h7, h8, h9, h10, h11, h12, h13, -⟩ := hu
      obtain ⟨⟨o1, o2, o3, ⟨o4, o5, o6⟩, o7, o8, o9, o10, o11, o12, o13, o14⟩, -, hs⟩ :=
        sorterBranch_spec (s := m) (p := p) ((pieceAt_congr h6 k).trans hp)
      obtain ⟨b1, b2, b3, b4, b5⟩ := hs (.inr (.inr (hr.trans hc')))
      refine ⟨⟨fun j hj => (o1 j hj).trans (pieceAt_congr h6 j), by rw [o2, h6], by rw [o3, h10], ⟨o4.trans h1, o5.trans h2, o6.trans h3⟩,
        o7.trans h4, o8.trans h5, o9.trans h7, o10.trans h8, o11.trans h9, o12.trans h11, o13.trans h12, o14.trans h13⟩,
        fun _ h => absurd h hc, fun h => absurd hg h, fun _ _ => ⟨b1, b2.trans h10, b3.trans hk, fun _ => ?_, fun h => absurd hg h,
        fun h => absurd hg h⟩⟩
      by_cases hx : onSort p.path = true ∧ SorterInReach m p
      · exact hf.again (b4 hx.1 hx.2)
      · have := b5 (by
          by_cases h : onSort p.path = true
          · exact .inr fun h' => hx ⟨h, h'⟩
          · exact .inl (by simpa using h))
        unfold CauseTaken; rw [this.1]; exact hf
  · have hl : ¬(s.tu.timing.lg : Int) ≤ leadTo s (pitchAt p.entry s.tu.layout.gate.pos) := hg
    have e : pathRule k p s = sorterBranch k p s := by simp only [pathRule, hl, if_false]
    rw [e]
    obtain ⟨ho, hs, hn⟩ := sorterBranch_spec hp
    exact ⟨ho, fun h => absurd h hg, fun _ h1 h2 h3 => hs h1 h2 h3, fun _ h => by
      obtain ⟨b1, b2, b3, b4, b5⟩ := hn h
      exact ⟨b1, b2, b3, fun h => absurd h hg, fun _ h1 h2 => b4 h1 h2, fun _ h2 => b5 h2⟩⟩

/-- A fault recorded in a piece whose other fields the act has just changed: m is s but for the piece in the slot (R104, R106). -/
theorem recordFault_spec {k : Nat} {p : Piece} {s m : State} (f : PieceFault) (hm : OnlyPiece k s m) (hb : m.bu = s.bu) (hr : m.rp = s.rp)
    (hc : m.cl = s.cl) (hp : pieceAt m k = some p) : FaultRecorded k f p s (recordFault k f m) := by
  obtain ⟨o1, o2, o3, ⟨o4, o5, o6⟩, o7, o8, o9, o10, o11, o12, o13, o14⟩ := hm
  have carry : ∀ {t : State}, OnlyPiece k m t → OnlyPiece k s t := by
    rintro t ⟨q1, q2, q3, ⟨q4, q5, q6⟩, q7, q8, q9, q10, q11, q12, q13, q14⟩
    exact ⟨fun j hj => (q1 j hj).trans (o1 j hj), by rw [q2, o2], by rw [q3, o3], ⟨q4.trans o4, q5.trans o5, q6.trans o6⟩, q7.trans o7,
      q8.trans o8, q9.trans o9, q10.trans o10, q11.trans o11, q12.trans o12, q13.trans o13, q14.trans o14⟩
  unfold recordFault; rw [hp]; dsimp only
  cases hf : p.fault with
  | some g =>
    refine ⟨carry (setPiece_onlyPiece _ _ _), fun h => by simp [hf] at h, fun _ => ⟨?_, hb, hr, hc⟩⟩
    rw [pieceAt_setPiece_some, addFault_eq]
  | none =>
    have hq := pathRule_spec (k := k) (p := addFault f p) (s := setPiece m k (some (addFault f p))) (by simp)
    dsimp only
    refine ⟨carry ?_, fun _ => ?_, fun h => by simp [hf] at h⟩
    · obtain ⟨⟨q1, q2, q3, ⟨q4, q5, q6⟩, q7, q8, q9, q10, q11, q12, q13, q14⟩, -⟩ := hq
      exact ⟨fun j hj => (q1 j hj).trans (pieceAt_setPiece_other hj _ _), q2, q3, ⟨q4, q5, q6⟩, q7, q8, q9, q10, q11, q12, q13, q14⟩
    · rw [addFault_eq] at hq ⊢
      have := hq.2
      have e1 : (setPiece m k (some (faulted f p))).tu.layout = s.tu.layout := by show m.tu.layout = _; rw [o2]
      have e2 : (setPiece m k (some (faulted f p))).tu.timing = s.tu.timing := by show m.tu.timing = _; rw [o2]
      have e3 : (setPiece m k (some (faulted f p))).tu.pitch = s.tu.pitch := by show m.tu.pitch = _; rw [o2]
      have e4 : (setPiece m k (some (faulted f p))).rp = s.rp := hr
      have e5 : (setPiece m k (some (faulted f p))).bu = s.bu := hb
      have e6 : (setPiece m k (some (faulted f p))).cl = s.cl := hc
      have e7 : commandRoom (setPiece m k (some (faulted f p))) = commandRoom s := commandRoom_congr hr
      have e8 := commands_congr (s := s) e4
      simpa only [PathChosen, GateInReach, SorterInReach, Unreserved, CauseTaken, divertOf, binOrder, binAt_congr e5, e1, e2, e3, e4, e5, e6,
        e7, e8] using this

end Sys2Proof.Machine
end

