-- ==== Sys2Proof/Laws/Closing.lean ====
section
/-! SUPPORT. What closing the trays and ending a run do, in the terms of Safety (R129, R142, R149, R156). -/

namespace Sys2Proof.Machine

theorem openNonEmpty_eq (x : Bin) : openNonEmpty x = (decide (x.state = .opened) && x.tray.any (fun y => !trayEmpty y)) := by
  unfold openNonEmpty; cases x.tray <;> rfl

theorem binAt_openNonEmpty {x : Bin} (h : openNonEmpty x = true) : x.state = .opened ∧ ∃ y, x.tray = some y ∧ trayEmpty y = false := by
  rw [openNonEmpty_eq, Bool.and_eq_true, decide_eq_true_eq] at h
  refine ⟨h.1, ?_⟩
  cases ht : x.tray with
  | none => rw [ht] at h; simp at h
  | some y => rw [ht] at h; exact ⟨y, rfl, by simpa using h.2⟩

/-- A tray closed with a command entry free: its TRAY_CHANGE is the next frame (R142). -/
theorem closeTray_of_room {b : Nat} {x : Tray} {s : State} (hx : (binAt s b).tray = some x) (hr : commandRoom s = true)
    (why : CloseReason) :
    closeTray b why s = enqueue (setBin s b (closedBin why false (binAt s b))) (changeFrame s b x.reserved) := by
  have e : closedBin why false (binAt s b) = { binAt s b with state := .full, tray := some { x with reason := some why } } := by
    simp [closedBin, hx]
  rw [e]
  unfold closeTray; rw [hx]; dsimp only
  rw [sendTrayChange_of_room (by exact hr)]; rfl

/-- A tray closed with the command part full: its TRAY_CHANGE is owed, with COMMAND_QUEUE_FULL (R142). -/
theorem closeTray_of_full {b : Nat} {x : Tray} {s : State} (hx : (binAt s b).tray = some x) (hr : commandRoom s = false)
    (why : CloseReason) :
    closeTray b why s = raise .commandQueueFull none none none (setBin s b (closedBin why true (binAt s b))) := by
  generalize hz : ({ binAt s b with state := .full, tray := some { x with reason := some why } } : Bin) = z
  have hz' : z ≠ .off := by subst hz; intro h; cases h
  have hb : { binAt (setBin s b z) b with owed := true } = closedBin why true (binAt s b) := by
    rw [binAt_setBin hz']; subst hz; simp [closedBin, hx]
  have e : closeTray b why s =
      raise .commandQueueFull none none none (setBin (setBin s b z) b { binAt (setBin s b z) b with owed := true }) := by
    unfold closeTray; rw [hx]; dsimp only
    unfold sendTrayChange sendCommand
    rw [hz]
    have : commandRoom (setBin s b z) = false := hr
    rw [this]; rfl
  rw [e, hb]
  have : setBin (setBin s b z) b (closedBin why true (binAt s b)) = setBin s b (closedBin why true (binAt s b)) := by
    simp only [setBin, withBu, tput_tput hz']
  rw [this]

/-- A tray closed (R142). -/
theorem closeTray_spec {b : Nat} {x : Tray} {s : State} (hx : (binAt s b).tray = some x) (why : CloseReason) :
    TrayClosed b why s (closeTray b why s) := by
  refine ⟨fun h => ?_, fun h => ?_⟩
  · rw [closeTray_of_room hx h, hx]; rfl
  · rw [closeTray_of_full hx h]; exact raise_flagOnly _ _ _ _ _

/-- A bin with a tray reads as it was written. -/
theorem binAt_setBin_of_tray {x : Bin} {y : Tray} (h : x.tray = some y) (b : Nat) (s : State) : binAt (setBin s b x) b = x :=
  binAt_setBin (fun e => by rw [e] at h; cases h) b s

theorem closedBin_ne_off (why : CloseReason) (o : Bool) (x : Bin) : closedBin why o x ≠ .off := by intro h; cases h

/-! ## Causes and block updates -/

theorem raise_withIu (f : Flag) (a : Option Addr) (p : Option Pitch) (i : Option PieceId) (s : State) (x : Iu) :
    raise f a p i (withIu s x) = withIu (raise f a p i s) x := by
  unfold raise placeAlert
  by_cases h : s.cl.summary = 0#18
  · rw [if_pos h, if_pos (by exact h)]
    by_cases h' : alertPlaceable (withCl s { s.cl with summary := flagMask f, capture := some ⟨f, a, p, i⟩, alertPending := true }) = true
    · rw [if_pos h', if_pos (by exact h')]; rfl
    · rw [if_neg h', if_neg (by exact h')]; rfl
  · rw [if_neg h, if_neg (by exact h)]; rfl

theorem raise_withBu (f : Flag) (a : Option Addr) (p : Option Pitch) (i : Option PieceId) (s : State) (x : Bu) :
    raise f a p i (withBu s x) = withBu (raise f a p i s) x := by
  unfold raise placeAlert
  by_cases h : s.cl.summary = 0#18
  · rw [if_pos h, if_pos (by exact h)]
    by_cases h' : alertPlaceable (withCl s { s.cl with summary := flagMask f, capture := some ⟨f, a, p, i⟩, alertPending := true }) = true
    · rw [if_pos h', if_pos (by exact h')]; rfl
    · rw [if_neg h', if_neg (by exact h')]; rfl
  · rw [if_neg h, if_neg (by exact h)]; rfl

/-- A cause says nothing of the bins. -/
theorem FlagOnly.withBu {f : Flag} {a : Option Addr} {p : Option Pitch} {i : Option PieceId} {u t : State} (h : FlagOnly f a p i u t)
    (x : Bu) : FlagOnly f a p i (withBu u x) (withBu t x) := by
  obtain ⟨h1, ⟨b1, b2, b3, b4, b5, b6, b7, b8, b9, -, b11⟩, h3, h4⟩ := h
  exact ⟨h1, ⟨b1, b2, b3, b4, b5, b6, b7, b8, b9, rfl, b11⟩, h3, h4⟩

/-- A flag that is set is not set a second time (R172). -/
theorem raise_again (f : Flag) (a b : Option Addr) (p q : Option Pitch) (i j : Option PieceId) (s : State) :
    raise f b q j (raise f a p i s) = raise f a p i s := by
  have h := (raise_causeTaken f a p i s).1
  generalize raise f a p i s = t at h ⊢
  have hm : flagMask f ≠ 0#18 := by cases f <;> decide
  have hor : t.cl.summary ||| flagMask f = t.cl.summary := by rw [h, BitVec.or_assoc, BitVec.or_self]
  have hne : t.cl.summary ≠ 0#18 := by
    intro e; rw [e, BitVec.zero_or] at hor; exact hm hor
  unfold raise; rw [if_neg hne, hor]; rfl

/-! ## Every bin to be closed (R129, R142, R149) -/

/-- The TRAY_CHANGEs of some bins queued while entries are free. -/
def queuedFor (s : State) (c : List Nat) : State :=
  withRp s { s.rp with
    originate := s.rp.originate ++ (c.take (commandFree s)).map (fun b => changeFrame s b ((binAt s b).tray.elim 0 Tray.reserved)) }

/-- The listed bins that are OPEN with a tray that is not empty are closed in their order, and nothing else changes but what their
TRAY_CHANGEs bring about (R129, R142, R149). -/
theorem closeNonEmpty_list (why : CloseReason) {l : List Nat} (hn : l.Nodup) (s : State) :
    (∀ b, binAt (closeNonEmpty why l s) b =
      if b ∈ l.filter (fun c => openNonEmpty (binAt s c)) then
        closedBin why (decide (b ∈ (l.filter (fun c => openNonEmpty (binAt s c))).drop (commandFree s))) (binAt s b)
      else binAt s b) ∧
    ((l.filter (fun c => openNonEmpty (binAt s c))).length ≤ commandFree s → closeNonEmpty why l s =
      withBu (queuedFor s (l.filter (fun c => openNonEmpty (binAt s c)))) { s.bu with bins := (closeNonEmpty why l s).bu.bins }) ∧
    (commandFree s < (l.filter (fun c => openNonEmpty (binAt s c))).length → closeNonEmpty why l s =
      raise .commandQueueFull none none none
        (withBu (queuedFor s (l.filter (fun c => openNonEmpty (binAt s c)))) { s.bu with bins := (closeNonEmpty why l s).bu.bins })) := by
  induction l generalizing s with
  | nil => exact ⟨fun b => by simp [closeNonEmpty], fun _ => by simp [closeNonEmpty, queuedFor, withBu, withRp], fun h => by simp at h⟩
  | cons b bs ih =>
    rw [List.nodup_cons] at hn
    by_cases hb : openNonEmpty (binAt s b) = true
    · obtain ⟨-, x, hx, -⟩ := binAt_openNonEmpty hb
      have unlisted : ∀ u : State, (∀ j, j ≠ b → binAt u j = binAt s j) →
          bs.filter (fun c => openNonEmpty (binAt u c)) = bs.filter (fun c => openNonEmpty (binAt s c)) := by
        intro u hu
        refine List.filter_congr fun c hc => ?_
        rw [hu c (fun e => hn.1 (e ▸ hc))]
      have hmem : b ∉ bs.filter (fun c => openNonEmpty (binAt s c)) := fun h => hn.1 (List.mem_of_mem_filter h)
      have efilter : (b :: bs).filter (fun c => openNonEmpty (binAt s c)) = b :: bs.filter (fun c => openNonEmpty (binAt s c)) := by
        rw [List.filter_cons, if_pos hb]
      have estep : closeNonEmpty why (b :: bs) s = closeNonEmpty why bs (closeTray b why s) := by rw [closeNonEmpty, if_pos hb]
      rw [efilter, estep]
      generalize hC : bs.filter (fun c => openNonEmpty (binAt s c)) = C at hmem unlisted ⊢
      have hbs : ∀ c ∈ C, c ≠ b := fun c hc e => hmem (e ▸ hc)
      by_cases hr : commandRoom s = true
      · rw [closeTray_of_room hx hr]
        have hfree := (commandRoom_iff s).mp hr
        generalize hu : enqueue (setBin s b (closedBin why false (binAt s b))) (changeFrame s b x.reserved) = u
        have hub : binAt u b = closedBin why false (binAt s b) := by subst hu; exact binAt_setBin (closedBin_ne_off _ _ _) b s
        have huo : ∀ j, j ≠ b → binAt u j = binAt s j := fun j hj => by subst hu; exact binAt_setBin_other hj s _
        have huc : commands u = commands s ++ [changeFrame s b x.reserved] := by subst hu; exact commands_enqueue rfl _
        have huf : commandFree u = commandFree s - 1 := by unfold commandFree; rw [huc]; simp; omega
        obtain ⟨n, hn'⟩ : ∃ n, commandFree s = n + 1 := ⟨commandFree s - 1, by omega⟩
        have hq : ∀ z : Table Bin, withBu (queuedFor u C) { u.bu with bins := z } = withBu (queuedFor s (b :: C)) { s.bu with bins := z } := by
          intro z
          have hm : (C.take (commandFree u)).map (fun c => changeFrame u c ((binAt u c).tray.elim 0 Tray.reserved)) =
              (C.take n).map (fun c => changeFrame s c ((binAt s c).tray.elim 0 Tray.reserved)) := by
            rw [huf, hn', Nat.add_sub_cancel]
            refine List.map_congr_left fun c hc => ?_
            rw [huo c (hbs c (List.mem_of_mem_take hc))]; subst hu; rfl
          unfold queuedFor
          rw [hm, hn', List.take_succ_cons, List.map_cons, hx]
          subst hu
          simp only [withBu, withRp, enqueue, setBin, List.append_assoc, List.singleton_append, Option.elim_some]
        obtain ⟨i1, i2, i3⟩ := ih hn.2 u
        rw [unlisted u huo, huf, hn', Nat.add_sub_cancel] at i1 i2 i3
        rw [hq] at i2 i3
        rw [hn']
        refine ⟨fun j => ?_, fun h => i2 (by simpa using h), fun h => i3 (by simpa using h)⟩
        rw [i1 j]
        by_cases hj : j = b
        · subst hj
          rw [if_neg hmem, hub, if_pos List.mem_cons_self, List.drop_succ_cons, decide_eq_false (fun h => hmem (List.mem_of_mem_drop h))]
        · simp only [List.mem_cons, hj, false_or, List.drop_succ_cons, huo j hj]
      · have hr' : commandRoom s = false := by simpa using hr
        have hfree := (commandRoom_false_iff s).mp hr'
        rw [closeTray_of_full hx hr' why]
        generalize hm : setBin s b (closedBin why true (binAt s b)) = m
        generalize hu : raise .commandQueueFull none none none m = u
        have hk := raise_keeps .commandQueueFull none none none m
        rw [hu] at hk
        have hub : binAt u b = closedBin why true (binAt s b) :=
          (binAt_congr hk.2.2.2.2.2.2.2.2.2.1 b).trans (by subst hm; exact binAt_setBin (closedBin_ne_off _ _ _) b s)
        have huo : ∀ j, j ≠ b → binAt u j = binAt s j := fun j hj =>
          (binAt_congr hk.2.2.2.2.2.2.2.2.2.1 j).trans (by subst hm; exact binAt_setBin_other hj s _)
        have huf : commandFree u = 0 := by
          have hc := commands_raise .commandQueueFull none none none m
          rw [hu] at hc
          have : commands m = commands s := by subst hm; rfl
          unfold commandFree at hfree ⊢; rw [hc, this]; exact hfree
        have hq : ∀ z : Table Bin, withBu (queuedFor u C) { u.bu with bins := z } =
            raise .commandQueueFull none none none (withBu (queuedFor s (b :: C)) { s.bu with bins := z }) := by
          intro z
          have e1 : queuedFor u C = u := by unfold queuedFor; rw [huf]; simp [withRp]
          have e2 : queuedFor s (b :: C) = s := by unfold queuedFor; rw [hfree]; simp [withRp]
          have e3 : withBu m { s.bu with bins := z } = withBu s { s.bu with bins := z } := by subst hm; rfl
          rw [e1, e2, ← e3, raise_withBu, hu, hk.2.2.2.2.2.2.2.2.2.1]
          subst hm; rfl
        obtain ⟨i1, i2, i3⟩ := ih hn.2 u
        rw [unlisted u huo, huf] at i1 i2 i3
        rw [hq] at i2 i3
        rw [hfree]
        refine ⟨fun j => ?_, fun h => by simp at h, fun _ => ?_⟩
        · rw [i1 j]
          simp only [List.drop_zero]
          by_cases hj : j = b
          · subst hj
            rw [if_neg hmem, hub, if_pos List.mem_cons_self, decide_eq_true List.mem_cons_self]
          · simp only [List.mem_cons, hj, false_or, huo j hj]
        · by_cases h0 : C = []
          · exact i2 (by rw [h0]; simp)
          · have := i3 (List.length_pos_iff.mpr h0)
            rwa [raise_again] at this
    · rw [closeNonEmpty, if_neg hb, List.filter_cons, if_neg hb]
      exact ih hn.2 s

/-- Every bin that is OPEN with a tray that is not empty is closed (R129, R149). -/
theorem closeNonEmpty_spec (why : CloseReason) (s : State) : BinsClosed why s (closeNonEmpty why allBins s) := by
  have e : allBins.filter (fun c => openNonEmpty (binAt s c)) = closingBins s := by
    simp only [closingBins, allBins, Config.bins, openNonEmpty_eq]
  obtain ⟨h1, h2, h3⟩ := closeNonEmpty_list why (l := allBins) (by unfold allBins; exact List.nodup_range) s
  rw [e] at h1 h2 h3
  generalize closeNonEmpty why allBins s = t at h1 h2 h3 ⊢
  refine ⟨h1, h2, fun h => ?_⟩
  have hr := raise_flagOnly .commandQueueFull none none none (withBu (changesQueued s) { s.bu with bins := t.bu.bins })
  have h' : t = raise .commandQueueFull none none none (withBu (changesQueued s) { s.bu with bins := t.bu.bins }) := h3 h
  rwa [← h'] at hr

theorem runEndClose_spec (s : State) : BinsClosed .runEnd s (runEndClose s) := by
  unfold runEndClose; exact closeNonEmpty_spec .runEnd s

/-! ## The copy of the feeder map (R73, R74) -/

theorem copyFeeder_eq (was is : Bool) (x : Feeder) : copyFeeder was is x = movedFeeder was is x := by
  cases was <;> cases is <;> rfl

theorem mapCopied (s : State) : MapCopied s (mapCopy s) := by
  unfold mapCopy
  refine ⟨by rw [copyFeeders_iu]; rfl, fun hc f hf => ?_⟩
  rw [feederAt_copyFeeders _ _ List.nodup_range _ (by exact hc.2.2.2.2.2.2.2.1), if_pos (List.mem_range.mpr (by exact hf)), copyFeeder_eq]
  rfl

/-- Whether a feeder of a map copy becomes EMPTY, by its flags in the two banks (R74). -/
def emptied (old new : Table MapSlot) (s : State) (f : Nat) : Bool :=
  !(tget MapSlot.off old f).enabled && (tget MapSlot.off new f).enabled && decide ((feederAt s f).level = .empty)

theorem emptied_eq (old new : Table MapSlot) (s : State) (f : Nat) :
    (!(tget MapSlot.off old f).enabled && (tget MapSlot.off new f).enabled &&
      (copyFeeder (tget MapSlot.off old f).enabled (tget MapSlot.off new f).enabled (feederAt s f)).state == .empty) =
      emptied old new s f := by
  unfold emptied
  cases (tget MapSlot.off old f).enabled <;> cases (tget MapSlot.off new f).enabled <;> simp only [Bool.not_false, Bool.not_true,
    Bool.and_true, Bool.and_false, Bool.true_and, Bool.false_and]
  cases h : (feederAt s f).level <;> simp [copyFeeder, h, levelState]

/-- The moves of the listed feeders: the feeders change, and the first that becomes EMPTY sets FEEDER_EMPTY (R74). -/
theorem copyFeeders_flag (old new : Table MapSlot) {l : List Nat} (hn : l.Nodup) (s : State) :
    copyFeeders old new l s = match l.find? (emptied old new s) with
      | some f => raise .feederEmpty (some (placeAt s f).addr) none none (withIu s (copyFeeders old new l s).iu)
      | none => withIu s (copyFeeders old new l s).iu := by
  induction l generalizing s with
  | nil => rfl
  | cons f fs ih =>
    rw [List.nodup_cons] at hn
    have step : copyFeeders old new (f :: fs) s = copyFeeders old new fs
        (if emptied old new s f = true then
          raiseFeederEmpty f (setFeeder s f (copyFeeder (tget MapSlot.off old f).enabled (tget MapSlot.off new f).enabled (feederAt s f)))
        else setFeeder s f (copyFeeder (tget MapSlot.off old f).enabled (tget MapSlot.off new f).enabled (feederAt s f))) := by
      rw [copyFeeders, ← emptied_eq]
    rw [step]
    generalize copyFeeder _ _ (feederAt s f) = x
    rw [List.find?_cons]
    cases he : emptied old new s f with
    | true =>
      rw [if_pos rfl]
      have h := ih hn.2 (raiseFeederEmpty f (setFeeder s f x))
      generalize (copyFeeders old new fs (raiseFeederEmpty f (setFeeder s f x))).iu = y at h ⊢
      have e : withIu (raiseFeederEmpty f (setFeeder s f x)) y = raise .feederEmpty (some (placeAt s f).addr) none none (withIu s y) := by
        unfold raiseFeederEmpty; rw [← raise_withIu]; rfl
      rw [e] at h
      rw [h]
      cases fs.find? (emptied old new (raiseFeederEmpty f (setFeeder s f x))) with
      | none => rfl
      | some g => exact raise_again _ _ _ _ _ _ _ _
    | false =>
      rw [if_neg (by simp)]
      have hfind : fs.find? (emptied old new (setFeeder s f x)) = fs.find? (emptied old new s) := by
        refine List.find?_congr fun g hg => ?_
        have hgf : g ≠ f := fun e => hn.1 (e ▸ hg)
        have : feederAt (setFeeder s f x) g = feederAt s g := tget_tput_other _ _ _ hgf
        unfold emptied; rw [this]
      have h := ih hn.2 (setFeeder s f x)
      rw [hfind] at h
      exact h

/-- The copy of the feeder map, with FEEDER_EMPTY when a feeder becomes EMPTY (R73, R74). -/
theorem mapCopy_spec (s : State) : MapCopyMade s (mapCopy s) := by
  have hc := mapCopied s
  have h : mapCopy s = match (List.range 8).find? (becomesEmpty s) with
      | some f => raise .feederEmpty (some (placeAt s f).addr) none none (withIu s (mapCopy s).iu)
      | none => withIu s (mapCopy s).iu :=
    copyFeeders_flag s.iu.active s.iu.staged List.nodup_range (withIu s { s.iu with active := s.iu.staged, commitPending := false })
  generalize mapCopy s = t at hc h
  refine ⟨withIu s t.iu, rfl, hc, fun f hf he hlow => ?_, fun hno => ?_⟩
  · have hfind : (List.range 8).find? (becomesEmpty s) = some f := by
      rw [List.find?_range_eq_some]
      exact ⟨he, List.mem_range.mpr hf, fun g hg => by simpa using hlow g hg⟩
    rw [hfind] at h
    have hr := raise_flagOnly .feederEmpty (some (placeAt s f).addr) none none (withIu s t.iu)
    have h' : t = raise .feederEmpty (some (placeAt s f).addr) none none (withIu s t.iu) := h
    rwa [← h'] at hr
  · have hfind : (List.range 8).find? (becomesEmpty s) = none := by
      rw [List.find?_eq_none]
      exact fun f hf => by simp [hno f (List.mem_range.mp hf)]
    rw [hfind] at h; exact h

/-! ## The copy of the sort plan (R128, R129, R132) -/

/-- Each listed bin that is OPEN with an empty tray gives it the current generation, and no other bin changes (R128). -/
theorem binAt_renewGenerations {l : List Nat} (hn : l.Nodup) (s : State) (b : Nat) :
    binAt (renewGenerations l s) b =
      if b ∈ l ∧ (binAt s b).state = .opened ∧ (binAt s b).tray.any trayEmpty = true then
        { binAt s b with tray := (binAt s b).tray.map (fun y => { y with generation := s.su.generation }) }
      else binAt s b := by
  induction l generalizing s with
  | nil => simp [renewGenerations]
  | cons c cs ih =>
    rw [List.nodup_cons] at hn
    by_cases hc : (binAt s c).state = .opened ∧ (binAt s c).tray.any trayEmpty = true
    · obtain ⟨y, hy⟩ : ∃ y, (binAt s c).tray = some y := by
        cases h : (binAt s c).tray with
        | none => rw [h] at hc; simp at hc
        | some y => exact ⟨y, rfl⟩
      have he : trayEmpty y = true := by rw [hy] at hc; simpa using hc.2
      have e : renewGenerations (c :: cs) s =
          renewGenerations cs (setBin s c { binAt s c with tray := some { y with generation := s.su.generation } }) := by
        rw [renewGenerations]; simp only [hc.1, hy, he, if_true]
      rw [e, ih hn.2]
      by_cases hb : b = c
      · subst hb
        rw [if_neg (fun h => hn.1 h.1), if_pos ⟨List.mem_cons_self, hc⟩, binAt_setBin_of_tray rfl, hy]; rfl
      · rw [binAt_setBin_other hb]; simp [hb]
    · have e : renewGenerations (c :: cs) s = renewGenerations cs s := by
        rw [renewGenerations]
        cases h1 : (binAt s c).state <;> cases h2 : (binAt s c).tray with
        | none => rfl
        | some y =>
          first
          | rfl
          | (have : trayEmpty y = false := by
               by_contra h3; exact hc ⟨h1, by rw [h2]; simpa using h3⟩
             simp only [this]; rfl)
      rw [e, ih hn.2]
      by_cases hb : b = c
      · subst hb; rw [if_neg (fun h => hn.1 h.1), if_neg (fun h => hc h.2)]
      · simp [hb]

theorem renewGenerations_bu (l : List Nat) (s : State) :
    (renewGenerations l s).bu = { s.bu with bins := (renewGenerations l s).bu.bins } := by
  induction l generalizing s with
  | nil => rfl
  | cons c cs ih =>
    rw [renewGenerations]
    split
    · rw [ih]; split <;> rfl
    · exact ih s

/-- A bin that is OPEN with a tray, and is not to be closed, has an empty tray. -/
theorem open_of_not_closing {s : State} {b : Nat} (hb : b < 17) (ho : (binAt s b).state = .opened) (h : b ∉ closingBins s) :
    (binAt s b).tray = none ∨ (binAt s b).tray.any trayEmpty = true := by
  unfold closingBins at h
  rw [List.mem_filter, not_and] at h
  have := h (List.mem_range.mpr hb)
  cases ht : (binAt s b).tray with
  | none => exact .inl rfl
  | some y => rw [ht, ho] at this; right; simpa using this

theorem renewGenerations_eq (l : List Nat) (s : State) :
    renewGenerations l s = withBu s { s.bu with bins := (renewGenerations l s).bu.bins } := by
  induction l generalizing s with
  | nil => rfl
  | cons c cs ih =>
    have one : ∀ x, renewGenerations cs (setBin s c x) = withBu s { s.bu with bins := (renewGenerations cs (setBin s c x)).bu.bins } :=
      fun x => by rw [ih]; rfl
    rw [renewGenerations]
    split
    · split
      · exact one _
      · exact ih s
    · exact ih s

/-- The copy of the sort plan: the bank, the generation, the group break, and the generation of empty trays (R128, R129, R132). -/
theorem planCopy_spec (s : State) : PlanCopied s (planCopy s) := by
  generalize hx : ({ s.su with active := s.su.staged, generation := s.su.generation + 1#16, commitPending := false } : Su) = x
  have hcl := closeNonEmpty_spec .groupBreak (withSu s x)
  have hsu := (closeNonEmpty_keeps .groupBreak allBins (withSu s x)).2.2.2.2.2.2.2.2.1
  have e : planCopy s = renewGenerations allBins (closeNonEmpty .groupBreak allBins (withSu s x)) := by subst hx; rfl
  have hnd : allBins.Nodup := by unfold allBins; exact List.nodup_range
  rw [e]
  generalize closeNonEmpty .groupBreak allBins (withSu s x) = c at hcl hsu ⊢
  obtain ⟨hb, hok, hfull⟩ := hcl
  have hbin : ∀ b, binAt c b =
      if b ∈ closingBins s then closedBin .groupBreak (decide (b ∈ (closingBins s).drop (commandFree s))) (binAt s b) else binAt s b := hb
  have hg : c.su.generation = s.su.generation + 1 := by rw [hsu]; subst hx; rfl
  have hr := renewGenerations_eq allBins c
  have hbr := binAt_renewGenerations hnd c
  generalize renewGenerations allBins c = t at hr hbr ⊢
  have hv : withBu (withBu (changesQueued (withSu s x)) { (withSu s x).bu with bins := c.bu.bins }) { c.bu with bins := t.bu.bins } =
      withSu (withBu (changesQueued s) { c.bu with bins := t.bu.bins }) x := rfl
  refine ⟨fun b h => ?_, fun b hlt ho h => ?_, fun b hx => ?_, fun h => ?_, fun h => ?_⟩
  · rw [hbr, if_neg, hbin, if_pos h]
    rintro ⟨-, ho, -⟩
    rw [hbin, if_pos h] at ho; cases ho
  · have hm : b ∈ allBins := by unfold allBins; exact List.mem_range.mpr hlt
    rw [hbr, hbin, if_neg h, hg]
    rcases open_of_not_closing hlt ho h with he | he
    · rw [he, if_neg (by simp)]
      generalize hx : binAt s b = x at he
      cases x; cases he; rfl
    · rw [if_pos ⟨hm, ho, he⟩]
  · have hnc : b ∉ closingBins s := by
      unfold closingBins
      rw [List.mem_filter, List.mem_range]
      rintro ⟨hlt, h⟩
      rcases hx with hx | hx
      · simp [hx] at h
      · omega
    rw [hbr, hbin, if_neg hnc, if_neg]
    rintro ⟨hm, ho, -⟩
    rcases hx with hx | hx
    · exact hx ho
    · unfold allBins at hm; rw [List.mem_range] at hm; unfold Config.bins at hm; omega
  · have hc := hok h
    have hbu : c.bu = { s.bu with bins := c.bu.bins } := by rw [hc]; rfl
    rw [hbu] at hr
    have : t = withBu (withBu (changesQueued (withSu s x)) { (withSu s x).bu with bins := c.bu.bins }) { s.bu with bins := t.bu.bins } := by
      rw [← hc]; exact hr
    rw [this]; subst hx; rfl
  · have hc := hfull h
    have hbu : c.bu = { s.bu with bins := c.bu.bins } := hc.2.1.2.2.2.2.2.2.2.2.2.1
    rw [hbu] at hr
    have hw := hc.withBu { s.bu with bins := t.bu.bins }
    have h' : t = withBu c { s.bu with bins := t.bu.bins } := hr
    rw [← h'] at hw
    subst hx; exact hw

/-! ## The pending copies of a run that ends (R73, R127) -/

theorem copiesMade (s : State) : CopiesMade s (planCopyIfPending (mapCopyIfPending s)) := by
  have h1 : (mapCopyIfPending s).su = s.su := by simp
  refine ⟨mapCopyIfPending s, fun h => ?_, fun h => ?_, fun h => ?_, fun h => ?_⟩
  · unfold mapCopyIfPending; rw [if_pos h]; exact mapCopy_spec s
  · unfold mapCopyIfPending; rw [if_neg (by simp [h])]
  · rw [planCopyIfPending, if_pos (by rw [h1]; exact h)]; exact planCopy_spec _
  · rw [planCopyIfPending, if_neg (by rw [h1, h]; simp)]

/-! ## The drain end (R156) -/

theorem binSettled_iff (x : Bin) : binSettled x = true ↔ x.state = .disabled ∨ (x.state = .opened ∧ x.tray.any trayEmpty = true) := by
  unfold binSettled
  simp only [Bool.or_eq_true, Bool.and_eq_true, beq_iff_eq]
  cases x.tray <;> simp

theorem allSettled_iff (s : State) : allSettled s = true ↔ AllSettled s := by
  simp only [allSettled, AllSettled, List.all_eq_true, binSettled_iff, allBins, List.mem_range, Config.bins]

theorem drainEnd_spec (s : State) : DrainEnds s (drainEnd s) := ⟨_, raise_flagOnly _ _ _ _ _, copiesMade _⟩

theorem drainTest_spec (s : State) : DrainTested s (drainTest s) := by
  unfold drainTest
  by_cases h : DrainReached s
  · rw [if_pos ⟨h.1, h.2.1, (allSettled_iff s).mpr h.2.2⟩]
    exact ⟨fun _ => drainEnd_spec s, fun h' => absurd h h'⟩
  · rw [if_neg (fun h' => h ⟨h'.1, h'.2.1, (allSettled_iff s).mp h'.2.2⟩)]
    exact ⟨fun h' => absurd h' h, fun _ => rfl⟩

/-- A change of the number in flight: in DRAINING with none left the run-end close and the test for the drain end (R149, R156). -/
theorem flightChanged_spec (s : State) : FlightFell s (flightChanged s) := by
  unfold flightChanged
  by_cases h : s.rc.state = .draining ∧ inFlight s = 0
  · rw [if_pos h]
    exact ⟨fun _ _ => ⟨_, runEndClose_spec s, drainTest_spec _⟩, fun h' => by rcases h' with h' | h' <;> simp [h] at h'⟩
  · rw [if_neg h]
    exact ⟨fun h1 h2 => absurd ⟨h1, h2⟩ h, fun _ => rfl⟩

end Sys2Proof.Machine
end

