-- ==== Sys2Proof/Laws/Cutter.lean ====
section
/-! SUPPORT. What a decision on the cutter, the test of R40 and a stop do, in the terms of Safety (R39-R41, R157). -/

namespace Sys2Proof.Machine

theorem cutterFrame_eq (s : State) (p : PendingCutter) : cutterFrame s p = cutterOrder s (cutterOf p) := by cases p <;> rfl

/-- HOLD or GO is queued, or left pending with COMMAND_QUEUE_FULL (R40, R41). -/
theorem queueCutter_spec (p : PendingCutter) (s : State) :
    CutterTold (cutterOf p) (pendingAfter s.cu.pendingCutter p) s (queueCutter p s) := by
  unfold queueCutter
  refine ⟨fun h => ?_, fun h => ?_⟩
  · rw [if_pos h, cutterFrame_eq]; rfl
  · rw [if_neg (by simp [h])]; exact raise_flagOnly _ _ _ _ _

theorem queueCutter_holdByRun (s : State) : CutterTold .hold .holdByRun s (queueCutter .holdByRun s) := by
  have h := queueCutter_spec .holdByRun s
  have e : pendingAfter s.cu.pendingCutter .holdByRun = .holdByRun := by simp [pendingAfter]
  rwa [e] at h

theorem goCondition_iff (s : State) : goCondition s = true ↔ GoMet s := by
  rw [goCondition, Bool.and_eq_true, decide_eq_true_eq, decide_eq_true_eq]; rfl

theorem holdCondition_iff (s : State) : holdCondition s = true ↔ HoldMet s := by
  rw [holdCondition, Bool.or_eq_true, decide_eq_true_eq, decide_eq_true_eq]; rfl

theorem withCu_self (s : State) : withCu s s.cu = s := rfl

theorem withdrawCutter_eq (s : State) : withdrawCutter s = withCu s { s.cu with pendingCutter := stillPending s } := by
  have keep : ∀ {x}, s.cu.pendingCutter = x → s = withCu s { s.cu with pendingCutter := x } := by rintro x rfl; rfl
  unfold withdrawCutter stillPending
  cases h : s.cu.pendingCutter with
  | none => exact keep h
  | some p =>
    cases p with
    | holdByRun => exact keep h
    | go =>
      dsimp only
      by_cases hg : GoMet s
      · rw [if_pos ((goCondition_iff s).mpr hg), if_pos hg]; exact keep h
      · rw [if_neg (fun e => hg ((goCondition_iff s).mp e)), if_neg hg]
    | holdByQueue =>
      dsimp only
      by_cases hg : GoMet s
      · rw [if_pos ((goCondition_iff s).mpr hg), if_pos hg]
      · rw [if_neg (fun e => hg ((goCondition_iff s).mp e)), if_neg hg]; exact keep h

/-- The test of R40 (R40, R41). -/
theorem cutterTest_spec (s : State) : CutterTested s (cutterTest s) := by
  unfold cutterTest CutterTested
  refine ⟨fun h => if_neg h, fun h => ?_⟩
  rw [if_pos h, withdrawCutter_eq]
  intro v
  have hh : holdCondition v = true ↔ HoldMet s := holdCondition_iff v
  have hg : goCondition v = true ↔ GoMet s := goCondition_iff v
  have eh : v.cu.hold = s.cu.hold := rfl
  have ep : v.cu.pendingCutter = stillPending s := rfl
  refine ⟨fun h1 h2 => ?_, fun h1 h2 => ?_, fun h1 h2 => ?_⟩
  · have d : decideCutter v = queueCutter .holdByQueue v := if_pos ⟨eh.trans h1, hh.mpr h2⟩
    have := queueCutter_spec .holdByQueue v
    have e : pendingAfter v.cu.pendingCutter .holdByQueue = if s.cu.pendingCutter = some .holdByRun then .holdByRun else .holdByQueue := by
      rw [ep]; unfold pendingAfter stillPending
      cases hp : s.cu.pendingCutter with
      | none => rfl
      | some p => cases p <;> dsimp only <;> (try split) <;> simp_all
    rw [e, ← d] at this; exact this
  · have d : decideCutter v = queueCutter .go v :=
      (if_neg (fun e => by have := eh.symm.trans e.1; rw [h1] at this; cases this)).trans (if_pos ⟨eh.trans h1, hg.mpr h2⟩)
    have := queueCutter_spec .go v
    have e : pendingAfter v.cu.pendingCutter .go = .go := by simp [pendingAfter]
    rw [e, ← d] at this; exact this
  · exact (if_neg (fun e => h1 (eh.symm.trans e.1) (hh.mp e.2))).trans (if_neg (fun e => h2 (eh.symm.trans e.1) (hg.mp e.2)))

/-- A stop (R157). -/
theorem runStop_spec (cause : StopCause) (addr : Option Addr) (s : State) : RunStopped cause addr s (runStop cause addr s) := by
  unfold runStop
  refine ⟨fun h => ?_, fun h1 h2 => if_neg (by rintro (h | h); exacts [h1 h, h2 h])⟩
  rw [if_pos h]
  exact queueCutter_holdByRun _

end Sys2Proof.Machine
end

