-- ==== Sys2Proof/Laws/Collating.lean ====
section
/-! SUPPORT. What opening, completing and ending a record do, in the terms of Safety (R10, R22-R38). -/

namespace Sys2Proof.Machine

/-! ## Faults of a set, and its claim (R10, R25) -/

theorem setFault_eq (f : PieceFault) (x : SetRec) : setFault f x = withFaults [f] x := by
  unfold setFault withFaults; cases h : x.fault <;> simp

theorem withFaults_nil (x : SetRec) : withFaults [] x = x := by
  have : (x.fault.toList ++ []).length ≤ 1 := by cases x.fault <;> simp
  unfold withFaults
  rw [decide_eq_false (by omega)]
  cases x with
  | mk a b c d e g => cases e <;> simp

/-- Faults recorded one after the other. -/
theorem withFaults_append (fs gs : List PieceFault) (x : SetRec) : withFaults (fs ++ gs) x = withFaults gs (withFaults fs x) := by
  unfold withFaults
  rw [← List.append_assoc]
  generalize x.fault.toList ++ fs = l
  cases l with
  | nil =>
    have h : decide (2 ≤ ([] : List PieceFault).length) = false := rfl
    rw [h, Bool.or_false]; rfl
  | cons a l =>
    have h : decide (2 ≤ (a :: l ++ gs).length) = (decide (2 ≤ (a :: l).length) || decide (2 ≤ ([a] ++ gs).length)) := by
      rw [← Bool.decide_or]; simp only [List.length_append, List.length_cons, List.length_nil, decide_eq_decide]; omega
    rw [h, ← Bool.or_assoc]; rfl

/-- A claim gives a slot and its descriptor, or a fault (R10). -/
theorem claim_eq (id : PieceId) (s : State) :
    claim id s = match claimGives s id with
      | .ok e => (setDesc s e.1 (some e.2), .slot e.1 e.2.sheets)
      | .error f => (s, .fault f) := by
  unfold claim claimGives
  cases lookup s id with
  | found n d =>
    cases hd : d.state with
    | diverted => by_cases hr : d.reprint < 3 <;> simp [hd, hr]
    | _ => simp [hd]
  | _ => rfl

/-- A claim (R10): the store after it, and what the set takes of it. -/
theorem claim_spec (id : PieceId) (s : State) :
    (claim id s).1 = claimMade s id ∧
      (∀ n x, applyClaim (claim id s).2 true n x = withFaults (claimFaults s id n) { x with slot := (claimSlot s id).or x.slot }) ∧
      ∀ n x, applyClaim (claim id s).2 false n x =
        withFaults (match claimGives s id with | .error f => [f] | .ok _ => []) { x with slot := (claimSlot s id).or x.slot } := by
  rw [claim_eq, claimMade, claimSlot]
  cases hg : claimGives s id with
  | error f => exact ⟨rfl, fun n x => by rw [claimFaults, hg]; exact setFault_eq f x, fun n x => setFault_eq f x⟩
  | ok e =>
    refine ⟨rfl, fun n x => ?_, fun n x => (withFaults_nil _).symm⟩
    rw [claimFaults, hg]
    dsimp only [applyClaim]
    by_cases hn : e.2.sheets = n
    · rw [if_neg (by simp [hn]), if_pos hn, withFaults_nil]; rfl
    · rw [if_pos (by simp [hn]), if_neg hn, setFault_eq]; rfl

theorem readSheet_readable {id : PieceId} {i n : Byte} (h : Readable id i n) : readSheet id i n = .readable id i.toNat n.toNat := by
  obtain ⟨h1, h2, h3, h4⟩ := h
  unfold readSheet
  exact if_pos ⟨h1, h2, by omega, by omega, h4, h3⟩

theorem readSheet_noRead {id : PieceId} {i n : Byte} (h : ¬Readable id i n) : readSheet id i n = .noRead := by
  unfold readSheet
  exact if_neg (fun e => h ⟨e.1, e.2.1, e.2.2.2.2.2, e.2.2.2.2.1⟩)

theorem sheetId_readSheet (id : PieceId) (i n : Byte) : sheetId (readSheet id i n) = if Readable id i n then some id else none := by
  by_cases h : Readable id i n
  · rw [readSheet_readable h, if_pos h]; rfl
  · rw [readSheet_noRead h, if_neg h]; rfl

/-! ## Records (R23, R32, R34, R38-R40) -/

theorem countSheet_eq (noRead : Bool) (s : State) : countSheet noRead s = sheetCounted false noRead s := rfl

/-- A record opened in the place (R23, R39, R40). -/
theorem openRecord_spec (noRead : Bool) (r : OpenRec) (s : State) : RecordOpened noRead r s (openRecord noRead r s) := by
  unfold RecordOpened
  intro v
  have e : openRecord noRead r s = cutterTest (headroomFell (headroom s) v) := rfl
  rw [e]
  refine ⟨_, fun h1 h2 => ?_, fun h => ?_, cutterTest_spec _⟩
  · unfold headroomFell; rw [if_pos ⟨h1, h2⟩]; exact raise_flagOnly _ _ _ _ _
  · unfold headroomFell
    exact if_neg (fun e => by
      have h1 : 8 < headroom s := e.1
      have h2 : headroom v ≤ 8 := e.2
      omega)

/-- A record completes (R34). -/
theorem completeRecord_spec (r : OpenRec) (s : State) : RecordCompleted r s (completeRecord r s) := by
  unfold completeRecord
  refine ⟨fun h => ?_, fun h => if_neg (by simp only [Config.releaseQueue]; omega)⟩
  rw [if_pos (by exact h)]; exact cutterTest_spec _

/-- What becomes of a record that a sheet was added to (R32). -/
theorem settleRecord_spec (done : Bool) (r : OpenRec) (s : State) : RecordLeft done r s (settleRecord done r s) := by
  unfold settleRecord
  refine ⟨fun h => ?_, fun h1 h2 => ?_, fun h1 h2 => ?_⟩
  · rw [if_pos h]; exact completeRecord_spec r s
  · rw [if_neg (by simp [h1]), if_pos (by exact h2), setFault_eq]; exact completeRecord_spec _ s
  · rw [if_neg (by simp [h1]), if_neg (by exact h2)]; rfl

/-- A sheet that finds no place (R28, R35). -/
theorem sheetOverrun_spec (src : Addr) (id : Option PieceId) (s : State) : Overrun src id s (sheetOverrun src id s) :=
  ⟨_, raise_flagOnly _ _ _ _ _, runStop_spec _ _ _⟩

/-- A sheet that comes with no record open (R25-R28). -/
theorem openSheet_spec (src : Addr) (id : PieceId) (i n : Byte) (s : State) :
    SheetOpens src id i n s (openSheet src (readSheet id i n) s) := by
  unfold openSheet
  refine ⟨fun h => ?_, fun h hr => ?_, fun h hr => ?_⟩
  · rw [if_pos h, sheetId_readSheet]; exact sheetOverrun_spec _ _ _
  · rw [if_neg (by omega), readSheet_readable hr]
    dsimp only
    obtain ⟨h1, h2, -⟩ := claim_spec id s
    have hx : (if i.toNat = 1 then applyClaim (claim id s).2 true n.toNat (freshSet id n.toNat)
        else setFault .sequence (applyClaim (claim id s).2 true n.toNat (freshSet id n.toNat))) = openedSet s id i.toNat n.toNat := by
      have e : ({ freshSet id n.toNat with slot := (claimSlot s id).or (freshSet id n.toNat).slot } : SetRec) =
          ⟨some id, claimSlot s id, some n.toNat, 1, none, false⟩ := by simp [freshSet]
      rw [h2, e, openedSet]
      by_cases hi : i.toNat = 1
      · rw [if_pos hi, if_pos hi, List.append_nil]
      · rw [if_neg hi, if_neg hi, withFaults_append, setFault_eq]
    rw [hx, h1]
    refine ⟨_, openRecord_spec _ _ _, fun hin => ?_, fun hin => ?_⟩
    · rw [if_pos (by rw [hin])]; exact completeRecord_spec _ _
    · rw [if_neg (fun e => hin (BitVec.eq_of_toNat_eq e))]
  · rw [if_neg (by omega), readSheet_noRead hr]; exact openRecord_spec _ _ _

/-- A sheet that ends a record (R31, R33, R35). -/
theorem afterEnding_spec (r : OpenRec) (src : Addr) (id : PieceId) (i n : Byte) (s : State) :
    SheetEnds r src id i n s (afterEnding src (readSheet id i n) (completeRecord r s)) := by
  refine ⟨_, completeRecord_spec r s, fun h => ?_, fun h => ?_⟩
  · unfold afterEnding; rw [if_neg (by simp [h])]; exact openSheet_spec _ _ _ _ _
  · unfold afterEnding; rw [if_pos h]; exact sheetOverrun_spec _ _ _

/-- The end of a run at the open-record place (R38). -/
theorem completeAtEnd_spec (s : State) : RecordEnded s (completeAtEnd s) := by
  unfold completeAtEnd
  refine ⟨fun r h1 h2 => ?_, fun h => ?_⟩
  · rw [h1]; simp only [h2, Bool.false_eq_true, if_false, setFault_eq]; exact completeRecord_spec _ _
  · cases hp : s.cu.place with
    | none => rfl
    | some r => simp only [h r hp, if_true]

end Sys2Proof.Machine
end

