-- ==== Sys2Proof/Laws/Batches.lean ====
section
/-! SUPPORT. What the operations over lists do, in the terms of Safety: batches of descriptors (R14-R16), TRAY_CHANGEs tried again (R142), and drains of the completion log (R13, R170). -/

namespace Sys2Proof.Machine

/-! ## Batches of descriptors (R14-R16) -/

theorem recordFieldsOk_iff (r : DescriptorRecord) : recordFieldsOk r = true ↔ FieldsOk r := by
  unfold recordFieldsOk FieldsOk
  rw [Bool.and_eq_true, Bool.and_eq_true, Bool.and_eq_true, bne_iff_ne, decide_eq_true_eq, decide_eq_true_eq, decide_eq_true_eq,
    and_assoc, and_assoc]
  rfl

/-- One record: loaded, or refused with its reason (R14, R15). -/
theorem loadRecord_spec (r : DescriptorRecord) (s : State) :
    (∃ t, loadRecord r s = .ok t ∧ RecordLoaded r s t) ∨
      ∃ e, loadRecord r s = .error e ∧ RecordRefused r s (loadStatus e) (loadLookup e) := by
  unfold loadRecord
  by_cases hf : FieldsOk r
  · rw [if_pos ((recordFieldsOk_iff r).mpr hf)]
    cases hr : reach s r.id with
    | noWindow => exact .inr ⟨_, rfl, .inr ⟨hf, .inl ⟨hr, rfl, rfl⟩⟩⟩
    | slotRange w => exact .inr ⟨_, rfl, .inr ⟨hf, .inr (.inl ⟨⟨w, hr⟩, rfl, rfl⟩)⟩⟩
    | mapRange w => exact .inr ⟨_, rfl, .inr ⟨hf, .inr (.inr (.inl ⟨⟨w, hr⟩, rfl, rfl⟩))⟩⟩
    | mapInvalid w i => exact .inr ⟨_, rfl, .inr ⟨hf, .inr (.inr (.inr (.inl ⟨⟨w, i, hr⟩, rfl, rfl⟩)))⟩⟩
    | slot w i n =>
      have loads : ∀ x : DescState × Nat, loadsAs r (descAt s n) = some x →
          loadSlot r n s = .ok (setDesc s n (some (recordDescriptor r x.1 x.2))) →
          (∃ t, loadSlot r n s = .ok t ∧ RecordLoaded r s t) := fun x h1 h2 => ⟨_, h2, hf, w, i, n, x, hr, h1, rfl⟩
      have busy : loadsAs r (descAt s n) = none → loadSlot r n s = .error .slotBusy →
          ∃ e, loadSlot r n s = .error e ∧ RecordRefused r s (loadStatus e) (loadLookup e) :=
        fun h1 h2 => ⟨_, h2, .inr ⟨hf, .inr (.inr (.inr (.inr ⟨⟨w, i, n, hr, h1⟩, rfl, rfl⟩)))⟩⟩
      cases hd : descAt s n with
      | none => exact .inl (loads (.loaded, 0) (by rw [hd]; rfl) (by rw [loadSlot, hd]))
      | some d =>
        by_cases hid : d.id = r.id
        · cases hs : d.state with
          | loaded => exact .inl (loads (.loaded, 0) (by simp [hd, loadsAs, hid, hs]) (by simp [loadSlot, hd, hid, hs]))
          | diverted => exact .inl (loads (.diverted, d.reprint) (by simp [hd, loadsAs, hid, hs]) (by simp [loadSlot, hd, hid, hs]))
          | inTrack => exact .inr (busy (by simp [hd, loadsAs, hs]) (by simp [loadSlot, hd, hs]))
          | sorted => exact .inr (busy (by simp [hd, loadsAs, hs]) (by simp [loadSlot, hd, hs]))
        · exact .inr (busy (by simp [hd, loadsAs, hid]) (by simp [loadSlot, hd, hid]))
  · rw [if_neg (fun h => hf ((recordFieldsOk_iff r).mp h))]
    exact .inr ⟨_, rfl, .inl ⟨hf, rfl, rfl⟩⟩

/-- A batch: every record loaded in turn, or those before the first refused one (R16). -/
theorem loadBatch_spec (l : List DescriptorRecord) (j : Nat) (s : State) :
    (∃ x, loadBatch l j s = (x, none) ∧ LoadedInTurn l s x) ∨
      ∃ before r rest x e, l = before ++ r :: rest ∧ loadBatch l j s = (x, some (j + before.length, e)) ∧ LoadedInTurn before s x ∧
        RecordRefused r x (loadStatus e) (loadLookup e) := by
  induction l generalizing j s with
  | nil => exact .inl ⟨s, rfl, rfl⟩
  | cons r rs ih =>
    rcases loadRecord_spec r s with ⟨t, he, hl⟩ | ⟨e, he, hr⟩
    · rcases ih (j + 1) t with ⟨x, h1, h2⟩ | ⟨before, r', rest, x, e, h1, h2, h3, h4⟩
      · exact .inl ⟨x, by rw [loadBatch, he]; exact h1, t, hl, h2⟩
      · refine .inr ⟨r :: before, r', rest, x, e, by rw [h1]; rfl, ?_, ⟨t, hl, h3⟩, h4⟩
        rw [loadBatch, he]
        show loadBatch rs (j + 1) t = _
        rw [h2, List.length_cons]
        simp only [Prod.mk.injEq, Option.some.injEq, and_true, true_and]; omega
    · exact .inr ⟨[], r, rs, s, e, rfl, by rw [loadBatch, he]; rfl, rfl, hr⟩

/-! ## TRAY_CHANGEs tried again (R142) -/

/-- Of the listed bins that owe a TRAY_CHANGE, the first for which entries are free have theirs queued (R142). -/
theorem retryOwed_list {l : List Nat} (hn : l.Nodup) (s : State) :
    (∀ b, binAt (retryOwed l s) b =
      if b ∈ (l.filter (fun c => (binAt s c).owed && (binAt s c).tray.isSome)).take (commandFree s) then { binAt s b with owed := false }
      else binAt s b) ∧
    retryOwed l s = withRp (withBu s { s.bu with bins := (retryOwed l s).bu.bins }) { s.rp with
      originate := s.rp.originate ++ ((l.filter (fun c => (binAt s c).owed && (binAt s c).tray.isSome)).take (commandFree s)).map
        (fun c => changeFrame s c ((binAt s c).tray.elim 0 Tray.reserved)) } := by
  induction l generalizing s with
  | nil => simp [retryOwed, withRp, withBu]
  | cons b bs ih =>
    rw [List.nodup_cons] at hn
    by_cases hb : ((binAt s b).owed && (binAt s b).tray.isSome) = true
    · obtain ⟨ho, ht⟩ := Bool.and_eq_true_iff.mp hb
      obtain ⟨y, hy⟩ := Option.isSome_iff_exists.mp ht
      rw [List.filter_cons, if_pos hb]
      have hmem : b ∉ bs.filter (fun c => (binAt s c).owed && (binAt s c).tray.isSome) := fun h => hn.1 (List.mem_of_mem_filter h)
      by_cases hr : commandRoom s = true
      · have e : retryOwed (b :: bs) s =
            retryOwed bs (setBin (enqueue s (trayChangeFrame s b y.reserved)) b { binAt s b with owed := false }) := by
          rw [retryOwed]; simp only [ho, hy, sendCommand, if_pos hr]
        rw [e]
        generalize hu : setBin (enqueue s (trayChangeFrame s b y.reserved)) b { binAt s b with owed := false } = u
        have hub : binAt u b = { binAt s b with owed := false } := by subst hu; exact binAt_setBin_of_tray (x := { binAt s b with owed := false }) hy b _
        have huo : ∀ j, j ≠ b → binAt u j = binAt s j := fun j hj => by subst hu; exact binAt_setBin_other hj _ _
        have hne : ∀ c ∈ bs, c ≠ b := fun c hc e => hn.1 (e ▸ hc)
        have hfree := (commandRoom_iff s).mp hr
        have huc : commands u = commands s ++ [trayChangeFrame s b y.reserved] := by subst hu; exact commands_enqueue rfl _
        have huf : commandFree u = commandFree s - 1 := by unfold commandFree; rw [huc]; simp; omega
        have hfil : bs.filter (fun c => (binAt u c).owed && (binAt u c).tray.isSome) =
            bs.filter (fun c => (binAt s c).owed && (binAt s c).tray.isSome) :=
          List.filter_congr fun c hc => by rw [huo c (hne c hc)]
        obtain ⟨i1, i2⟩ := ih hn.2 u
        rw [hfil, huf] at i1 i2
        generalize hC : bs.filter (fun c => (binAt s c).owed && (binAt s c).tray.isSome) = C at hmem i1 i2 ⊢
        have hCb : ∀ c ∈ C, c ≠ b := fun c hc e => hmem (e ▸ hc)
        obtain ⟨n, hn'⟩ : ∃ n, commandFree s = n + 1 := ⟨commandFree s - 1, by omega⟩
        rw [hn'] at i1 i2 ⊢
        simp only [Nat.add_sub_cancel] at i1 i2
        refine ⟨fun j => ?_, ?_⟩
        · rw [i1 j, List.take_succ_cons]
          by_cases hj : j = b
          · subst hj
            rw [if_neg (fun h => hmem (List.mem_of_mem_take h)), hub, if_pos List.mem_cons_self]
          · simp only [List.mem_cons, hj, false_or, huo j hj]
        · have hm : (C.take n).map (fun c => changeFrame u c ((binAt u c).tray.elim 0 Tray.reserved)) =
              (C.take n).map (fun c => changeFrame s c ((binAt s c).tray.elim 0 Tray.reserved)) := by
            refine List.map_congr_left fun c hc => ?_
            rw [huo c (hCb c (List.mem_of_mem_take hc))]; subst hu; rfl
          rw [hm] at i2
          rw [List.take_succ_cons, List.map_cons, hy]
          generalize retryOwed bs u = t at i2 ⊢
          rw [i2]
          subst hu
          simp only [withRp, withBu, setBin, enqueue, List.append_assoc, List.singleton_append, Option.elim_some]
          rfl
      · have hr' : commandRoom s = false := by simpa using hr
        have e : retryOwed (b :: bs) s = retryOwed bs s := by
          rw [retryOwed]; simp only [ho, hy, sendCommand, if_neg hr]
        rw [e]
        have hz := (commandRoom_false_iff s).mp hr'
        obtain ⟨i1, i2⟩ := ih hn.2 s
        rw [hz] at i1 i2 ⊢
        exact ⟨i1, i2⟩
    · have e : retryOwed (b :: bs) s = retryOwed bs s := by
        rw [retryOwed]
        cases h1 : (binAt s b).owed <;> cases h2 : (binAt s b).tray with
        | none => rfl
        | some y => first | rfl | (rw [h1, h2] at hb; exact absurd rfl hb)
      rw [e, List.filter_cons, if_neg hb]
      exact ih hn.2 s

/-- The owed TRAY_CHANGEs tried again, B0 to B15 and then BO (R142). -/
theorem retryOwed_spec (s : State) :
    (∀ b, binAt (retryOwed allBins s) b =
      if b ∈ (owingBins s).take (commandFree s) then { binAt s b with owed := false } else binAt s b) ∧
    retryOwed allBins s = withRp (withBu s { s.bu with bins := (retryOwed allBins s).bu.bins }) { s.rp with
      originate := s.rp.originate ++ ((owingBins s).take (commandFree s)).map
        (fun b => changeFrame s b ((binAt s b).tray.elim 0 Tray.reserved)) } :=
  retryOwed_list (by unfold allBins; exact List.nodup_range) s

/-! ## Drains of the completion log (R13, R170) -/

/-- The slot that a drained entry frees (R13). -/
theorem freeDrained_spec (e : Entry) (s : State) :
    (∀ n, Frees s e n → freeDrained e s = setDesc s n none) ∧ ((∀ n, ¬Frees s e n) → freeDrained e s = s) := by
  unfold freeDrained
  have frees : ∀ n, Frees s e n ↔ e.outcome = .sorted ∧ e.slot = some n ∧ ∃ d, descAt s n = some d ∧ d.state = .sorted ∧ e.id = some d.id := by
    intro n; unfold Frees
    cases h : descAt s n <;> simp
  refine ⟨fun n hf => ?_, fun hno => ?_⟩
  · obtain ⟨h1, h2, d, h3, h4⟩ := (frees n).mp hf
    rw [h1, h2]; dsimp only; rw [h3]; dsimp only; rw [if_pos h4]
  · split
    · rename_i n h1 h2
      split
      · rename_i d hd
        exact if_neg fun h => hno n ((frees n).mpr ⟨h1, h2, d, hd, h⟩)
      · rfl
    · rfl

theorem drainMany_spec (k : Nat) {s : State} (h : k ≤ s.cl.log.length) : Drained k s (drainMany k s) := by
  induction k generalizing s with
  | zero => rfl
  | succ k ih =>
    obtain ⟨e, rest, hl⟩ : ∃ e rest, s.cl.log = e :: rest := by
      cases hl : s.cl.log with
      | nil => rw [hl] at h; cases h
      | cons e rest => exact ⟨e, rest, rfl⟩
    have hd : drainOne s = freeDrained e (cutterTest (withCl s { s.cl with log := rest })) := by unfold drainOne; rw [hl]
    obtain ⟨f1, f2⟩ := freeDrained_spec e (cutterTest (withCl s { s.cl with log := rest }))
    refine ⟨e, rest, _, drainOne s, hl, cutterTest_spec _, fun n hf => hd.trans (f1 n hf), fun hf => hd.trans (f2 hf), ?_⟩
    refine ih ?_
    have : (drainOne s).cl.log = rest := by rw [hd]; simp
    rw [this]; rw [hl, List.length_cons] at h; omega

/-- What one drain does to the descriptor store: the slot it frees, and no other (R13). -/
theorem drainOne_spec {s : State} {e : Entry} {rest : List Entry} (hl : s.cl.log = e :: rest) (hc : Table.canonical none s.ds.slots) :
    (drainOne s).cl.log = rest ∧ Table.canonical none (drainOne s).ds.slots ∧ (∀ n, Frees s e n → descAt (drainOne s) n = none) ∧
      ∀ n, ¬Frees s e n → descAt (drainOne s) n = descAt s n := by
  have hd : drainOne s = freeDrained e (cutterTest (withCl s { s.cl with log := rest })) := by unfold drainOne; rw [hl]
  have hm : (cutterTest (withCl s { s.cl with log := rest })).ds = s.ds := by simp
  have hlog : (drainOne s).cl.log = rest := by rw [hd]; simp
  refine ⟨hlog, ?_⟩
  obtain ⟨f1, f2⟩ := freeDrained_spec e (cutterTest (withCl s { s.cl with log := rest }))
  rw [hd]
  generalize cutterTest (withCl s { s.cl with log := rest }) = m at hm f1 f2 ⊢
  have frees : ∀ n, Frees m e n ↔ Frees s e n := fun n => by unfold Frees; rw [descAt_congr hm]
  by_cases h : ∃ n, Frees m e n
  · obtain ⟨n, hn⟩ := h
    rw [f1 n hn]
    have only : ∀ j, Frees s e j → j = n := fun j hj => by have := hj.2.1.symm.trans hn.2.1; exact Option.some.inj this
    refine ⟨?_, fun j hj => ?_, fun j hj => ?_⟩
    · rw [setDesc, withDs_ds, hm]; exact Table.canonical_tput hc _ _
    · rw [only j hj]
      exact tget_tput_same (by rw [hm]; exact hc) _ _
    · have hne : j ≠ n := fun h => hj (h ▸ (frees n).mp hn)
      rw [descAt_setDesc_other hne, descAt_congr hm]
  · have hno : ∀ n, ¬Frees m e n := fun n hn => h ⟨n, hn⟩
    rw [f2 hno, hm]
    exact ⟨hc, fun j hj => absurd ((frees j).mpr hj) (hno j), fun j _ => descAt_congr hm j⟩

/-- The slots that a number of drains frees: those of the SORTED entries among them (R13, R170). -/
theorem drainMany_slots (k : Nat) {s : State} (hc : Table.canonical none s.ds.slots) :
    (∀ e ∈ s.cl.log.take k, ∀ n, Frees s e n → descAt (drainMany k s) n = none) ∧
      ∀ n, (∀ e ∈ s.cl.log.take k, ¬Frees s e n) → descAt (drainMany k s) n = descAt s n := by
  induction k generalizing s with
  | zero => exact ⟨fun e he => by simp at he, fun _ _ => rfl⟩
  | succ k ih =>
    cases hl : s.cl.log with
    | nil =>
      have : drainOne s = s := by unfold drainOne; rw [hl]
      rw [drainMany, this]
      have h := ih hc
      rw [hl] at h
      exact ⟨fun e he => by simp at he, fun n _ => h.2 n (fun e he => by simp at he)⟩
    | cons e rest =>
      obtain ⟨d1, d2, d3, d4⟩ := drainOne_spec hl hc
      obtain ⟨i1, i2⟩ := ih d2
      rw [d1] at i1 i2
      rw [drainMany, List.take_succ_cons]
      generalize drainOne s = v at d1 d2 d3 d4 i1 i2 ⊢
      have same : ∀ n, ¬Frees s e n → ∀ x, Frees v x n ↔ Frees s x n := fun n hn x => by unfold Frees; rw [d4 n hn]
      have freed : ∀ n, Frees s e n → descAt (drainMany k v) n = none := fun n hn => by
        rw [i2 n fun x _ hx => ?_, d3 n hn]
        have := hx.2.2
        rw [d3 n hn] at this; cases this
      refine ⟨fun x hx n hf => ?_, fun n hno => ?_⟩
      · by_cases hn : Frees s e n
        · exact freed n hn
        · rcases List.mem_cons.mp hx with rfl | hx
          · exact absurd hf hn
          · exact i1 x hx n ((same n hn x).mpr hf)
      · have hn := hno e List.mem_cons_self
        rw [i2 n fun x hx hf => hno x (List.mem_cons_of_mem _ hx) ((same n hn x).mp hf), d4 n hn]

end Sys2Proof.Machine
end

