-- ==== Sys2Proof/Laws/Departures.lean ====
section
/-! SUPPORT. What leaving the track, a landing and its account do, in the terms of Safety (R12, R62-R64, R145-R147, R168, R171). -/

namespace Sys2Proof.Machine

/-! ## Leaving (R62, R63, R168, R171) -/

theorem withExitFault_fields (x : Option PieceFault) (p : Piece) :
    (withExitFault x p).fault = p.fault.or x ∧ (withExitFault x p).further = (p.further || (x.isSome && p.fault.isSome)) ∧
      (withExitFault x p).entry = p.entry ∧ (withExitFault x p).id = p.id ∧ (withExitFault x p).slot = p.slot ∧
      (withExitFault x p).held = p.held ∧ (withExitFault x p).mass = p.mass ∧ (withExitFault x p).path = p.path ∧
      (withExitFault x p).band = p.band := by
  unfold withExitFault
  cases x with
  | none => cases p.fault <;> simp
  | some f => unfold addFault; cases p.fault <;> simp

theorem exitState_eq (o : Outcome) : exitState o = if o = .sorted then .sorted else .diverted := by cases o <;> rfl

theorem descAt_writeEntry (e : Entry) (s : State) (n : Nat) :
    descAt (writeEntry e s) n =
      if e.slot = some n then (descAt s n).map (fun d => { d with state := if e.outcome = .sorted then .sorted else .diverted })
      else descAt s n := by
  unfold writeEntry
  generalize hu : tally (withCl s { s.cl with log := s.cl.log ++ [e] }) _ = u
  have hd : ∀ m, descAt u m = descAt s m := fun m => by subst hu; rfl
  obtain ⟨h1, h2⟩ := descAt_exitDescriptor e.outcome e.slot u
  by_cases hs : e.slot = some n
  · rw [if_pos hs, ← hd n]
    cases hx : descAt u n with
    | some d => rw [h1 n d hs hx, exitState_eq]; rfl
    | none => simp only [exitDescriptor, hs, hx]; rfl
  · rw [if_neg hs, h2 n hs, hd n]

theorem writeEntry_ds (e : Entry) (s : State) : (writeEntry e s).ds = { s.ds with slots := (writeEntry e s).ds.slots } := by
  unfold writeEntry exitDescriptor
  split
  · split <;> rfl
  · rfl

/-- A completion entry written touches the log, the counters and the descriptor store alone. -/
theorem writeEntry_rest (e : Entry) (s : State) :
    (writeEntry e s).cl.summary = s.cl.summary ∧ (writeEntry e s).cl.capture = s.cl.capture ∧
      (writeEntry e s).cl.alertPending = s.cl.alertPending ∧ (writeEntry e s).rp = s.rp ∧ (writeEntry e s).bu = s.bu ∧
      (writeEntry e s).tu = s.tu ∧ SameLines s (writeEntry e s) ∧ (writeEntry e s).cu = s.cu ∧ (writeEntry e s).iu = s.iu ∧
      (writeEntry e s).pp = s.pp ∧ (writeEntry e s).su = s.su ∧ (writeEntry e s).rc = s.rc := by
  unfold writeEntry exitDescriptor
  split
  · split <;> exact ⟨rfl, rfl, rfl, rfl, rfl, rfl, ⟨rfl, rfl, rfl⟩, rfl, rfl, rfl, rfl, rfl⟩
  · exact ⟨rfl, rfl, rfl, rfl, rfl, rfl, ⟨rfl, rfl, rfl⟩, rfl, rfl, rfl, rfl, rfl⟩

/-- A piece taken from its slot and entered in the log, in a state r that differs from s in bins, summary and originate queue alone. -/
theorem writeEntry_left {k : Nat} {p : Piece} {s r : State} (o : Outcome) (exit : Option PieceFault) (bin : Option Nat)
    (tray : Option (BitVec 16)) (hring : Table.canonical none s.tu.ring) (hl : SameLines s r) (hds : r.ds = s.ds) (hcu : r.cu = s.cu)
    (htu : r.tu = s.tu) (hiu : r.iu = s.iu) (hpp : r.pp = s.pp) (hsu : r.su = s.su) (hrc : r.rc = s.rc) (hlog : r.cl.log = s.cl.log)
    (hcount : r.cl.counters = s.cl.counters) :
    Left k p o exit bin tray s (writeEntry (pieceEntry s o bin tray (withExitFault exit p)) (setPiece r k none)) := by
  obtain ⟨f1, f2, f3, f4, f5, f6, f7, -, -⟩ := withExitFault_fields exit p
  obtain ⟨-, -, -, -, -, w1, w2, w3, w4, w5, w6, w7⟩ := writeEntry_rest (pieceEntry s o bin tray (withExitFault exit p)) (setPiece r k none)
  obtain ⟨a1, a2⟩ := writeEntry_account (pieceEntry s o bin tray (withExitFault exit p)) (setPiece r k none)
  have hd := descAt_writeEntry (pieceEntry s o bin tray (withExitFault exit p)) (setPiece r k none)
  have hs := writeEntry_ds (pieceEntry s o bin tray (withExitFault exit p)) (setPiece r k none)
  generalize writeEntry (pieceEntry s o bin tray (withExitFault exit p)) (setPiece r k none) = m at *
  refine ⟨?_, fun j hj => ?_, by rw [w1, setPiece, withTu_tu, htu], ?_, ?_, ?_, fun n => ?_,
    ⟨w2.1.trans hl.1, w2.2.1.trans hl.2.1, w2.2.2.trans hl.2.2⟩, w3.trans hcu, w4.trans hiu, w5.trans hpp, w6.trans hsu, w7.trans hrc⟩
  · rw [pieceAt_congr w1, pieceAt_setPiece_none (by rw [htu]; exact hring)]
  · rw [pieceAt_congr w1, pieceAt_setPiece_other hj, pieceAt_congr htu]
  · rw [a1, setPiece_cl, hlog]
    simp only [pieceEntry, reprintOf, f1, f2, f3, f4, f5, f6, f7]
  · rw [a2, setPiece_cl, hcount]; rfl
  · rw [hs, setPiece_ds, hds]
  · rw [hd n]
    have e1 : descAt (setPiece r k none) n = descAt s n := descAt_congr (by rw [setPiece_ds, hds]) n
    have e2 : (pieceEntry s o bin tray (withExitFault exit p)).slot = p.slot := f5
    rw [e1, e2]; rfl

/-- A piece leaves without a landing: its reservation is given up, nothing is raised, and the number in flight has fallen (R62, R63, R147). -/
theorem leaveWithout_spec {k : Nat} {p : Piece} {s : State} (hring : Table.canonical none s.tu.ring) (hp : pieceAt s k = some p)
    (o : Outcome) (f : PieceFault) :
    ∃ m, Left k p o (some f) none none s m ∧ Unreserved p s m ∧ m.bu = { s.bu with bins := m.bu.bins } ∧ NoCause s m ∧
      leaveWithout o f k s = flightChanged m := by
  have hpath : (addFault f p).path = p.path ∧ (addFault f p).mass = p.mass := by unfold addFault; cases p.fault <;> exact ⟨rfl, rfl⟩
  have e : leaveWithout o f k s = flightChanged (writeEntry (pieceEntry s o none none (withExitFault (some f) p))
      (setPiece (releaseReservation p.path p.mass s) k none)) := by
    unfold leaveWithout; rw [hp]; dsimp only; rw [hpath.1, hpath.2]; rfl
  obtain ⟨k1, k2, k3, k4, k5, k6, k7, k8, k9, k10, k11, k12⟩ := releaseReservation_keeps p.path p.mass s
  have hl := writeEntry_left (k := k) (p := p) o (some f) none none hring ⟨k1, k2, k3⟩ k4 k5 k6 k7 k8 k9 k10
    (congrArg Cl.log k11) (congrArg Cl.counters k11)
  obtain ⟨w1, w2, w3, w4, w5, -⟩ := writeEntry_rest (pieceEntry s o none none (withExitFault (some f) p))
    (setPiece (releaseReservation p.path p.mass s) k none)
  refine ⟨_, hl, fun b => ?_, ?_, ⟨?_, ?_, ?_, ?_⟩, e⟩
  · rw [binAt_congr w5]; exact binAt_releaseReservation _ _ _ _
  · rw [w5]; exact releaseReservation_bu _ _ _
  · rw [w1, setPiece_cl, k11]
  · rw [w2, setPiece_cl, k11]
  · rw [w3, setPiece_cl, k11]
  · rw [w4, setPiece_rp, k12]

/-- A piece leaves on a LANDED: its account in the bins first, then its entry, and the number in flight has fallen (R62, R64). -/
theorem leaveLanded_spec {k : Nat} {p : Piece} {s : State} (hring : Table.canonical none s.tu.ring) (place : Place) (at_ : Pitch) :
    let r := accountLanding place (landing place p).1 (withExitFault (landing place p).2 p) at_ s
    ∃ m, Left k p (landing place p).1 (landing place p).2 (entryBin (landing place p).1 place) r.2 s m ∧ m.bu = r.1.bu ∧
      m.cl.summary = r.1.cl.summary ∧ m.cl.capture = r.1.cl.capture ∧ m.cl.alertPending = r.1.cl.alertPending ∧ m.rp = r.1.rp ∧
      leaveLanded place at_ k p s = flightChanged m := by
  intro r
  obtain ⟨k1, k2, k3, k4, k5, k6, k7, k8, k9, k10, k11, k12, -⟩ :=
    accountLanding_keeps place (landing place p).1 (withExitFault (landing place p).2 p) at_ s
  obtain ⟨w1, w2, w3, w4, w5, -⟩ := writeEntry_rest
    (pieceEntry s (landing place p).1 (entryBin (landing place p).1 place) r.2 (withExitFault (landing place p).2 p)) (setPiece r.1 k none)
  exact ⟨_, writeEntry_left _ _ _ _ hring ⟨k1, k2, k3⟩ k4 k5 k6 k7 k8 k9 k10 k11 k12, w5, w1, w2, w3, w4, rfl⟩

/-! ## The account of a landing in the bins (R145, R146) -/

theorem countLanding_eq (y : Tray) (p : Piece) : countLanding y p = landedTray p y := by
  unfold countLanding landedTray; cases p.band <;> rfl

theorem currentTray_eq_some {s : State} {b : Nat} {seq : BitVec 16} {y : Tray} :
    currentTray s b seq = some y ↔
      (binAt s b).tray = some y ∧ y.seq = seq ∧ ((binAt s b).state = .opened ∨ (binAt s b).state = .full) := by
  unfold currentTray
  cases h1 : (binAt s b).state <;> cases h2 : (binAt s b).tray with
  | none => simp
  | some z => by_cases h : z.seq = seq <;> simp [h] <;> (try (rintro rfl; exact h))

/-- A landing in the commanded bin whose tray is current is counted there, without a cause (R145). -/
theorem landInTray_current {p : Piece} {b : Nat} {seq : BitVec 16} {y : Tray} {s : State} (h : currentTray s b seq = some y) (at_ : Pitch) :
    landInTray p b seq at_ s = (setBin s b { binAt s b with tray := some (landedTray p y) }, some seq) := by
  unfold landInTray; rw [h]; dsimp only; rw [countLanding_eq]; rfl

/-- A landing whose tray is no longer current sets LATE_LANDING and changes no bin (R145). -/
theorem landInTray_late {p : Piece} {b : Nat} {seq : BitVec 16} {s : State} (h : currentTray s b seq = none) (at_ : Pitch) :
    landInTray p b seq at_ s = (raise .lateLanding (some s.tu.layout.sorter.addr) (some at_) p.id s, none) := by
  unfold landInTray; rw [h]

/-- A bin without a tray that is not CLOSE_PENDING has nothing to contaminate (R146). -/
theorem soiledBin_of_no_tray {x : Bin} (h : x.tray = none) (h' : x.state ≠ .closePending) : soiledBin x = x := by
  obtain ⟨st, l, y, o, r, c⟩ := x
  cases h
  cases st <;> simp [soiledBin] at h' ⊢

/-- A MISSORTED landing contaminates the bin it fell into, with CONTAMINATED_TRAY (R146). -/
theorem contaminate_spec (p : Piece) (b : Nat) (at_ : Pitch) (s : State) :
    (∀ j, binAt (contaminate p b at_ s) j = if j = b then soiledBin (binAt s b) else binAt s j) ∧
      (contaminate p b at_ s).bu = { s.bu with bins := (contaminate p b at_ s).bu.bins } ∧
      CauseTaken .contaminatedTray (some s.tu.layout.sorter.addr) (some at_) p.id s (contaminate p b at_ s) := by
  unfold contaminate; dsimp only
  have hc := raise_causeTaken .contaminatedTray (some s.tu.layout.sorter.addr) (some at_) p.id s
  have hb := (raise_keeps .contaminatedTray (some s.tu.layout.sorter.addr) (some at_) p.id s).2.2.2.2.2.2.2.2.2.1
  generalize raise .contaminatedTray (some s.tu.layout.sorter.addr) (some at_) p.id s = u at hc hb ⊢
  have keep : soiledBin (binAt s b) = binAt s b → (∀ j, binAt u j = if j = b then soiledBin (binAt s b) else binAt s j) ∧
      u.bu = { s.bu with bins := u.bu.bins } := by
    intro h
    refine ⟨fun j => ?_, by rw [hb]⟩
    rw [binAt_congr hb j, h]; split
    · rename_i e; rw [e]
    · rfl
  have write : ∀ x : Bin, x ≠ .off → x = soiledBin (binAt s b) →
      (∀ j, binAt (setBin u b x) j = if j = b then soiledBin (binAt s b) else binAt s j) ∧
        (setBin u b x).bu = { s.bu with bins := (setBin u b x).bu.bins } := by
    intro x hx e
    refine ⟨fun j => ?_, by simp only [setBin, withBu_bu, hb]⟩
    by_cases hj : j = b
    · rw [hj, if_pos rfl, binAt_setBin hx, e]
    · rw [if_neg hj, binAt_setBin_other hj, binAt_congr hb j]
  have shut : ∀ {t : State}, (∀ j, binAt t j = if j = b then soiledBin (binAt s b) else binAt s j) ∧
      t.bu = { s.bu with bins := t.bu.bins } → t.cl = u.cl → (∀ j, binAt t j = if j = b then soiledBin (binAt s b) else binAt s j) ∧
      t.bu = { s.bu with bins := t.bu.bins } ∧
      CauseTaken .contaminatedTray (some s.tu.layout.sorter.addr) (some at_) p.id s t := by
    intro t h he; exact ⟨h.1, h.2, by unfold CauseTaken; rw [he]; exact hc⟩
  cases h1 : (binAt s b).state with
  | disabled => exact shut (keep (by simp [soiledBin, h1])) rfl
  | closePending =>
    exact shut (write _ (fun e => by have := congrArg Bin.carried e; cases this) (by simp [soiledBin, h1])) rfl
  | opened =>
    cases h2 : (binAt s b).tray with
    | none => exact shut (keep (soiledBin_of_no_tray h2 (by rw [h1]; simp))) rfl
    | some y => exact shut (write _ (fun e => by have := congrArg Bin.tray e; cases this) (by simp [soiledBin, h1, h2])) rfl
  | full =>
    cases h2 : (binAt s b).tray with
    | none => exact shut (keep (soiledBin_of_no_tray h2 (by rw [h1]; simp))) rfl
    | some y => exact shut (write _ (fun e => by have := congrArg Bin.tray e; cases this) (by simp [soiledBin, h1, h2])) rfl

end Sys2Proof.Machine
end

