-- ==== Sys2Proof/Laws/Placing.lean ====
section
/-! SUPPORT. What the sort decision and the cascade of the bins do, in the terms of Safety (R118-R123, R139-R142). -/

namespace Sys2Proof.Machine

/-! ## The sort decision (R119, R120, R123) -/

theorem keyHolds_iff (t : KeyTest) (key : Nat) : keyHolds t key = true ↔ KeyMeets key t := by
  cases t with
  | range low high => simp [keyHolds, KeyMeets]
  | leading k value =>
    have hpos : 0 < 10 ^ (9 - k) := Nat.pow_pos (by decide)
    rw [keyHolds, beq_iff_eq, KeyMeets, Nat.div_eq_iff hpos]
    constructor <;> (rintro ⟨h1, h2⟩; constructor) <;> first | assumption | (rw [Nat.add_mul, Nat.one_mul] at *; omega)
  | pair a b => simp [keyHolds, KeyMeets]

theorem serviceHolds_iff (c : ServiceCond) (x : Service) : serviceHolds c x = true ↔ ServiceMeets x c := by
  cases c <;> simp [serviceHolds, ServiceMeets]

theorem elementMatches_iff (key band : Nat) (service : Service) (a : Action) (e : Element) :
    elementMatches key band service e = some a ↔ ElementSays key band service a e := by
  cases e with
  | disabled => simp [elementMatches, ElementSays]
  | enabled t bands c act =>
    rw [ElementSays, ← keyHolds_iff, ← serviceHolds_iff, elementMatches]
    by_cases h : (keyHolds t key && bands.getLsbD band && serviceHolds c service) = true
    · rw [if_pos h]
      simp only [Bool.and_eq_true] at h
      simp [h.1.1, h.1.2, h.2]
    · rw [if_neg h]
      simp only [Bool.and_eq_true, not_and] at h
      simp only [reduceCtorEq, false_iff, not_and]
      intro h1 h2 h3
      exact absurd h3 (h ⟨h1, h2⟩)

/-- The first match of a bank and the decision on it are the first element that says an action, or the fallback (R123, R134). -/
theorem firstSays_decision (s : State) (bank : Table Element) (key band : Nat) (service : Service) :
    FirstSays s bank key band service ((firstMatch bank key band service).map Prod.fst) (decision s bank key band service) := by
  unfold decision firstMatch
  rw [List.head?_filterMap]
  set g := fun n => (elementMatches key band service (tget Element.disabled bank n)).map (fun a => (n, a)) with hg
  have none_iff : ∀ m, g m = none ↔ ∀ a', ¬ElementSays key band service a' (tget Element.disabled bank m) := fun m => by
    simp only [← elementMatches_iff]
    show Option.map _ _ = none ↔ _
    rw [Option.map_eq_none_iff, Option.eq_none_iff_forall_ne_some]
  cases hf : (List.range Config.sortElements).findSome? g with
  | none =>
    rw [List.findSome?_eq_none_iff] at hf
    exact ⟨fun m hm => (none_iff m).mp (hf m (List.mem_range.mpr hm)), rfl⟩
  | some r =>
    rw [List.findSome?_eq_some_iff] at hf
    obtain ⟨l1, n, l2, hl, hn, hl1⟩ := hf
    obtain ⟨a, ha, rfl⟩ := Option.map_eq_some_iff.mp hn
    have hp : (l1 ++ n :: l2).Pairwise (· < ·) := hl ▸ List.pairwise_lt_range
    rw [List.pairwise_append, List.pairwise_cons] at hp
    have hn64 : n < 64 := List.mem_range.mp (hl ▸ List.mem_append_right l1 (List.mem_cons_self ..))
    refine ⟨hn64, (elementMatches_iff ..).mp ha, fun m hm => (none_iff m).mp (hl1 m ?_)⟩
    have hm' : m ∈ l1 ++ n :: l2 := hl ▸ List.mem_range.mpr (lt_trans hm hn64)
    rcases List.mem_append.mp hm' with h | h
    · exact h
    · rcases List.mem_cons.mp h with rfl | h
      · exact absurd hm (lt_irrefl _)
      · exact absurd hm (lt_asymm (hp.2.1.1 m h))

theorem elementSays_unique {key band : Nat} {service : Service} {a a' : Action} {e : Element} (h : ElementSays key band service a e)
    (h' : ElementSays key band service a' e) : a = a' := by
  cases e with
  | disabled => exact h.elim
  | enabled t bands c act => exact h.2.2.2.symm ▸ h'.2.2.2 ▸ rfl

/-- At most one first element and action is said. -/
theorem FirstSays.unique {u : State} {bank : Table Element} {key band : Nat} {service : Service} {n n' : Option Nat} {a a' : Action}
    (h : FirstSays u bank key band service n a) (h' : FirstSays u bank key band service n' a') : n = n' ∧ a = a' := by
  cases n <;> cases n'
  · exact ⟨rfl, h.2.symm.trans h'.2⟩
  · exact absurd h'.2.1 (h.1 _ h'.1 _)
  · exact absurd h.2.1 (h'.1 _ h.1 _)
  · rename_i n n'
    rcases lt_trichotomy n n' with g | rfl | g
    · exact absurd h.2.1 (h'.2.2 n g _)
    · exact ⟨rfl, elementSays_unique h.2.1 h'.2.1⟩
    · exact absurd h'.2.1 (h.2.2 n' g _)

/-- The decision is the action of the first element that matches, else the fallback (R123). -/
theorem decision_of_decides {s : State} {key band : Nat} {service : Service} {a : Action} (h : Decides s key band service a) :
    decision s s.su.active key band service = a :=
  let ⟨_, hn⟩ := h
  ((firstSays_decision s s.su.active key band service).unique hn).2

theorem cascadeBins_eq (b : Nat) (f : Action) : cascadeBins b f = triedBins b f := by
  unfold cascadeBins triedBins
  cases f with
  | reject =>
    simp only [Config.overflowBin]
    by_cases h : b = 16 <;> simp [h]
  | bin c =>
    simp only [Config.overflowBin]
    by_cases h : b = 16
    · subst h; by_cases hc : c = 16 <;> simp [hc]
    · by_cases hc : c = b <;> by_cases hd : c = 16 <;> simp [h, hc, hd]

theorem triedBins_nodup (b : Nat) (f : Action) : (triedBins b f).Nodup := by
  unfold triedBins
  cases f with
  | reject => by_cases h : b = 16 <;> simp [h]
  | bin c =>
    by_cases h : b = 16
    · subst h; by_cases hc : c = 16
      · simp [hc]
      · simp [hc, Ne.symm hc]
    · by_cases hc : c = b
      · simp [h, hc]
      · by_cases hd : c = 16
        · simp [h, hd]
        · simp [h, hc, hd, Ne.symm hc, Ne.symm hd]

/-! ## One bin of the cascade (R139, R141) -/

/-- What one bin does with a piece. -/
theorem offerBin_cases (k : Nat) (p : Piece) (b : Nat) (s : State) :
    (openTrayOf (binAt s b) = none ∧ offerBin k p b s = .passed s) ∨
    (∃ l y, openTrayOf (binAt s b) = some (l, y) ∧ (binAt s b).tray = some y ∧
      ((goesSolo (p.mass.getD 0) (binAt s b) = true ∧ offerBin k p b s = reserveInto k p b y true s) ∨
      (goesSolo (p.mass.getD 0) (binAt s b) = false ∧ takesPiece (p.mass.getD 0) (binAt s b) = true ∧
        offerBin k p b s = reserveInto k p b y false s) ∨
      (takesPiece (p.mass.getD 0) (binAt s b) = false ∧
        offerBin k p b s = .passed (closeTray b (if l.maxCount < y.reserved + 1 then .countLimit else .massLimit) s)))) := by
  unfold offerBin
  cases h1 : (binAt s b).state <;> cases h2 : (binAt s b).limits <;> cases h3 : (binAt s b).tray <;>
    simp only [openTrayOf, h1, h2, h3, goesSolo, takesPiece, Option.any_some, Option.any_none, true_and, Bool.or_false, reduceCtorEq,
      false_or, false_and, or_false, exists_false, Option.some.injEq, Prod.mk.injEq]
  rename_i l y
  refine ⟨l, y, ⟨rfl, rfl⟩, rfl, ?_⟩
  by_cases hs : y.reserved = 0 ∧ l.maxMass < p.mass.getD 0
  · exact .inl ⟨decide_eq_true hs, by rw [if_pos hs]⟩
  · rw [if_neg hs]
    by_cases ht : y.reserved + 1 ≤ l.maxCount ∧ y.reservedMass + p.mass.getD 0 ≤ l.maxMass
    · exact .inr (.inl ⟨decide_eq_false hs, by rw [decide_eq_false hs, decide_eq_true ht]; rfl, by rw [if_pos ht]⟩)
    · exact .inr (.inr ⟨by rw [decide_eq_false hs, decide_eq_false ht]; rfl, by rw [if_neg ht]⟩)

/-- Bins that do not take a piece are passed, one after the other (R139, R140, R142). -/
theorem cascade_passes (k : Nat) (p : Piece) {l : List Nat} (rest : List Nat) (hn : l.Nodup) (s : State)
    (ht : ∀ b ∈ l, takesPiece (p.mass.getD 0) (binAt s b) = false) :
    ∃ m, cascade k p (l ++ rest) s = cascade k p rest m ∧ PassedOver (p.mass.getD 0) l s m ∧ (∀ j, j ∉ l → binAt m j = binAt s j) ∧
      m.tu = s.tu ∧ m.su = s.su ∧ m.ds = s.ds := by
  induction l generalizing s with
  | nil => exact ⟨s, rfl, rfl, fun _ _ => rfl, rfl, rfl, rfl⟩
  | cons b bs ih =>
    rw [List.nodup_cons] at hn
    have hb := ht b List.mem_cons_self
    have go : ∀ u : State, (∀ j, j ≠ b → binAt u j = binAt s j) → u.tu = s.tu → u.su = s.su → u.ds = s.ds →
        offerBin k p b s = .passed u →
        (openTrayOf (binAt s b) = none → u = s) →
        (∀ l y, openTrayOf (binAt s b) = some (l, y) →
          TrayClosed b (if l.maxCount < y.reserved + 1 then .countLimit else .massLimit) s u) →
        ∃ m, cascade k p (b :: bs ++ rest) s = cascade k p rest m ∧ PassedOver (p.mass.getD 0) (b :: bs) s m ∧
          (∀ j, j ∉ b :: bs → binAt m j = binAt s j) ∧ m.tu = s.tu ∧ m.su = s.su ∧ m.ds = s.ds := by
      intro u ho h1 h2 h3 he hnone hsome
      obtain ⟨m, e, hp, hj, g1, g2, g3⟩ := ih hn.2 u (fun c hc => by
        rw [ho c (fun e => hn.1 (e ▸ hc))]; exact ht c (List.mem_cons_of_mem _ hc))
      refine ⟨m, by rw [List.cons_append, cascade, he]; exact e, ⟨hb, u, hnone, hsome, hp⟩, fun j hn' => ?_, g1.trans h1, g2.trans h2,
        g3.trans h3⟩
      rw [List.mem_cons, not_or] at hn'
      exact (hj j hn'.2).trans (ho j hn'.1)
    rcases offerBin_cases k p b s with ⟨ho, he⟩ | ⟨x, y, ho, hy, ⟨h, -⟩ | ⟨-, h, -⟩ | ⟨-, he⟩⟩
    · exact go s (fun _ _ => rfl) rfl rfl rfl he (fun _ => rfl) (fun l y h => by rw [ho] at h; cases h)
    · rw [takesPiece, h] at hb; cases hb
    · rw [hb] at h; cases h
    · refine go _ (fun j hj => binAt_closeTray_other hj _ _) (by simp) (by simp) (by simp) he (fun h => by rw [ho] at h; cases h)
        (fun l z h => ?_)
      rw [ho] at h; cases h
      exact closeTray_spec hy _

theorem goesSolo_takes {mass : Nat} {x : Bin} (h : goesSolo mass x = true) : takesPiece mass x = true := by
  rw [takesPiece, h]; rfl

/-- The bin that takes a piece: the place reserved, or no entry for its BIN (R139, R141). -/
theorem cascade_takes (k : Nat) (p : Piece) {c : Nat} (rest : List Nat) {y : Tray} {s : State}
    (ht : takesPiece (p.mass.getD 0) (binAt s c) = true) (hy : (binAt s c).tray = some y) :
    (commandRoom s = true → ∃ t, cascade k p (c :: rest) s = (t, true) ∧
      (goesSolo (p.mass.getD 0) (binAt s c) = true → TrayClosed c .solo (placeReserved k p c y s) t) ∧
      (goesSolo (p.mass.getD 0) (binAt s c) = false → t = placeReserved k p c y s)) ∧
    (commandRoom s = false → cascade k p (c :: rest) s =
      (raise .commandQueueFull (some s.tu.layout.sorter.addr) (some s.tu.pitch) p.id s, false)) := by
  have he : offerBin k p c s = reserveInto k p c y (goesSolo (p.mass.getD 0) (binAt s c)) s := by
    rcases offerBin_cases k p c s with ⟨ho, -⟩ | ⟨x, z, ho, hz, ⟨h, he⟩ | ⟨h, -, he⟩ | ⟨h, -⟩⟩
    · unfold takesPiece goesSolo at ht; rw [ho] at ht; cases ht
    · rw [hz] at hy; cases hy; rw [h]; exact he
    · rw [hz] at hy; cases hy; rw [h]; exact he
    · rw [ht] at h; cases h
  refine ⟨fun hr => ?_, fun hr => ?_⟩
  · have e : reserveInto k p c y (goesSolo (p.mass.getD 0) (binAt s c)) s =
        .placed (if goesSolo (p.mass.getD 0) (binAt s c) then closeTray c .solo (placeReserved k p c y s) else placeReserved k p c y s) := by
      unfold reserveInto sendCommand; rw [if_pos hr]; rfl
    refine ⟨_, by rw [cascade, he, e], fun hs => ?_, fun hs => ?_⟩
    · rw [if_pos hs]
      refine closeTray_spec (x := { y with reserved := y.reserved + 1, reservedMass := y.reservedMass + p.mass.getD 0 }) ?_ .solo
      have : binAt (placeReserved k p c y s) c = { binAt s c with
          tray := some { y with reserved := y.reserved + 1, reservedMass := y.reservedMass + p.mass.getD 0 } } :=
        binAt_setBin_of_tray rfl c s
      rw [this]
    · rw [hs]; rfl
  · have e : reserveInto k p c y (goesSolo (p.mass.getD 0) (binAt s c)) s =
        .failed (raise .commandQueueFull (some s.tu.layout.sorter.addr) (some s.tu.pitch) p.id s) := by
      unfold reserveInto sendCommand; rw [if_neg (by simp [hr])]
    rw [cascade, he, e]

end Sys2Proof.Machine
end

