-- ==== Sys2Proof/Laws/Layouts.lean ====
section
/-! SUPPORT. The bytes the part answers are those R188 lays down: one lemma for each record, in the terms of Safety. -/

namespace Sys2Proof.Machine

/-! ## Fields -/

theorem optBytes_eq {α : Type} {w : Nat} {enc : α → List Byte} {f : α → Nat} (h : ∀ x, enc x = field w (f x)) (x : Option α) :
    optBytes w enc x = fieldOr w (x.map f) := by
  cases x with
  | none => rfl
  | some x => exact h x

theorem optBytes_num1 (x : Option Nat) : optBytes 1 be1 x = fieldOr 1 x := by
  cases x <;> rfl

theorem optBytes_num3 (x : Option Nat) : optBytes 3 be3 x = fieldOr 3 x := by
  cases x with
  | none => rfl
  | some n => exact (field_three n).symm

theorem slotBytes_eq (x : Option Nat) : slotBytes x = fieldOr 2 x := by
  cases x <;> rfl

theorem addrByte_eq (a : Addr) : [addrByte a] = field 1 a.toNat := by
  show [a.setWidth 8] = [BitVec.ofNat 8 a.toNat]
  rw [BitVec.ofNat_toNat]

theorem addrByte_cons (a : Addr) (l : List Byte) : addrByte a :: l = field 1 a.toNat ++ l := by
  rw [← addrByte_eq]; rfl

theorem idBytes_eq (id : Option PieceId) : idBytes id = idField id := by
  unfold idBytes idField
  rw [field_three]; cases id <;> rfl

theorem faultByte_eq (f : Option PieceFault) : faultByte f = faultField f := by
  cases f with
  | none => rfl
  | some f => cases f <;> rfl

theorem actionByte_eq (a : Action) : actionByte a = actionField a := by cases a <;> rfl

theorem reasonByte_eq (r : Option CloseReason) : optBytes 1 (fun x => be1 (closeReasonCode x)) r = placeOr closeReasons r := by
  cases r with
  | none => rfl
  | some r => cases r <;> rfl

theorem foldl_bits (p : Nat → Bool) (l : List Nat) (a : Nat) :
    (l.map (fun i => if p i then 2 ^ i else 0)).foldl (· + ·) a = a + ((l.filter p).map (2 ^ ·)).sum := by
  induction l generalizing a with
  | nil => rfl
  | cons i l ih =>
    rw [List.map_cons, List.foldl_cons, ih, List.filter_cons]
    cases p i <;> simp [Nat.add_assoc]

theorem field_eight (n : Nat) : field 8 n = be4 (n / 4294967296) ++ be4 n := by
  rw [← field_four, ← field_four]
  show [_, _, _, _, _, _, _, _] = [_, _, _, _, _, _, _, _]
  simp only [Nat.div_div_eq_div_mul]

theorem sum_bits (x n : Nat) : (((List.range n).filter (fun i => x.testBit i)).map (2 ^ ·)).sum = x % 2 ^ n := by
  induction n with
  | zero => simp [Nat.mod_one]
  | succ n ih =>
    rw [List.range_succ, List.filter_append, List.map_append, List.sum_append, ih, Nat.mod_pow_succ]
    have h := Nat.testBit_eq_decide_div_mod_eq (x := x) (i := n)
    rcases Nat.mod_two_eq_zero_or_one (x / 2 ^ n) with e | e <;> rw [e] at h ⊢ <;> simp [h]

/-- A bit vector's bits as a set of members are its number. -/
theorem bitField_toNat {w : Nat} (k : Nat) (x : BitVec w) (h : w ≤ 8 * k) : bitField k (fun i => x.getLsbD i) = field k x.toNat := by
  unfold bitField
  show field k (((List.range (8 * k)).filter (fun i => x.toNat.testBit i)).map (2 ^ ·)).sum = _
  rw [sum_bits, Nat.mod_eq_of_lt (lt_of_lt_of_le x.isLt (Nat.pow_le_pow_right (by decide) h))]

/-! ## Layout, track, feeders, elements -/

theorem layoutBytes_eq (l : Layout) : layoutBytes l = layoutRecord l := by
  have hs : ∀ x : Station, stationBytes x = stationRecord x := fun x => addrByte_cons _ _
  unfold layoutBytes layoutRecord
  simp only [hs, addrByte_cons, feederPlaceBytes, List.append_nil, List.append_assoc]
  rfl

theorem trackBytes_eq (s : State) : trackBytes s = trackRecord s := by
  unfold trackBytes trackRecord bitField
  have h : occupancy s = (((List.range (8 * 8)).filter (fun i => (pieceAt s i).isSome)).map (2 ^ ·)).sum := by
    unfold occupancy
    exact (foldl_bits _ _ 0).trans (Nat.zero_add _)
  rw [← h, field_eight, field_four, List.append_assoc _ (be4 _) (be4 _)]
  cases s.rc.state <;> rfl

theorem pieceBytes_eq (p : Piece) : pieceBytes p = pieceRecord p := by
  have h1 : be1 (verifyCode p.verify) = placeIn [Verify.pending, .matched, .failed] p.verify := by cases p.verify <;> rfl
  have h2 : be1 (pathCode p.path) ++ sortPathBytes p.path = pathField p.path := by cases p.path <;> rfl
  have h3 : ∀ x : InsertStatus, be1 (insertStatusCode x) =
      placeIn [InsertStatus.notCalled, .called, .backupCalled, .fed, .missed, .doubled] x := fun x => by cases x <;> rfl
  have h4 : ∀ e : Planned, plannedBytes e = field 1 e.insert ++ fieldOr 1 e.primary ++ fieldOr 1 e.backup ++
      placeIn [InsertStatus.notCalled, .called, .backupCalled, .fed, .missed, .doubled] e.status := fun e => by
    unfold plannedBytes
    rw [optBytes_num1, optBytes_num1, h3]; rfl
  have h5 : optBytes 1 (fun c : BitVec 2 => be1 c.toNat) p.envClass = fieldOr 1 (p.envClass.map BitVec.toNat) :=
    optBytes_eq (fun _ => rfl) _
  unfold pieceBytes pieceRecord
  rw [← h2, h5]
  simp only [funext h4, h1, idBytes_eq, slotBytes_eq, optBytes_num1, optBytes_num3, faultByte_eq, field_four, field_one, field_two,
    flagByte, flagField, List.append_assoc]

theorem feederBytes_eq (x : Feeder) : feederBytes x = feederRecord x := by
  have h1 : be1 (feederStateCode x.state) = placeIn [FeederState.offline, .ready, .low, .empty, .failed] x.state := by
    cases x.state <;> rfl
  have h2 : be1 (levelCode x.level) = placeIn [Level.ok, .low, .empty] x.level := by cases x.level <;> rfl
  unfold feederBytes feederRecord
  simp only [h1, h2, field_four]; rfl

theorem bankBytes_eq (t : Table MapSlot) : bankBytes t = mapRecord t := rfl

theorem elementBytes_eq (e : Element) : elementBytes e = elementRecord e := by
  cases e with
  | disabled => rfl
  | enabled t bands c a =>
    have h1 : keyTestBytes t = keyField t := by cases t <;> (unfold keyTestBytes keyField; simp only [field_four]; rfl)
    have h2 : be1 (serviceCondCode c) = placeIn [ServiceCond.any, .standard, .priority] c := by cases c <;> rfl
    show keyTestBytes t ++ [bands] ++ be1 (serviceCondCode c) ++ actionByte a = _
    rw [h1, h2, actionByte_eq]; rfl

/-- What TRY SORT KEY answers for a bank (R134). -/
theorem tryBytes_says (s : State) (bank : Table Element) (key band : Nat) (service : Service) :
    ∃ n a, FirstSays s bank key band service n a ∧ tryBytes s bank key band service = fieldOr 1 n ++ actionField a := by
  refine ⟨_, _, firstSays_decision s bank key band service, ?_⟩
  unfold tryBytes
  rw [optBytes_num1, actionByte_eq]

/-! ## Trays, bins, entries, counters, capture -/

theorem trayRecBytes_eq (r : TrayRec) : trayRecBytes r = trayRecord r := by
  unfold trayRecBytes trayRecord
  simp only [reasonByte_eq, idBytes_eq, field_four]; rfl

theorem trayBytes_eq (y : Tray) : trayBytes y = currentTrayRecord y := by
  unfold trayBytes currentTrayRecord
  simp only [reasonByte_eq, idBytes_eq, field_three]; rfl

theorem binBytes_eq (x : Bin) : binBytes x = binRecord x := by
  have h1 : be1 (binStateCode x.state) = placeIn [BinState.disabled, .opened, .full, .closePending] x.state := by
    cases x.state <;> rfl
  have h2 : optBytes 7 limitsBytes x.limits =
      x.limits.elim (List.replicate 7 255#8) (fun l => field 2 l.maxCount ++ field 3 l.maxMass ++ field 2 l.minCount) := by
    cases x.limits with
    | none => rfl
    | some l =>
      show limitsBytes l = field 2 l.maxCount ++ field 3 l.maxMass ++ field 2 l.minCount
      unfold limitsBytes; rw [field_three]; rfl
  have h3 : optBytes 25 trayBytes x.tray = x.tray.elim (List.replicate 25 255#8) currentTrayRecord := by
    rw [funext trayBytes_eq]; cases x.tray <;> rfl
  have h4 : optBytes 22 trayRecBytes x.held = x.held.elim (List.replicate 22 255#8) trayRecord := by
    rw [funext trayRecBytes_eq]; cases x.held <;> rfl
  unfold binBytes binRecord
  rw [h1, h2, h3, h4]; rfl

theorem entryBytes_eq (e : Entry) : entryBytes e = completionRecord e := by
  have h1 : be1 (outcomeCode e.outcome) =
      placeIn [Outcome.sorted, .divertedGate, .rejectedSorter, .missorted, .lost, .removed] e.outcome := by cases e.outcome <;> rfl
  have h2 : ((e.tray.getD 0).toNat : Nat) = e.tray.elim 0 BitVec.toNat := by cases e.tray <;> rfl
  unfold entryBytes completionRecord
  rw [h1, h2, optBytes_eq (f := BitVec.toNat) fun x => (field_four x.toNat).symm]
  simp only [idBytes_eq, slotBytes_eq, faultByte_eq, optBytes_num1]; rfl

theorem countersBytes_eq (c : Counters) : countersBytes c =
    [c.opened, c.released, c.exited, c.sorted, c.diverted, c.sheets, c.noReads].flatMap (fun n => field 4 n.toNat) := by
  unfold countersBytes
  simp only [field_four, List.flatMap_cons, List.flatMap_nil, List.append_nil, List.append_assoc]

theorem captureBytes_eq (c : Option Capture) : captureBytes c = captureRecord c := by
  cases c with
  | none => rfl
  | some c =>
    have h1 : be1 (flagBit c.flag) = placeIn attentionFlags c.flag := by cases c.flag <;> rfl
    show be1 (flagBit c.flag) ++ optBytes 1 (fun a => [addrByte a]) c.addr ++ optBytes 4 (fun p => be4 p.toNat) c.pitch ++
      idBytes c.id = placeIn attentionFlags c.flag ++ addrField c.addr ++ fieldOr 4 (c.pitch.map BitVec.toNat) ++ idField c.id
    rw [h1, idBytes_eq, optBytes_eq (f := BitVec.toNat) addrByte_eq,
      optBytes_eq (f := BitVec.toNat) fun x => (field_four x.toNat).symm]; rfl

/-! ## FIND PIECE (R5-R8, R19) -/

theorem windowHolds_iff (w : Window) (id : PieceId) :
    windowHolds w id = true ↔ w.enabled = true ∧ w.base.toNat ≤ id.toNat ∧ id.toNat < w.base.toNat + 2 ^ w.exp := by
  simp only [windowHolds, Bool.and_eq_true, decide_eq_true_eq, and_assoc]

theorem selectWindow_none {s : State} {id : PieceId} (h : ∀ i, ¬Selected s id i) : selectWindow s id = none := by
  have hn : ∀ i, i < 4 → windowHolds (tget Window.off s.ds.windows i) id = false := by
    intro i
    induction i using Nat.strong_induction_on with
    | _ i ih =>
      intro hi
      rw [← Bool.not_eq_true]
      intro hw
      refine h i ⟨hi, (windowHolds_iff _ _).mp hw, fun j hj hold => ?_⟩
      have := ih j hj (hj.trans hi)
      rw [(windowHolds_iff _ _).mpr hold] at this; cases this
  unfold selectWindow
  rw [List.find?_eq_none]
  intro e he
  obtain ⟨i, hi, rfl⟩ := List.mem_map.mp he
  rw [hn i (List.mem_range.mp hi)]; exact Bool.false_ne_true

theorem selectWindow_some {s : State} {id : PieceId} {i : Nat} (h : Selected s id i) :
    selectWindow s id = some (i, tget Window.off s.ds.windows i) := by
  obtain ⟨hi, hw, hj⟩ := h
  have hw' := (windowHolds_iff _ _).mpr hw
  have hj' : ∀ j, j < i → windowHolds (tget Window.off s.ds.windows j) id = false := fun j h => by
    rw [← Bool.not_eq_true, windowHolds_iff]; exact hj j h
  unfold selectWindow
  show List.find? _ (List.map _ [0, 1, 2, 3]) = _
  match i, hi with
  | 0, _ => simp [hw']
  | 1, _ => simp [hw', hj']
  | 2, _ => simp [hw', hj']
  | 3, _ => simp [hw', hj']

/-- FIND PIECE answers what R19 says of the lookup. -/
theorem findBytes_answers (s : State) (id : PieceId) : FindAnswers s id (findBytes s id) := by
  have num : ∀ x : Option Nat, optBytes 2 be2 x = fieldOr 2 x := slotBytes_eq
  have state : ∀ d : Descriptor, be1 (descStateCode d.state) = placeOr slotStates (some (some d.state)) := fun d => by
    cases d.state <;> rfl
  refine ⟨fun h => ?_, fun i h => ?_⟩
  · unfold findBytes lookup reach; rw [selectWindow_none h]; rfl
  · have hw := selectWindow_some h
    unfold findBytes lookup reach
    rw [hw]
    refine ⟨fun h1 h2 => ?_, fun h1 h2 => ?_, fun h1 h2 => ?_, fun h1 h2 h3 => ?_, fun h1 h2 h3 => ?_⟩
    · simp only [h1, if_pos (show _ < Config.descriptorSlots from h2)]
      refine ⟨fun d => ?_, fun d hd hi => ?_, fun d hd hi => ?_⟩
      · simp only [slotCheck, d]; rfl
      · simp only [slotCheck, hd, if_pos hi, foundBytes, state]; rfl
      · simp only [slotCheck, hd, if_neg hi]; rfl
    · simp only [h1, if_neg (show ¬_ < Config.descriptorSlots from Nat.not_lt.mpr h2)]; rfl
    · simp only [h1, if_neg (show ¬_ < Config.mapEntries from Nat.not_lt.mpr h2)]; rfl
    · simp only [h1, if_pos (show _ < Config.mapEntries from h2), h3]; rfl
    · simp only [h1, if_pos (show _ < Config.mapEntries from h2), h3, if_true]
      refine ⟨fun d => ?_, fun d hd hi => ?_, fun d hd hi => ?_⟩
      · simp only [slotCheck, d]; rfl
      · simp only [slotCheck, hd, if_pos hi, foundBytes, state]; rfl
      · simp only [slotCheck, hd, if_neg hi]; rfl

/-! ## Frames and requests (R121, R178, R185, R188) -/

theorem be2_toNat (x : BitVec 16) : BitVec.ofNat 16 (numOf (be2 x.toNat)) = x := by
  apply BitVec.eq_of_toNat_eq
  simp [numOf, be2]
  omega

/-- A frame passes the check when R179 lets it pass. -/
theorem frameGood_iff (bytes : List Byte) : frameGood bytes = true ↔ FrameIntact bytes := by
  unfold frameGood FrameIntact argWord argNum
  simp only [Bool.and_eq_true, decide_eq_true_eq, beq_iff_eq, and_assoc]
  refine and_congr_right fun _ => and_congr_right fun h => ?_
  have h5 : bytes.length - 2 = 5 + (byteAt bytes 4).toNat := by omega
  rw [h5]
  generalize hd : bytes.drop (5 + (byteAt bytes 4).toNat) = x
  have hx : x.length = 2 := by rw [← hd, List.length_drop]; omega
  rw [List.take_of_length_le hx.le]
  obtain ⟨a, b, rfl⟩ : ∃ a b, x = [a, b] := by
    match x, hx with
    | [a, b], _ => exact ⟨a, b, rfl⟩
  generalize crcOf _ = c
  rw [field_two]
  constructor
  · rintro rfl
    have h1 : (BitVec.ofNat 16 (numOf [a, b])).toNat = a.toNat * 256 + b.toNat := by simp [numOf]; omega
    unfold be2
    rw [h1]
    congr 1
    · apply BitVec.eq_of_toNat_eq; simp; omega
    · congr 1; apply BitVec.eq_of_toNat_eq; simp; omega
  · intro h; rw [h]; exact (be2_toNat c).symm

theorem countOf_eq : countOf = countField := rfl

/-- A request effect is missing exactly for a code that names no request and for a body of another length. -/
theorem requestEffect_none (src : Addr) (c : Byte) (a : List Byte) :
    requestEffect src c.toNat a = none ↔ (c :: a).length ∉ bodyLengths (c :: a) := by
  have one : ∀ (n m : Nat) act, m = n + 1 → (ofLength a n act = none ↔ (c :: a).length ∉ [m]) := by
    rintro n m act rfl
    unfold ofLength
    by_cases h : a.length = n <;> simp [h]
  unfold requestEffect bodyLengths
  simp only [List.getD_cons_zero]
  generalize c.toNat = n
  by_cases h : n < 44
  · interval_cases n
    all_goals first
      | exact one _ _ _ rfl
      | (refine one _ _ _ ?_; simp only [byteAt, countOf_eq, List.getD_cons_succ]; omega)
      | exact ⟨fun _ => List.not_mem_nil, fun _ => rfl⟩
      | (unfold ofLength; by_cases h0 : a.length = 0 <;> by_cases h1 : a.length = 1 <;> simp [h0, h1])
  · have h1 : ∀ k, k < 44 → n ≠ k := fun k hk hn => h (hn ▸ hk)
    split <;> first | exact absurd rfl (h1 _ (by decide)) | skip
    first
      | exact iff_of_true rfl List.not_mem_nil
      | (split <;> first | exact absurd rfl (h1 _ (by decide)) | exact iff_of_true rfl List.not_mem_nil)

/-- An action byte that is not refused stands for its action. -/
theorem actionOf_is {b : Byte} (h : ¬BadAction b) : ∃ a, actionOf b = some a ∧ ActionIs b a := by
  unfold actionOf
  by_cases h1 : b.toNat < 17
  · exact ⟨_, if_pos h1, Or.inl ⟨h1, rfl⟩⟩
  · have h2 : b.toNat = 18 := by unfold BadAction at h; omega
    have h3 : b = 18#8 := BitVec.eq_of_toNat_eq h2
    exact ⟨_, (if_neg h1).trans (if_pos h3), Or.inr ⟨h2, rfl⟩⟩

/-- An element record that is not refused stands for its element. -/
theorem elementOf_is {r : ElementRecord} (h : ¬BadElement r) : ∃ e, elementOf r = some e ∧ ElementIs r e := by
  by_cases h0 : r.kind = 0#8
  · exact ⟨_, if_pos h0, h0⟩
  · obtain ⟨a, ha, ha'⟩ := actionOf_is (b := r.action) fun hb => h (.inr (.inr (.inr (.inr ⟨h0, .inl hb⟩))))
    have hs : r.service.toNat ≤ 2 := by
      by_contra hs; exact h (by simp [BadElement, h0]; omega)
    obtain ⟨c, hc, hc'⟩ : ∃ c, serviceCondOf r.service = some c ∧ r.service.toNat = [ServiceCond.any, .standard, .priority].idxOf c := by
      unfold serviceCondOf
      generalize r.service.toNat = n at hs
      interval_cases n
      · exact ⟨_, rfl, rfl⟩
      · exact ⟨_, rfl, rfl⟩
      · exact ⟨_, rfl, rfl⟩
    have hk : 1 ≤ r.kind.toNat ∧ r.kind.toNat ≤ 3 := by
      refine ⟨Nat.one_le_iff_ne_zero.mpr fun hz => h0 (BitVec.eq_of_toNat_eq hz), ?_⟩
      by_contra hk; exact h (by simp [BadElement]; omega)
    have k1 : r.kind.toNat = 1 → r.kind = 1#8 := fun e => BitVec.eq_of_toNat_eq e
    have k2 : r.kind.toNat = 2 → r.kind = 2#8 := fun e => BitVec.eq_of_toNat_eq e
    have k3 : r.kind.toNat = 3 → r.kind = 3#8 := fun e => BitVec.eq_of_toNat_eq e
    obtain ⟨t, ht, ht'⟩ : ∃ t, keyTestOf r.kind r.first.toNat r.second.toNat = some t ∧
        KeyTestIs r.kind.toNat r.first.toNat r.second.toNat t := by
      simp only [BadElement, not_or, not_and, not_lt] at h
      obtain ⟨-, b1, b2, b3, -⟩ := h
      unfold keyTestOf
      generalize r.kind.toNat = n at hk k1 k2 k3
      obtain ⟨l, u⟩ := hk
      interval_cases n
      · have := b1 (k1 rfl)
        exact ⟨_, if_pos (show _ ∧ _ ≤ 999999999 by omega), rfl, rfl, rfl, by omega, by omega⟩
      · have := b2 (k2 rfl)
        exact ⟨_, if_pos (by omega), rfl, rfl, rfl, by omega, by omega, by omega⟩
      · have := b3 (k3 rfl)
        exact ⟨_, if_pos (show _ ≤ 999999999 ∧ _ ≤ 999999999 by omega), rfl, rfl, rfl, by omega, by omega⟩
    refine ⟨.enabled t r.bands c a, ?_, ht', rfl, hc', ha'⟩
    unfold elementOf
    rw [if_neg h0, ht, hc, ha]

/-- Element records of which none is refused stand for their elements. -/
theorem elementsOf_are {l : List ElementRecord} (h : ∀ r ∈ l, ¬BadElement r) : ∃ es, elementsOf l = some es ∧ List.Forall₂ ElementIs l es := by
  induction l with
  | nil => exact ⟨[], rfl, .nil⟩
  | cons r l ih =>
    obtain ⟨e, h1, h2⟩ := elementOf_is (h r (List.mem_cons_self ..))
    obtain ⟨es, h3, h4⟩ := ih fun x hx => h x (List.mem_cons_of_mem _ hx)
    exact ⟨e :: es, by rw [elementsOf, h1, h3], .cons h2 h4⟩

end Sys2Proof.Machine
end

