-- ==== Sys2Proof/Laws/Misses.lean ====
section
/-! SUPPORT. What feed reports, feed deadlines and the resolution of inserts do, in the terms of Safety. -/

namespace Sys2Proof.Machine

/-! ## Callability and resolution (R70, R76) -/

theorem callable_iff {s : State} {f i : Nat} : callable s f i = true ↔ Callable s f i := by
  simp only [callable, Bool.and_eq_true, decide_eq_true_eq, Bool.or_eq_true, beq_iff_eq, and_assoc]; rfl

theorem mem_callableFeeders {s : State} {f i : Nat} : f ∈ callableFeeders s i ↔ Callable s f i := by
  rw [callableFeeders, List.mem_filter, callable_iff, List.mem_range]
  exact ⟨fun h => h.2, fun h => ⟨h.1, h⟩⟩

/-- The lowest feeder of a list is one of it, at the lowest position; there is none in an empty list alone. -/
theorem lowestFeeder_spec (s : State) (l : List Nat) :
    match lowestFeeder s l with
    | some f => f ∈ l ∧ ∀ g ∈ l, (placeAt s f).pos ≤ (placeAt s g).pos
    | none => l = [] := by
  induction l with
  | nil => rfl
  | cons f fs ih =>
    unfold lowestFeeder
    cases h : lowestFeeder s fs with
    | none => rw [h] at ih; subst ih; simp
    | some g =>
      rw [h] at ih; dsimp only at ih ⊢
      by_cases hp : (placeAt s g).pos < (placeAt s f).pos
      · rw [if_pos hp]
        refine ⟨List.mem_cons_of_mem _ ih.1, fun x hx => ?_⟩
        rcases List.mem_cons.mp hx with rfl | hx
        · omega
        · exact ih.2 x hx
      · rw [if_neg hp]
        refine ⟨List.mem_cons_self, fun x hx => ?_⟩
        rcases List.mem_cons.mp hx with rfl | hx
        · omega
        · have := ih.2 x hx; omega

theorem primaryFor_spec (s : State) (i : Nat) : PrimaryIs s i (primaryFor s i) := by
  unfold primaryFor
  have h1 := lowestFeeder_spec s ((callableFeeders s i).filter (fun f => !(feederAt s f).degraded))
  have h2 := lowestFeeder_spec s (callableFeeders s i)
  cases e : lowestFeeder s ((callableFeeders s i).filter (fun f => !(feederAt s f).degraded)) with
  | some f =>
    rw [e] at h1; dsimp only at h1 ⊢
    simp only [List.mem_filter, mem_callableFeeders, Bool.not_eq_true'] at h1
    refine ⟨h1.1.1, fun g hg => ?_⟩
    cases hd : (feederAt s g).degraded with
    | false => rw [if_pos (h1.1.2)]; exact h1.2 g ⟨hg, hd⟩
    | true => rw [if_neg (by rw [h1.1.2]; simp)]
  | none =>
    rw [e] at h1; dsimp only at h1 ⊢
    have all : ∀ g, Callable s g i → (feederAt s g).degraded = true := by
      intro g hg
      have : g ∉ (callableFeeders s i).filter (fun f => !(feederAt s f).degraded) := by rw [h1]; simp
      simpa [List.mem_filter, mem_callableFeeders, hg] using this
    cases e2 : lowestFeeder s (callableFeeders s i) with
    | some f =>
      rw [e2] at h2; simp only [mem_callableFeeders] at h2
      exact ⟨h2.1, fun g hg => by rw [if_pos ((all f h2.1).trans (all g hg).symm)]; exact h2.2 g hg⟩
    | none =>
      rw [e2] at h2; dsimp only at h2
      intro f hf; have := mem_callableFeeders.mpr hf; rw [h2] at this; cases this

theorem backupFor_spec (s : State) (i p : Nat) : BackupIs s i (some p) (backupFor s i p) := by
  unfold backupFor
  cases hs : s.iu.single with
  | true => exact .inl hs
  | false =>
    simp only [Bool.false_eq_true, if_false]
    have h := lowestFeeder_spec s ((callableFeeders s i).filter (fun f => decide ((placeAt s p).pos < (placeAt s f).pos)))
    cases e : lowestFeeder s ((callableFeeders s i).filter (fun f => decide ((placeAt s p).pos < (placeAt s f).pos))) with
    | some g =>
      rw [e] at h; simp only [List.mem_filter, mem_callableFeeders, decide_eq_true_eq] at h
      exact ⟨hs, h.1.1, h.1.2, fun x hx hp => h.2 x ⟨hx, hp⟩⟩
    | none =>
      rw [e] at h; dsimp only at h
      refine .inr fun x hx => ?_
      have : x ∉ (callableFeeders s i).filter (fun f => decide ((placeAt s p).pos < (placeAt s f).pos)) := by rw [h]; simp
      simpa [List.mem_filter, mem_callableFeeders, hx] using this

/-- An entry of the planned insert list names its insert, its primary and its backup (R75, R76). -/
theorem planEntry_spec (s : State) (i : Nat) :
    (planEntry s i).insert = i ∧ (planEntry s i).status = .notCalled ∧ PrimaryIs s i (planEntry s i).primary ∧
      BackupIs s i (planEntry s i).primary (planEntry s i).backup := by
  have h := primaryFor_spec s i
  unfold planEntry
  cases e : primaryFor s i with
  | some p => rw [e] at h; exact ⟨rfl, rfl, h, backupFor_spec s i p⟩
  | none => rw [e] at h; exact ⟨rfl, rfl, h, rfl⟩

/-! ## Counts (R69, R80-R87) -/

theorem bump_eq (n : Nat) : bump n = countedUp 4294967295 n := rfl

theorem bumpMiss_eq (n : Nat) : bumpMiss n = countedUp 15 n := rfl

theorem evaluate_eq (threshold : Nat) (x : Feeder) : evaluate threshold x = judged threshold x := by
  unfold evaluate judged conditionOf; split <;> rfl

theorem limitFails_iff {limit : Nat} {x : Feeder} :
    limitFails limit { x with calls := bump x.calls, misses := bump x.misses, consecutive := bumpMiss x.consecutive } = true ↔
      AtLimit limit x := by
  simp only [limitFails, Bool.and_eq_true, decide_eq_true_eq, Bool.or_eq_true, beq_iff_eq, bne_iff_ne, and_assoc, or_assoc]; rfl

/-- A feeder with a call counted is not one that nothing has happened to. -/
theorem judged_ne_off (threshold : Nat) {x : Feeder} (h : x.calls ≠ 0) : judged threshold x ≠ .off := by
  have : (judged threshold x).calls = x.calls := by unfold judged; split <;> rfl
  intro e; rw [e] at this; exact h this.symm

theorem countedUp_ne_zero {top : Nat} (h : top ≠ 0) (n : Nat) : countedUp top n ≠ 0 := by unfold countedUp; split <;> omega

theorem feederAt_setFeeder_ne {x : Feeder} (h : x ≠ .off) (f : Nat) (s : State) : feederAt (setFeeder s f x) f = x :=
  tget_tput_same_ne _ _ h

theorem feederAt_setFeeder_other {f g : Nat} (h : g ≠ f) (x : Feeder) (s : State) : feederAt (setFeeder s f x) g = feederAt s g :=
  tget_tput_other _ _ _ h

/-- A feed concluded FED or DOUBLE counts at its feeder alone (R80, R81, R83). -/
theorem countFeed_spec (f : Nat) (double : Bool) (s : State) :
    feederAt (countFeed f double s) f = fedFeeder s.iu.threshold double (feederAt s f) ∧
      (∀ g, g ≠ f → feederAt (countFeed f double s) g = feederAt s g) ∧
      countFeed f double s = withIu s { s.iu with feeders := (countFeed f double s).iu.feeders } := by
  unfold countFeed; dsimp only
  rw [evaluate_eq]
  refine ⟨?_, fun g hg => feederAt_setFeeder_other hg _ _, rfl⟩
  exact feederAt_setFeeder_ne (judged_ne_off _ (countedUp_ne_zero (by decide) _)) _ _

/-- A miss concluded counts at its feeder alone, with FEEDER_FAILED at the limit (R82, R84, R86, R87). -/
theorem countMiss_spec (f : Nat) (at_ : Pitch) (id : Option PieceId) (s : State) : MissCounted f at_ id s (countMiss f at_ id s) := by
  have key : ∀ b : Bool, (b = true ↔ AtLimit s.iu.limit (feederAt s f)) →
      evaluate s.iu.threshold
        (if b = true then
          { feederAt s f with
            calls := bump (feederAt s f).calls, misses := bump (feederAt s f).misses, consecutive := bumpMiss (feederAt s f).consecutive,
            state := .failed }
        else
          { feederAt s f with
            calls := bump (feederAt s f).calls, misses := bump (feederAt s f).misses, consecutive := bumpMiss (feederAt s f).consecutive })
        = missedFeeder s.iu.limit s.iu.threshold (feederAt s f) := by
    intro b hb
    rw [evaluate_eq, missedFeeder]
    by_cases h : AtLimit s.iu.limit (feederAt s f)
    · rw [if_pos (hb.mpr h), if_pos h]; rfl
    · rw [if_neg (fun e => h (hb.mp e)), if_neg h]; rfl
  have hne : missedFeeder s.iu.limit s.iu.threshold (feederAt s f) ≠ .off :=
    judged_ne_off _ (countedUp_ne_zero (by decide) _)
  unfold countMiss; dsimp only
  rw [key _ limitFails_iff]
  by_cases h : AtLimit s.iu.limit (feederAt s f)
  · rw [if_pos (limitFails_iff.mpr h)]
    have hk := raise_keeps .feederFailed (some (placeAt s f).addr) (some at_) id
      (setFeeder s f (missedFeeder s.iu.limit s.iu.threshold (feederAt s f)))
    have hf := raise_flagOnly .feederFailed (some (placeAt s f).addr) (some at_) id
      (setFeeder s f (missedFeeder s.iu.limit s.iu.threshold (feederAt s f)))
    have hc := commands_raise .feederFailed (some (placeAt s f).addr) (some at_) id
      (setFeeder s f (missedFeeder s.iu.limit s.iu.threshold (feederAt s f)))
    generalize raise .feederFailed (some (placeAt s f).addr) (some at_) id
      (setFeeder s f (missedFeeder s.iu.limit s.iu.threshold (feederAt s f))) = t at hk hf hc
    obtain ⟨k1, k2, k3, k4, k5, k6, k7, k8, k9, k10, k11, -⟩ := hk
    have hfe : ∀ g, feederAt t g = feederAt (setFeeder s f (missedFeeder s.iu.limit s.iu.threshold (feederAt s f))) g := fun g => by
      simp only [feederAt, k7]
    exact ⟨by rw [k7]; rfl, (hfe f).trans (feederAt_setFeeder_ne hne _ _), fun g hg => (hfe g).trans (feederAt_setFeeder_other hg _ _),
      ⟨k1, k2, k3⟩, k4, k5, k6, k8, k9, k10, k11, fun _ => ⟨hf.1, hc⟩, fun h' => absurd h h'⟩
  · rw [if_neg (fun e => h (limitFails_iff.mp e))]
    exact ⟨rfl, feederAt_setFeeder_ne hne _ _, fun g hg => feederAt_setFeeder_other hg _ _, ⟨rfl, rfl, rfl⟩, rfl, rfl, rfl, rfl, rfl, rfl,
      rfl, fun h' => absurd h' h, fun _ => ⟨rfl, rfl⟩⟩

/-! ## The entry of a feed that missed (R82-R85) -/

theorem backupInReach_iff {s : State} {p : Piece} {i g : Nat} :
    backupInReach s p i g = true ↔ s.iu.single = false ∧ Callable s g i ∧
      (s.tu.timing.lf : Int) ≤ pitchDiff (p.entry + BitVec.ofNat 32 (placeAt s g).pos) s.tu.pitch := by
  simp only [backupInReach, Bool.and_eq_true, Bool.not_eq_true', callable_iff, decide_eq_true_eq, and_assoc]; rfl

theorem setEntryStatus_eq {k i : Nat} {p : Piece} {s : State} (hp : pieceAt s k = some p) (x : InsertStatus) :
    setEntryStatus k i x s = setPiece s k (some (entryAs i x p)) := by
  simp only [setEntryStatus, hp]; rfl

theorem missEntry_spec {k i : Nat} {p : Piece} {s : State} (hp : pieceAt s k = some p) (f : PieceFault) :
    FaultRecorded k f (entryAs i .missed p) s (missEntry k i f s) := by
  unfold missEntry
  rw [setEntryStatus_eq hp]
  exact recordFault_spec f (setPiece_onlyPiece _ _ _) rfl rfl rfl (by simp)

/-- The backup decision of a CALLED entry, or the end of a BACKUP_CALLED one (R82-R85). -/
theorem decideBackup_spec {k : Nat} {p : Piece} {e : Planned} {s : State} (hp : pieceAt s k = some p) (hs : e.status = .called)
    (f : PieceFault) : MissSettled k f p e s (decideBackup k p e f s) := by
  have none_ : (∀ g, ¬BackupCalled s p e g) → decideBackup k p e f s = missEntry k e.insert f s := by
    intro h
    unfold decideBackup
    cases hb : e.backup with
    | none => rfl
    | some g =>
      have := h g
      rw [BackupCalled, ← backupInReach_iff] at this
      have : ¬backupInReach s p e.insert g = true := fun hr => this ⟨hs, hb, hr⟩
      dsimp only; rw [if_neg this]
  refine ⟨fun g hg => ?_, fun h => by rw [none_ h]; exact missEntry_spec hp f⟩
  have hr : backupInReach s p e.insert g = true := backupInReach_iff.mpr hg.2.2
  have e1 : decideBackup k p e f s =
      (match sendCommand s (callFrame s p g e.insert) with
      | some s' => setEntryStatus k e.insert .backupCalled s'
      | none =>
        missEntry k e.insert .commandOverflow (raise .commandQueueFull (some (placeAt s g).addr) (some s.tu.pitch) p.id s)) := by
    unfold decideBackup; rw [hg.2.1]; dsimp only; exact (if_pos hr).trans rfl
  rw [e1, sendCommand]
  by_cases hc : commandRoom s = true
  · rw [if_pos hc]; dsimp only
    rw [setEntryStatus_eq (p := p) (by exact hp)]
    refine ⟨fun _ => ⟨by simp, ⟨fun j hj => ?_, rfl, rfl, ⟨rfl, rfl, rfl⟩, rfl, rfl, rfl, rfl, rfl, rfl, rfl, rfl⟩, rfl, rfl, rfl⟩,
      fun h => by simp [hc] at h⟩
    rw [pieceAt_setPiece_other hj]; rfl
  · rw [if_neg hc]; dsimp only
    refine ⟨fun h => absurd h hc, fun _ => ⟨_, raise_flagOnly _ _ _ _ _, ?_⟩⟩
    exact missEntry_spec ((pieceAt_congr (by simp) k).trans hp) _

/-- A miss of the feeder an entry waits on: the count, and then the entry (R82-R87). -/
theorem takeMiss_spec {k : Nat} {p : Piece} {e : Planned} {s : State} (hp : pieceAt s k = some p) (feeder : Nat) (f : PieceFault)
    (at_ : Pitch) : ∃ m, MissCounted feeder at_ p.id s m ∧ MissSettled k f p e m (takeMiss k p e feeder f at_ s) := by
  have hm := countMiss_spec feeder at_ p.id s
  have hp' : pieceAt (countMiss feeder at_ p.id s) k = some p := (pieceAt_congr hm.2.2.2.2.2.2.1 k).trans hp
  refine ⟨_, hm, ?_⟩
  unfold takeMiss
  cases hs : e.status with
  | called => exact decideBackup_spec hp' hs f
  | _ => exact ⟨fun g hg => (nomatch hs.symm.trans hg.1), fun _ => missEntry_spec hp' f⟩

end Sys2Proof.Machine
end

