-- ==== Sys2Proof/Laws/Removals.lean ====
section
/-! SUPPORT. The order of the pieces on the track, and what taking out pieces and sets does, in the terms of Safety (R42, R160, R162, R169). -/

namespace Sys2Proof.Machine

/-! ## The pieces on the track, oldest first (R160) -/

/-- A listed place of a canonical store reads its listed value. -/
theorem tget_of_mem {α : Type} [DecidableEq α] {z v : α} {t : Table α} {i : Nat} (hc : Table.canonical z t) (h : (i, v) ∈ t) :
    tget z t i = v := by
  induction t with
  | nil => cases h
  | cons e t ih =>
    obtain ⟨h1, h2⟩ := hc
    rw [List.map_cons, List.pairwise_cons] at h1
    rcases List.mem_cons.mp h with rfl | h
    · simp [tget]
    · have : e.1 < i := h1.1 i (List.mem_map.mpr ⟨(i, v), h, rfl⟩)
      rw [tget, if_neg (by omega)]
      exact ih ⟨h1.2, fun x hx => h2 x (List.mem_cons_of_mem _ hx)⟩ h

theorem insertOldest_perm (c : Pitch) (x : Nat × Piece) (l : List (Nat × Piece)) : (insertOldest c x l).Perm (x :: l) := by
  induction l with
  | nil => exact List.Perm.refl _
  | cons y ys ih =>
    rw [insertOldest]; split
    · exact List.Perm.refl _
    · exact (ih.cons y).trans (List.Perm.swap x y ys)

/-- Of two pieces in order, the first is at the further position or at the same one. -/
abbrev FurthestFirst (c : Pitch) (x y : Nat × Piece) : Prop := pitchDiff c y.2.entry ≤ pitchDiff c x.2.entry

theorem insertOldest_sorted {c : Pitch} {x : Nat × Piece} {l : List (Nat × Piece)} (h : l.Pairwise (FurthestFirst c)) :
    (insertOldest c x l).Pairwise (FurthestFirst c) := by
  induction l with
  | nil => exact List.pairwise_singleton _ _
  | cons y ys ih =>
    rw [List.pairwise_cons] at h
    rw [insertOldest]; split
    · rename_i hlt
      refine List.pairwise_cons.mpr ⟨fun z hz => ?_, List.pairwise_cons.mpr h⟩
      rcases List.mem_cons.mp hz with rfl | hz
      · exact Int.le_of_lt hlt
      · exact Int.le_trans (h.1 z hz) (Int.le_of_lt hlt)
    · rename_i hle
      refine List.pairwise_cons.mpr ⟨fun z hz => ?_, ih h.2⟩
      rcases List.mem_cons.mp ((insertOldest_perm c x ys).mem_iff.mp hz) with rfl | hz
      · exact Int.not_lt.mp hle
      · exact h.1 z hz

theorem sortOldest (c : Pitch) (l : List (Nat × Piece)) :
    (l.foldr (insertOldest c) []).Perm l ∧ (l.foldr (insertOldest c) []).Pairwise (FurthestFirst c) := by
  induction l with
  | nil => exact ⟨List.Perm.refl _, List.Pairwise.nil⟩
  | cons x l ih => exact ⟨(insertOldest_perm c x _).trans (ih.1.cons x), insertOldest_sorted ih.2⟩

/-- The pieces on the track, each once with its slot, the furthest first. -/
theorem onTrack_spec {s : State} (hc : Table.canonical none s.tu.ring) :
    (∀ k p, (k, p) ∈ onTrack s ↔ pieceAt s k = some p) ∧ (onTrack s).Pairwise (fun x y => x.1 ≠ y.1) ∧
      (onTrack s).Pairwise (FurthestFirst s.tu.pitch) := by
  obtain ⟨hp, hs⟩ := sortOldest s.tu.pitch (s.tu.ring.filterMap (fun e => e.2.map (fun p => (e.1, p))))
  refine ⟨fun k p => ?_, ?_, hs⟩
  · show (k, p) ∈ List.foldr _ _ _ ↔ _
    rw [hp.mem_iff, List.mem_filterMap]
    constructor
    · rintro ⟨⟨j, x⟩, hj, hx⟩
      rw [Option.map_eq_some_iff] at hx
      obtain ⟨p', rfl, hx⟩ := hx
      cases hx
      exact tget_of_mem hc hj
    · intro h
      refine ⟨(k, some p), ?_, rfl⟩
      have hne : tget none s.tu.ring k ≠ none := by
        have : tget none s.tu.ring k = some p := h
        rw [this]; simp
      have := mem_of_tget hne
      have e : tget none s.tu.ring k = some p := h
      rwa [e] at this
  · refine (hp.pairwise_iff (R := fun x y => x.1 ≠ y.1) (fun h => Ne.symm h)).mpr ?_
    rw [List.pairwise_filterMap]
    refine (List.pairwise_map.mp hc.1).imp fun {a b} hab x hx y hy => ?_
    rw [Option.map_eq_some_iff] at hx hy
    obtain ⟨_, -, rfl⟩ := hx
    obtain ⟨_, -, rfl⟩ := hy
    exact Nat.ne_of_lt hab

/-- The slots of the pieces whose position a test takes in, in the order they leave (R160). -/
theorem removalOrder_filter {s : State} (hc : Table.canonical none s.tu.ring) (takes : Int → Prop) [DecidablePred takes] :
    RemovalOrder s takes (((onTrack s).filter (fun e => decide (takes (pitchDiff s.tu.pitch e.2.entry)))).map Prod.fst) := by
  obtain ⟨h1, h2, h3⟩ := onTrack_spec hc
  have pos : ∀ e ∈ onTrack s, (pieceAt s e.1).elim 0 (fun p => pitchDiff s.tu.pitch p.entry) = pitchDiff s.tu.pitch e.2.entry := by
    intro e he
    rw [(h1 e.1 e.2).mp he]; rfl
  refine ⟨?_, fun k => ?_, ?_⟩
  · exact List.pairwise_map.mpr (h2.filter _)
  · rw [List.mem_map]
    constructor
    · rintro ⟨e, he, rfl⟩
      obtain ⟨hm, ht⟩ := List.mem_filter.mp he
      refine ⟨by rw [(h1 e.1 e.2).mp hm]; rfl, ?_⟩
      show takes ((pieceAt s e.1).elim 0 _)
      rw [pos e hm]; exact of_decide_eq_true ht
    · rintro ⟨hk, ht⟩
      obtain ⟨p, hp⟩ := Option.isSome_iff_exists.mp hk
      have hm := (h1 k p).mpr hp
      refine ⟨(k, p), List.mem_filter.mpr ⟨hm, decide_eq_true ?_⟩, rfl⟩
      have := pos (k, p) hm
      dsimp only at this ⊢
      rw [← this]; exact ht
  · rw [List.pairwise_map]
    refine (List.Pairwise.filter _ ?_)
    refine h3.imp_of_mem fun {a b} ha hb hab => ?_
    show (pieceAt s b.1).elim 0 _ ≤ (pieceAt s a.1).elim 0 _
    rw [pos a ha, pos b hb]; exact hab

theorem trackSlots_order {s : State} (hc : Table.canonical none s.tu.ring) : RemovalOrder s (fun _ => True) (trackSlots s) := by
  have h := removalOrder_filter hc (fun _ => True)
  have e : (onTrack s).filter (fun e => decide ((fun _ => True) (pitchDiff s.tu.pitch e.2.entry))) = onTrack s :=
    List.filter_eq_self.mpr fun _ _ => by simp
  rw [e] at h; exact h

theorem declaredSlots_order {s : State} (hc : Table.canonical none s.tu.ring) (range : Bool) (lo hi : Byte) :
    RemovalOrder s (fun q => range = true ∧ lo.toInt ≤ q ∧ q ≤ (hi.toNat : Int)) (declaredSlots s range lo hi) := by
  cases range with
  | false => exact ⟨List.nodup_nil, fun k => ⟨fun h => (nomatch h), fun h => by simp at h⟩, List.Pairwise.nil⟩
  | true =>
    have h := removalOrder_filter hc (fun q => lo.toInt ≤ q ∧ q ≤ (hi.toNat : Int))
    simp only [true_and]
    unfold declaredSlots slotsBetween
    rw [if_pos rfl]
    simpa only [Bool.decide_and] using h

/-! ## Pieces taken out (R160, R162) -/

theorem leaveWithout_ring {s : State} (hc : Table.canonical none s.tu.ring) (o : Outcome) (f : PieceFault) (k : Nat) :
    Table.canonical none (leaveWithout o f k s).tu.ring := by
  unfold leaveWithout
  split
  · simp only [flightChanged_keeps, writeEntry_keeps, setPiece, withTu_tu, releaseReservation_keeps]
    exact Table.canonical_tput hc _ _
  · exact hc

/-- The pieces of listed slots leave REMOVED in STOPPED, one after the other (R160, R162). -/
theorem removePieces_spec {ks : List Nat} (hn : ks.Nodup) {s : State} (hc : Table.canonical none s.tu.ring) (hs : s.rc.state = .stopped)
    (hp : ∀ k ∈ ks, (pieceAt s k).isSome = true) : PiecesRemoved ks s (removePieces ks s) := by
  induction ks generalizing s with
  | nil => rfl
  | cons k ks ih =>
    rw [List.nodup_cons] at hn
    obtain ⟨p, hpk⟩ := Option.isSome_iff_exists.mp (hp k List.mem_cons_self)
    have hring := leaveWithout_ring hc .removed .removed k
    obtain ⟨m, hl, hu, hb, hno, he⟩ := leaveWithout_spec hc hpk .removed .removed
    have hrc : m.rc = s.rc := by
      obtain ⟨-, -, -, -, -, -, -, -, -, -, -, -, h⟩ := hl
      exact h
    rw [flightChanged_of_not_draining (by rw [hrc, hs]; simp)] at he
    rw [he] at hring
    refine ⟨p, m, hpk, hl, hu, hb, hno, ?_⟩
    rw [removePieces, he]
    refine ih hn.2 hring (by rw [hrc]; exact hs) fun j hj => ?_
    rw [hl.2.1 j (fun e => hn.1 (e ▸ hj))]
    exact hp j (List.mem_cons_of_mem _ hj)

theorem PiecesRemoved.keeps {ks : List Nat} {u t : State} (h : PiecesRemoved ks u t) :
    t.cu = u.cu ∧ t.rc = u.rc ∧ t.iu = u.iu ∧ t.su = u.su := by
  induction ks generalizing u with
  | nil => cases h; exact ⟨rfl, rfl, rfl, rfl⟩
  | cons k ks ih =>
    obtain ⟨p, m, -, hl, -, -, -, hr⟩ := h
    obtain ⟨-, -, -, -, -, -, -, -, h1, h2, -, h3, h4⟩ := hl
    obtain ⟨i1, i2, i3, i4⟩ := ih hr
    exact ⟨i1.trans h1, i2.trans h4, i3.trans h2, i4.trans h3⟩

/-! ## Sets taken out (R42, R169) -/

theorem setEntryOf_eq (s : State) (x : SetRec) : setEntryOf s x = removedSet s x := by
  unfold setEntryOf removedSet setFault reprintOf; cases h : x.fault <;> simp

theorem descAt_writeRemovals (l : List SetRec) (s : State) (n : Nat) :
    descAt (writeRemovals l s) n =
      if some n ∈ l.map SetRec.slot then (descAt s n).map (fun d => { d with state := .diverted }) else descAt s n := by
  induction l generalizing s with
  | nil => simp [writeRemovals]
  | cons x l ih =>
    rw [writeRemovals, ih, descAt_writeEntry, setEntryOf_eq]
    have e1 : (removedSet s x).slot = x.slot := rfl
    have e2 : (removedSet s x).outcome = .removed := rfl
    rw [e1, e2]
    have twice : ∀ y : Option Descriptor, (y.map (fun d => { d with state := .diverted })).map (fun d => { d with state := .diverted }) =
        y.map (fun d => { d with state := .diverted }) := fun y => by cases y <;> rfl
    have hm : (some n ∈ (x :: l).map SetRec.slot) ↔ x.slot = some n ∨ some n ∈ l.map SetRec.slot := by
      rw [List.map_cons, List.mem_cons, eq_comm (a := some n)]
    simp only [hm, reduceCtorEq, if_false]
    by_cases h1 : x.slot = some n <;> by_cases h2 : some n ∈ l.map SetRec.slot <;> simp only [h1, h2, if_true, if_false, true_or, or_true, false_or, twice]

theorem writeRemovals_account (l : List SetRec) (s : State) :
    (writeRemovals l s).cl.log = s.cl.log ++ l.map (removedSet s) ∧
      (writeRemovals l s).cl.counters = { s.cl.counters with
        exited := s.cl.counters.exited + BitVec.ofNat 32 l.length
        diverted := s.cl.counters.diverted + BitVec.ofNat 32 l.length } ∧
      (writeRemovals l s).ds = { s.ds with slots := (writeRemovals l s).ds.slots } ∧ NoCause s (writeRemovals l s) ∧
      SameLines s (writeRemovals l s) ∧ (writeRemovals l s).cu = s.cu ∧ (writeRemovals l s).tu = s.tu ∧ (writeRemovals l s).iu = s.iu ∧
      (writeRemovals l s).pp = s.pp ∧ (writeRemovals l s).su = s.su ∧ (writeRemovals l s).bu = s.bu ∧ (writeRemovals l s).rc = s.rc := by
  induction l generalizing s with
  | nil => simp [writeRemovals, NoCause, SameLines]
  | cons x l ih =>
    rw [writeRemovals]
    have hd := descAt_writeEntry (setEntryOf s x) s
    obtain ⟨a1, a2⟩ := writeEntry_account (setEntryOf s x) s
    obtain ⟨w1, w2, w3, w4, w5, w6, ⟨w7, w8, w9⟩, w10, w11, w12, w13, w14⟩ := writeEntry_rest (setEntryOf s x) s
    have w15 := writeEntry_ds (setEntryOf s x) s
    generalize hm : writeEntry (setEntryOf s x) s = m at *
    obtain ⟨i1, i2, i3, ⟨i4, i5, i6, i7⟩, ⟨i8, i9, i10⟩, i11, i12, i13, i14, i15, i16, i17⟩ := ih m
    refine ⟨?_, ?_, ?_, ⟨i4.trans w1, i5.trans w2, i6.trans w3, i7.trans w4⟩, ⟨i8.trans w7, i9.trans w8, i10.trans w9⟩,
      i11.trans w10, i12.trans w6, i13.trans w11, i14.trans w12, i15.trans w13, i16.trans w5, i17.trans w14⟩
    · rw [i1, a1, setEntryOf_eq, List.append_assoc, List.map_cons, List.singleton_append]
      congr 2
      refine List.map_congr_left fun y _ => ?_
      unfold removedSet
      rw [w14]
      congr 1
      cases hy : y.slot with
      | none => rfl
      | some n =>
        show (descAt m n).map _ = (descAt s n).map _
        rw [hd n]
        split
        · cases descAt s n <;> rfl
        · rfl
    · rw [i2, a2]
      have e2 : (setEntryOf s x).outcome = .removed := rfl
      rw [e2]
      simp only [reduceCtorEq, if_false, List.length_cons, Counters.mk.injEq, true_and, and_true]
      have h : ∀ a : BitVec 32, a + 1 + BitVec.ofNat 32 l.length = a + BitVec.ofNat 32 (l.length + 1) := fun a => by
        rw [BitVec.ofNat_add, BitVec.add_assoc, BitVec.add_comm 1]; rfl
      exact ⟨h _, h _⟩
    · rw [i3, w15]

theorem collatedSets_eq (s : State) : collatedSets s = setsHeld s := by
  unfold collatedSets setsHeld; cases s.cu.place <;> rfl

/-- The collation unit gives up its sets (R42, R169). -/
theorem removeSets_spec (s : State) : SetsRemoved s (removeSets s) := by
  unfold removeSets
  rw [collatedSets_eq]
  have hd := descAt_writeRemovals (setsHeld s) (withCu s { s.cu with place := none, queue := [] })
  obtain ⟨h1, h2, h3, h4, h5, h6, h7, h8, h9, h10, h11, h12⟩ :=
    writeRemovals_account (setsHeld s) (withCu s { s.cu with place := none, queue := [] })
  exact ⟨h6, h1, h2, h3, hd, h4, h5, h7, h8, h9, h10, h11, h12⟩

/-! ## The two requests (R159-R162) -/

/-- The end of an abort: the run-end close, IDLE, and the pending copies (R162). -/
theorem abortEnd_spec (s : State) :
    ∃ c, BinsClosed .runEnd s c ∧ CopiesMade (withRc c { c.rc with state := .idle, resume := none }) (abortEnd s) :=
  ⟨_, runEndClose_spec s, copiesMade _⟩

end Sys2Proof.Machine
end

