-- ==== Sys2Proof/Tests/Slice0.lean ====
section
/-! SUPPORT. Tests: ill-formed commands that WellFormed refuses, values the spec works out, and for each statement a state that meets its hypotheses. -/

namespace Sys2Proof.Tests

open Sys2Proof Sys2Proof.Machine

/-! ## Ill-formed commands -/

theorem test_illFormed_feedDeadline_insert : wellFormed (.feedDeadline 0 12) = false := by decide
theorem test_illFormed_frame_short : wellFormed (.frameArrival [0, 0, 0, 0, 0, 0]) = false := by decide
theorem test_illFormed_frame_long : wellFormed (.frameArrival (List.replicate 64 0)) = false := by decide
theorem test_illFormed_request_body : wellFormed (.request 3 0 0 (List.replicate 54 0)) = false := by decide
theorem test_illFormed_map_count : wellFormed (.writeMapEntries 3 0 0 2 [(true, 0)]) = false := by decide
theorem test_illFormed_load_count : wellFormed (.loadDescriptors 3 0 0 []) = false := by decide
theorem test_illFormed_layout_length : wellFormed (.setLayout 3 0 (List.replicate 35 0)) = false := by decide
theorem test_illFormed_selection_count : wellFormed (.setSelection 3 0 0 1 []) = false := by decide
theorem test_illFormed_inserts_count : wellFormed (.setInserts 3 0 0 2 [(0, 0)]) = false := by decide
theorem test_illFormed_feederMap_length : wellFormed (.stageFeederMap 3 0 [(true, 0)]) = false := by decide
theorem test_illFormed_bands_count : wellFormed (.setBands 3 0 0 [1]) = false := by decide
theorem test_illFormed_elements_count : wellFormed (.stageSortElements 3 0 0 1 []) = false := by decide
theorem test_illFormed_body_over_384 : wellFormed (.loadDescriptors 3 0 39 (List.replicate 39 ⟨0, 1, 0, 0, false, 0⟩)) = false := by decide
theorem test_wellFormed_count_zero_is_32 : wellFormed (.setSelection 3 0 0 0 (List.replicate 32 0)) = true := by decide

/-! ## A line with one piece on the track -/

/-- Feeder F0 at 8, verify at 12, gate at 18, sorter at 24. -/
def layout : Layout :=
  ⟨1, 2, 4, 3, ⟨9, 2⟩, [(0, ⟨20, 8, true⟩)], ⟨30, 12⟩, ⟨31, 18⟩, ⟨32, 24⟩⟩

/-- The descriptor of piece 40, two sheets, in slot 8. -/
def descriptor : Descriptor := ⟨.loaded, 40, 2, 1, 0, 412, .standard, 0⟩

/-- An empty tray of sequence 7. -/
def tray : Tray := ⟨1, 7, 0, 0, 0, 0, 0, none, none, 0, false, none⟩

/-- A tray that is not empty. -/
def usedTray : Tray := { tray with reserved := 1, reservedMass := 180 }

/-- An OPEN bin with a tray. -/
def binWith (t : Tray) : Bin := ⟨.opened, some ⟨4, 1000, 1⟩, some t, false, none, false⟩

/-- A tray record. -/
def record : TrayRec := ⟨1, 6, 2, 0, some .countLimit, 4, 700, none, none, 1, false, false⟩

/-- Piece 40 with entry pitch 90, in ring slot 26, its one insert called. -/
def piece : Piece :=
  ⟨90, some 40, some 8, 2, some 0, [⟨0, some 0, none, .called⟩], some 700, some 180, some 0, none, false, .pending, .undecided⟩

/-- The descriptor store: ID 40 in window W0, base 32, of 16 IDs, DIRECT from slot 0. -/
def store (x : DescState) : Ds := ⟨[(8, some { descriptor with state := x })], [(0, ⟨true, 32, 4, .direct, 0⟩)], []⟩

/-- A running line at a pitch with a piece in ring slot 26. -/
def lineWith (c : Pitch) (p : Piece) : State :=
  { State.reset with
    ds := store .inTrack
    tu := ⟨c, layout, ⟨2, 2, 2, 2, 2⟩, [(26, some p)]⟩
    iu := ⟨[(1, 1)], [(0, ⟨3000, 100⟩)], 3, 90, false, [(0, { Feeder.off with state := .ready })], [], [(0, ⟨true, 0⟩)], false⟩
    pp := ⟨4990, 100, 3, [(0, ⟨true, 5000, 500, 5000⟩)], [300, 1000]⟩
    su := ⟨[(0, .enabled (.range 0 999) 255 .any (.bin 2))], [], .reject, 0, false⟩
    bu := ⟨[(2, binWith tray), (16, binWith tray)], 0, 0, 8, []⟩
    rc := ⟨.running, 1, none, none⟩
    cl := ⟨[], ⟨1, 1, 0, 0, 0, 2, 0⟩, 0, none, false⟩ }

/-- The running line at a pitch. -/
def line (c : Pitch) : State := lineWith c piece

/-- The line with outstanding works of an arrival. -/
def arrived (c : Pitch) : State := withDue (line c) ⟨true, true, true, true, true⟩

/-- The same machine in another run state. -/
def inState (s : State) (x : RunState) (r : Option RunState) : State := withRc s { s.rc with state := x, resume := r }

/-- An idle part with its tables loaded and nothing in flight. -/
def idle : State :=
  withDs (withCl (withTu (inState (line 100) .idle none) { (line 100).tu with ring := [] }) ⟨[], .zero, 0, none, false⟩) (store .loaded)

/-- A running line with nothing in flight and the descriptor LOADED. -/
def free : State := inState idle .running none

/-- A state whose command part holds a number of frames. -/
def filled (n : Nat) (s : State) : State := withRp s { s.rp with originate := List.replicate n ⟨1, .hold, 0, []⟩ }

/-- A state with a full command part. -/
def jammed (s : State) : State := filled 28 s

/-- A state with a full management part. -/
def flooded (s : State) : State := withRp s { s.rp with originate := List.replicate 4 ⟨3, .alert, 0, []⟩ }

/-- A set in the release queue. -/
def set40 : SetRec := ⟨some 40, some 8, some 2, 2, none, false⟩

/-- A state with a release queue of some sets, the cutter in a hold state and with a pending command or none. -/
def queued (n : Nat) (x : Cutter) (waits : Option PendingCutter) (s : State) : State :=
  withCu s { s.cu with queue := List.replicate n set40, hold := x, pendingCutter := waits }

/-- A completion entry of the piece, SORTED. -/
def entry : Entry := ⟨1, some 90, some 40, some 8, .sorted, some 2, some 7, none, false, 2, some 180, some 0⟩

/-- A state whose completion log leaves a headroom, with nothing in flight. -/
def leaving (n : Nat) (s : State) : State := withCl s { s.cl with log := List.replicate (1024 - n) { entry with outcome := .removed } }

/-- A line about to release a set, another one waiting behind it. -/
def releasing : State :=
  withDue (withCu (inState idle .running none) ⟨some ⟨set40, 3, true⟩, [set40], .go, none⟩) ⟨true, false, false, false, false⟩

/-- Piece 40 with F1 as the backup of its insert. -/
def backedPiece : Piece := { piece with planned := [⟨0, some 0, some 1, .called⟩] }

/-- The line with F1 at 15, fit to back F0. -/
def backed (c : Pitch) : State :=
  let s := lineWith c backedPiece
  withIu (withTu s { s.tu with layout := { layout with feeders := [(0, ⟨20, 8, true⟩), (1, ⟨21, 15, true⟩)] } })
    { s.iu with
      feeders := [(0, { Feeder.off with state := .ready }), (1, { Feeder.off with state := .ready })]
      active := [(0, ⟨true, 0⟩), (1, ⟨true, 0⟩)] }

/-- A state with F0 one miss short of its limit. -/
def tired (s : State) : State := withIu s { s.iu with feeders := [(0, { Feeder.off with state := .ready, consecutive := 2 })] }

/-- An idle part with a DIRECT window at the end of the slots and a MAPPED one at the end of the map. -/
def windowed : State :=
  withDs idle ⟨[(8, some descriptor)], [(0, ⟨true, 32, 4, .direct, 4088⟩), (1, ⟨true, 64, 4, .mapped, 8184⟩)], [(8184, ⟨true, 8⟩)]⟩

/-- The state that a command answers. -/
def after (c : Instr) (s : State) : State :=
  match exec c s with
  | .next t => t
  | .fault _ => s
  | .refused _ => s

/-! ## What the spec works out -/

/-- Section 3.9: the window of c = 1,025 runs from 899 to 1,026. -/
theorem test_resolveStamp_worked_example :
    [255, 2, 1, 254, 240, 200, 3, 130, 131].map (resolveStamp 1025) =
      [some 1023, some 1026, some 1025, some 1022, some 1008, some 968, none, none, some 899] := by decide

/-- Section 5.5's P1 and P2: sheets of 104 micrometres, inserts I2 and I5. -/
theorem test_planner_worked_example :
    let s := withPp (withIu (line 100) { (line 100).iu with inserts := [(2, ⟨2400, 90⟩), (5, ⟨11300, 400⟩)] })
      { (line 100).pp with sheetCaliper := 104 }
    fillOf s 3 [2, 5] = 1426 ∧ massOf s ⟨true, 5200, 0, 2500⟩ 3 [2, 5] = 339 ∧
      fillOf s 7 [2, 5] = 2674 ∧ massOf s ⟨true, 5200, 0, 2500⟩ 7 [2, 5] = 539 := by decide

/-- R99: bands with limits 200, 350, 600 and 1,000 dg. -/
theorem test_bandOf_worked_example :
    [200, 201, 350, 351, 1000, 1001].map (fun d => bandOf d [200, 350, 600, 1000]) =
      [some 0, some 1, some 1, some 2, some 3, none] := by decide

/-- Section 1.2's example lines of a lookup. -/
theorem test_lookup_worked_example :
    let s := withDs (line 100) ⟨[(3760, some { descriptor with id := 40112 })],
      [(0, ⟨true, 36864, 12, .direct, 512⟩), (1, ⟨true, 1048576, 16, .mapped, 7000⟩)], [(7424, ⟨true, 20⟩)]⟩
    lookup s 40112 = .found 3760 { descriptor with id := 40112 } ∧ lookup s 40959 = .slotRange ∧ lookup s 1049000 = .slotFree ∧
      lookup s 1050000 = .mapRange ∧ lookup s 2000000 = .noWindow := by decide

/-- R119: the key tests on 41,223,900. -/
theorem test_keyHolds_worked_example :
    keyHolds (.leading 3 41) 41223900 = true ∧ keyHolds (.leading 2 4) 41223900 = true ∧ keyHolds (.leading 2 41) 41223900 = false ∧
      keyHolds (.range 990000000 999999999) 999999999 = true := by decide

/-- R87: 120 calls with 15 misses give 88, with 12 misses 90; below 100 calls the value is 100. -/
theorem test_conditionOf_worked_example : conditionOf 120 15 = 88 ∧ conditionOf 120 12 = 90 ∧ conditionOf 99 50 = 100 := by decide

set_option maxRecDepth 4000 in
/-- R178: the CRC with 1021h, initial value FFFFh and no inversion is 29B1h over the digits 1 to 9. -/
theorem test_crcOf_digits : crcOf [0x31, 0x32, 0x33, 0x34, 0x35, 0x36, 0x37, 0x38, 0x39] = 0x29B1#16 := by decide

/-- R137, R154: the tray sequence and the run number pass from 65,535 to 1. -/
theorem test_numbers_wrap_to_one : nextTraySeq 65535 = 1 ∧ nextRun 65535 = 1 ∧ nextRun 0 = 1 := by decide

/-- R140: the cascade tries each bin once. -/
theorem test_cascadeBins_once :
    cascadeBins 4 (.bin 4) = [4, 16] ∧ cascadeBins 16 (.bin 3) = [16, 3] ∧ cascadeBins 2 .reject = [2, 16] := by decide

set_option maxRecDepth 16000
set_option synthInstance.maxHeartbeats 400000
set_option synthInstance.maxSize 4000

/-- Section 11.6: READ COMPLETIONS of 16 with 40 entries in the log: segments S0-S3 queued, S4-S6 to come, 24 entries left. -/
theorem test_long_response_worked_example :
    let t := after (.readCompletions 3 0x0512 16) (withCl idle { idle.cl with log := List.replicate 40 { entry with slot := none } })
    t.rp.originate.map (fun f => f.payload.take 3) = [[5, 18, 0], [5, 18, 1], [5, 18, 2], [5, 18, 3]] ∧
      t.rp.response.map (fun r => (r.next, r.segments.map List.length)) = some (4, [53, 53, 27]) ∧ t.cl.log.length = 24 := by decide

/-! ## For each statement, states that meet its hypotheses, clause by clause -/

theorem witness_StepRunsFrontCommand :
    (withPending idle [.pitchArrival]).pending = .pitchArrival :: [] ∧ idle.pending = [] := by decide

theorem witness_HeldResetLineStopsCommands :
    (withResetHeld idle true).resetHeld = true ∧ (∀ a, Instr.pitchArrival ≠ .powerOnReset a) ∧ Instr.pitchArrival ≠ .resetLineHeld := ⟨rfl, by simp, by simp⟩

theorem witness_PitchArrivalByRunState :
    (settle (line 100)).rc.state = .running ∧ (settle (inState (line 100) .draining none)).rc.state = .draining ∧
      (settle (inState (line 100) .stopped (some .running))).rc.state = .stopped ∧ (settle idle).rc.state = .idle ∧
      (line 100).resetHeld = false ∧ (inState (line 100) .draining none).resetHeld = false ∧
      (inState (line 100) .stopped (some .running)).resetHeld = false ∧ idle.resetHeld = false := by decide

/-- The oldest and the newest pitch of the window, and the pitches just outside. -/
theorem witness_StampResolvesInWindow :
    resolveStamp 130 4 = some 4 ∧ resolveStamp 130 131 = some 131 ∧ resolveStamp 130 3 = none ∧ resolveStamp 130 132 = none := by decide

/-- A full command part; a place for RELEASE alone; a slot still taken by a piece on SORT; a set that comes with a fault; and a cutter on
HOLD, whose GO follows. -/
theorem witness_ReleasePlacesHeadSet :
    let last := filled 27 releasing
    let taken := setPiece releasing 38 (some { piece with path := .sort 2 7 })
    let mixed := filled 27 (withCu releasing { releasing.cu with queue := [{ set40 with fault := some .mixed }] })
    let p := (pieceAt (after .release last) 38).getD piece
    let q := (pieceAt (after .release mixed) 38).getD piece
    releasing.resetHeld = false ∧ releasing.due.release = true ∧ releasing.rc.state = .running ∧ releasing.cu.queue = set40 :: [] ∧
      ringSlot (releasing.tu.pitch + BitVec.ofNat 32 releasing.tu.timing.lr) = 38 ∧ pieceAt releasing 38 = none ∧
      (pieceAt taken 38).isSome = true ∧ commandRoom releasing = true ∧ commandRoom (jammed releasing) = false ∧
      planFaults last set40 p = [] ∧ p.planned[callsMade last set40 p]? = some ⟨0, some 0, none, .notCalled⟩ ∧
      commandRoom mixed = true ∧ GateInReach mixed q ∧ q.path = .reject ∧
      (after .release (queued 1 .hold none releasing)).cu.hold = .go := by decide

/-- At the deadline and one pitch past it, by the sorter and by the gate, and the last piece of a run in DRAINING. -/
theorem witness_ExitDeadlineLosesPiece :
    let gate := fun (c : Pitch) => withDue (lineWith c { piece with path := .gate }) ⟨true, true, true, true, true⟩
    let drains := inState (arrived 117) .draining none
    (arrived 116).resetHeld = false ∧ (arrived 116).due.deadlines = true ∧ pieceAt (arrived 116) (26 : BitVec 6).toNat = some piece ∧
      TablesLaw (arrived 116) ∧ piece.path ≠ .gate ∧ pitchDiff (arrived 116).tu.pitch piece.entry = 24 + 2 ∧
      pieceAt (arrived 117) (26 : BitVec 6).toNat = some piece ∧ TablesLaw (arrived 117) ∧ pitchDiff (arrived 117).tu.pitch piece.entry = 27 ∧
      piece.slot = some 8 ∧ descAt (arrived 117) 8 = some { descriptor with state := .inTrack } ∧
      pitchDiff (gate 110).tu.pitch piece.entry = 18 + 2 ∧ pitchDiff (gate 111).tu.pitch piece.entry = 21 ∧ TablesLaw (gate 111) ∧
      TablesLaw drains ∧ drains.rc.state = .draining ∧ inFlight drains = 1 := by decide

/-- At the deadline and one pitch past it; with a backup in reach, with room for its CALL and without; and at the miss limit. -/
theorem witness_FeedDeadlineCountsMiss :
    (arrived 100).resetHeld = false ∧ (arrived 100).due.deadlines = true ∧ pieceAt (arrived 100) (26 : BitVec 6).toNat = some piece ∧
      piece.planned.find? (fun x => x.insert == (0 : BitVec 4).toNat) = some ⟨0, some 0, none, .called⟩ ∧
      waitsOn ⟨0, some 0, none, .called⟩ = some 0 ∧ pitchDiff (arrived 100).tu.pitch piece.entry = (placeAt (arrived 100) 0).pos + 2 ∧
      pieceAt (arrived 101) (26 : BitVec 6).toNat = some piece ∧
      ((placeAt (arrived 101) 0).pos : Int) + 2 < pitchDiff (arrived 101).tu.pitch piece.entry ∧
      ¬AtLimit (arrived 101).iu.limit (feederAt (arrived 101) 0) ∧ AtLimit (tired (arrived 101)).iu.limit (feederAt (tired (arrived 101)) 0) ∧
      BackupCalled (backed 101) backedPiece ⟨0, some 0, some 1, .called⟩ 1 ∧ commandRoom (backed 101) = true ∧
      BackupCalled (jammed (backed 101)) backedPiece ⟨0, some 0, some 1, .called⟩ 1 ∧ commandRoom (jammed (backed 101)) = false ∧
      (∀ g, g < 8 → ¬BackupCalled (backed 104) backedPiece ⟨0, some 0, some 1, .called⟩ g) := by decide

/-- At the deadline and one pitch past it, with an ID and without. -/
theorem witness_VerifyDeadlineFailsPiece :
    let unnamed := withDue (lineWith 105 { piece with id := none }) ⟨true, true, true, true, true⟩
    (arrived 104).resetHeld = false ∧ (arrived 104).due.deadlines = true ∧ pieceAt (arrived 104) (26 : BitVec 6).toNat = some piece ∧
      piece.verify = .pending ∧ pitchDiff (arrived 104).tu.pitch piece.entry = 12 + 2 ∧ piece.id.isSome = true ∧
      pieceAt (arrived 105) (26 : BitVec 6).toNat = some piece ∧ pitchDiff (arrived 105).tu.pitch piece.entry = 15 ∧
      pieceAt unnamed (26 : BitVec 6).toNat = some { piece with id := none } ∧ unnamed.due.deadlines = true := by decide

/-- The path rule's cases: the gate in reach, with room and without; the sorter alone, of a piece on SORT, with room and without; neither. -/
theorem witness_FaultRecorded :
    let sort := { piece with path := .sort 2 7 }
    piece.fault = none ∧ GateInReach (line 106) piece ∧ commandRoom (line 106) = true ∧ commandRoom (jammed (line 106)) = false ∧
      ¬GateInReach (line 107) sort ∧ onSort sort.path = true ∧ SorterInReach (line 112) sort ∧ ¬SorterInReach (line 113) sort ∧
      onSort piece.path = false := by decide

/-- No feeder that becomes EMPTY, and F2 and F3 that do, the lower first. -/
theorem witness_FeederMapCopyMovesFeeders :
    let s := withIu (arrived 100) { (arrived 100).iu with commitPending := true }
    let e := withIu s { s.iu with staged := [(2, ⟨true, 0⟩), (3, ⟨true, 0⟩)], feeders := [(2, { Feeder.off with level := .empty }), (3, { Feeder.off with level := .empty })] }
    s.resetHeld = false ∧ s.due.mapCopy = true ∧ s.iu.commitPending = true ∧ TablesLaw s ∧ (∀ f, f < 8 → becomesEmpty s f = false) ∧
      TablesLaw e ∧ becomesEmpty e 2 = true ∧ becomesEmpty e 3 = true ∧ (∀ g, g < 2 → becomesEmpty e g = false) := by decide

/-- One bin to close, with room for its TRAY_CHANGE and without; one with an empty tray; and one that is not OPEN. -/
theorem witness_SortPlanCopyMakesGroupBreak :
    let s := withBu (withSu (arrived 100) { (arrived 100).su with commitPending := true })
      { (arrived 100).bu with bins := [(2, binWith usedTray), (16, binWith tray)] }
    s.resetHeld = false ∧ s.due.planCopy = true ∧ s.su.commitPending = true ∧ closingBins s = [2] ∧ 1 ≤ commandFree s ∧
      closingBins (jammed s) = [2] ∧ commandFree (jammed s) < 1 ∧ (closingBins (jammed s)).drop (commandFree (jammed s)) = [2] ∧
      (binAt s 16).state = .opened ∧ 16 ∉ closingBins s ∧ (binAt s 0).state ≠ .opened := by decide

/-- Two bins that owe a TRAY_CHANGE: with room for both, for the first alone, and for neither; and one that owes none. -/
theorem witness_TrayChangeRetryQueuesOwed :
    let owes := { binWith usedTray with state := .full, owed := true }
    let s := setBin (setBin (arrived 100) 2 owes) 16 owes
    s.resetHeld = false ∧ s.due.trayRetry = true ∧ owingBins s = [2, 16] ∧ 2 ≤ commandFree s ∧
      (owingBins (filled 27 s)).take (commandFree (filled 27 s)) = [2] ∧ (owingBins (jammed s)).take (commandFree (jammed s)) = [] ∧
      owingBins (arrived 100) = [] := by decide

/-- Each test of R40 at its bound: a queue of two and of three, of one and of two, a headroom of 9 and of 8, a full command part, a pending
command whose condition is gone, and a run state other than RUNNING; and a pending command with room and without. -/
theorem witness_CutterIsRegulated :
    let s := withCu (line 100) ⟨none, [], .go, some .holdByRun⟩
    (HoldMet (queued 3 .go none free) ∧ ¬HoldMet (queued 2 .go none free) ∧ GoMet (queued 1 .hold none free) ∧
      ¬GoMet (queued 2 .hold none free) ∧ HoldMet (leaving 8 free) ∧ ¬HoldMet (leaving 9 free) ∧ GoMet (leaving 9 free) ∧
      (queued 3 .go none free).rc.state = .running ∧ commandRoom (queued 3 .go none free) = true ∧
      commandRoom (jammed (queued 3 .go none free)) = false ∧ (queued 3 .go none idle).rc.state ≠ .running) ∧
    (stillPending (queued 2 .hold (some .go) free) = none ∧ stillPending (queued 1 .hold (some .go) free) = some .go ∧
      stillPending (queued 1 .go (some .holdByQueue) free) = none ∧ stillPending (queued 2 .go (some .holdByQueue) free) = some .holdByQueue ∧
      stillPending (queued 1 .go (some .holdByRun) free) = some .holdByRun) ∧
    (s.resetHeld = false ∧ s.cu.pendingCutter = some .holdByRun ∧ commandRoom s = true ∧ commandRoom (jammed s) = false ∧
      (line 100).cu.pendingCutter = none) := by decide

/-- A segment with another left; the last one with an ALERT behind it, with one that finds no further entry, and with none; no free entry. -/
theorem witness_ManagementEntriesAreOffered :
    let s := withRp (line 100) { (line 100).rp with response := some ⟨3, 9, 1, [[1], [2]]⟩ }
    let l := withRp (line 100) { (line 100).rp with response := some ⟨3, 9, 1, [[1]]⟩ }
    let a := fun (x : State) => withCl x { x.cl with alertPending := true }
    let third := withRp l { l.rp with originate := List.replicate 3 ⟨3, .response, 0, []⟩ }
    s.resetHeld = false ∧ s.rp.response = some ⟨3, 9, 1, [1] :: [[2]]⟩ ∧ managementRoom s = true ∧ managementRoom (flooded s) = false ∧
      (a l).rp.response = some ⟨3, 9, 1, [1] :: []⟩ ∧ (a l).cl.alertPending = true ∧ managementCount (a l) < 3 ∧
      managementRoom (a third) = true ∧ ¬managementCount (a third) < 3 ∧ l.cl.alertPending = false ∧
      (a (line 100)).cl.alertPending = true ∧ managementRoom (a (line 100)) = true ∧ (a (line 100)).rp.response = none ∧
      (a (line 100)).tu.layout.lineComputer ≠ 63 ∧ (line 100).cl.alertPending = false := by decide

/-- In RUNNING, and in DRAINING where the drain end follows. -/
theorem witness_HeldRecordIsAppended :
    let s := setBin (line 100) 2 ⟨.closePending, some ⟨4, 1000, 1⟩, none, false, some record, false⟩
    let d := setBin (inState free .draining none) 2 ⟨.closePending, some ⟨4, 1000, 1⟩, none, false, some record, false⟩
    s.resetHeld = false ∧ s.bu.log.length < 256 ∧ (binAt s 2).state = .closePending ∧ (binAt s 2).held = some record ∧
      (∀ j, j < 2 → (binAt s j).state ≠ .closePending) ∧ d.rc.state = .draining ∧ inFlight d = 0 ∧ (binAt d 2).held = some record ∧
      AllSettled (setBin d 2 (binWith tray)) := by decide

/-- Frames with a wrong check, a length of 57, and a payload byte too few; one of the own source; and one to forward, with room and without. -/
theorem witness_FrameArrivalChecksAndForwards :
    let sealed := fun (x : List Byte) => x ++ be2 (crcOf x).toNat
    let jam := sealed [5, 3, 7, 0, 0]
    let own := sealed [5, 0, 7, 0, 0]
    let full := withRp idle { idle.rp with forward := List.replicate 8 jam }
    ¬FrameIntact [5, 3, 7, 0, 0, 0, 0] ∧ ¬FrameIntact (sealed [5, 3, 7, 0, 57]) ∧ ¬FrameIntact (sealed [5, 3, 7, 0, 1]) ∧
      FrameIntact own ∧ addrOf (byteAt own 1) = (settle idle).rp.own ∧
      (settle idle).rp.own ≠ 63 ∧ FrameIntact jam ∧ addrOf (byteAt jam 1) ≠ (settle idle).rp.own ∧
      addrOf (byteAt jam 0) ≠ (settle idle).rp.own ∧ (settle idle).rp.forward.length < 8 ∧ (settle full).rp.forward.length = 8 := by decide

/-- A station other than the part; and a MATERIAL of two bytes, a kind no report has, and a REQUEST too short for a segment. -/
theorem witness_ConsumedFramesActAsReports :
    (settle idle).rp.own ≠ 63 ∧ (3 : Addr) ≠ (settle idle).rp.own ∧ (List.replicate 53 (0 : Byte)).length ≤ 53 ∧ idle.resetHeld = false ∧
      (∀ e ∈ ([(3, 2), (200, 0), (15, 2), (7, 56)] : List (Nat × Nat)), e.2 ≤ 56 ∧
        e ∉ [(1, 5), (2, 1), (3, 1), (4, 3), (5, 1), (6, 1), (7, 0)] ∧ (e.1 = 15 → e.2 < 3)) := by decide

theorem witness_DownstreamPortSendsByTurn :
    let both := withRp idle { idle.rp with forward := [[0]], originate := [⟨1, .hold, 0, []⟩] }
    let own := withRp idle { idle.rp with originate := [⟨1, .hold, 0, []⟩] }
    let sends := withRp both { both.rp with sending := some .forward }
    (settle both).rp.sending = none ∧ (settle both).rp.forward ≠ [] ∧ (settle both).rp.originate ≠ [] ∧ (settle both).rp.turn = .forward ∧
      (settle own).rp.forward = [] ∧ (settle own).rp.originate ≠ [] ∧ (settle sends).rp.sending = some .forward ∧
      (settle idle).rp.forward = [] ∧ (settle idle).rp.originate = [] ∧ (settle idle).rp.sending = none ∧
      (settle (withRp own { own.rp with sending := some .originate })).rp.sending = some .originate := by decide

/-- A segment not expected; one that continues up to 384 bytes and past them; and messages that end: empty, of the codes 0, 44 and 255, and
of a wrong length, with a count and without. -/
theorem witness_RequestSegmentsAssemble :
    let s := withRp idle { idle.rp with assembly := some ⟨3, 9, 7, List.replicate 331 0⟩ }
    gathered (settle idle) 3 9 2 [30] = none ∧ gathered (settle s) 3 8 7 [30] = none ∧
      (gathered (settle s) 3 9 7 (List.replicate 53 0)).map List.length = some 384 ∧
      (gathered (settle s) 3 9 7 (List.replicate 54 0)).map List.length = some 385 ∧ (7 : Byte).toNat < 128 ∧
      gathered (settle s) 3 9 128 [] = some [] ∧ 128 ≤ (128 : Byte).toNat ∧ gathered (settle idle) 3 9 128 [30, 0] = some [30, 0] ∧
      (∀ x ∈ ([[0], [44], [255], [30, 0], [10, 0, 0], [12, 0, 2, 0, 0, 0, 0], [11, 0, 0, 0, 1]] : List (List Byte)),
        x.length ∉ bodyLengths x) ∧
      requestTaken (settle idle) = true ∧ requestTaken (settle (flooded idle)) = false := by decide

/-- A body in one segment, and its last byte behind an assembly. -/
theorem witness_RequestBodiesSpellTheirCommands :
    let c := Instr.setBands 3 9 2 [300, 1000]
    let s := withRp idle { idle.rp with assembly := some ⟨3, 9, 1, [21, 2, 1, 44, 3]⟩ }
    wellFormed c = true ∧ requester c = some (3, 9) ∧ requestBody c = some [21, 2, 1, 44, 3, 232] ∧ 128 ≤ (128 : Byte).toNat ∧
      gathered (settle idle) 3 9 128 [21, 2, 1, 44, 3, 232] = some [21, 2, 1, 44, 3, 232] ∧ idle.resetHeld = false ∧
      settle idle = withRp (settle idle) { (settle idle).rp with assembly := none } ∧ 128 ≤ (129 : Byte).toNat ∧
      gathered (settle s) 3 9 129 [232] = some [21, 2, 1, 44, 3, 232] ∧ s.resetHeld = false ∧
      settle idle = withRp (settle s) { (settle s).rp with assembly := none } := by decide

theorem witness_WellFormedRequestsFit :
    wellFormed (.setBands 3 9 2 [300, 1000]) = true ∧ requestBody (.setBands 3 9 2 [300, 1000]) = some [21, 2, 1, 44, 3, 232] ∧
      bodyLength (.setBands 3 9 2 [300, 1000]) = some 6 := by decide

theorem witness_RequestsDroppedWhenNotTaken :
    isRequest (.readBins 3 9) = true ∧ (flooded (line 100)).resetHeld = false ∧ requestTaken (settle (flooded (line 100))) = false := by decide

/-- A request of IDLE alone, outside IDLE and in IDLE with an action that is none; one of any state with a slot past the last; and each bound
of the arguments with its next value beyond. -/
theorem witness_RequestsRefusedByStateOrArguments :
    (wellFormed (.setFallback 3 9 17) = true ∧ requester (.setFallback 3 9 17) = some (3, 9) ∧
      requestBody (.setFallback 3 9 17) = some [24, 17] ∧ ([24, 17] : List Byte).head? = some 24#8 ∧ BadArguments (.setFallback 3 9 17) ∧
      ¬BadArguments (.setFallback 3 9 18) ∧ Takes (line 100) ∧ (settle (line 100)).rc.state ≠ .idle ∧ Takes idle ∧
      (settle idle).rc.state = .idle) ∧
    (wellFormed (.readDescriptor 3 9 4096) = true ∧ requestBody (.readDescriptor 3 9 4096) = some [5, 16, 0] ∧
      BadArguments (.readDescriptor 3 9 4096) ∧ ¬BadArguments (.readDescriptor 3 9 4095)) ∧
    (BadArguments (.setWindow 3 9 4 false 0 4 0 0) ∧ BadArguments (.setWindow 3 9 3 true 0 21 0 0) ∧
      BadArguments (.setWindow 3 9 3 true 8 4 0 0) ∧ BadArguments (.setWindow 3 9 3 true 0 4 2 0) ∧
      BadArguments (.setWindow 3 9 3 true 0 4 0 4096) ∧ ¬BadArguments (.setWindow 3 9 3 true 0 4 1 8191) ∧
      ¬BadArguments (.setWindow 3 9 3 false 8 3 2 0)) ∧
    (BadArguments (.setTiming 3 9 5 1 1 1 1) ∧ ¬BadArguments (.setTiming 3 9 4 8 8 8 4) ∧ BadArguments (.setTiming 3 9 1 1 1 1 0)) ∧
    (BadArguments (.setInsertPolicy 3 9 16 50 false) ∧ BadArguments (.setInsertPolicy 3 9 15 49 false) ∧
      ¬BadArguments (.setInsertPolicy 3 9 15 99 false) ∧ BadArguments (.restoreFeeder 3 9 8 false) ∧ ¬BadArguments (.restoreFeeder 3 9 7 false)) ∧
    (BadArguments (.setSheetParameters 3 9 20001 20 1) ∧ BadArguments (.setSheetParameters 3 9 1 401 1) ∧
      ¬BadArguments (.setSheetParameters 3 9 20000 400 3) ∧ BadArguments (.setEnvelopeClass 3 9 4 false 0 0 0) ∧
      BadArguments (.setEnvelopeClass 3 9 3 true 1 2001 1) ∧ ¬BadArguments (.setEnvelopeClass 3 9 3 false 0 2001 0)) ∧
    (BadArguments (.retire 3 9 1 0) ∧ BadArguments (.retire 3 9 0 4096) ∧ ¬BadArguments (.retire 3 9 4095 4095) ∧
      BadArguments (.findPiece 3 9 16777215) ∧ ¬BadArguments (.findPiece 3 9 16777214) ∧ BadArguments (.readTrays 3 9 9) ∧
      BadArguments (.readCompletions 3 9 0) ∧ ¬BadArguments (.readCompletions 3 9 16) ∧ BadArguments (.readSortPlan 3 9 2 0 1) ∧
      BadArguments (.readSortPlan 3 9 1 49 16) ∧ ¬BadArguments (.readSortPlan 3 9 1 48 16) ∧ BadArguments (.trySortKey 3 9 1000000000 0 0) ∧
      BadArguments (.trySortKey 3 9 0 8 0) ∧ ¬BadArguments (.trySortKey 3 9 999999999 7 1)) ∧
    (BadArguments (.setBinLimits 3 9 17 true 0 0 0) ∧ BadArguments (.setBinLimits 3 9 16 false 4000 400000 4001) ∧
      ¬BadArguments (.setBinLimits 3 9 16 true 0 0 0) ∧ BadElement ⟨4, 0, 0, 0, 0, 0⟩ ∧ BadElement ⟨2, 2, 100, 0, 0, 0⟩ ∧
      ¬BadElement ⟨2, 9, 999999999, 0, 2, 18⟩ ∧ BadElement ⟨3, 0, 0, 0, 3, 0⟩ ∧ ¬BadElement ⟨0, 0, 0, 0, 3, 17⟩) := by
  unfold BadArguments; decide

theorem witness_WindowsAndMapAreWritten :
    Takes idle ∧ (settle idle).rc.state = .idle ∧ (3 : Byte).toNat < 4 ∧ (15728640 : PieceId).toNat % 2 ^ (20 : Byte).toNat = 0 ∧
      (4095 : BitVec 16).toNat < 4096 ∧ (8191 : BitVec 16).toNat < 8192 ∧ countField 1 = 1 ∧ (8191 : BitVec 16).toNat + 1 ≤ 8192 ∧
      (4095 : BitVec 16).toNat < 4096 := by decide

/-- IDs on both sides of each bound, in a DIRECT and a MAPPED window, and in none; slots FREE and of another ID. -/
theorem witness_LookupFollowsSelectedWindow :
    let s := windowed
    Selected s 39 0 ∧ reach s 39 = .slot 0 none 4095 ∧ Selected s 40 0 ∧ reach s 40 = .slotRange 0 ∧ Selected s 64 1 ∧
      reach s 64 = .slot 1 (some 8184) 8 ∧ reach s 71 = .mapInvalid 1 8191 ∧ reach s 72 = .mapRange 1 ∧ reach s 80 = .noWindow ∧
      descAt s 8 = some descriptor ∧ descriptor.id ≠ 64 ∧ descAt s 4095 = none ∧ lookup s 64 = .otherId ∧ lookup s 39 = .slotFree := by
  decide

/-- Records on both sides of each bound of their fields, every result of the lookup, every kind of slot reached; and a batch that loads, one
refused at once, and one refused at its second record. -/
theorem witness_DescriptorBatchesLoad :
    let s := withDs idle ⟨[], [(0, ⟨true, 32, 4, .direct, 4088⟩), (1, ⟨true, 64, 4, .mapped, 8184⟩)], [(8184, ⟨true, 8⟩)]⟩
    let holding := fun (x : Option Descriptor) => withDs idle { idle.ds with slots := (x.map (fun d => (8, some d))).toList }
    let r : DescriptorRecord := ⟨40, 16, 0, 0, false, 999999999⟩
    (Takes s ∧ [r].length = countField 1 ∧ [r, r].length = countField 2 ∧ FieldsOk r ∧ ¬FieldsOk { r with sheets := 17 } ∧
      ¬FieldsOk { r with sheets := 0 } ∧ ¬FieldsOk { r with key := 1000000000 } ∧ ¬FieldsOk { r with id := 16777215 }) ∧
    (reach (settle s) 80 = .noWindow ∧ reach (settle s) 40 = .slotRange 0 ∧ reach (settle s) 72 = .mapRange 1 ∧
      reach (settle s) 65 = .mapInvalid 1 8185 ∧ reach (settle (holding none)) r.id = .slot 0 none 8) ∧
    (descAt (settle (holding none)) 8 = none ∧ descAt (settle (holding (some descriptor))) 8 = some descriptor ∧
      loadsAs r none = some (.loaded, 0) ∧ loadsAs r (some descriptor) = some (.loaded, 0) ∧
      loadsAs r (some { descriptor with state := .diverted, reprint := 2 }) = some (.diverted, 2) ∧
      loadsAs { r with id := 41 } (some descriptor) = none ∧ loadsAs r (some { descriptor with state := .inTrack }) = none ∧
      loadsAs r (some { descriptor with state := .sorted }) = none) ∧
    ((loadBatch [r] 0 (settle (holding none))).2 = none ∧
      (loadBatch [{ r with sheets := 17 }] 0 (settle (holding none))).2 = some (0, .badArgument) ∧
      (loadBatch [r, { r with id := 99 }, r] 0 (settle (holding none))).2 = some (1, .notFound 1)) ∧
    (∀ d ∈ [{ descriptor with state := .diverted }, { descriptor with id := 41 }, { descriptor with state := .inTrack },
      { descriptor with state := .sorted }], Takes (holding (some d)) ∧ descAt (settle (holding (some d))) 8 = some d) := by decide

theorem witness_RetireFreesRange :
    Takes idle ∧ TablesLaw (settle idle) ∧ (8 : BitVec 16).toNat ≤ (4095 : BitVec 16).toNat ∧ (4095 : BitVec 16).toNat ≤ 4095 ∧
      descAt (settle idle) 8 = some descriptor ∧ descriptor.state = .loaded ∧ descAt (settle idle) 7 = none ∧
      4095 < (4096 : BitVec 16).toNat ∧ (7 : BitVec 16).toNat < (8 : BitVec 16).toNat ∧
      Takes (line 100) ∧ TablesLaw (settle (line 100)) ∧ descAt (settle (line 100)) 8 = some { descriptor with state := .inTrack } := by decide

theorem witness_LineAndPlannerTablesAreReplaced :
    Takes idle ∧ (settle idle).rc.state = .idle ∧ (List.replicate 36 (63 : Byte)).length = 36 ∧
      (∀ i, i < 36 → i ∉ [8, 11, 14, 17, 20, 23, 26, 29] → (byteAt (List.replicate 36 63) i).toNat ≤ 63) ∧
      (∀ l ∈ ([1, 20000] : List (BitVec 16)), 1 ≤ l.toNat ∧ l.toNat ≤ 20000) ∧ ascending (([1, 20000] : List (BitVec 16)).map BitVec.toNat) = true :=
  ⟨by decide, by decide, by decide, by decide, by simp, by simp [ascending]⟩

theorem witness_InsertTablesAreWritten :
    Takes idle ∧ (settle idle).rc.state = .idle ∧ ([4095] : List (BitVec 16)).length = countField 1 ∧ (255 : Byte).toNat + 1 ≤ 256 ∧
      (∀ x ∈ ([4095] : List (BitVec 16)), x.toNat < 4096) ∧ (11 : Byte).toNat + 1 ≤ 12 ∧
      (∀ e ∈ ([(60000, 6000)] : List (BitVec 16 × BitVec 16)), e.1.toNat ≤ 60000 ∧ e.2.toNat ≤ 6000) ∧ TablesLaw (settle idle) ∧
      (∀ e ∈ List.replicate 8 (true, (11 : Byte)), e.2.toNat < 12) :=
  ⟨by decide, by decide, by decide, by decide, by simp, by decide, by simp, by decide, by decide⟩

/-- Outside IDLE; in IDLE with no feeder that becomes EMPTY and with one; a FAILED feeder with and without material; and one not FAILED. -/
theorem witness_FeedersAreCommittedAndRestored :
    let feeder := fun (x : Feeder) => withIu idle { idle.iu with feeders := [(0, x)] }
    let failed := feeder { Feeder.off with state := .failed, doubles := 3 }
    let spent := feeder { Feeder.off with state := .failed, level := .empty }
    let bare := withIu idle { idle.iu with staged := [(2, ⟨true, 0⟩)], feeders := [(2, { Feeder.off with level := .empty })] }
    Takes (line 100) ∧ (settle (line 100)).rc.state ≠ .idle ∧ Takes idle ∧ (settle idle).rc.state = .idle ∧
      (∀ f, f < 8 → becomesEmpty (settle idle) f = false) ∧ Takes bare ∧ (settle bare).rc.state = .idle ∧ becomesEmpty (settle bare) 2 = true ∧
      (∀ g, g < 2 → becomesEmpty (settle bare) g = false) ∧ Takes failed ∧ TablesLaw (settle failed) ∧
      (feederAt (settle failed) 0).state = .failed ∧ (feederAt (settle failed) 0).level ≠ .empty ∧ Takes spent ∧ TablesLaw (settle spent) ∧
      (feederAt (settle spent) 0).state = .failed ∧ (feederAt (settle spent) 0).level = .empty ∧ TablesLaw (settle idle) ∧
      (feederAt (settle idle) 0).state ≠ .failed := by decide

/-- Elements of every kind at their bounds, the actions at theirs; a commit outside IDLE, and in IDLE with a bin to close, with room and
without. -/
theorem witness_SortPlanIsStagedAndCommitted :
    let es : List ElementRecord := [⟨0, 7, 7, 7, 7, 7⟩, ⟨1, 0, 999999999, 255, 0, 16⟩, ⟨2, 9, 999999999, 1, 1, 18⟩, ⟨2, 1, 9, 1, 2, 0⟩,
      ⟨3, 999999999, 5, 128, 2, 16⟩]
    let used := setBin idle 2 (binWith usedTray)
    Takes idle ∧ (settle idle).rc.state = .idle ∧ Takes (line 100) ∧ (settle (line 100)).rc.state ≠ .idle ∧ (59 : Byte).toNat + 5 ≤ 64 ∧
      es.length = (5 : Byte).toNat ∧ (∀ r ∈ es, ¬BadElement r) ∧ ¬BadAction 16 ∧ BadAction 17 ∧ ¬BadAction 18 ∧ BadAction 19 ∧
      Takes used ∧ (settle used).rc.state = .idle ∧ closingBins (settle used) = [2] ∧
      1 ≤ commandFree (settle used) ∧ Takes (jammed used) ∧ closingBins (settle (jammed used)) = [2] ∧
      commandFree (settle (jammed used)) < 1 ∧ (binAt (settle used) 16).state = .opened ∧ 16 ∉ closingBins (settle used) := by decide

/-- Limits on both sides of each bound, a bin that is none, and every kind of bin. -/
theorem witness_BinLimitsByBinState :
    let full := setBin (line 100) 2 { binWith usedTray with state := .full }
    let used := setBin (line 100) 2 (binWith usedTray)
    Takes (line 100) ∧ (16 : Byte).toNat < 17 ∧ 17 ≤ (17 : Byte).toNat ∧ (1 : BitVec 16).toNat = 1 ∧ (4000 : BitVec 16).toNat ≤ 4000 ∧
      (400000 : BitVec 24).toNat ≤ 400000 ∧ ¬(4001 : BitVec 16).toNat ≤ 4000 ∧ ¬(400001 : BitVec 24).toNat ≤ 400000 ∧
      ¬(3 : BitVec 16).toNat ≤ (2 : BitVec 16).toNat ∧ (binAt (settle (line 100)) 0).state = .disabled ∧
      (binAt (settle (line 100)) 16).state = .opened ∧ (binAt (settle (line 100)) 16).tray = some tray ∧ trayEmpty tray = true ∧
      Takes full ∧ (binAt (settle full) 2).state = .full ∧ Takes used ∧ (binAt (settle used) 2).state = .opened ∧
      (binAt (settle used) 2).tray = some usedTray ∧ trayEmpty usedTray = false := by decide

theorem witness_ReadDescriptorAnswersSlot :
    Takes idle ∧ 4095 < (4096 : BitVec 16).toNat ∧ descAt (settle idle) (4095 : BitVec 16).toNat = none ∧
      descAt (settle idle) (8 : BitVec 16).toNat = some descriptor := by decide

/-- Each result of a lookup; a slot of the ring that holds a piece and one that is empty; an element that matches and none; and a response
of four segments with four free entries, and with one. -/
theorem witness_TableReadsChangeNothing :
    let full := withRp (line 100) { (line 100).rp with originate := List.replicate 3 ⟨3, .alert, 0, []⟩ }
    (Takes (line 100) ∧ (40 : PieceId) ≠ 16777215 ∧ (63 : Byte).toNat < 64 ∧ (255 : BitVec 16).toNat < 256 ∧
      (48 : Byte).toNat + (16 : Byte).toNat ≤ 64 ∧ (999999999 : BitVec 32).toNat ≤ 999999999 ∧ (1 : Byte).toNat ≤ 1 ∧
      Takes windowed ∧ Selected (settle windowed) 39 0 ∧ Selected (settle windowed) 40 0 ∧ Selected (settle windowed) 64 1 ∧
      Selected (settle windowed) 71 1 ∧ Selected (settle windowed) 72 1 ∧ (settle windowed).ds = windowed.ds ∧
      Selected (settle (line 100)) 40 0 ∧ (descAt (settle (line 100)) 8).map Descriptor.id = some 40 ∧
      pieceAt (settle (line 100)) 26 = some piece ∧ pieceAt (settle (line 100)) 27 = none ∧
      managementFree (settle (line 100)) = 4 ∧ Takes full ∧ managementFree (settle full) = 1 ∧
      (segmentsOf (List.replicate 178 0)).length = 4 ∧ (segmentsOf (List.replicate 159 0)).length = 3) ∧
    (∀ i, ¬Selected (settle windowed) 80 i) ∧
    FirstSays (settle (line 100)) (settle (line 100)).su.active 412 0 .standard (some 0) (.bin 2) ∧
    FirstSays (settle (line 100)) (settle (line 100)).su.staged 412 0 .standard none .reject := by
  refine ⟨by decide, fun i h => ?_, ⟨by decide, ?_, fun m h => absurd h m.not_lt_zero⟩, fun m _ a h => ?_, by decide⟩
  · have hn : ∀ j, j < 4 → ¬Selected (settle windowed) 80 j := by decide
    exact hn i h.1 h
  · have h : tget Element.disabled (settle (line 100)).su.active 0 = .enabled (.range 0 999) 255 .any (.bin 2) := by decide
    rw [h]; exact ⟨⟨by decide, by decide⟩, by decide, trivial, rfl⟩
  · have e : (settle (line 100)).su.staged = [] := by decide
    simp only [e] at h; exact h

/-- A running line and an idle part; and a response of nineteen segments with four free entries. -/
theorem witness_StatusReadsChangeNothing :
    Takes (line 100) ∧ Takes idle ∧ managementFree (settle (line 100)) = 4 ∧ (segmentsOf (List.replicate 987 0)).length = 19 := by decide

/-- Outside RUNNING and in RUNNING, two entries, the second that of a SORTED descriptor; and a cutter told GO by the new headroom. -/
theorem witness_LogReadsDrainOldestEntries :
    let e : Entry := { entry with slot := none }
    let s := withDs (withCl idle { idle.cl with log := [e, entry] }) (store .sorted)
    (Takes s ∧ (settle s).rc.state ≠ .running ∧ (settle s).cl.log = [e, entry] ∧ Frees (settle s) entry 8 ∧
      (∀ x ∈ [e], ¬Frees (settle s) x 8) ∧ TablesLaw (settle s) ∧ 1 ≤ (1 : Byte).toNat ∧ (2 : Byte).toNat ≤ 16 ∧ (16 : Byte).toNat ≤ 16 ∧
      (8 : Byte).toNat ≤ 8 ∧ Takes (inState s .running none) ∧ descAt (settle idle) 8 = some descriptor ∧ descriptor.state ≠ .sorted) ∧
    (Takes (leaving 8 free) ∧ (settle (leaving 8 free)).cu.hold = .hold ∧ headroom (settle (leaving 8 free)) = 8) := by decide

theorem witness_ClearSummaryClearsNamedFlags :
    Takes idle ∧ 262144 ≤ (262144 : BitVec 24).toNat ∧ (262143 : BitVec 24).toNat < 262144 := by decide

theorem witness_CauseSetsFlagAndCapture :
    idle.cl.summary = 0 ∧ managementRoom idle = true ∧ idle.rp.response = none ∧ idle.tu.layout.lineComputer ≠ 63 ∧
      managementRoom (flooded idle) = false ∧ (withCl idle { idle.cl with summary := 1 }).cl.summary ≠ 0 := by decide

/-- R153's own example: the gate at 15 fails check 6 and none before it; the line passes all ten, at a headroom above 8 and at 8, the cutter
on HOLD and on GO, with a full command part. -/
theorem witness_StartRunChecksAndStarts :
    let late := withTu idle { idle.tu with layout := { layout with gate := ⟨31, 15⟩ } }
    let near := jammed (queued 0 .go none (leaving 8 idle))
    (Takes idle ∧ (settle idle).rc.state = .idle ∧ 8 < headroom (settle idle) ∧ (settle idle).cu.queue.length ≤ 1 ∧
      (settle idle).cu.hold = .hold ∧ commandRoom (settle idle) = true ∧ (binAt (settle idle) 2).state = .opened ∧
      (binAt (settle idle) 0).state ≠ .opened) ∧ (∀ n, 1 ≤ n → n ≤ 10 → Passes (settle idle) n) ∧
      (Takes late ∧ (settle late).rc.state = .idle) ∧ ¬Passes (settle late) 6 ∧ (∀ m, 1 ≤ m → m < 6 → Passes (settle late) m) ∧
      (Takes near ∧ (settle near).rc.state = .idle ∧ headroom (settle near) = 8 ∧ (settle near).cu.hold = .go ∧
        commandRoom (settle near) = false) ∧ (settle near).tu = (settle idle).tu ∧ (settle near).pp = (settle idle).pp := by
  refine ⟨by decide, fun n h h' => ?_, by decide, ?_, fun m h h' => ?_, by decide, by decide, by decide⟩
  · interval_cases n <;> simp only [Passes] <;> decide
  · simp only [Passes]; decide
  · interval_cases m <;> simp only [Passes] <;> decide

/-- With a piece in flight and without, with a full command part, with an OPEN record and a full queue behind it, in STOPPED with each resume
state, and in IDLE and DRAINING. -/
theorem witness_EndRunDrains :
    let openSet := fun (n : Nat) => withCu (line 100) ⟨some ⟨set40, 2, false⟩, List.replicate n set40, .go, none⟩
    let stops := fun (r : RunState) (s : State) => inState s .stopped (some r)
    (Takes (line 100) ∧ (settle (line 100)).rc.state = .running ∧ commandRoom (settle (line 100)) = true ∧ 0 < inFlight (settle (line 100)) ∧
      Takes (jammed free) ∧ (settle (jammed free)).rc.state = .running ∧ commandRoom (settle (jammed free)) = false ∧
      inFlight (settle (jammed free)) = 0 ∧ Takes free ∧ (settle free).rc.state = .running ∧ inFlight (settle free) = 0) ∧
    (Takes (openSet 0) ∧ (settle (openSet 0)).cu.place = some ⟨set40, 2, false⟩ ∧ (settle (openSet 0)).cu.queue.length < 4 ∧
      (settle (openSet 0)).rc.state = .running ∧ Takes (openSet 4) ∧ (settle (openSet 4)).cu.queue.length = 4) ∧
    (Takes (stops .running (openSet 0)) ∧ (settle (stops .running (openSet 0))).rc.state = .stopped ∧
      (settle (stops .running (openSet 0))).rc.resume = some .running ∧
      (settle (stops .running (openSet 0))).cu.place = some ⟨set40, 2, false⟩ ∧ Takes (stops .draining (line 100)) ∧
      (settle (stops .draining (line 100))).rc.resume = some .draining) ∧
    (Takes idle ∧ (settle idle).rc.state = .idle ∧ Takes (inState (line 100) .draining none) ∧
      (settle (inState (line 100) .draining none)).rc.state = .draining) := by decide

/-- In RUNNING with room for HOLD and without, in DRAINING, in STOPPED and in IDLE. -/
theorem witness_StopRequestStopsRun :
    Takes (line 100) ∧ (settle (line 100)).rc.state = .running ∧ commandRoom (settle (line 100)) = true ∧ Takes (jammed (line 100)) ∧
      (settle (jammed (line 100))).rc.state = .running ∧ commandRoom (settle (jammed (line 100))) = false ∧
      (settle (inState (line 100) .draining none)).rc.state = .draining ∧
      Takes (inState (line 100) .stopped (some .running)) ∧ (settle (inState (line 100) .stopped (some .running))).rc.state = .stopped ∧
      Takes idle ∧ (settle idle).rc.state = .idle := by decide

/-- Into RUNNING, with a pending HOLD and the condition for GO met and not met, and into DRAINING with a piece in flight and without. -/
theorem witness_ResumeReturnsToResumeState :
    let s := jammed (queued 1 .go (some .holdByRun) (inState free .stopped (some .running)))
    let f := jammed (queued 2 .go (some .holdByRun) (inState free .stopped (some .running)))
    let d := inState (line 100) .stopped (some .draining)
    let e := inState free .stopped (some .draining)
    Takes s ∧ (settle s).rc.state = .stopped ∧ (settle s).rc.resume = some .running ∧ GoMet (settle s) ∧ Takes f ∧
      (settle f).rc.resume = some .running ∧ ¬GoMet (settle f) ∧ (settle f).cu.pendingCutter = some .holdByRun ∧ Takes d ∧
      (settle d).rc.state = .stopped ∧ (settle d).rc.resume = some .draining ∧ 0 < inFlight (settle d) ∧ Takes e ∧
      (settle e).rc.state = .stopped ∧ (settle e).rc.resume = some .draining ∧ inFlight (settle e) = 0 ∧ Takes idle ∧
      (settle idle).rc.state ≠ .stopped := by decide

/-- The range from -L_r to 63, with a piece in it that carries a descriptor, and one past each end; and the accumulator option with a set in
the queue and one in the place. -/
theorem witness_DeclareRemovedTakesOut :
    let s := inState (lineWith 100 { piece with path := .sort 2 7 }) .stopped (some .running)
    let held := withCu s ⟨some ⟨set40, 2, false⟩, [set40], .hold, none⟩
    Takes s ∧ (settle s).rc.state = .stopped ∧ TablesLaw (settle s) ∧ -((settle s).tu.timing.lr : Int) ≤ (254#8).toInt ∧
      (254#8).toInt ≤ ((63#8).toNat : Int) ∧ (63#8).toNat ≤ 63 ∧ (253#8).toInt < -((settle s).tu.timing.lr : Int) ∧
      63 < (64#8).toNat ∧ RemovalOrder (settle s) (fun q => (254#8).toInt ≤ q ∧ q ≤ ((63#8).toNat : Int)) [26] ∧
      (descAt (settle s) 8).isSome = true ∧ Takes held ∧ setsHeld (settle held) = [set40, set40] ∧ Takes (line 100) ∧
      (settle (line 100)).rc.state ≠ .stopped := by
  refine ⟨by decide, by decide, by decide, by decide, by decide, by decide, by decide, by decide, ⟨by decide, fun k => ?_, by decide⟩, by decide,
    by decide, by decide, by decide, by decide⟩
  rw [List.mem_singleton]
  constructor
  · rintro rfl; decide
  · rintro ⟨h, -⟩
    by_contra hk
    have e : (settle (inState (lineWith 100 { piece with path := .sort 2 7 }) .stopped (some .running))).tu.ring =
      [(26, some { piece with path := .sort 2 7 })] := by decide
    unfold pieceAt at h
    rw [e, tget, if_neg (by simpa using fun c => hk c.symm)] at h
    exact absurd h (by simp [tget])

/-- With a piece on the track, with sets in the collation unit and a bin to close, and with both copies pending. -/
theorem witness_AbortRunEndsInIdle :
    let s := inState (line 100) .stopped (some .running)
    let held := setBin (withCu s ⟨some ⟨set40, 2, false⟩, [set40], .hold, none⟩) 2 (binWith usedTray)
    let pends := withSu (withIu s { s.iu with commitPending := true }) { s.su with commitPending := true }
    Takes s ∧ (settle s).rc.state = .stopped ∧ TablesLaw (settle s) ∧ LogLaw (settle s) ∧ (pieceAt (settle s) 26).isSome = true ∧ Takes held ∧
      TablesLaw (settle held) ∧ setsHeld (settle held) = [set40, set40] ∧ closingBins (settle held) = [2] ∧ Takes pends ∧
      TablesLaw (settle pends) ∧ (settle pends).iu.commitPending = true ∧ (settle pends).su.commitPending = true ∧ Takes (line 100) ∧
      (settle (line 100)).rc.state ≠ .stopped := by decide

theorem witness_RestartKeepsLoadedTables :
    Takes (line 100) ∧ TablesLaw (settle (line 100)) ∧ (settle (line 100)).rp.sending ≠ some .forward := by decide

/-- Sources outside the line and of another role, the gate's LANDED of the sorter's place, and stamps of each kind at the gate: outside the
window, one past R57's bound (28) and at it, one past the allowance and at it, with no piece of that pitch. -/
theorem witness_ReportsFromWrongSourcesDropped :
    let u := settle (line 116)
    let at_ := fun (back : Pitch) => resolveStamp u.tu.pitch (stampOf (116 - back))
    (line 100).resetHeld = false ∧ (40 : Addr) ≠ (settle (line 100)).tu.layout.sheetReader ∧ feederOf (settle (line 100)) 40 = none ∧
      (40 : Addr) ≠ (settle (line 100)).tu.layout.gate.addr ∧ (40 : Addr) ≠ (settle (line 100)).tu.layout.sorter.addr ∧
      isRole (settle (line 100)) 40 = false ∧ isRole (settle (line 100)) 31 = true ∧
      (31 : Addr) ≠ (settle (line 100)).tu.layout.verify.addr ∧ (17 : Byte) ≠ 18 ∧ 18 ≤ (18 : Byte).toNat ∧
      (31 : Addr) = u.tu.layout.gate.addr ∧ (31 : Addr) ≠ 63 ∧ resolveStamp u.tu.pitch (stampOf (116 + 2)) = none ∧
      at_ 29 = some 87 ∧ pitchDiff 116 87 = 18 + 2 + 8 + 1 ∧ at_ 28 = some 88 ∧ pitchDiff 116 88 = 18 + 2 + 8 ∧
      at_ 3 = some 113 ∧ at_ 2 = some 114 ∧ pieceAt u (ringSlot (114 - 18)) = none ∧ u.rc.state = .running ∧
      feederOf u 20 = some 0 ∧ (30 : Addr) = u.tu.layout.verify.addr ∧ (32 : Addr) = u.tu.layout.sorter.addr := by decide

/-- No record open, at each headroom and with each claim, and one complete at once; a named record, at each kind of sheet; an anonymous one;
a full queue, and one whose third set brings HOLD; and an opening at a headroom of 9. -/
theorem witness_SheetsAreCollated :
    let placed := fun (x : SetRec) (next held : Nat) (queue : List SetRec) =>
      withCu free ⟨some ⟨{ x with held := held }, next, false⟩, queue, .go, none⟩
    let anonymous : SetRec := ⟨none, none, none, 1, some .noreadSheet, false⟩
    let full := List.replicate 4 set40
    (free.resetHeld = false ∧ (2 : Addr) = (settle free).tu.layout.sheetReader ∧ (settle free).rc.state = .running ∧
      (settle free).cu.place = none ∧ 0 < headroom (settle free) ∧ (settle (leaving 0 free)).cu.place = none ∧
      headroom (settle (leaving 0 free)) = 0 ∧ headroom (settle (leaving 9 free)) = 9 ∧ (settle (leaving 9 free)).cu.place = none) ∧
    (claimSlot (settle free) 40 = some 8 ∧ claimFaults (settle free) 40 2 = [] ∧ claimFaults (settle free) 40 3 = [.sheetCount] ∧
      claimFaults (settle free) 99 2 = [.noDescriptor] ∧ claimSlot (settle (withDs free (store .diverted))) 40 = some 8 ∧
      claimFaults (settle (withDs free (store .inTrack))) 40 2 = [.duplicate]) ∧
    ((settle (placed set40 2 1 [])).cu.place = some ⟨{ set40 with held := 1 }, 2, false⟩ ∧ set40.id = some 40 ∧ set40.count = some 2 ∧
      (settle (placed set40 15 15 [])).cu.place = some ⟨{ set40 with held := 15 }, 15, false⟩ ∧
      (settle (placed set40 2 1 full)).cu.queue.length = 4 ∧ (settle (placed set40 2 1 full)).rc.state = .running ∧
      (settle (placed set40 2 1 [set40, set40])).cu.queue.length = 2 ∧ (settle (placed set40 2 1 [set40, set40])).cu.hold = .go ∧
      headroom (settle (withCl (placed set40 2 1 []) (leaving 1 free).cl)) = 0 ∧ (41 : PieceId) ≠ 40) ∧
    ((settle (placed anonymous 2 1 [])).cu.place = some ⟨anonymous, 2, false⟩ ∧ (settle (placed anonymous 2 1 full)).cu.queue.length = 4) ∧
    (Readable 40 1 1 ∧ Readable 40 1 16 ∧ ¬Readable 40 1 17 ∧ ¬Readable 40 0 2 ∧ ¬Readable 40 3 2 ∧ ¬Readable 16777215 1 2) := by decide

/-- In IDLE; on a place taken, with room for HOLD and without; and in DRAINING with a claim that succeeds and one that does not, and with no
headroom. -/
theorem witness_SheetsOutsideNormalCollation :
    let waits := withCu (line 100) ⟨some ⟨set40, 3, true⟩, List.replicate 4 set40, .hold, none⟩
    let drains := inState (line 100) .draining none
    let ready := inState free .draining none
    let spent := inState (leaving 0 free) .draining none
    ((settle idle).rc.state = .idle ∧ (settle waits).rc.state ≠ .idle ∧ (settle waits).cu.place = some ⟨set40, 3, true⟩ ∧
      commandRoom (settle waits) = true ∧ commandRoom (settle (jammed waits)) = false) ∧
    ((settle drains).rc.state = .draining ∧ (settle drains).cu.place = none ∧ 0 < headroom (settle drains) ∧
      (2 : Addr) = (settle drains).tu.layout.sheetReader ∧ claimSlot (settle drains) 40 = none) ∧
    ((settle ready).rc.state = .draining ∧ (settle ready).cu.place = none ∧ claimSlot (settle ready) 40 = some 8) ∧
    ((settle spent).rc.state = .draining ∧ (settle spent).cu.place = none ∧ headroom (settle spent) = 0) ∧
    (Readable 40 1 2 ∧ ¬Readable 40 3 2) := by decide

/-- Each outcome; with a backup in reach, with room for its CALL and without; at the miss limit; and of a piece no entry of which waits. -/
theorem witness_FeedReportsSettleEntries :
    let settled := { piece with planned := [⟨0, some 0, none, .fed⟩] }
    (line 98).resetHeld = false ∧ feederOf (settle (line 98)) 20 = some 0 ∧
      AppliesTo (settle (line 98)) (placeAt (settle (line 98)) 0).pos 98 98 26 piece ∧
      waitingEntry piece 0 = some ⟨0, some 0, none, .called⟩ ∧ 3 ≤ (3 : Byte).toNat ∧ ¬3 ≤ (2 : Byte).toNat ∧
      AtLimit (settle (tired (line 98))).iu.limit (feederAt (settle (tired (line 98))) 0) ∧
      AppliesTo (settle (backed 98)) (placeAt (settle (backed 98)) 0).pos 98 98 26 backedPiece ∧ feederOf (settle (backed 98)) 20 = some 0 ∧
      waitingEntry backedPiece 0 = some ⟨0, some 0, some 1, .called⟩ ∧
      BackupCalled (settle (backed 98)) backedPiece ⟨0, some 0, some 1, .called⟩ 1 ∧ commandRoom (settle (backed 98)) = true ∧
      commandRoom (settle (jammed (backed 98))) = false ∧ AppliesTo (settle (lineWith 98 settled)) 8 98 98 26 settled ∧
      feederOf (settle (lineWith 98 settled)) 20 = some 0 ∧ (placeAt (settle (lineWith 98 settled)) 0).pos = 8 ∧
      (∀ e ∈ settled.planned, waitsOn e ≠ some 0) := by decide

theorem witness_MaterialReportsMoveFeeders :
    (line 100).resetHeld = false ∧ feederOf (settle (line 100)) 20 = some 0 ∧ TablesLaw (settle (line 100)) ∧ levelOf 2 = some .empty ∧
      3 ≤ (3 : Byte).toNat ∧ (feederAt (settle (line 100)) 0).state = .ready ∧ levelOf 1 = some .low := by decide

/-- A READ at its station of each kind, with a piece elsewhere that carries the ID read; and one as old as the allowance with no piece. -/
theorem witness_VerifyReadsSettlePieces :
    let slip := setPiece (line 102) 20 (some { piece with entry := 84, id := some 41 })
    (line 102).resetHeld = false ∧ (30 : Addr) = (settle (line 102)).tu.layout.verify.addr ∧
      AppliesTo (settle (line 102)) (settle (line 102)).tu.layout.verify.pos 102 102 26 piece ∧ piece.verify = .pending ∧
      piece.id = some 40 ∧ TablesLaw (settle (line 102)) ∧ (41 : PieceId) ≠ 16777215 ∧ piece.id ≠ some 41 ∧
      (∀ p ∈ [{ piece with verify := .failed }, { piece with fault := some .mixed }, { piece with id := none }],
        AppliesTo (settle (lineWith 102 p)) 12 102 102 26 p) ∧
      AppliesTo (settle slip) 12 102 102 26 piece ∧ TablesLaw (settle slip) ∧
      (pieceAt (settle slip) 20).bind Piece.id = some 41 ∧ (∀ i, i < 64 → i ≠ 26 → i ≠ 20 → pieceAt (settle slip) i = none) ∧
      resolveStamp (settle (line 100)).tu.pitch 98 = some 98 ∧ targetPiece (settle (line 100)) (98 - 12) = none ∧
      pitchDiff (settle (line 100)).tu.pitch 98 ≤ (settle (line 100)).tu.timing.allowance ∧ commandRoom (settle (line 100)) = true ∧
      commandRoom (settle (jammed (line 100))) = false ∧ targetPiece (settle (jammed (line 100))) (98 - 12) = none ∧
      (settle (line 100)).rc.state = .running ∧ (settle (inState (line 100) .stopped (some .running))).rc.state = .stopped := by decide

/-- A decision by an element and one by the fallback; a bin that takes the piece, one that takes it alone, one closed and passed (with room
for its TRAY_CHANGE and the BIN, for the one alone, and for neither), bins that are all passed, and no room for the BIN. -/
theorem witness_MatchedReadReservesPlace :
    let fallen := withSu (line 102) ⟨[], [], .reject, 0, false⟩
    let bins := fun (x y : Bin) => withBu (line 102) { (line 102).bu with bins := [(2, x), (16, y)] }
    let solo := bins { binWith tray with limits := some ⟨4, 100, 1⟩ } .off
    let count := bins (binWith { tray with reserved := 4 }) (binWith tray)
    let shut := bins { binWith usedTray with state := .full } { binWith tray with state := .closePending }
    let passed := fun (s : State) => (triedBins 2 (settle s).su.fallback).takeWhile (fun c => !takesPiece 180 (binAt (settle s) c))
    ((line 102).resetHeld = false ∧ (30 : Addr) = (settle (line 102)).tu.layout.verify.addr ∧ (40 : PieceId) ≠ 16777215 ∧
      AppliesTo (settle (line 102)) (settle (line 102)).tu.layout.verify.pos 102 102 26 piece ∧ piece.verify = .pending ∧ piece.fault = none ∧
      piece.id = some 40 ∧ piece.band = some 0 ∧ piece.mass.getD 0 = 180 ∧
      piece.slot.bind (descAt (settle (line 102))) = some { descriptor with state := .inTrack }) ∧
    Decides (settle (line 102)) 412 0 .standard (.bin 2) ∧ Decides (settle fallen) 412 0 .standard .reject ∧
    (passed (line 102) = [] ∧ takesPiece 180 (binAt (settle (line 102)) 2) = true ∧ goesSolo 180 (binAt (settle (line 102)) 2) = false ∧
      commandRoom (settle (line 102)) = true ∧ passed solo = [] ∧ goesSolo 180 (binAt (settle solo) 2) = true ∧
      passed count = [2] ∧ triedBins 2 (settle count).su.fallback = passed count ++ 16 :: [] ∧
      (binAt (settle count) 16).tray = some tray ∧ commandFree (settle (filled 27 count)) = 1 ∧ passed (filled 27 count) = [2] ∧
      commandFree (settle (jammed count)) = 0 ∧ passed (jammed count) = [2] ∧ triedBins 2 (settle shut).su.fallback = passed shut ∧
      commandRoom (settle (jammed (line 102))) = false ∧ takesPiece 180 (binAt (settle (jammed (line 102))) 2) = true) := by
  refine ⟨by decide, ⟨some 0, by decide, ?_, fun m h => absurd h m.not_lt_zero⟩, ⟨none, fun m _ a h => ?_, by decide⟩, by decide⟩
  · have h : tget Element.disabled (settle (line 102)).su.active 0 = .enabled (.range 0 999) 255 .any (.bin 2) := by decide
    rw [h]; exact ⟨⟨by decide, by decide⟩, by decide, trivial, rfl⟩
  · have e : (settle (withSu (line 102) ⟨[], [], .reject, 0, false⟩)).su.active = [] := by decide
    simp only [e] at h; exact h

/-- In the commanded bin, without a fault and with one; late; in another bin; at the gate and in BR, by each kind of path; and the last piece
of a run in DRAINING. -/
theorem witness_LandedPiecesLeaveTrack :
    let on := fun (path : Path) (f : Option PieceFault) => { piece with verify := .matched, path := path, fault := f }
    let current := fun (p : Piece) => setBin (lineWith 114 p) 2 (binWith usedTray)
    let drains := inState (current (on (.sort 2 7) none)) .draining none
    ((2 : Byte).toNat < 17 ∧ (32 : Addr) ≠ 63 ∧ usedTray.seq = 7) ∧
    (∀ p ∈ [on (.sort 2 7) none, on (.sort 2 7) (some .mixed), on (.sort 2 6) none, on (.sort 2 6) (some .mixed), on (.sort 16 7) none,
        on .undecided none],
      (current p).resetHeld = false ∧ TablesLaw (settle (current p)) ∧ (32 : Addr) = (settle (current p)).tu.layout.sorter.addr ∧
        AppliesTo (settle (current p)) (settle (current p)).tu.layout.sorter.pos 114 114 26 p ∧
        (binAt (settle (current p)) 2).state = .opened ∧ (binAt (settle (current p)) 2).tray = some usedTray) ∧
    (∀ p ∈ [on .gate (some .mixed), on .reject (some .mixed), on .undecided none, on (.sort 2 7) none],
      TablesLaw (settle (lineWith 108 p)) ∧ (31 : Addr) = (settle (lineWith 108 p)).tu.layout.gate.addr ∧
        AppliesTo (settle (lineWith 108 p)) (settle (lineWith 108 p)).tu.layout.gate.pos 108 108 26 p ∧
        AppliesTo (settle (lineWith 114 p)) (settle (lineWith 114 p)).tu.layout.sorter.pos 114 114 26 p) ∧
    (TablesLaw (settle drains) ∧ (settle drains).rc.state = .draining ∧ inFlight (settle drains) = 1) := by decide

set_option maxRecDepth 4000 in
/-- A FULL bin with room in the log and without, other bins, and one in DRAINING with nothing in flight. -/
theorem witness_TrayReadyExchangesTray :
    let full := fun (s : State) => setBin s 2 { binWith usedTray with state := .full }
    let s := full (line 100)
    let logged := withBu s { s.bu with log := List.replicate 256 record }
    let drains := full (inState free .draining none)
    s.resetHeld = false ∧ (32 : Addr) = (settle s).tu.layout.sorter.addr ∧
      binAt (settle s) (2 : Byte).toNat = ⟨.full, some ⟨4, 1000, 1⟩, some usedTray, false, none, false⟩ ∧
      (settle s).bu.log.length < 256 ∧ 256 ≤ (settle logged).bu.log.length ∧
      binAt (settle logged) (2 : Byte).toNat = ⟨.full, some ⟨4, 1000, 1⟩, some usedTray, false, none, false⟩ ∧
      (binAt (settle s) (16 : Byte).toNat).state ≠ .full ∧ 17 ≤ (17 : Byte).toNat ∧ (settle drains).rc.state = .draining ∧
      inFlight (settle drains) = 0 ∧ (binAt (settle drains) 2).state = .full := by decide

/-- In RUNNING with room for HOLD and without, in STOPPED and in IDLE. -/
theorem witness_JamReportStopsRun :
    (line 100).resetHeld = false ∧ isRole (settle (line 100)) 32 = true ∧ (settle (line 100)).rc.state = .running ∧
      commandRoom (settle (line 100)) = true ∧ (settle (jammed (line 100))).rc.state = .running ∧
      commandRoom (settle (jammed (line 100))) = false ∧ isRole (settle (jammed (line 100))) 32 = true ∧
      (settle (inState (line 100) .stopped (some .running))).rc.state = .stopped ∧
      isRole (settle idle) 32 = true ∧ (settle idle).rc.state = .idle := by decide

theorem witness_EveryStepKeepsTablesCanonical :
    TablesLaw (withPending (arrived 117) [.sheet 2 40 1 2]) ∧ ∃ t, step (withPending (arrived 117) [.sheet 2 40 1 2]) = .next t := ⟨by decide, _, rfl⟩

theorem witness_EveryStepKeepsCompletionLogLaw :
    LogLaw (withPending (arrived 117) [.sheet 2 40 1 2]) ∧ ∃ t, step (withPending (arrived 117) [.sheet 2 40 1 2]) = .next t := ⟨by decide, _, rfl⟩

theorem witness_EveryStepKeepsQueueBounds :
    QueueLaw (withPending (arrived 117) [.sheet 2 40 1 2]) ∧ ∃ t, step (withPending (arrived 117) [.sheet 2 40 1 2]) = .next t := ⟨by decide, _, rfl⟩

theorem witness_EveryStepKeepsBooks :
    BooksLaw (withPending (arrived 117) [.sheet 2 40 1 2]) ∧ ∃ t, step (withPending (arrived 117) [.sheet 2 40 1 2]) = .next t := ⟨by decide, _, rfl⟩

end Sys2Proof.Tests
end

section
/-! The descriptor store: a lookup through its selected window (R5-R8), RETIRE (R17) and READ DESCRIPTOR (R18). -/

namespace Sys2Proof.Machine

/-! ## A lookup through its selected window (R5-R8) -/

section
variable {s : State} {id : PieceId} {i : Nat}

/-- R5: without a selected window the first stage ends at NO_WINDOW. -/
theorem reach_of_no_window (h : ∀ i, ¬Selected s id i) : reach s id = .noWindow := by
  unfold reach; rw [selectWindow_none h]

/-- R6: a DIRECT selected window reaches the slot at the ID's offset, or SLOT_RANGE past slot 4095. -/
theorem reach_of_direct (h : Selected s id i) (hm : (tget Window.off s.ds.windows i).mode = .direct) :
    let w := tget Window.off s.ds.windows i
    let n := w.start + (id.toNat - w.base.toNat)
    reach s id = if n < 4096 then .slot i none n else .slotRange i := by
  unfold reach; rw [selectWindow_some h]; simp only [hm]; rfl

/-- R7: a MAPPED selected window reaches the slot of the valid map entry at the ID's offset, MAP_INVALID at an invalid one, or MAP_RANGE
past entry 8191. -/
theorem reach_of_mapped (h : Selected s id i) (hm : (tget Window.off s.ds.windows i).mode = .mapped) :
    let w := tget Window.off s.ds.windows i
    let n := w.start + (id.toNat - w.base.toNat)
    let e := tget MapEntry.off s.ds.map n
    reach s id = if n < 8192 then (if e.valid then .slot i (some n) e.slot else .mapInvalid i n) else .mapRange i := by
  unfold reach; rw [selectWindow_some h]; simp only [hm]; rfl

/-- A lookup is the slot check on what its first stage reaches. -/
theorem lookup_of_reach {r : Reach} (h : reach s id = r) : lookup s id = slotCheck s id r := by rw [lookup, h]

/-- R8: what a lookup makes of the slot it reaches. -/
theorem lookup_of_reach_slot {index : Option Nat} {n : Nat} (h : reach s id = .slot i index n) :
    (descAt s n = none → lookup s id = .slotFree) ∧
      ∀ d, descAt s n = some d → lookup s id = if d.id = id then .found n d else .otherId := by
  rw [lookup_of_reach h]
  exact ⟨fun hd => by simp only [slotCheck, hd], fun d hd => by simp only [slotCheck, hd]⟩

end

/-- Settles O25: the first stage by the mode of the selected window and the two range bounds, then the slot check. -/
theorem lookupFollowsSelectedWindow : Obligations.LookupFollowsSelectedWindow := by
  intro s id
  refine ⟨fun h => ?_, fun i h => ?_⟩
  · have hr := reach_of_no_window h
    exact ⟨hr, lookup_of_reach hr⟩
  · refine ⟨fun hm hn => ?slotRange, fun hm hn => ?direct, fun hm hn => ?mapRange, fun hm hn hv => ?mapInvalid, fun hm hn hv => ?mapped⟩
    case slotRange =>
      have hr := (reach_of_direct h hm).trans (if_neg (Nat.not_lt.mpr hn))
      exact ⟨hr, lookup_of_reach hr⟩
    case direct =>
      have hr := (reach_of_direct h hm).trans (if_pos hn)
      exact ⟨hr, lookup_of_reach_slot hr⟩
    case mapRange =>
      have hr := (reach_of_mapped h hm).trans (if_neg (Nat.not_lt.mpr hn))
      exact ⟨hr, lookup_of_reach hr⟩
    case mapInvalid =>
      have hr := ((reach_of_mapped h hm).trans (if_pos hn)).trans (if_neg (by rw [hv]; exact Bool.false_ne_true))
      exact ⟨hr, lookup_of_reach hr⟩
    case mapped =>
      have hr := ((reach_of_mapped h hm).trans (if_pos hn)).trans (if_pos hv)
      exact ⟨hr, lookup_of_reach_slot hr⟩

/-! ## Requests whose effect leaves the reserved buffer as it is -/

@[simp] theorem reserveBuffer_ds (src : Addr) (tag : Tag) (s : State) : (reserveBuffer src tag s).ds = s.ds := rfl

theorem withDs_reserveBuffer (src : Addr) (tag : Tag) (s : State) (x : Ds) :
    withDs (reserveBuffer src tag s) x = reserveBuffer src tag (withDs s x) := rfl

/-- A request taken by a live part whose effect does not touch the reserved response buffer is answered in the state w that the effect
makes of the settled state (R185). -/
theorem manage_answered {src : Addr} {tag : Tag} {code : Nat} {act : State → State × Reply} {s w : State} {r : Reply} (h : Takes s)
    (ha : act (reserveBuffer src tag (settle s)) = (reserveBuffer src tag w, r)) :
    ∃ t, manage src tag code act s = .next t ∧ Answered src tag (BitVec.ofNat 8 code) r w t := by
  refine ⟨_, manage_eq h rfl, ?_⟩
  rw [ha, respond_reserveBuffer]
  exact respond_answered src tag _ r w

/-! ## RETIRE (R17) -/

/-- A place of a canonical store reads as before when the filter keeps its entry, and the default otherwise. -/
theorem tget_filter {α : Type} [DecidableEq α] {z : α} {t : Table α} (hc : Table.canonical z t) (p : Nat × α → Bool) (i : Nat) :
    tget z (t.filter p) i = if p (i, tget z t i) then tget z t i else z := by
  by_cases hi : (i, tget z t i) ∈ t.filter p
  · rw [tget_of_mem (Table.canonical_filter hc p) hi, if_pos (List.mem_filter.mp hi).2]
  · by_cases hz : tget z (t.filter p) i = z
    · rw [hz]
      split
      · rename_i hp
        by_contra hne
        exact hi (List.mem_filter.mpr ⟨mem_of_tget (Ne.symm hne), hp⟩)
      · rfl
    · have hmem := mem_of_tget hz
      have hval : tget z t i = tget z (t.filter p) i := tget_of_mem hc (List.mem_filter.mp hmem).1
      exact absurd (hval ▸ hmem) hi

/-- What RETIRE of a range leaves in a slot: none where it was LOADED or DIVERTED and in the range, and what stood there elsewhere. -/
theorem tget_retireRange {t : Table (Option Descriptor)} (hc : Table.canonical none t) (first last n : Nat) :
    tget none (retireRange first last t) n =
      if first ≤ n ∧ n ≤ last ∧ retirable (tget none t n) = true then none else tget none t n := by
  rw [retireRange, tget_filter hc]
  by_cases h : first ≤ n ∧ n ≤ last ∧ retirable (tget none t n) = true
  · obtain ⟨h1, h2, h3⟩ := h
    simp [h1, h2, h3]
  · rw [if_neg h, if_pos]
    simpa [-not_and, not_and_or, or_assoc] using h

theorem retirable_some (d : Descriptor) : retirable (some d) = true ↔ d.state = .loaded ∨ d.state = .diverted := by
  simp [retirable]

/-- RETIRE refuses a range that is none of R17's, and changes nothing. -/
theorem actRetire_refused {first last : BitVec 16} (h : last.toNat < first.toNat ∨ 4095 < last.toNat) (s : State) :
    actRetire first last s = (s, ⟨.badArgument, 0, 0, []⟩) :=
  if_neg fun ⟨(h1 : last.toNat < 4096), h2⟩ => by omega

/-- RETIRE of a valid range changes the slots alone and counts those it freed. -/
theorem actRetire_taken {first last : BitVec 16} (h1 : first.toNat ≤ last.toNat) (h2 : last.toNat ≤ 4095) (s : State) :
    actRetire first last s = (withDs s ⟨retireRange first.toNat last.toNat s.ds.slots, s.ds.windows, s.ds.map⟩,
      ⟨.done, s.ds.slots.length - (retireRange first.toNat last.toNat s.ds.slots).length, 0, []⟩) :=
  if_pos ⟨Nat.lt_succ_of_le h2, h1⟩

theorem exec_retire (src : Addr) (tag : Tag) (first last : BitVec 16) (s : State) :
    exec (.retire src tag first last) s = manage src tag 4 (actRetire first last) s := rfl

/-- Settles O27: by the range's validity, and in a valid range by what `tget_retireRange` leaves in each slot. -/
theorem retireFreesRange : Obligations.RetireFreesRange := by
  intro src tag first last s hs
  rw [exec_retire]
  by_cases hv : first.toNat ≤ last.toNat ∧ last.toNat ≤ 4095
  · obtain ⟨h1, h2⟩ := hv
    have hact := actRetire_taken h1 h2 (reserveBuffer src tag (settle s))
    rw [withDs_reserveBuffer, reserveBuffer_ds] at hact
    obtain ⟨t, ht, ha⟩ := manage_answered (code := 4) hs hact
    obtain ⟨⟨-, -, -, hds, -⟩, -⟩ := ha.keeps
    have hslots : t.ds.slots = retireRange first.toNat last.toNat (settle s).ds.slots := by rw [hds, withDs_ds]
    refine ⟨t, ht, fun hbad => by omega, fun _ _ hlaw => ?_⟩
    have hat : ∀ n, descAt t n = if first.toNat ≤ n ∧ n ≤ last.toNat ∧ retirable (descAt (settle s) n) = true then none
        else descAt (settle s) n := fun n => by
      rw [descAt, hslots]; exact tget_retireRange hlaw.1 _ _ n
    refine ⟨fun n hlo hhi hd => ?freed, fun n hn => ?free, fun n d hn hout => ?kept, ?answer⟩
    case freed =>
      rw [hat]
      cases hn : descAt (settle s) n with
      | none => exact ite_self _
      | some d => exact if_pos ⟨hlo, hhi, (retirable_some d).mpr (hd d hn)⟩
    case free => rw [hat, hn, ite_self]
    case kept =>
      have hnot : ¬(first.toNat ≤ n ∧ n ≤ last.toNat ∧ retirable (some d) = true) := by
        rw [retirable_some]
        rintro ⟨hlo, hhi, hst⟩
        rcases hout with h | h | h | h
        · omega
        · omega
        · rw [h] at hst; simp at hst
        · rw [h] at hst; simp at hst
      rw [hat, hn, if_neg hnot]
    case answer => rw [hslots]; exact ha
  · have hbad : last.toNat < first.toNat ∨ 4095 < last.toNat := by omega
    obtain ⟨t, ht, ha⟩ := manage_answered (code := 4) hs (actRetire_refused hbad (reserveBuffer src tag (settle s)))
    exact ⟨t, ht, fun _ => ha, fun h1 h2 => absurd ⟨h1, h2⟩ hv⟩

/-! ## READ DESCRIPTOR (R18) -/

/-- READ DESCRIPTOR refuses a slot above 4095. -/
theorem actReadDescriptor_refused {slot : BitVec 16} (h : 4095 < slot.toNat) (s : State) :
    actReadDescriptor slot s = (s, ⟨.badArgument, 0, 0, []⟩) :=
  if_neg (Nat.not_lt.mpr h)

/-- READ DESCRIPTOR of a slot answers what the slot holds. -/
theorem actReadDescriptor_taken {slot : BitVec 16} (h : slot.toNat ≤ 4095) (s : State) :
    actReadDescriptor slot s = (s, ⟨.done, 0, 0, descriptorBytes (descAt s slot.toNat)⟩) :=
  if_pos (Nat.lt_succ_of_le h)

theorem exec_readDescriptor (src : Addr) (tag : Tag) (slot : BitVec 16) (s : State) :
    exec (.readDescriptor src tag slot) s = manage src tag 5 (actReadDescriptor slot) s := rfl

/-- Settles O33: by the slot number's validity, and at a valid one by what the slot holds. -/
theorem readDescriptorAnswersSlot : Obligations.ReadDescriptorAnswersSlot := by
  intro src tag slot s hs
  rw [exec_readDescriptor]
  by_cases hv : slot.toNat ≤ 4095
  · have hact := actReadDescriptor_taken hv (reserveBuffer src tag (settle s))
    rw [descAt_congr (reserveBuffer_ds src tag (settle s))] at hact
    obtain ⟨t, ht, ha⟩ := manage_answered (code := 5) hs hact
    refine ⟨t, ht, fun h => by omega, fun _ hd => ?_, fun d _ hd => ?_⟩
    · rw [hd] at ha; exact ha
    · rw [hd] at ha; exact ha
  · obtain ⟨t, ht, ha⟩ := manage_answered (code := 5) hs (actReadDescriptor_refused (Nat.not_le.mp hv) (reserveBuffer src tag (settle s)))
    exact ⟨t, ht, fun _ => ha, fun h => absurd h hv, fun _ h => absurd h hv⟩

end Sys2Proof.Machine
end

section
/-! The attention summary: CLEAR SUMMARY (R174). -/

namespace Sys2Proof.Machine

/-- The bytes of a summary are the field of its flags (R188). -/
theorem summaryBytes_eq (x : BitVec 18) : summaryBytes x = bitField 3 (fun i => x.getLsbD i) :=
  ((bitField_toNat 3 x (by decide)).trans (field_three _)).symm

/-- A pending ALERT is still pending after an answer, or stands last in the originate queue with the summary as it is then (R175). -/
theorem Answered.alert_pending_or_last {src : Addr} {tag : Tag} {code : Byte} {r : Reply} {u t : State} (h : Answered src tag code r u t)
    (hu : u.cl.alertPending = true) :
    t.cl.alertPending = true ∨
      ∃ before, t.rp.originate = before ++ [⟨t.tu.layout.lineComputer, .alert, stampNow t, be3 t.cl.summary.toNat⟩] := by
  rw [h]
  rcases alertOffered_cases (responseQueued src tag code r u) with e | e <;> rw [e]
  · exact .inl hu
  · exact .inr ⟨_, by rw [field_three]; rfl⟩

/-! ## The flags cleared -/

@[simp] theorem reserveBuffer_cl (src : Addr) (tag : Tag) (s : State) : (reserveBuffer src tag s).cl = s.cl := rfl

@[simp] theorem clearFlags_summary (named : BitVec 18) (s : State) : (clearFlags named s).cl.summary = s.cl.summary &&& ~~~named := by
  simp only [clearFlags]; split <;> rfl

/-- The summary, the capture and the pending ALERT after a clearing, by the flags left; nothing else changes (R174). -/
theorem clearFlags_eq (named : BitVec 18) (s : State) :
    clearFlags named s = withCl s { s.cl with
      summary := s.cl.summary &&& ~~~named
      capture := if s.cl.summary &&& ~~~named = 0#18 then none else s.cl.capture
      alertPending := decide (s.cl.summary &&& ~~~named ≠ 0#18) } := by
  by_cases h : s.cl.summary &&& ~~~named = 0#18 <;> simp [clearFlags, h]

/-- A clearing that leaves the summary empty leaves neither a capture nor a pending ALERT (R174). -/
theorem clearFlags_of_empty {named : BitVec 18} {s : State} (h : s.cl.summary &&& ~~~named = 0#18) :
    (clearFlags named s).cl.capture = none ∧ (clearFlags named s).cl.alertPending = false := by
  simp only [clearFlags, if_pos h]; exact ⟨rfl, rfl⟩

/-- A clearing that leaves a flag keeps the capture and makes an ALERT pending (R174). -/
theorem clearFlags_of_left {named : BitVec 18} {s : State} (h : s.cl.summary &&& ~~~named ≠ 0#18) :
    (clearFlags named s).cl.capture = s.cl.capture ∧ (clearFlags named s).cl.alertPending = true := by
  simp only [clearFlags, if_neg h]; exact ⟨rfl, rfl⟩

theorem clearFlags_reserveBuffer (named : BitVec 18) (s : State) (src : Addr) (tag : Tag) :
    clearFlags named (reserveBuffer src tag s) = reserveBuffer src tag (clearFlags named s) := by
  rw [clearFlags_eq, clearFlags_eq]; rfl

/-! ## The request -/

/-- CLEAR SUMMARY refuses a flag outside the eighteen. -/
theorem actClearSummary_refused {flags : BitVec 24} (h : 262144 ≤ flags.toNat) (s : State) :
    actClearSummary flags s = (s, ⟨.badArgument, 0, 0, []⟩) :=
  if_neg (Nat.not_lt.mpr h)

/-- CLEAR SUMMARY of flags among the eighteen clears them and answers the summary left. -/
theorem actClearSummary_taken {flags : BitVec 24} (h : flags.toNat < 262144) (s : State) :
    actClearSummary flags s = (clearFlags (flags.setWidth 18) s,
      ⟨.done, 0, 0, bitField 3 (fun i => (s.cl.summary &&& ~~~(flags.setWidth 18)).getLsbD i)⟩) := by
  rw [actClearSummary, if_pos h, doneWith, summaryBytes_eq, clearFlags_summary]

theorem exec_clearSummary (src : Addr) (tag : Tag) (flags : BitVec 24) (s : State) :
    exec (.clearSummary src tag flags) s = manage src tag 41 (actClearSummary flags) s := rfl

/-- Settles O37: by the range of the flags, and in range by whether the clearing leaves the summary empty. -/
theorem clearSummaryClearsNamedFlags : Obligations.ClearSummaryClearsNamedFlags := by
  intro src tag flags s hs
  rw [exec_clearSummary]
  by_cases hv : flags.toNat < 262144
  · have hact := actClearSummary_taken hv (reserveBuffer src tag (settle s))
    rw [clearFlags_reserveBuffer, reserveBuffer_cl] at hact
    obtain ⟨t, ht, ha⟩ := manage_answered (code := 41) hs hact
    obtain ⟨-, -, -, -, hsum, hcap, hpend⟩ := ha.keeps
    rw [clearFlags_summary] at hsum
    refine ⟨t, ht, fun h => absurd hv (Nat.not_lt.mpr h), fun _ => ⟨hsum, fun h0 => ?empty, fun h0 => ?left, ?answer⟩⟩
    case empty =>
      obtain ⟨hnone, hoff⟩ := clearFlags_of_empty (hsum ▸ h0)
      exact ⟨hcap.trans hnone, Bool.eq_false_iff.mpr fun hp => Bool.eq_false_iff.mp hoff (hpend hp)⟩
    case left =>
      obtain ⟨hkept, hon⟩ := clearFlags_of_left (hsum ▸ h0)
      exact ⟨hcap.trans hkept, ha.alert_pending_or_last hon⟩
    case answer =>
      rw [clearFlags_eq] at ha
      exact ha
  · have hbad : 262144 ≤ flags.toNat := Nat.not_lt.mp hv
    obtain ⟨t, ht, ha⟩ := manage_answered (code := 41) hs (actClearSummary_refused hbad (reserveBuffer src tag (settle s)))
    exact ⟨t, ht, fun _ => ha, fun h => absurd h hv⟩

end Sys2Proof.Machine
end

section
/-! The four laws of the device, and the primitive updates that keep them: what one act may do to a store, a queue, the books and the
pieces in flight. -/

namespace Sys2Proof.Machine

/-! ## The laws and the pieces between two places -/

/-- The sets and records held in the collation unit. -/
def collated (s : State) : Nat := s.cu.place.toList.length + s.cu.queue.length

theorem inFlight_eq (s : State) : inFlight s = collated s + s.tu.ring.length := rfl

/-- The completion-log law while n pieces have left one place and not yet come to the next, or to their completion entry. -/
def FlightLaw (n : Int) (s : State) : Prop :=
  Table.canonical none s.tu.ring ∧ (∀ e ∈ s.tu.ring, ∀ p ∈ e.2, e.1 = ringSlot p.entry) ∧
    (s.cl.log.length : Int) + inFlight s + n ≤ 1024 ∧
    s.cl.counters.opened = BitVec.ofInt 32 (inFlight s + n) + s.cl.counters.exited ∧
    (s.rc.state = .idle → inFlight s = 0)

theorem logLaw_iff (s : State) : LogLaw s ↔ FlightLaw 0 s := by
  simp only [LogLaw, FlightLaw, Config.completionLog, Int.add_zero, BitVec.ofInt_natCast]
  exact ⟨fun ⟨a, b, c, d, e⟩ => ⟨a, b, by exact_mod_cast c, d, e⟩, fun ⟨a, b, c, d, e⟩ => ⟨a, b, by exact_mod_cast c, d, e⟩⟩

/-- The laws carry over from s to t, while d pieces more go out of their places. -/
structure Shifts (d : Int) (s t : State) : Prop where
  tables : TablesLaw s → TablesLaw t
  queues : QueueLaw s → QueueLaw t
  books : BooksLaw s → BooksLaw t
  flight : ∀ n, FlightLaw n s → FlightLaw (n + d) t

/-- The four laws carry over from s to t. -/
structure LawsKept (s t : State) : Prop where
  tables : TablesLaw s → TablesLaw t
  log : LogLaw s → LogLaw t
  queues : QueueLaw s → QueueLaw t
  books : BooksLaw s → BooksLaw t

section
variable {d e : Int} {s t u : State}

theorem Shifts.refl (s : State) : Shifts 0 s s := ⟨id, id, id, fun n h => by rwa [Int.add_zero]⟩

theorem Shifts.add (h : Shifts d s t) (h' : Shifts e t u) : Shifts (d + e) s u :=
  ⟨h'.tables ∘ h.tables, h'.queues ∘ h.queues, h'.books ∘ h.books, fun n hn => Int.add_assoc n d e ▸ h'.flight _ (h.flight n hn)⟩

theorem Shifts.trans (h : Shifts 0 s t) (h' : Shifts d t u) : Shifts d s u := Int.zero_add d ▸ h.add h'

theorem Shifts.kept (h : Shifts 0 s t) : LawsKept s t :=
  ⟨h.tables, fun hl => (logLaw_iff t).mpr (h.flight 0 ((logLaw_iff s).mp hl)), h.queues, h.books⟩

theorem LawsKept.refl (s : State) : LawsKept s s := (Shifts.refl s).kept

theorem LawsKept.trans (h : LawsKept s t) (h' : LawsKept t u) : LawsKept s u :=
  ⟨h'.tables ∘ h.tables, h'.log ∘ h.log, h'.queues ∘ h.queues, h'.books ∘ h.books⟩

theorem Shifts.ite {c : Prop} [Decidable c] (h : c → Shifts d s t) (h' : ¬c → Shifts d s u) : Shifts d s (if c then t else u) := by
  split
  · exact h ‹_›
  · exact h' ‹_›

theorem LawsKept.ite {c : Prop} [Decidable c] (h : c → LawsKept s t) (h' : ¬c → LawsKept s u) : LawsKept s (if c then t else u) := by
  split
  · exact h ‹_›
  · exact h' ‹_›

end

/-! ## What the laws read -/

/-- The numbered stores. -/
def storesOf (s : State) :=
  (s.ds, s.tu.layout.feeders, s.iu.selection, s.iu.inserts, s.iu.feeders, s.iu.staged, s.iu.active, s.pp.classes, s.su.active,
    s.su.staged, s.bu.bins)

/-- What the completion log's law reads besides the ring. -/
def flightOf (s : State) := (collated s, s.cl.log.length, s.cl.counters.opened, s.cl.counters.exited, s.rc.state)

/-- The queues of the ring port. -/
def portOf (s : State) := (s.rp.originate, s.rp.forward)

/-- What the law of the books reads. -/
def booksOf (s : State) :=
  (s.cl.counters.exited, s.cl.counters.sorted, s.cl.counters.diverted, s.rc.resume, s.rc.state, s.cl.capture, s.cl.summary,
    s.cl.alertPending)

section
variable {s t : State}

theorem tablesLaw_congr (h : storesOf t = storesOf s) (hr : t.tu.ring = s.tu.ring) (hs : TablesLaw s) : TablesLaw t := by
  simp only [storesOf, Prod.mk.injEq] at h
  obtain ⟨h1, h2, h3, h4, h5, h6, h7, h8, h9, h10, h11⟩ := h
  unfold TablesLaw; rw [h1, h2, h3, h4, h5, h6, h7, h8, h9, h10, h11, hr]; exact hs

theorem queueLaw_congr (h : portOf t = portOf s) (hs : QueueLaw s) : QueueLaw t := by
  simp only [portOf, Prod.mk.injEq] at h
  obtain ⟨h1, h2⟩ := h
  unfold QueueLaw commandCount managementCount; rw [h1, h2]; exact hs

theorem booksLaw_congr (h : booksOf t = booksOf s) (hs : BooksLaw s) : BooksLaw t := by
  simp only [booksOf, Prod.mk.injEq] at h
  obtain ⟨h1, h2, h3, h4, h5, h6, h7, h8⟩ := h
  unfold BooksLaw; rw [h1, h2, h3, h4, h5, h6, h7, h8]; exact hs

theorem flightLaw_congr {n : Int} (h : flightOf t = flightOf s) (hr : t.tu.ring = s.tu.ring) (hs : FlightLaw n s) : FlightLaw n t := by
  simp only [flightOf, Prod.mk.injEq] at h
  obtain ⟨h1, h2, h3, h4, h5⟩ := h
  unfold FlightLaw at hs ⊢; rw [inFlight_eq, h1, h2, h3, h4, h5, hr, ← inFlight_eq]; exact hs

/-- An update of what no law reads. -/
theorem Shifts.aside (hs : storesOf t = storesOf s) (hr : t.tu.ring = s.tu.ring) (hf : flightOf t = flightOf s)
    (hq : portOf t = portOf s) (hb : booksOf t = booksOf s) : Shifts 0 s t :=
  ⟨tablesLaw_congr hs hr, queueLaw_congr hq, booksLaw_congr hb, fun n h => by rw [Int.add_zero]; exact flightLaw_congr hf hr h⟩

/-- An update of a store other than the ring. -/
theorem Shifts.store (hs : TablesLaw s → TablesLaw t) (hr : t.tu.ring = s.tu.ring) (hf : flightOf t = flightOf s)
    (hq : portOf t = portOf s) (hb : booksOf t = booksOf s) : Shifts 0 s t :=
  ⟨hs, queueLaw_congr hq, booksLaw_congr hb, fun n h => by rw [Int.add_zero]; exact flightLaw_congr hf hr h⟩

end

/-! ## One place of a store written -/

section
variable {d : Int} {s t : State}

theorem shifts_setDesc (n : Nat) (x : Option Descriptor) (s : State) : Shifts 0 s (setDesc s n x) :=
  .store (fun ⟨h, hs⟩ => ⟨Table.canonical_tput h n x, hs⟩) rfl rfl rfl rfl

theorem shifts_setFeeder (f : Nat) (x : Feeder) (s : State) : Shifts 0 s (setFeeder s f x) :=
  .store (fun ⟨h1, h2, h3, h4, h5, h6, h7, h8, hs⟩ => ⟨h1, h2, h3, h4, h5, h6, h7, Table.canonical_tput h8 f x, hs⟩) rfl rfl rfl rfl

theorem shifts_setBin (b : Nat) (x : Bin) (s : State) : Shifts 0 s (setBin s b x) :=
  .store (fun ⟨h1, h2, h3, h4, h5, h6, h7, h8, h9, h10, h11, h12, h13, h14⟩ =>
    ⟨h1, h2, h3, h4, h5, h6, h7, h8, h9, h10, h11, h12, h13, Table.canonical_tput h14 b x⟩) rfl rfl rfl rfl

theorem tablesLaw_setPiece (k : Nat) (x : Option Piece) (h : TablesLaw s) : TablesLaw (setPiece s k x) := by
  obtain ⟨h1, h2, h3, h4, h5, hs⟩ := h
  exact ⟨h1, h2, h3, h4, Table.canonical_tput h5 k x, hs⟩

/-- The pieces in flight after one slot of the ring is written. -/
theorem inFlight_setPiece {k : Nat} {x : Option Piece} :
    inFlight (setPiece s k x) = collated s + (tput none s.tu.ring k x).length := rfl

/-- A slot of the ring written: its piece, if any, stands in the slot of its entry pitch, and the count of pieces changes by as many as the
slot gains. -/
theorem shifts_setPiece {k : Nat} {x : Option Piece} (hd : Table.canonical none s.tu.ring → ((tput none s.tu.ring k x).length : Int) + d = s.tu.ring.length)
    (hk : ∀ n, FlightLaw n s → ∀ p ∈ x, k = ringSlot p.entry) (hi : 0 ≤ d ∨ s.rc.state ≠ .idle) : Shifts d s (setPiece s k x) := by
  refine ⟨tablesLaw_setPiece k x, queueLaw_congr rfl, booksLaw_congr rfl, fun n h => ?_⟩
  have hk' := hk n h
  obtain ⟨hc, hslot, hlog, hopen, hidle⟩ := h
  have hlen : (inFlight (setPiece s k x) : Int) + (n + d) = inFlight s + n := by
    rw [inFlight_setPiece, inFlight_eq]; have := hd hc; push_cast; omega
  refine ⟨Table.canonical_tput hc k x, fun e he p hp => ?_, ?_, ?_, fun h => ?_⟩
  · rcases mem_tput he with he | ⟨rfl, -⟩
    · exact hslot e he p hp
    · exact hk' p hp
  · have := hlog; show (s.cl.log.length : Int) + _ + _ ≤ _; omega
  · rw [hlen]; exact hopen
  · have := hidle h
    exact hi.elim (fun hi => by omega) (absurd h)

theorem tget_slot {k : Nat} {p : Piece} (h : pieceAt s k = some p) : (k, some p) ∈ s.tu.ring :=
  h ▸ mem_of_tget (z := (none : Option Piece)) (i := k) (t := s.tu.ring) (by rw [show tget none s.tu.ring k = some p from h]; simp)

/-- A piece on the track stands in the slot of its entry pitch. -/
theorem FlightLaw.slot {n : Int} {k : Nat} {p : Piece} (h : FlightLaw n s) (hp : pieceAt s k = some p) : k = ringSlot p.entry :=
  h.2.1 _ (tget_slot hp) p rfl

/-- A piece on the track changed, its entry pitch kept. -/
theorem shifts_setPiece_same {k : Nat} {p q : Piece} (h : pieceAt s k = some p) (he : q.entry = p.entry) :
    Shifts 0 s (setPiece s k (some q)) :=
  shifts_setPiece
    (fun hc => by rw [length_tput_fill hc (by simp), if_neg (by rw [show tget none s.tu.ring k = some p from h]; simp)]; rfl)
    (fun n hn x hx => by cases hx; rw [he]; exact hn.slot h) (.inl le_rfl)

/-- A piece taken from the track. -/
theorem shifts_setPiece_none {k : Nat} {p : Piece} (h : pieceAt s k = some p) : Shifts 1 s (setPiece s k none) :=
  shifts_setPiece
    (fun hc => by
      have := length_tput_clear hc (i := k) (by rw [show tget none s.tu.ring k = some p from h]; simp)
      exact_mod_cast this)
    (fun _ _ _ hx => nomatch hx) (.inl (by decide))

/-- A piece placed in the free slot of its entry pitch. -/
theorem shifts_setPiece_new {k : Nat} {q : Piece} (h : Table.canonical none s.tu.ring → pieceAt s k = none) (hk : k = ringSlot q.entry)
    (hi : s.rc.state ≠ .idle) : Shifts (-1) s (setPiece s k (some q)) :=
  shifts_setPiece
    (fun hc => by rw [length_tput_fill hc (by simp), if_pos (show tget none s.tu.ring k = none from h hc)]; push_cast; omega)
    (fun _ _ x hx => by cases hx; exact hk) (.inr hi)

end

/-! ## Frames queued, causes taken, and pieces between their places -/

section
variable {s : State}

theorem countP_enqueue (p : Frame → Bool) (f : Frame) (s : State) :
    (enqueue s f).rp.originate.countP p = s.rp.originate.countP p + (if p f then 1 else 0) := by
  simp [List.countP_cons]

/-- A command queued in a free entry. -/
theorem shifts_enqueue_command {f : Frame} (h : isManagement f = false) (hr : commandRoom s = true) : Shifts 0 s (enqueue s f) := by
  have hroom : commandCount s < 28 := of_decide_eq_true hr
  refine ⟨tablesLaw_congr rfl rfl, fun ⟨_, h2, h3⟩ => ⟨?_, ?_, h3⟩, booksLaw_congr rfl, fun n hn => ?_⟩
  · rw [commandCount, countP_enqueue, h]; exact hroom
  · rw [managementCount, countP_enqueue, h]; exact h2
  · rw [Int.add_zero]; exact flightLaw_congr rfl rfl hn

/-- A response segment or an ALERT queued in a free entry. -/
theorem shifts_enqueue_management {f : Frame} (h : isManagement f = true) (hr : managementRoom s = true) : Shifts 0 s (enqueue s f) := by
  have hroom : managementCount s < 4 := of_decide_eq_true hr
  refine ⟨tablesLaw_congr rfl rfl, fun ⟨h1, _, h3⟩ => ⟨?_, ?_, h3⟩, booksLaw_congr rfl, fun n hn => ?_⟩
  · rw [commandCount, countP_enqueue, h]; exact h1
  · rw [managementCount, countP_enqueue, h]; exact hroom
  · rw [Int.add_zero]; exact flightLaw_congr rfl rfl hn

theorem shifts_sendCommand {f : Frame} {t : State} (h : isManagement f = false) (ht : sendCommand s f = some t) : Shifts 0 s t := by
  unfold sendCommand at ht
  split at ht
  · cases ht; exact shifts_enqueue_command h ‹_›
  · cases ht

/-- The summary, the capture and the pending ALERT changed, the books left in order. -/
theorem shifts_summary {x : BitVec 18} {c : Option Capture} {a : Bool}
    (h : BooksLaw s → (c.isSome = true ↔ x ≠ 0#18) ∧ (a = true → x ≠ 0#18)) :
    Shifts 0 s (withCl s { s.cl with summary := x, capture := c, alertPending := a }) := by
  refine ⟨tablesLaw_congr rfl rfl, queueLaw_congr rfl, fun hb => ?_, fun n hn => ?_⟩
  · obtain ⟨h1, h2, h3, -⟩ := id hb; exact ⟨h1, h2, h3, h hb⟩
  · rw [Int.add_zero]; exact flightLaw_congr rfl rfl hn

theorem placeAlert_shifts (s : State) : Shifts 0 s (placeAlert s) := by
  unfold placeAlert
  refine .ite (fun h => ?_) (fun _ => .refl s)
  obtain ⟨-, hroom, -⟩ := (alertPlaceable_iff s).mp h
  exact (shifts_summary (s := s) (x := s.cl.summary) (c := s.cl.capture) (a := false)
    (fun ⟨_, _, _, h4, _⟩ => ⟨h4, fun h => nomatch h⟩)).trans (shifts_enqueue_management rfl hroom)

theorem flagMask_ne_zero (f : Flag) : flagMask f ≠ 0#18 := by cases f <;> decide

theorem or_flagMask_ne_zero (x : BitVec 18) (f : Flag) : x ||| flagMask f ≠ 0#18 := fun h =>
  flagMask_ne_zero f (BitVec.or_eq_zero_iff.mp h).2

theorem raise_shifts (f : Flag) (a : Option Addr) (p : Option Pitch) (i : Option PieceId) (s : State) : Shifts 0 s (raise f a p i s) := by
  unfold raise
  refine .ite (fun _ => ?_) (fun hne => ?_)
  · exact (shifts_summary (s := s) fun _ => ⟨iff_of_true rfl (flagMask_ne_zero f), fun _ => flagMask_ne_zero f⟩).trans (placeAlert_shifts _)
  · exact shifts_summary (s := s) (c := s.cl.capture) (a := s.cl.alertPending) fun ⟨_, _, _, h4, _⟩ =>
      ⟨iff_of_true (h4.mpr hne) (or_flagMask_ne_zero _ f), fun _ => or_flagMask_ne_zero _ f⟩

/-- The collation unit changed: as many sets go out of it as it holds fewer. -/
theorem shifts_withCu (d : Int) (x : Cu) (h : (x.place.toList.length + x.queue.length : Int) + d = collated s)
    (hi : 0 ≤ d) : Shifts d s (withCu s x) := by
  refine ⟨tablesLaw_congr rfl rfl, queueLaw_congr rfl, booksLaw_congr rfl, fun n hn => ?_⟩
  obtain ⟨hc, hslot, hlog, hopen, hidle⟩ := hn
  have hlen : (inFlight (withCu s x) : Int) + (n + d) = inFlight s + n := by
    simp only [inFlight_eq, collated, withCu_cu, withCu_tu] at h ⊢; push_cast at h ⊢; omega
  refine ⟨hc, hslot, ?_, ?_, fun h => ?_⟩
  · rw [withCu_cl]; omega
  · rw [hlen]; exact hopen
  · have := hidle h; omega

/-- The run state changed, to IDLE with no piece in flight alone, its resume state going with it. -/
theorem shifts_withRc {x : Rc} (hs : x.state = .idle → inFlight s = 0)
    (hb : BooksLaw s → (x.resume.isSome = true ↔ x.state = .stopped) ∧ ∀ r ∈ x.resume, r = .running ∨ r = .draining) :
    Shifts 0 s (withRc s x) := by
  refine ⟨tablesLaw_congr rfl rfl, queueLaw_congr rfl, fun h => ?_, fun n hn => ?_⟩
  · obtain ⟨h1, -, -, h4, h5⟩ := id h
    exact ⟨h1, (hb h).1, (hb h).2, h4, h5⟩
  · obtain ⟨h1, h2, h3, h4, -⟩ := hn
    rw [Int.add_zero]; exact ⟨h1, h2, h3, h4, hs⟩

/-- A completion entry written: one piece out of its place is in the log. -/
theorem shifts_logged (e : Entry) (c : Counters) (ho : c.opened = s.cl.counters.opened) (he : c.exited = s.cl.counters.exited + 1)
    (hb : c.sorted + c.diverted = s.cl.counters.sorted + s.cl.counters.diverted + 1) :
    Shifts (-1) s (withCl s { s.cl with log := s.cl.log ++ [e], counters := c }) := by
  refine ⟨tablesLaw_congr rfl rfl, queueLaw_congr rfl, fun ⟨h1, hs⟩ => ⟨?_, hs⟩, fun n ⟨h1, h2, h3, h4, h5⟩ => ⟨h1, h2, ?_, ?_, h5⟩⟩
  · show c.exited = c.sorted + c.diverted
    rw [he, hb, h1]
  · show ((s.cl.log ++ [e]).length : Int) + inFlight s + _ ≤ _
    simp only [List.length_append, List.length_singleton]; push_cast; omega
  · show c.opened = BitVec.ofInt 32 (inFlight s + (n + -1)) + c.exited
    rw [ho, he, h4, ← Int.add_assoc, BitVec.ofInt_add (inFlight s + n) (-1)]
    grind

end

end Sys2Proof.Machine
end

section
/-! The operations of the cutter, the feeders, the descriptor store and the bins keep the laws: one lemma for each. -/

namespace Sys2Proof.Machine

/-! ## The cutter and LOG_HEADROOM (R39-R41) -/

/-- The hold state and the pending command changed. -/
theorem shifts_cutter (s : State) (x : Cutter) (p : Option PendingCutter) :
    Shifts 0 s (withCu s { s.cu with hold := x, pendingCutter := p }) := .aside rfl rfl rfl rfl rfl

theorem cutterFrame_command (s : State) (p : PendingCutter) : isManagement (cutterFrame s p) = false := by cases p <;> rfl

theorem queueCutter_shifts (p : PendingCutter) (s : State) : Shifts 0 s (queueCutter p s) := by
  unfold queueCutter
  refine .ite (fun h => ?_) (fun _ => ?_)
  · exact (shifts_cutter s _ _).trans (shifts_enqueue_command (cutterFrame_command s p) h)
  · exact (shifts_cutter s s.cu.hold _).trans (raise_shifts ..)

theorem withdrawCutter_shifts (s : State) : Shifts 0 s (withdrawCutter s) := by
  rw [withdrawCutter_eq]; exact shifts_cutter s s.cu.hold _

theorem decideCutter_shifts (s : State) : Shifts 0 s (decideCutter s) :=
  .ite (fun _ => queueCutter_shifts ..) fun _ => .ite (fun _ => queueCutter_shifts ..) fun _ => .refl s

theorem cutterTest_shifts (s : State) : Shifts 0 s (cutterTest s) :=
  .ite (fun _ => (withdrawCutter_shifts s).trans (decideCutter_shifts _)) fun _ => .refl s

theorem offerCutter_shifts (s : State) : Shifts 0 s (offerCutter s) := by
  unfold offerCutter
  split
  · exact .ite (fun _ => queueCutter_shifts ..) fun _ => .refl s
  · exact .refl s

theorem headroomFell_shifts (n : Nat) (s : State) : Shifts 0 s (headroomFell n s) :=
  .ite (fun _ => raise_shifts ..) fun _ => .refl s

theorem runStop_shifts (cause : StopCause) (addr : Option Addr) (s : State) : Shifts 0 s (runStop cause addr s) := by
  refine .ite (fun h => ?_) fun _ => .refl s
  have hrc := shifts_withRc (s := s) (x := ⟨.stopped, s.rc.run, some s.rc.state, some ⟨cause, addr, s.tu.pitch⟩⟩) (fun h' => nomatch h')
    (fun _ => ⟨iff_of_true rfl rfl, fun _ hr => Option.some.inj hr ▸ h⟩)
  exact hrc.trans (queueCutter_shifts ..)

/-! ## The feeders (R68-R74, R80-R90) -/

theorem raiseFeederEmpty_shifts (f : Nat) (s : State) : Shifts 0 s (raiseFeederEmpty f s) := raise_shifts ..

theorem copyFeeders_shifts (old new : Table MapSlot) (l : List Nat) (s : State) : Shifts 0 s (copyFeeders old new l s) := by
  induction l generalizing s with
  | nil => exact .refl s
  | cons f fs ih =>
    refine Shifts.trans ?_ (ih _)
    exact .ite (fun _ => (shifts_setFeeder ..).trans (raiseFeederEmpty_shifts ..)) fun _ => shifts_setFeeder ..

/-- The active feeder map takes the staged one. -/
theorem shifts_activeMap (s : State) : Shifts 0 s (withIu s { s.iu with active := s.iu.staged, commitPending := false }) :=
  .store (fun ⟨h1, h2, h3, h4, h5, h6, h7, h8, h9, _, hs⟩ => ⟨h1, h2, h3, h4, h5, h6, h7, h8, h9, h9, hs⟩) rfl rfl rfl rfl

theorem mapCopy_shifts (s : State) : Shifts 0 s (mapCopy s) := (shifts_activeMap s).trans (copyFeeders_shifts ..)

theorem mapCopyIfPending_shifts (s : State) : Shifts 0 s (mapCopyIfPending s) := .ite (fun _ => mapCopy_shifts s) fun _ => .refl s

theorem takeMaterial_shifts (f : Nat) (l : Level) (s : State) : Shifts 0 s (takeMaterial f l s) :=
  .ite (fun _ => (shifts_setFeeder ..).trans (raiseFeederEmpty_shifts ..)) fun _ => shifts_setFeeder ..

theorem countFeed_shifts (f : Nat) (double : Bool) (s : State) : Shifts 0 s (countFeed f double s) := shifts_setFeeder ..

theorem countMiss_shifts (f : Nat) (at_ : Pitch) (id : Option PieceId) (s : State) : Shifts 0 s (countMiss f at_ id s) :=
  .ite (fun _ => (shifts_setFeeder ..).trans (raise_shifts ..)) fun _ => shifts_setFeeder ..

theorem restartFeeders_shifts (l : List Nat) (s : State) : Shifts 0 s (restartFeeders l s) := by
  induction l generalizing s with
  | nil => exact .refl s
  | cons f fs ih => exact (shifts_setFeeder ..).trans (ih _)

theorem reevaluateAll_shifts (n : Nat) (l : List Nat) (s : State) : Shifts 0 s (reevaluateAll n l s) := by
  induction l generalizing s with
  | nil => exact .refl s
  | cons f fs ih => exact (shifts_setFeeder ..).trans (ih _)

/-! ## The descriptor store (R10-R17) -/

theorem claimMade_shifts (s : State) (id : PieceId) : Shifts 0 s (claimMade s id) := by
  unfold claimMade
  split
  · exact shifts_setDesc ..
  · exact .refl s

theorem claim_shifts (id : PieceId) (s : State) : Shifts 0 s (claim id s).1 := by
  rw [(claim_spec id s).1]; exact claimMade_shifts s id

theorem exitDescriptor_shifts (slot : Option Nat) (o : Outcome) (s : State) : Shifts 0 s (exitDescriptor slot o s) := by
  unfold exitDescriptor
  split
  · split
    · exact shifts_setDesc ..
    · exact .refl s
  · exact .refl s

theorem freeDrained_shifts (e : Entry) (s : State) : Shifts 0 s (freeDrained e s) := by
  by_cases h : ∃ n, Frees s e n
  · obtain ⟨n, h⟩ := h
    rw [(freeDrained_spec e s).1 n h]; exact shifts_setDesc ..
  · rw [(freeDrained_spec e s).2 fun n hn => h ⟨n, hn⟩]; exact .refl s

theorem RecordLoaded.shifts {r : DescriptorRecord} {s t : State} (h : RecordLoaded r s t) : Shifts 0 s t := by
  obtain ⟨-, w, i, n, x, -, -, rfl⟩ := h
  exact shifts_setDesc ..

theorem LoadedInTurn.shifts {l : List DescriptorRecord} {s t : State} (h : LoadedInTurn l s t) : Shifts 0 s t := by
  induction l generalizing s with
  | nil => rw [show t = s from h]; exact .refl s
  | cons r rs ih =>
    obtain ⟨m, hr, hrs⟩ := h
    exact hr.shifts.trans (ih hrs)

theorem loadBatch_shifts (l : List DescriptorRecord) (j : Nat) (s : State) : Shifts 0 s (loadBatch l j s).1 := by
  rcases loadBatch_spec l j s with ⟨x, he, h⟩ | ⟨_, _, _, x, _, _, he, h, _⟩
  · rw [he]; exact h.shifts
  · rw [he]; exact h.shifts

/-! ## The bins (R128-R151) -/

theorem openTray_shifts (b : Nat) (s : State) : Shifts 0 s (openTray b s) := (shifts_setBin b _ s).trans (.aside rfl rfl rfl rfl rfl)

theorem sendTrayChange_shifts (b r : Nat) (s : State) : Shifts 0 s (sendTrayChange b r s) := by
  unfold sendTrayChange
  split
  · exact shifts_sendCommand rfl ‹_›
  · exact (shifts_setBin ..).trans (raise_shifts ..)

theorem closeTray_shifts (b : Nat) (why : CloseReason) (s : State) : Shifts 0 s (closeTray b why s) := by
  unfold closeTray
  split
  · exact (shifts_setBin ..).trans (sendTrayChange_shifts ..)
  · exact .refl s

theorem closeNonEmpty_shifts (why : CloseReason) (l : List Nat) (s : State) : Shifts 0 s (closeNonEmpty why l s) := by
  induction l generalizing s with
  | nil => exact .refl s
  | cons b bs ih => exact (Shifts.ite (fun _ => closeTray_shifts ..) fun _ => .refl s).trans (ih _)

theorem retryOwed_shifts (l : List Nat) (s : State) : Shifts 0 s (retryOwed l s) := by
  induction l generalizing s with
  | nil => exact .refl s
  | cons b bs ih =>
    unfold retryOwed
    dsimp only
    split
    · split
      · exact ((shifts_sendCommand rfl ‹_›).trans (shifts_setBin ..)).trans (ih _)
      · exact ih s
    · exact ih s

theorem renewGenerations_shifts (l : List Nat) (s : State) : Shifts 0 s (renewGenerations l s) := by
  induction l generalizing s with
  | nil => exact .refl s
  | cons b bs ih =>
    unfold renewGenerations
    dsimp only
    split
    · exact (Shifts.ite (fun _ => shifts_setBin ..) fun _ => .refl s).trans (ih _)
    · exact ih s

theorem setTray_shifts (s : State) (b : Nat) (t : Tray) : Shifts 0 s (setTray s b t) := shifts_setBin ..

theorem releaseReservation_shifts (path : Path) (mass : Option Nat) (s : State) : Shifts 0 s (releaseReservation path mass s) := by
  unfold releaseReservation
  split
  · split
    · exact setTray_shifts ..
    · exact .refl s
  · exact .refl s

theorem landInTray_shifts (p : Piece) (b : Nat) (seq : BitVec 16) (at_ : Pitch) (s : State) : Shifts 0 s (landInTray p b seq at_ s).1 := by
  unfold landInTray
  split
  · exact setTray_shifts ..
  · exact raise_shifts ..

theorem contaminate_shifts (p : Piece) (b : Nat) (at_ : Pitch) (s : State) : Shifts 0 s (contaminate p b at_ s) := by
  refine (raise_shifts .contaminatedTray (some s.tu.layout.sorter.addr) (some at_) p.id s).trans ?_
  unfold contaminate
  dsimp only
  split
  · exact shifts_setBin ..
  · exact shifts_setBin ..
  · exact shifts_setBin ..
  · exact .refl _

theorem landInReject_shifts (p : Piece) (s : State) : Shifts 0 s (landInReject p s) := .aside rfl rfl rfl rfl rfl

theorem appendTrayRec_shifts (s : State) (r : TrayRec) : Shifts 0 s (appendTrayRec s r) := .aside rfl rfl rfl rfl rfl

theorem exchangeTray_shifts (b : Nat) (t : Tray) (s : State) : Shifts 0 s (exchangeTray b t s) :=
  .ite (fun _ => (appendTrayRec_shifts ..).trans (openTray_shifts ..)) fun _ => (shifts_setBin ..).trans (raise_shifts ..)

theorem restartBins_shifts (l : List Nat) (s : State) : Shifts 0 s (restartBins l s) := by
  induction l generalizing s with
  | nil => exact .refl s
  | cons b bs ih =>
    unfold restartBins
    dsimp only
    split
    · exact ((shifts_setBin ..).trans (openTray_shifts ..)).trans (ih _)
    · exact (shifts_setBin ..).trans (ih _)

theorem startBins_shifts (l : List Nat) (s : State) : Shifts 0 s (startBins l s) := by
  induction l generalizing s with
  | nil => exact .refl s
  | cons b bs ih => exact (Shifts.ite (fun _ => openTray_shifts ..) fun _ => .refl s).trans (ih _)

/-- The active sort plan takes the staged one. -/
theorem shifts_activePlan (g : BitVec 16) (s : State) :
    Shifts 0 s (withSu s { s.su with active := s.su.staged, generation := g, commitPending := false }) :=
  .store (fun ⟨h1, h2, h3, h4, h5, h6, h7, h8, h9, h10, h11, _, h13, h14⟩ =>
    ⟨h1, h2, h3, h4, h5, h6, h7, h8, h9, h10, h11, h13, h13, h14⟩) rfl rfl rfl rfl

theorem planCopy_shifts (s : State) : Shifts 0 s (planCopy s) := by
  have h := (shifts_activePlan (s.su.generation + 1#16) s).trans (closeNonEmpty_shifts .groupBreak allBins _)
  exact h.trans (renewGenerations_shifts allBins _)

theorem planCopyIfPending_shifts (s : State) : Shifts 0 s (planCopyIfPending s) := .ite (fun _ => planCopy_shifts s) fun _ => .refl s

theorem runEndClose_shifts (s : State) : Shifts 0 s (runEndClose s) := closeNonEmpty_shifts ..

end Sys2Proof.Machine
end

section
/-! The operations of faults, feeds and the sort cascade keep the laws: one lemma for each. -/

namespace Sys2Proof.Machine

/-! ## A piece rewritten in its slot -/

/-- The piece in a slot of the ring has an entry pitch. -/
def EntryAt (s : State) (k : Nat) (e : Pitch) : Prop := (pieceAt s k).map Piece.entry = some e

section
variable {s t : State} {k : Nat} {p q : Piece} {e : Pitch}

theorem entryAt_of_piece (h : pieceAt s k = some p) : EntryAt s k p.entry := by simp [EntryAt, h]

theorem EntryAt.congr (h : EntryAt s k e) (ht : t.tu = s.tu) : EntryAt t k e := by
  unfold EntryAt; rw [pieceAt_congr ht]; exact h

theorem shifts_setPiece_entry (h : EntryAt s k q.entry) : Shifts 0 s (setPiece s k (some q)) := by
  obtain ⟨p, hp, he⟩ := Option.map_eq_some_iff.mp h
  exact shifts_setPiece_same hp he.symm

theorem sendCommand_some {f : Frame} (h : sendCommand s f = some t) : t = enqueue s f ∧ commandRoom s = true := by
  unfold sendCommand at h
  split at h
  · exact ⟨(Option.some.inj h).symm, ‹_›⟩
  · cases h

theorem sendCommand_tu {f : Frame} (h : sendCommand s f = some t) : t.tu = s.tu := by rw [(sendCommand_some h).1]; rfl

/-! ## Faults and the path rule (R104-R109) -/

/-- A command sent for a piece, which takes another path and gives up its reservation. -/
theorem rerouted_shifts {f : Frame} (hf : isManagement f = false) (hs : sendCommand s f = some t) (h : EntryAt s k p.entry) (x : Path) :
    Shifts 0 s (releaseReservation p.path p.mass (setPiece t k (some { p with path := x }))) := by
  have hp : Shifts 0 t (setPiece t k (some { p with path := x })) := shifts_setPiece_entry (h.congr (sendCommand_tu hs))
  exact ((shifts_sendCommand hf hs).trans hp).trans (releaseReservation_shifts ..)

theorem supersede_shifts (h : EntryAt s k p.entry) : Shifts 0 s (supersede k p s) := by
  unfold supersede
  split
  · exact rerouted_shifts rfl ‹_› h _
  · exact raise_shifts ..

theorem sorterBranch_shifts (h : EntryAt s k p.entry) : Shifts 0 s (sorterBranch k p s) := by
  unfold sorterBranch
  split
  · exact shifts_setPiece_entry h
  · exact .ite (fun _ => supersede_shifts h) fun _ => .refl s
  · exact .refl s
  · exact .refl s

theorem pathRule_shifts (h : EntryAt s k p.entry) : Shifts 0 s (pathRule k p s) := by
  unfold pathRule
  refine .ite (fun _ => ?_) fun _ => sorterBranch_shifts h
  split
  · exact rerouted_shifts rfl ‹_› h _
  · exact (raise_shifts ..).trans (sorterBranch_shifts (h.congr (by simp)))

theorem addFault_entry (f : PieceFault) (p : Piece) : (addFault f p).entry = p.entry := by rw [addFault_eq]; rfl

theorem recordFault_shifts (k : Nat) (f : PieceFault) (s : State) : Shifts 0 s (recordFault k f s) := by
  unfold recordFault
  split
  · next p hp =>
    have hw : Shifts 0 s (setPiece s k (some (addFault f p))) := shifts_setPiece_same hp (addFault_entry f p)
    split
    · exact hw.trans (pathRule_shifts (entryAt_of_piece (pieceAt_setPiece_some ..)))
    · exact hw
  · exact .refl s

theorem pathAtRelease_shifts (k : Nat) (s : State) : Shifts 0 s (pathAtRelease k s) := by
  unfold pathAtRelease
  split
  · next p hp => exact .ite (fun _ => pathRule_shifts (entryAt_of_piece hp)) fun _ => .refl s
  · exact .refl s

theorem setVerify_shifts (k : Nat) (v : Verify) (s : State) : Shifts 0 s (setVerify k v s) := by
  unfold setVerify
  split
  · next p hp => exact shifts_setPiece_same hp rfl
  · exact .refl s

/-! ## The cascade (R139-R141) -/

/-- The state an offer to a bin leaves. -/
def Offer.state : Offer → State
  | .placed s => s
  | .passed s => s
  | .failed s => s

theorem reserveInto_shifts (b : Nat) (t : Tray) (solo : Bool) (h : EntryAt s k p.entry) :
    Shifts 0 s (reserveInto k p b t solo s).state := by
  unfold reserveInto
  split
  · exact raise_shifts ..
  · next s1 hs =>
    let y : Tray := { t with reserved := t.reserved + 1, reservedMass := t.reservedMass + p.mass.getD 0 }
    have hw : Shifts 0 s (setTray s1 b y) := (shifts_sendCommand rfl hs).trans (setTray_shifts ..)
    have he : EntryAt (setTray s1 b y) k p.entry := h.congr ((setTray_keeps b y s1).2.2.2.2.2.1.trans (sendCommand_tu hs))
    have hp := hw.trans (shifts_setPiece_entry (q := { p with path := .sort b t.seq }) he)
    exact .ite (fun _ => hp.trans (closeTray_shifts ..)) fun _ => hp

theorem offerBin_shifts (b : Nat) (h : EntryAt s k p.entry) : Shifts 0 s (offerBin k p b s).state := by
  rcases offerBin_cases k p b s with ⟨-, he⟩ | ⟨l, y, -, -, ⟨-, he⟩ | ⟨-, -, he⟩ | ⟨-, he⟩⟩ <;> rw [he]
  · exact .refl s
  · exact reserveInto_shifts b y true h
  · exact reserveInto_shifts b y false h
  · exact closeTray_shifts ..

theorem offerBin_passed_entry {b : Nat} (h : EntryAt s k p.entry) (ho : offerBin k p b s = .passed t) : EntryAt t k p.entry := by
  rcases offerBin_cases k p b s with ⟨-, he⟩ | ⟨l, y, -, -, ⟨-, he⟩ | ⟨-, -, he⟩ | ⟨-, he⟩⟩ <;> rw [he] at ho
  · cases ho; exact h
  · rcases reserveInto_cases k p b y true s with ⟨_, hx, _⟩ | ⟨_, hx, _⟩ <;> rw [hx] at ho <;> cases ho
  · rcases reserveInto_cases k p b y false s with ⟨_, hx, _⟩ | ⟨_, hx, _⟩ <;> rw [hx] at ho <;> cases ho
  · cases ho; exact h.congr (by simp)

theorem cascade_shifts (l : List Nat) (h : EntryAt s k p.entry) : Shifts 0 s (cascade k p l s).1 := by
  induction l generalizing s with
  | nil => exact .refl s
  | cons b bs ih =>
    have hs := offerBin_shifts b h
    unfold cascade
    split
    · next hx => rw [hx] at hs; exact hs
    · next hx => rw [hx] at hs; exact hs.trans (ih (offerBin_passed_entry h hx))
    · next hx => rw [hx] at hs; exact hs

theorem sortPiece_shifts (k : Nat) (s : State) : Shifts 0 s (sortPiece k s) := by
  unfold sortPiece
  split
  · next p hp =>
    split
    · exact recordFault_shifts ..
    · next b _ =>
      have hc := cascade_shifts (cascadeBins b s.su.fallback) (entryAt_of_piece hp)
      split
      · next s' hs => rw [hs] at hc; exact hc
      · next s' hs => rw [hs] at hc; exact hc.trans (recordFault_shifts ..)
  · exact .refl s

theorem faultSlips_shifts (l : List Nat) (s : State) : Shifts 0 s (faultSlips l s) := by
  induction l generalizing s with
  | nil => exact .refl s
  | cons k ks ih => exact (recordFault_shifts ..).trans (ih _)

theorem takeRead_shifts (k : Nat) (p : Piece) (id : PieceId) (s : State) : Shifts 0 s (takeRead k p id s) := by
  unfold takeRead
  refine .ite (fun _ => ?_) fun _ => .ite (fun _ => ?_) fun _ => ?_
  · exact .ite (fun _ => (setVerify_shifts ..).trans (recordFault_shifts ..)) fun _ => setVerify_shifts ..
  · exact .ite (fun _ => (setVerify_shifts ..).trans (sortPiece_shifts ..)) fun _ => setVerify_shifts ..
  · exact (Shifts.ite (fun _ => (setVerify_shifts ..).trans (recordFault_shifts ..)) fun _ => setVerify_shifts ..).trans
      (faultSlips_shifts ..)

theorem verifyDeadlineAt_shifts (k : Nat) (s : State) : Shifts 0 s (verifyDeadlineAt k s) := by
  unfold verifyDeadlineAt
  split
  · exact .ite (fun _ => .ite (fun _ => (setVerify_shifts ..).trans (recordFault_shifts ..)) fun _ => setVerify_shifts ..)
      fun _ => .refl s
  · exact .refl s

/-! ## Feeds (R80-R85) -/

theorem setEntryStatus_shifts (k i : Nat) (x : InsertStatus) (s : State) : Shifts 0 s (setEntryStatus k i x s) := by
  unfold setEntryStatus
  split
  · next p hp => exact shifts_setPiece_same hp rfl
  · exact .refl s

theorem missEntry_shifts (k i : Nat) (f : PieceFault) (s : State) : Shifts 0 s (missEntry k i f s) :=
  (setEntryStatus_shifts ..).trans (recordFault_shifts ..)

theorem decideBackup_shifts (k : Nat) (p : Piece) (e : Planned) (f : PieceFault) (s : State) : Shifts 0 s (decideBackup k p e f s) := by
  unfold decideBackup
  split
  · refine .ite (fun _ => ?_) fun _ => missEntry_shifts ..
    split
    · exact (shifts_sendCommand rfl ‹_›).trans (setEntryStatus_shifts ..)
    · exact (raise_shifts ..).trans (missEntry_shifts ..)
  · exact missEntry_shifts ..

theorem takeMiss_shifts (k : Nat) (p : Piece) (e : Planned) (feeder : Nat) (f : PieceFault) (at_ : Pitch) (s : State) :
    Shifts 0 s (takeMiss k p e feeder f at_ s) := by
  unfold takeMiss
  dsimp only
  split
  · exact (countMiss_shifts ..).trans (decideBackup_shifts ..)
  · exact (countMiss_shifts ..).trans (missEntry_shifts ..)

theorem takeFeed_shifts (k : Nat) (p : Piece) (e : Planned) (feeder outcome : Nat) (at_ : Pitch) (s : State) :
    Shifts 0 s (takeFeed k p e feeder outcome at_ s) := by
  unfold takeFeed
  refine .ite (fun _ => ?_) fun _ => .ite (fun _ => takeMiss_shifts ..) fun _ => ?_
  · exact (setEntryStatus_shifts ..).trans (countFeed_shifts ..)
  · exact ((setEntryStatus_shifts ..).trans (recordFault_shifts ..)).trans (countFeed_shifts ..)

theorem dropUnexpected_shifts (src : Addr) (s : State) : Shifts 0 s (dropUnexpected src s) := raise_shifts ..

theorem applyFeed_shifts (src : Addr) (feeder k : Nat) (p : Piece) (outcome : Byte) (at_ : Pitch) (s : State) :
    Shifts 0 s (applyFeed src feeder k p outcome at_ s) := by
  unfold applyFeed
  split
  · exact .ite (fun _ => takeFeed_shifts ..) fun _ => dropUnexpected_shifts ..
  · exact dropUnexpected_shifts ..

theorem feedDeadlineAt_shifts (k i : Nat) (s : State) : Shifts 0 s (feedDeadlineAt k i s) := by
  unfold feedDeadlineAt
  split
  · split
    · split
      · exact .ite (fun _ => takeMiss_shifts ..) fun _ => .refl s
      · exact .refl s
    · exact .refl s
  · exact .refl s

end

end Sys2Proof.Machine
end

section
/-! Departures, releases and collation keep the laws: what goes out of one place comes to the next or to its completion entry. -/

namespace Sys2Proof.Machine

section
variable {d : Int} {s t u : State} {k : Nat} {p : Piece}

/-- What has gone out of its place has come to the next. -/
theorem Shifts.close (h : Shifts d s t) (h' : Shifts (-d) t u) : Shifts 0 s u := Int.add_right_neg d ▸ h.add h'

/-! ## The drain end (R149, R156) -/

theorem drainTest_shifts (s : State) : Shifts 0 s (drainTest s) := by
  refine .ite (fun ⟨hs, hf, _⟩ => ?_) fun _ => .refl s
  have hrc : Shifts 0 s (withRc s { s.rc with state := .idle }) := shifts_withRc (fun _ => hf) fun ⟨_, hres, hor, _⟩ =>
    ⟨iff_of_false (fun h => nomatch hs.symm.trans (hres.mp h)) (fun h => nomatch h), hor⟩
  exact ((hrc.trans (raise_shifts ..)).trans (mapCopyIfPending_shifts _)).trans (planCopyIfPending_shifts _)

theorem flightChanged_shifts (s : State) : Shifts 0 s (flightChanged s) :=
  .ite (fun _ => (runEndClose_shifts s).trans (drainTest_shifts _)) fun _ => .refl s

theorem flightChanged_of_flying (h : inFlight s ≠ 0) : flightChanged s = s := if_neg fun hf => h hf.2

/-! ## Leaving (R12, R62-R64, R168, R171) -/

theorem writeEntry_shifts (e : Entry) (s : State) : Shifts (-1) s (writeEntry e s) := by
  have hlog := shifts_logged (s := s) e
    { s.cl.counters with
      exited := s.cl.counters.exited + 1
      sorted := if e.outcome = .sorted then s.cl.counters.sorted + 1 else s.cl.counters.sorted
      diverted := if e.outcome = .sorted then s.cl.counters.diverted else s.cl.counters.diverted + 1 } rfl rfl
    (by dsimp only; split <;> grind)
  exact Int.add_zero (-1) ▸ hlog.add (exitDescriptor_shifts e.slot e.outcome _)

theorem accountLanding_shifts (place : Place) (o : Outcome) (p : Piece) (at_ : Pitch) (s : State) :
    Shifts 0 s (accountLanding place o p at_ s).1 := by
  unfold accountLanding
  cases place with
  | gate => exact releaseReservation_shifts ..
  | br => exact (releaseReservation_shifts ..).trans (landInReject_shifts ..)
  | bin b =>
    dsimp only
    have hr : Shifts 0 s (match p.path with
        | .sort b' t => if b = b' then landInTray p b t at_ s else (releaseReservation p.path p.mass s, none)
        | _ => (s, none)).1 := by
      split
      · split
        · exact landInTray_shifts ..
        · exact releaseReservation_shifts ..
      · exact .refl s
    exact .ite (fun _ => hr.trans (contaminate_shifts ..)) fun _ => hr

/-- A piece leaves the track with its completion entry, after what the bins make of its going. -/
theorem left_shifts (hp : pieceAt s k = some p) (hr : Shifts 0 s t) (ht : t.tu = s.tu) (e : Entry) :
    Shifts 0 s (flightChanged (writeEntry e (setPiece t k none))) :=
  (hr.trans ((shifts_setPiece_none ((pieceAt_congr ht k).trans hp)).close (writeEntry_shifts e _))).trans (flightChanged_shifts _)

theorem leaveLanded_shifts (hp : pieceAt s k = some p) (place : Place) (at_ : Pitch) (q : Piece) :
    Shifts 0 s (leaveLanded place at_ k q s) := left_shifts hp (accountLanding_shifts ..) (by simp) _

theorem leaveWithout_shifts (o : Outcome) (f : PieceFault) (k : Nat) (s : State) : Shifts 0 s (leaveWithout o f k s) := by
  unfold leaveWithout
  split
  · next p hp => exact left_shifts hp (releaseReservation_shifts ..) (by simp) _
  · exact .refl s

theorem exitDeadlineAt_shifts (k : Nat) (s : State) : Shifts 0 s (exitDeadlineAt k s) := by
  unfold exitDeadlineAt
  split
  · exact .ite (fun _ => leaveWithout_shifts ..) fun _ => .refl s
  · exact .refl s

theorem removePieces_shifts (l : List Nat) (s : State) : Shifts 0 s (removePieces l s) := by
  induction l generalizing s with
  | nil => exact .refl s
  | cons k ks ih => exact (leaveWithout_shifts ..).trans (ih _)

theorem writeRemovals_shifts (l : List SetRec) (s : State) : Shifts (-l.length) s (writeRemovals l s) := by
  induction l generalizing s with
  | nil => exact .refl s
  | cons x xs ih =>
    have h := (writeEntry_shifts (setEntryOf s x) s).add (ih _)
    have hlen : -1 + -(xs.length : Int) = -((x :: xs).length : Int) := by rw [List.length_cons]; push_cast; omega
    exact hlen ▸ h

theorem length_collatedSets (s : State) : (collatedSets s).length = collated s := by simp [collatedSets, collated, Nat.add_comm]

theorem removeSets_shifts (s : State) : Shifts 0 s (removeSets s) := by
  have h := writeRemovals_shifts (collatedSets s) (withCu s { s.cu with place := none, queue := [] })
  rw [length_collatedSets] at h
  exact (shifts_withCu (collated s : Int) _ (by simp) (by omega)).close h

/-! ## The release (R51-R54) -/

theorem leaveWithout_of_queue (hq : s.cu.queue ≠ []) (o : Outcome) (f : PieceFault) (k : Nat) : (leaveWithout o f k s).rc = s.rc := by
  unfold leaveWithout
  split
  · rw [flightChanged_of_flying]
    · simp
    · have := List.length_pos_iff.mpr hq
      rw [inFlight_eq, collated]
      simp only [writeEntry_keeps, setPiece_cu, releaseReservation_keeps]
      omega
  · rfl

theorem pieceAt_leaveWithout (hc : Table.canonical none s.tu.ring) (o : Outcome) (f : PieceFault) (k : Nat) :
    pieceAt (leaveWithout o f k s) k = none := by
  cases hp : pieceAt s k with
  | none => unfold leaveWithout; rw [hp]; exact hp
  | some p =>
    obtain ⟨m, ⟨hk, -⟩, -, -, -, he⟩ := leaveWithout_spec hc hp o f
    rw [he, pieceAt_congr (flightChanged_keeps m).2.2.2.2.2.1]; exact hk

/-- A piece stands in the slot that the piece before it has left. -/
theorem placed_shifts {q : Piece} (hq : s.cu.queue ≠ []) (hs : s.rc.state ≠ .idle) :
    Shifts (-1) s (setPiece (leaveWithout .lost .lost (ringSlot q.entry) s) (ringSlot q.entry) (some q)) := by
  have hl := leaveWithout_shifts .lost .lost (ringSlot q.entry) s
  have hi : (leaveWithout .lost .lost (ringSlot q.entry) s).rc.state ≠ .idle := by rw [leaveWithout_of_queue hq]; exact hs
  refine ⟨tablesLaw_setPiece _ _ ∘ hl.tables, queueLaw_congr rfl ∘ hl.queues, booksLaw_congr rfl ∘ hl.books, fun n hn => ?_⟩
  have hfree := pieceAt_leaveWithout hn.1 .lost .lost (ringSlot q.entry)
  exact (shifts_setPiece_new (fun _ => hfree) rfl hi).flight n (Int.add_zero n ▸ hl.flight n hn)

theorem sendCalls_shifts (p : Piece) (l : List Planned) (s : State) : Shifts 0 s (sendCalls p l s).1 := by
  induction l generalizing s with
  | nil => exact .refl s
  | cons e es ih =>
    unfold sendCalls
    split
    · exact .refl s
    · split
      · exact (shifts_sendCommand rfl ‹_›).trans (ih _)
      · exact raise_shifts ..

theorem callPiece_shifts (h : EntryAt s k p.entry) : Shifts 0 s (callPiece k p s) := by
  refine .ite (fun _ => (sendCalls_shifts p p.planned s).trans (shifts_setPiece_entry ?_)) fun _ => shifts_setPiece_entry h
  have he : EntryAt (sendCalls p p.planned s).1 k p.entry := h.congr (by simp)
  split
  · rw [addFault_entry]; exact he
  · exact he

theorem resolveInserts_entry (s : State) (p : Piece) : (resolveInserts s p).entry = p.entry := by
  unfold resolveInserts
  split
  · dsimp only; split
    · rw [addFault_entry]
    · rfl
  · rfl

theorem checkPiece_entry (c : EnvClass) (p : Piece) : (checkPiece c p).entry = p.entry := by
  unfold checkPiece
  dsimp only
  split <;> split <;> simp only [addFault_entry]

theorem planPiece_entry (s : State) (c : Bool) (p : Piece) : (planPiece s c p).entry = p.entry := by
  unfold planPiece
  split
  · rfl
  · dsimp only
    split
    · rw [addFault_entry]
    · split
      · rfl
      · split
        · rfl
        · rw [checkPiece_entry]; rfl

theorem shifts_tally_aside {f : Counters → Counters} (ho : (f s.cl.counters).opened = s.cl.counters.opened)
    (he : (f s.cl.counters).exited = s.cl.counters.exited) (hs : (f s.cl.counters).sorted = s.cl.counters.sorted)
    (hd : (f s.cl.counters).diverted = s.cl.counters.diverted) : Shifts 0 s (tally s f) :=
  .aside rfl rfl (by simp [flightOf, ho, he, collated]) rfl (by simp [booksOf, hs, he, hd])

theorem placeAndPlan_shifts (hq : s.cu.queue ≠ []) (hs : s.rc.state ≠ .idle) (e : Pitch) (x : SetRec) :
    Shifts (-1) s (placeAndPlan e x s) := by
  have hplaced : Shifts (-1) s (setPiece (leaveWithout .lost .lost (ringSlot e) s) (ringSlot e) (some (newPiece e x))) :=
    placed_shifts (q := newPiece e x) hq hs
  have htally := hplaced.add (shifts_tally_aside (f := fun c => { c with released := c.released + 1 }) rfl rfl rfl rfl)
  refine Int.add_zero (-1) ▸ htally.add (callPiece_shifts ?_)
  rw [planPiece_entry, resolveInserts_entry]
  exact entryAt_of_piece (pieceAt_setPiece_some (ringSlot e) (leaveWithout .lost .lost (ringSlot e) s) (newPiece e x))

theorem shiftQueue_shifts (hq : s.cu.queue ≠ []) : Shifts 1 s (shiftQueue s) := by
  have := List.length_pos_iff.mpr hq
  unfold shiftQueue
  split
  · next r hr =>
    refine .ite (fun _ => shifts_withCu 1 _ ?_ (by decide)) fun _ => shifts_withCu 1 _ ?_ (by decide) <;> simp [collated, hr] <;> omega
  · next hr => exact shifts_withCu 1 _ (by simp [collated, hr]; omega) (by decide)

theorem releaseHead_shifts (hs : s.rc.state ≠ .idle) : Shifts 0 s (releaseHead s) := by
  unfold releaseHead
  split
  · exact .refl s
  · next x xs hq =>
    dsimp only
    split
    · exact raise_shifts ..
    · next s1 h1 =>
      obtain ⟨rfl, hroom⟩ := sendCommand_some h1
      have hq' : s.cu.queue ≠ [] := by simp [hq]
      have hplace := placeAndPlan_shifts (s := enqueue s (releaseFrame s (pitchAt s.tu.pitch s.tu.timing.lr))) hq' hs
        (pitchAt s.tu.pitch s.tu.timing.lr) x
      have hpath := hplace.add (pathAtRelease_shifts (ringSlot (pitchAt s.tu.pitch s.tu.timing.lr)) _)
      have hshift := hpath.close (shiftQueue_shifts (by simpa using hq'))
      exact ((shifts_enqueue_command rfl hroom).trans hshift).trans (cutterTest_shifts _)

/-! ## Records (R22-R38) -/

theorem completeRecord_shifts (h : s.cu.place.isSome = true) (r : OpenRec) : Shifts 0 s (completeRecord r s) := by
  obtain ⟨r0, hr⟩ := Option.isSome_iff_exists.mp h
  refine .ite (fun _ => Shifts.trans ?_ (cutterTest_shifts _)) fun _ => ?_ <;>
    exact shifts_withCu 0 _ (by simp [collated, hr]; try omega) (by decide)

theorem holdRecord_shifts (h : s.cu.place.isSome = true) (r : OpenRec) : Shifts 0 s (holdRecord r s) := by
  obtain ⟨r0, hr⟩ := Option.isSome_iff_exists.mp h
  exact shifts_withCu 0 _ (by simp [collated, hr]) (by decide)

theorem settleRecord_shifts (h : s.cu.place.isSome = true) (done : Bool) (r : OpenRec) : Shifts 0 s (settleRecord done r s) :=
  .ite (fun _ => completeRecord_shifts h _) fun _ => .ite (fun _ => completeRecord_shifts h _) fun _ => holdRecord_shifts h r

theorem countSheet_shifts (noRead : Bool) (s : State) : Shifts 0 s (countSheet noRead s) := shifts_tally_aside rfl rfl rfl rfl

theorem completeAtEnd_shifts (s : State) : Shifts 0 s (completeAtEnd s) := by
  unfold completeAtEnd
  split
  · next r hr => exact .ite (fun _ => .refl s) fun _ => completeRecord_shifts (by simp [hr]) _
  · exact .refl s

theorem sheetOverrun_shifts (src : Addr) (id : Option PieceId) (s : State) : Shifts 0 s (sheetOverrun src id s) :=
  (raise_shifts ..).trans (runStop_shifts ..)

theorem ownSheet_shifts (h : s.cu.place.isSome = true) (r : OpenRec) (n i count : Nat) : Shifts 0 s (ownSheet r n i count s) :=
  (countSheet_shifts false s).trans (settleRecord_shifts (s := countSheet false s) h _ _)

theorem noReadSheet_shifts (h : s.cu.place.isSome = true) (r : OpenRec) (n : Nat) : Shifts 0 s (noReadSheet r n s) :=
  (countSheet_shifts true s).trans (settleRecord_shifts (s := countSheet true s) h _ _)

/-- A record opened in the empty place, with headroom for it, and counted. -/
theorem opened_kept (hp : s.cu.place = none) (hh : headroom s ≠ 0) (hs : s.rc.state ≠ .idle) (r : OpenRec) :
    LawsKept s (holdRecord r (tally s (fun c => { c with opened := c.opened + 1 }))) := by
  refine ⟨tablesLaw_congr rfl rfl, fun ⟨h1, h2, h3, h4, _⟩ => ⟨h1, h2, ?_, ?_, fun h => absurd h hs⟩, queueLaw_congr rfl, booksLaw_congr rfl⟩
  all_goals
    have hlen : inFlight (holdRecord r (tally s (fun c => { c with opened := c.opened + 1 }))) = inFlight s + 1 := by
      simp [inFlight, holdRecord, hp]; omega
    rw [hlen]
  · simp only [headroom, Config.completionLog, holdRecord_keeps, tally_log] at hh ⊢; omega
  · simp only [holdRecord_keeps, tally_counters, h4, BitVec.ofNat_add]
    grind

theorem openRecord_kept (hp : s.cu.place = none) (hh : headroom s ≠ 0) (hs : s.rc.state ≠ .idle) (noRead : Bool) (r : OpenRec) :
    LawsKept s (openRecord noRead r s) :=
  (((countSheet_shifts noRead s).kept.trans (opened_kept (s := countSheet noRead s) hp hh hs r)).trans (headroomFell_shifts ..).kept).trans (cutterTest_shifts _).kept

theorem openRecord_place (noRead : Bool) (r : OpenRec) (s : State) : (openRecord noRead r s).cu.place = some r := by
  simp [openRecord, holdRecord]

theorem headroom_claim (id : PieceId) (s : State) : headroom (claim id s).1 = headroom s := by simp [headroom, inFlight]

theorem openSheet_kept (hp : s.cu.place = none) (hs : s.rc.state ≠ .idle) (src : Addr) (sh : SheetRead) :
    LawsKept s (openSheet src sh s) := by
  refine .ite (fun _ => (sheetOverrun_shifts ..).kept) fun hh => ?_
  cases sh with
  | readable id i n =>
    have hopen : ∀ r, LawsKept s (openRecord false r (claim id s).1) := fun r =>
      (claim_shifts id s).kept.trans
        (openRecord_kept (by simpa using hp) (by rw [headroom_claim]; exact hh) (by simpa using hs) false r)
    exact .ite (fun _ => (hopen _).trans (completeRecord_shifts (by rw [openRecord_place]; rfl) _).kept) fun _ => hopen _
  | noRead => exact openRecord_kept hp hh hs true _

theorem afterEnding_kept (hs : s.rc.state ≠ .idle) (src : Addr) (sh : SheetRead) : LawsKept s (afterEnding src sh s) :=
  .ite (fun _ => (sheetOverrun_shifts ..).kept) fun h => openSheet_kept (by simpa using h) hs src sh

theorem namedSheet_kept (hp : s.cu.place.isSome = true) (hs : s.rc.state ≠ .idle) (src : Addr) (r : OpenRec) (x : PieceId) (n : Nat)
    (sh : SheetRead) : LawsKept s (namedSheet src r x n sh s) := by
  cases sh with
  | readable id i count =>
    exact .ite (fun _ => (ownSheet_shifts hp ..).kept) fun _ =>
      (completeRecord_shifts hp _).kept.trans (afterEnding_kept (by simpa using hs) src _)
  | noRead => exact (noReadSheet_shifts hp r n).kept

theorem anonymousSheet_kept (hp : s.cu.place.isSome = true) (hs : s.rc.state ≠ .idle) (src : Addr) (r : OpenRec) (sh : SheetRead) :
    LawsKept s (anonymousSheet src r sh s) := by
  cases sh with
  | noRead => exact ((countSheet_shifts true s).trans (settleRecord_shifts (s := countSheet true s) hp _ _)).kept
  | readable id i n =>
    refine .ite (fun _ => (completeRecord_shifts hp _).kept.trans (afterEnding_kept (by simpa using hs) src _)) fun _ => ?_
    exact ((claim_shifts id s).trans ((countSheet_shifts false _).trans (settleRecord_shifts (by simpa using hp) _ _))).kept

theorem collateSheet_kept (hs : s.rc.state ≠ .idle) (src : Addr) (sh : SheetRead) : LawsKept s (collateSheet src sh s) := by
  unfold collateSheet
  split
  · next hp => exact openSheet_kept hp hs src sh
  · next r hp =>
    refine .ite (fun _ => (sheetOverrun_shifts ..).kept) fun _ => ?_
    split
    · exact namedSheet_kept (by simp [hp]) hs ..
    · exact anonymousSheet_kept (by simp [hp]) hs ..

theorem lateSheet_kept (hs : s.rc.state ≠ .idle) (src : Addr) (sh : SheetRead) : LawsKept s (lateSheet src sh s) := by
  refine .ite (fun _ => (sheetOverrun_shifts ..).kept) fun hp => .ite (fun _ => (sheetOverrun_shifts ..).kept) fun hh => ?_
  have hp' : s.cu.place = none := by simpa using hp
  cases sh with
  | readable id i n =>
    have hopen : ∀ r, LawsKept s (openRecord false r (claim id s).1) := fun r =>
      (claim_shifts id s).kept.trans
        (openRecord_kept (by simpa using hp') (by rw [headroom_claim]; exact hh) (by simpa using hs) false r)
    exact (hopen _).trans (completeRecord_shifts (by rw [openRecord_place]; rfl) _).kept
  | noRead => exact (openRecord_kept hp' hh hs true _).trans (completeRecord_shifts (by rw [openRecord_place]; rfl) _).kept

theorem takeSheet_kept (src : Addr) (sh : SheetRead) (s : State) : LawsKept s (takeSheet src sh s) := by
  unfold takeSheet
  split
  · next h => exact collateSheet_kept (by rw [h]; simp) src sh
  · next h => exact collateSheet_kept (by rw [h]; simp) src sh
  · next h => exact lateSheet_kept (by rw [h]; simp) src sh
  · exact (dropUnexpected_shifts ..).kept

end

end Sys2Proof.Machine
end

section
/-! Outstanding work, answers and requests keep the laws. -/

namespace Sys2Proof.Machine

section
variable {d : Int} {s t u : State}

/-! ## Outstanding work (logs 3 and 4) -/

theorem pushSegment_shifts (s : State) : Shifts 0 s (pushSegment s) := by
  unfold pushSegment
  split
  · split
    · exact .ite (fun h => (shifts_enqueue_management rfl h).trans (.aside rfl rfl rfl rfl rfl)) fun _ => .refl s
    · exact .refl s
  · exact .refl s

theorem pushSegments_shifts (s : State) : Shifts 0 s (pushSegments s) :=
  (((pushSegment_shifts s).trans (pushSegment_shifts _)).trans (pushSegment_shifts _)).trans (pushSegment_shifts _)

theorem appendHeld_shifts (s : State) : Shifts 0 s (appendHeld s) := by
  refine .ite (fun _ => ?_) fun _ => .refl s
  split
  · exact ((appendTrayRec_shifts ..).trans (openTray_shifts ..)).trans (drainTest_shifts _)
  · exact .refl s

theorem appendAllHeld_shifts (n : Nat) (s : State) : Shifts 0 s (appendAllHeld n s) := by
  induction n generalizing s with
  | zero => exact .refl s
  | succ n ih => exact (appendHeld_shifts s).trans (ih _)

theorem feedDeadlines_shifts (l : List (Nat × Nat)) (s : State) : Shifts 0 s (feedDeadlines l s) := by
  induction l generalizing s with
  | nil => exact .refl s
  | cons x xs ih => exact (feedDeadlineAt_shifts ..).trans (ih _)

theorem verifyDeadlines_shifts (l : List Nat) (s : State) : Shifts 0 s (verifyDeadlines l s) := by
  induction l generalizing s with
  | nil => exact .refl s
  | cons k ks ih => exact (verifyDeadlineAt_shifts ..).trans (ih _)

theorem exitDeadlines_shifts (l : List Nat) (s : State) : Shifts 0 s (exitDeadlines l s) := by
  induction l generalizing s with
  | nil => exact .refl s
  | cons k ks ih => exact (exitDeadlineAt_shifts ..).trans (ih _)

theorem allDeadlines_shifts (s : State) : Shifts 0 s (allDeadlines s) :=
  ((feedDeadlines_shifts ..).trans (verifyDeadlines_shifts ..)).trans (exitDeadlines_shifts ..)

theorem shifts_withDue (s : State) (x : Due) : Shifts 0 s (withDue s x) := .aside rfl rfl rfl rfl rfl

theorem dueDeadlines_shifts (s : State) : Shifts 0 s (dueDeadlines s) :=
  .ite (fun _ => (shifts_withDue ..).trans (allDeadlines_shifts _)) fun _ => .refl s

theorem dueMapCopy_shifts (s : State) : Shifts 0 s (dueMapCopy s) :=
  .ite (fun _ => (shifts_withDue ..).trans (mapCopyIfPending_shifts _)) fun _ => .refl s

theorem duePlanCopy_shifts (s : State) : Shifts 0 s (duePlanCopy s) :=
  .ite (fun _ => (shifts_withDue ..).trans (planCopyIfPending_shifts _)) fun _ => .refl s

theorem dueTrayRetry_shifts (s : State) : Shifts 0 s (dueTrayRetry s) :=
  .ite (fun _ => (shifts_withDue ..).trans (retryOwed_shifts ..)) fun _ => .refl s

theorem dueRelease_shifts (s : State) : Shifts 0 s (dueRelease s) := by
  refine .ite (fun _ => ?_) fun _ => .refl s
  refine .ite (fun h => (shifts_withDue ..).trans (releaseHead_shifts fun hi => ?_)) fun _ => shifts_withDue ..
  rw [hi] at h; simp at h

theorem arrivalWork_shifts (s : State) : Shifts 0 s (arrivalWork s) :=
  ((((dueDeadlines_shifts s).trans (dueMapCopy_shifts _)).trans (duePlanCopy_shifts _)).trans (dueTrayRetry_shifts _)).trans
    (dueRelease_shifts _)

theorem settle_shifts (s : State) : Shifts 0 s (settle s) :=
  ((((arrivalWork_shifts s).trans (offerCutter_shifts _)).trans (pushSegments_shifts _)).trans (placeAlert_shifts _)).trans
    (appendAllHeld_shifts ..)

theorem live_kept {f : State → State} (h : LawsKept s (f s)) : LawsKept s (live f s) := .ite (fun _ => .refl s) fun _ => h

theorem event_kept {f : State → State} (h : ∀ u, LawsKept u (f u)) : LawsKept s (event f s) :=
  live_kept ((settle_shifts s).kept.trans (h _))

theorem takePitch_shifts (s : State) : Shifts 0 s (takePitch s) := by
  unfold takePitch
  split
  · exact .aside rfl rfl rfl rfl rfl
  · exact .aside rfl rfl rfl rfl rfl
  · exact raise_shifts ..
  · exact .refl s

/-! ## Answers (R185, R186) -/

/-- The effect of a request keeps the laws. -/
def ActKeeps (act : State → State × Reply) : Prop := ∀ s, LawsKept s (act s).1

theorem respond_shifts (src : Addr) (tag : Tag) (code : Byte) (r : Reply) (s : State) : Shifts 0 s (respond src tag code r s) := by
  have hrp : Shifts 0 s (withRp s { s.rp with response := some ⟨src, tag, 0, cutSegments (replyBody code r).length (replyBody code r)⟩ }) :=
    .aside rfl rfl rfl rfl rfl
  exact (hrp.trans (pushSegments_shifts _)).trans (placeAlert_shifts _)

theorem answer_kept {act : State → State × Reply} (h : ActKeeps act) (src : Addr) (tag : Tag) (code : Byte) (s : State) :
    LawsKept s (answer src tag code act s) := by
  refine .ite (fun _ => ?_) fun _ => .refl s
  have hrp : Shifts 0 s (reserveBuffer src tag s) := .aside rfl rfl rfl rfl rfl
  exact (hrp.kept.trans (h _)).trans (respond_shifts ..).kept

theorem refuse_keeps (x : Status) : ActKeeps (refuse x) := .refl

theorem ActKeeps.ite {c : State → Prop} [DecidablePred c] {act act' : State → State × Reply} (h : ∀ s, c s → LawsKept s (act s).1)
    (h' : ∀ s, ¬c s → LawsKept s (act' s).1) : ActKeeps (fun s => if c s then act s else act' s) := fun s => by
  dsimp only
  split
  · exact h s ‹_›
  · exact h' s ‹_›

theorem idleOnly_keeps {act : State → State × Reply} (h : ActKeeps act) : ActKeeps (idleOnly act) :=
  .ite (fun s _ => h s) fun _ _ => .refl _

/-- A request that is refused unless its arguments pass a test. -/
theorem guarded_keeps {c : Prop} [Decidable c] {x y : State × Reply} (h : c → LawsKept s x.1) (hy : y.1 = s) :
    LawsKept s (if c then x else y).1 := by
  split
  · exact h ‹_›
  · rw [hy]; exact .refl s

theorem sized_keeps {act : State → State × Reply} (h : ActKeeps act) (ok : Bool) : ActKeeps (sized ok act) := fun s =>
  guarded_keeps (fun _ => h s) rfl

/-! ## Requests to the tables -/

theorem actSetLayout_keeps (record : List Byte) : ActKeeps (actSetLayout record) := fun s => by
  refine guarded_keeps (fun _ => Shifts.kept ?_) rfl
  exact .store (fun ⟨h1, h2, h3, _, hs⟩ => ⟨h1, h2, h3, Table.canonical_tputRun ⟨.nil, fun _ h => absurd h List.not_mem_nil⟩ _ _, hs⟩) rfl rfl rfl rfl

theorem actSetTiming_keeps (lr lf lg ls a : Byte) : ActKeeps (actSetTiming lr lf lg ls a) := fun s => by
  unfold actSetTiming
  split
  · exact Shifts.kept (.aside rfl rfl rfl rfl rfl)
  · exact .refl s

theorem actSetSelection_keeps (first count : Byte) (sets : List (BitVec 16)) : ActKeeps (actSetSelection first count sets) := fun s => by
  refine guarded_keeps (fun _ => Shifts.kept ?_) rfl
  exact .store (fun ⟨h1, h2, h3, h4, h5, h6, hs⟩ => ⟨h1, h2, h3, h4, h5, Table.canonical_tputRun h6 _ _, hs⟩) rfl rfl rfl rfl

theorem actSetInserts_keeps (first count : Byte) (entries : List (BitVec 16 × BitVec 16)) :
    ActKeeps (actSetInserts first count entries) := fun s => by
  refine guarded_keeps (fun _ => Shifts.kept ?_) rfl
  exact .store (fun ⟨h1, h2, h3, h4, h5, h6, h7, hs⟩ => ⟨h1, h2, h3, h4, h5, h6, Table.canonical_tputRun h7 _ _, hs⟩) rfl rfl rfl rfl

theorem actSetInsertPolicy_keeps (limit threshold : Byte) (single : Bool) : ActKeeps (actSetInsertPolicy limit threshold single) :=
  fun s => by
  have hiu : Shifts 0 s (withIu s { s.iu with limit := limit.toNat, threshold := threshold.toNat, single := single }) :=
    .aside rfl rfl rfl rfl rfl
  exact guarded_keeps (fun _ => (hiu.trans (reevaluateAll_shifts ..)).kept) rfl

theorem actStageFeederMap_keeps (bank : List (Bool × Byte)) : ActKeeps (actStageFeederMap bank) := fun s => by
  refine guarded_keeps (fun _ => Shifts.kept ?_) rfl
  exact .store (fun ⟨h1, h2, h3, h4, h5, h6, h7, h8, _, hs⟩ =>
    ⟨h1, h2, h3, h4, h5, h6, h7, h8, Table.canonical_tputRun ⟨.nil, fun _ h => absurd h List.not_mem_nil⟩ _ _, hs⟩) rfl rfl rfl rfl

theorem actCommitFeederMap_keeps : ActKeeps actCommitFeederMap :=
  .ite (fun s _ => (mapCopy_shifts s).kept) fun _ _ => Shifts.kept (.aside rfl rfl rfl rfl rfl)

theorem actRestoreFeeder_keeps (feeder : Byte) (reset : Bool) : ActKeeps (actRestoreFeeder feeder reset) := fun _ =>
  guarded_keeps (fun _ => (Shifts.ite (fun _ => (shifts_setFeeder ..).trans (raiseFeederEmpty_shifts ..)) fun _ =>
    shifts_setFeeder ..).kept) rfl

theorem actSetSheetParameters_keeps (mass caliper : BitVec 16) (panels : Byte) : ActKeeps (actSetSheetParameters mass caliper panels) :=
  fun _ => guarded_keeps (fun _ => Shifts.kept (.aside rfl rfl rfl rfl rfl)) rfl

theorem setClassAt_shifts (s : State) (n : Nat) (c : EnvClass) : Shifts 0 s (setClassAt s n c) :=
  .store (fun ⟨h1, h2, h3, h4, h5, h6, h7, h8, h9, h10, h11, hs⟩ =>
    ⟨h1, h2, h3, h4, h5, h6, h7, h8, h9, h10, Table.canonical_tput h11 _ _, hs⟩) rfl rfl rfl rfl

theorem actSetEnvelopeClass_keeps (cls : Byte) (enabled : Bool) (mass wall fill : BitVec 16) :
    ActKeeps (actSetEnvelopeClass cls enabled mass wall fill) := fun _ => by
  refine guarded_keeps (fun _ => ?_) rfl
  split
  · exact guarded_keeps (fun _ => (setClassAt_shifts ..).kept) rfl
  · exact (setClassAt_shifts ..).kept

theorem actSetBands_keeps (count : Byte) (limits : List (BitVec 16)) : ActKeeps (actSetBands count limits) := fun _ =>
  guarded_keeps (fun _ => Shifts.kept (.aside rfl rfl rfl rfl rfl)) rfl

theorem actStageSortElements_keeps (first count : Byte) (elements : List ElementRecord) :
    ActKeeps (actStageSortElements first count elements) := fun s => by
  refine guarded_keeps (fun _ => ?_) rfl
  split
  · exact Shifts.kept (.store (fun ⟨h1, h2, h3, h4, h5, h6, h7, h8, h9, h10, h11, h12, h13, h14⟩ =>
      ⟨h1, h2, h3, h4, h5, h6, h7, h8, h9, h10, h11, h12, Table.canonical_tputRun h13 _ _, h14⟩) rfl rfl rfl rfl)
  · exact .refl s

theorem actSetFallback_keeps (action : Byte) : ActKeeps (actSetFallback action) := fun s => by
  unfold actSetFallback
  split
  · exact Shifts.kept (.aside rfl rfl rfl rfl rfl)
  · exact .refl s

theorem actCommitSortPlan_keeps : ActKeeps actCommitSortPlan := fun s => by
  unfold actCommitSortPlan
  split
  · have h := (planCopy_shifts s).kept
    simpa only [doneWith] using h
  · exact Shifts.kept (.aside rfl rfl rfl rfl rfl)

theorem applyLimits_keeps (b : Nat) (l : Option Limits) : ActKeeps (applyLimits b l) := fun s => by
  unfold applyLimits
  dsimp only
  split
  · exact .refl s
  · exact ((shifts_setBin ..).trans (openTray_shifts ..)).kept
  · refine guarded_keeps (fun _ => ?_) rfl
    split
    · exact (shifts_setBin ..).kept
    · exact (shifts_setBin ..).kept
  · exact .refl s

theorem actSetBinLimits_keeps (bin : Byte) (disabled : Bool) (maxCount : BitVec 16) (maxMass : BitVec 24) (minCount : BitVec 16) :
    ActKeeps (actSetBinLimits bin disabled maxCount maxMass minCount) := fun s => by
  unfold actSetBinLimits
  split
  · exact .refl s
  · split
    · exact applyLimits_keeps ..
    · split
      · exact applyLimits_keeps ..
      · exact .refl s

theorem setWindowAt_shifts (s : State) (n : Nat) (w : Window) : Shifts 0 s (setWindowAt s n w) :=
  .store (fun ⟨h1, h2, hs⟩ => ⟨h1, Table.canonical_tput h2 _ _, hs⟩) rfl rfl rfl rfl

theorem actSetWindow_keeps (window : Byte) (enabled : Bool) (base : PieceId) (k mode : Byte) (start : BitVec 16) :
    ActKeeps (actSetWindow window enabled base k mode start) := fun s => by
  refine guarded_keeps (fun _ => ?_) rfl
  split
  · split
    · exact (setWindowAt_shifts ..).kept
    · exact .refl s
  · exact (setWindowAt_shifts ..).kept

theorem actWriteMapEntries_keeps (first : BitVec 16) (count : Byte) (entries : List (Bool × BitVec 16)) :
    ActKeeps (actWriteMapEntries first count entries) := fun s => by
  refine guarded_keeps (fun _ => Shifts.kept ?_) rfl
  exact .store (fun ⟨h1, h2, h3, hs⟩ => ⟨h1, h2, Table.canonical_tputRun h3 _ _, hs⟩) rfl rfl rfl rfl

theorem actLoadDescriptors_keeps (count : Byte) (records : List DescriptorRecord) : ActKeeps (actLoadDescriptors count records) :=
  fun _ => guarded_keeps (fun _ => (loadBatch_shifts ..).kept) rfl

theorem actRetire_keeps (first last : BitVec 16) : ActKeeps (actRetire first last) := fun s => by
  refine guarded_keeps (fun _ => Shifts.kept ?_) rfl
  exact .store (fun ⟨h1, hs⟩ => ⟨Table.canonical_filter h1 _, hs⟩) rfl rfl rfl rfl

/-! ## Reads and drains -/

theorem actReadDescriptor_keeps (slot : BitVec 16) : ActKeeps (actReadDescriptor slot) := fun s => guarded_keeps (fun _ => .refl s) rfl

theorem actReadInsertTables_keeps (first : BitVec 16) : ActKeeps (actReadInsertTables first) := fun s =>
  guarded_keeps (fun _ => .refl s) rfl

theorem actReadTrack_keeps (slot : Option Byte) : ActKeeps (actReadTrack slot) := fun s => by
  unfold actReadTrack
  split
  · exact .refl s
  · exact guarded_keeps (fun _ => .refl s) rfl

theorem actReadSortPlan_keeps (bank first count : Byte) : ActKeeps (actReadSortPlan bank first count) := fun s => by
  unfold actReadSortPlan
  split
  · exact .refl s
  · exact guarded_keeps (fun _ => .refl s) rfl

theorem actTrySortKey_keeps (key : BitVec 32) (band service : Byte) : ActKeeps (actTrySortKey key band service) := fun s => by
  unfold actTrySortKey
  split
  · exact .refl s
  · exact guarded_keeps (fun _ => .refl s) rfl

theorem actFindPiece_keeps (id : PieceId) : ActKeeps (actFindPiece id) := fun s => by
  unfold actFindPiece
  split
  · exact .refl s
  · exact .refl s

theorem actReadTrays_keeps (count : Byte) : ActKeeps (actReadTrays count) := fun _ =>
  guarded_keeps (fun _ => Shifts.kept (.aside rfl rfl rfl rfl rfl)) rfl

theorem drainOne_shifts (s : State) : Shifts 0 s (drainOne s) := by
  unfold drainOne
  split
  · exact .refl s
  · next e rest hl =>
    have hlog : Shifts 0 s (withCl s { s.cl with log := rest }) := by
      refine ⟨tablesLaw_congr rfl rfl, queueLaw_congr rfl, booksLaw_congr rfl, fun n ⟨h1, h2, h3, h4, h5⟩ => ?_⟩
      rw [Int.add_zero]
      refine ⟨h1, h2, ?_, h4, h5⟩
      show (rest.length : Int) + inFlight s + n ≤ 1024
      rw [hl, List.length_cons] at h3; push_cast at h3; omega
    exact (hlog.trans (cutterTest_shifts _)).trans (freeDrained_shifts ..)

theorem drainMany_shifts (n : Nat) (s : State) : Shifts 0 s (drainMany n s) := by
  induction n generalizing s with
  | zero => exact .refl s
  | succ n ih => exact (drainOne_shifts s).trans (ih _)

theorem actReadCompletions_keeps (count : Byte) : ActKeeps (actReadCompletions count) := fun _ =>
  guarded_keeps (fun _ => (drainMany_shifts ..).kept) rfl

theorem clearFlags_shifts (named : BitVec 18) (s : State) : Shifts 0 s (clearFlags named s) :=
  .ite (fun h => shifts_summary (s := s) fun _ => ⟨iff_of_false (fun h' => nomatch h') (not_not_intro h), fun h' => nomatch h'⟩)
    fun h => shifts_summary (s := s) (c := s.cl.capture) fun ⟨_, _, _, h4, _⟩ =>
      ⟨iff_of_true (h4.mpr fun h0 => h (by rw [h0]; exact BitVec.zero_and)) h, fun _ => h⟩

theorem actClearSummary_keeps (flags : BitVec 24) : ActKeeps (actClearSummary flags) := fun _ =>
  guarded_keeps (fun _ => (clearFlags_shifts ..).kept) rfl

end

end Sys2Proof.Machine
end

section
/-! The requests to run control, the reports and the ring port keep the laws, and so does every command. -/

namespace Sys2Proof.Machine

section
variable {s t u : State}

/-! ## START RUN, END RUN, STOP, RESUME -/

/-- The counts of a new run are 0, as the exits of IDLE are with no piece in flight. -/
theorem startNumbers_kept (hs : s.rc.state = .idle) : LawsKept s (startNumbers s) := by
  refine ⟨tablesLaw_congr rfl rfl, fun ⟨h1, h2, h3, _, h5⟩ => ⟨h1, h2, h3, ?_, h5⟩, queueLaw_congr rfl,
    fun ⟨_, h2, h3, h4, h5⟩ => ⟨rfl, h2, h3, h4, h5⟩⟩
  have hf : inFlight (startNumbers s) = 0 := h5 hs
  rw [hf]; rfl

theorem shifts_brCounts (s : State) : Shifts 0 s (withBu s { s.bu with brCount := 0, brMass := 0 }) := .aside rfl rfl rfl rfl rfl

theorem startTrays_shifts (s : State) : Shifts 0 s (startTrays s) := by
  have hseq : Shifts 0 s (withBu s { s.bu with nextSeq := 1#16 }) := .aside rfl rfl rfl rfl rfl
  have h := (hseq.trans (startBins_shifts allBins _)).trans (shifts_brCounts _)
  simpa only [startTrays] using h

/-- The run RUNNING, with no resume state. -/
theorem shifts_running (s : State) : Shifts 0 s (withRc s { s.rc with state := .running, resume := none }) :=
  shifts_withRc (fun h => nomatch h) fun _ => ⟨iff_of_false (fun h => nomatch h) (fun h => nomatch h), fun _ h => nomatch h⟩

/-- A pending cutter command withdrawn. -/
theorem shifts_noPending (s : State) : Shifts 0 s (withCu s { s.cu with pendingCutter := none }) := .aside rfl rfl rfl rfl rfl

theorem startState_shifts (s : State) : Shifts 0 s (startState s) := by
  have hraise : ∀ u, Shifts 0 u (if headroom u ≤ Config.lowHeadroom then raise .logHeadroom none none none u else u) := fun u =>
    .ite (fun _ => raise_shifts ..) fun _ => .refl u
  have h := ((shifts_running s).trans (shifts_noPending _)).trans (hraise _)
  exact h.trans (cutterTest_shifts _)

theorem actStartRun_keeps : ActKeeps (idleOnly actStartRun) := by
  refine ActKeeps.ite (fun s hs => ?_) fun s _ => .refl s
  unfold actStartRun
  split
  · exact .refl s
  · have h := ((startNumbers_kept hs).trans (startTrays_shifts _).kept).trans (startState_shifts _).kept
    simpa only [doneWith, startedRun] using h

theorem actEndRun_keeps : ActKeeps actEndRun := fun s => by
  unfold actEndRun
  split
  · next hs =>
    have hrc : Shifts 0 s (withRc s { s.rc with state := .draining }) := shifts_withRc (fun h => nomatch h) fun ⟨_, h2, h3, _⟩ =>
      ⟨iff_of_false (fun h => nomatch hs.symm.trans (h2.mp h)) (fun h => nomatch h), h3⟩
    exact (((hrc.trans (queueCutter_shifts ..)).trans (completeAtEnd_shifts _)).trans (flightChanged_shifts _)).kept
  · next hs _ =>
    have hrc : Shifts 0 s (withRc s { s.rc with resume := some .draining }) :=
      shifts_withRc (fun h => nomatch hs.symm.trans h) fun _ => ⟨iff_of_true rfl hs, fun _ h => .inr (Option.some.inj h).symm⟩
    exact ((hrc.trans (queueCutter_shifts ..)).trans (completeAtEnd_shifts _)).kept
  · exact .refl s

theorem actStop_keeps (src : Addr) : ActKeeps (actStop src) := .ite (fun s _ => .refl s) fun _ _ => (runStop_shifts ..).kept

theorem resumeRunning_shifts (s : State) : Shifts 0 s (resumeRunning s) := by
  have hgo : ∀ u, Shifts 0 u (if goCondition u then withCu u { u.cu with pendingCutter := none } else u) := fun u =>
    .ite (fun _ => shifts_noPending u) fun _ => .refl u
  exact ((shifts_running s).trans (hgo _)).trans (cutterTest_shifts _)

theorem resumeDraining_shifts (s : State) : Shifts 0 s (resumeDraining s) := by
  have hrc : Shifts 0 s (withRc s { s.rc with state := .draining, resume := none }) :=
    shifts_withRc (fun h => nomatch h) fun _ => ⟨iff_of_false (fun h => nomatch h) (fun h => nomatch h), fun _ h => nomatch h⟩
  exact (hrc.trans (completeAtEnd_shifts _)).trans (flightChanged_shifts _)

theorem actResume_keeps : ActKeeps actResume := fun s => by
  unfold actResume
  split
  · exact (resumeDraining_shifts s).kept
  · exact (resumeRunning_shifts s).kept
  · exact .refl s

/-! ## DECLARE REMOVED and ABORT RUN -/

theorem actDeclareRemoved_keeps (range : Bool) (lo hi : Byte) (accumulator : Bool) : ActKeeps (actDeclareRemoved range lo hi accumulator) :=
  fun _ => guarded_keeps (fun _ => guarded_keeps (fun _ => ((removePieces_shifts ..).trans
    (.ite (fun _ => removeSets_shifts _) fun _ => .refl _)).kept) rfl) rfl

theorem PiecesRemoved.pieceAt {ks : List Nat} (h : PiecesRemoved ks u t) (k : Nat) :
    pieceAt t k = if k ∈ ks then none else pieceAt u k := by
  induction ks generalizing u with
  | nil => cases h; simp
  | cons j js ih =>
    obtain ⟨p, m, -, ⟨hj, hother, -⟩, -, -, -, hm⟩ := h
    rw [ih hm]
    by_cases hkj : k = j
    · subst hkj; simp [hj]
    · simp only [hother k hkj, List.mem_cons, hkj, false_or]

/-- With every piece of the track taken out in STOPPED, the ring is empty. -/
theorem ring_removePieces (hc : Table.canonical none s.tu.ring) (hs : s.rc.state = .stopped) :
    (removePieces (trackSlots s) s).tu.ring = [] := by
  obtain ⟨hn, hmem, -⟩ := trackSlots_order hc
  have hr := removePieces_spec hn hc hs fun k hk => ((hmem k).mp hk).1
  have hnone : ∀ k, pieceAt (removePieces (trackSlots s) s) k = none := fun k => by
    rw [hr.pieceAt]
    split
    · rfl
    · next hk => exact Option.not_isSome_iff_eq_none.mp fun h => hk ((hmem k).mpr ⟨h, trivial⟩)
  have hring : Table.canonical none (removePieces (trackSlots s) s).tu.ring := by
    have : ∀ (l : List Nat) (s : State), Table.canonical none s.tu.ring → Table.canonical none (removePieces l s).tu.ring := by
      intro l
      induction l with
      | nil => exact fun _ h => h
      | cons k ks ih => exact fun s h => ih _ (leaveWithout_ring h ..)
    exact this _ s hc
  refine List.eq_nil_iff_forall_not_mem.mpr fun e he => ?_
  have h := tget_of_mem hring he
  exact hring.2 e he (h.symm.trans (hnone e.1))

theorem removeSets_inFlight (s : State) : inFlight (removeSets s) = s.tu.ring.length := by
  simp [removeSets, inFlight]

/-- IDLE entered with no piece in flight. -/
theorem idled_kept (h : LawsKept s t) (hf : LogLaw s → inFlight t = 0) :
    LawsKept s (withRc t { t.rc with state := .idle, resume := none }) := by
  refine ⟨tablesLaw_congr rfl rfl ∘ h.tables, fun hl => ?_, queueLaw_congr rfl ∘ h.queues, fun hb => ?_⟩
  · obtain ⟨h1, h2, h3, h4, -⟩ := h.log hl
    exact ⟨h1, h2, h3, h4, fun _ => hf hl⟩
  · obtain ⟨h1, -, -, h4⟩ := h.books hb
    exact ⟨h1, iff_of_false (fun h => nomatch h) (fun h => nomatch h), fun _ h => (nomatch h), h4⟩

theorem abortEnd_kept (h : LawsKept s t) (hf : LogLaw s → inFlight t = 0) : LawsKept s (abortEnd t) := by
  have hclose : LawsKept s (runEndClose t) := h.trans (runEndClose_shifts t).kept
  have hidle := idled_kept hclose fun hl => by
    have : inFlight (runEndClose t) = inFlight t := by simp [inFlight]
    rw [this]; exact hf hl
  have hend := hidle.trans ((mapCopyIfPending_shifts _).trans (planCopyIfPending_shifts _)).kept
  simpa only [abortEnd] using hend

theorem abortedRun_kept (hs : s.rc.state = .stopped) : LawsKept s (abortedRun s) :=
  abortEnd_kept ((removePieces_shifts _ s).trans (removeSets_shifts _)).kept fun ⟨hc, _⟩ => by
    rw [removeSets_inFlight, ring_removePieces hc hs]; rfl

theorem actAbortRun_keeps : ActKeeps actAbortRun := fun s => by
  unfold actAbortRun
  split
  · have h := abortedRun_kept ‹_›
    simpa only using h
  · exact .refl s

/-! ## RESTART and the reset line -/

theorem restartSlots_canonical {x : Table (Option Descriptor)} (h : Table.canonical none x) : Table.canonical none (restartSlots x) := by
  have hkeys : (x.map (fun e => (e.1, e.2.bind restartDescriptor))).map Prod.fst = x.map Prod.fst := by simp
  refine ⟨(hkeys ▸ h.1 : List.Pairwise _ _).sublist (List.filter_sublist.map _), fun e he => ?_⟩
  have hsome := (List.mem_filter.mp he).2
  intro h; rw [h] at hsome; cases hsome

theorem countP_keepBegun (p : Frame → Bool) (b : Bool) (q : List Frame) : (keepBegun b q).countP p ≤ q.countP p := by
  cases b
  · exact Nat.zero_le _
  · exact (List.take_sublist 1 q).countP_le

theorem length_keepBegun {α : Type} (b : Bool) (q : List α) : (keepBegun b q).length ≤ q.length := by
  cases b
  · exact Nat.zero_le _
  · exact (List.take_sublist 1 q).length_le

theorem restartBlocks_kept (s : State) : LawsKept s (restartBlocks s) := by
  refine ⟨fun ⟨h1, h2, h3, h4, _, hs⟩ => ⟨restartSlots_canonical h1, h2, h3, h4, ⟨.nil, fun _ h => absurd h List.not_mem_nil⟩, hs⟩, ?_, ?_, ?_⟩
  · exact fun _ => ⟨⟨.nil, fun _ h => absurd h List.not_mem_nil⟩, fun _ h => absurd h List.not_mem_nil, Nat.zero_le _, rfl, fun _ => rfl⟩
  · exact fun ⟨h1, h2, h3⟩ => ⟨(countP_keepBegun ..).trans h1, (countP_keepBegun ..).trans h2, (length_keepBegun ..).trans h3⟩
  · exact fun _ => ⟨rfl, iff_of_false (fun h => nomatch h) (fun h => nomatch h), fun _ h => (nomatch h),
      iff_of_false (fun h => nomatch h) (fun h => h rfl), fun h => nomatch h⟩

theorem actRestart_keeps : ActKeeps actRestart := fun s =>
  (restartBlocks_kept s).trans ((restartFeeders_shifts _ _).trans (restartBins_shifts _ _)).kept

end

end Sys2Proof.Machine
end

section
/-! The reports, the ring port and every command keep the laws (O57-O60). -/

namespace Sys2Proof.Machine

section
variable {s t : State}

/-! ## Reports -/

theorem dropSource_shifts (src : Addr) (s : State) : Shifts 0 s (dropSource src s) :=
  .ite (fun _ => dropUnexpected_shifts ..) fun _ => raise_shifts ..

theorem sheetReport_kept (src : Addr) (id : PieceId) (index count : Byte) (s : State) : LawsKept s (sheetReport src id index count s) :=
  .ite (fun _ => takeSheet_kept ..) fun _ => (dropSource_shifts ..).kept

/-- A report that its stamp drops only takes a cause. -/
theorem resolveReport_dropped {src : Addr} {q : Nat} {st : Stamp} (h : resolveReport src q st s = .dropped t) : Shifts 0 s t := by
  unfold resolveReport at h
  dsimp only at h
  split at h
  · cases h; exact raise_shifts ..
  · split at h
    · cases h; exact raise_shifts ..
    · split at h
      · cases h; exact raise_shifts ..
      · split at h <;> cases h

theorem resolveReport_applied {src : Addr} {q : Nat} {st : Stamp} {P : Pitch} {k : Nat} {p : Piece}
    (h : resolveReport src q st s = .applied P k p) : pieceAt s k = some p := by
  unfold resolveReport at h
  dsimp only at h
  split at h
  · cases h
  · split at h
    · cases h
    · split at h
      · cases h
      · split at h
        · next hp =>
          cases h
          unfold targetPiece at hp
          split at hp
          · next hq =>
            split at hp
            · cases hp; exact hq
            · cases hp
          · cases hp
        · cases h

theorem feedReport_shifts (src : Addr) (stamp : Stamp) (outcome : Byte) (s : State) : Shifts 0 s (feedReport src stamp outcome s) := by
  unfold feedReport
  split
  · split
    · exact resolveReport_dropped ‹_›
    · exact raise_shifts ..
    · exact applyFeed_shifts ..
  · exact dropSource_shifts ..

theorem materialReport_shifts (src : Addr) (level : Byte) (s : State) : Shifts 0 s (materialReport src level s) := by
  unfold materialReport
  split
  · exact takeMaterial_shifts ..
  · exact raise_shifts ..
  · exact dropSource_shifts ..

theorem readReport_shifts (src : Addr) (stamp : Stamp) (id : PieceId) (s : State) : Shifts 0 s (readReport src stamp id s) := by
  refine .ite (fun _ => ?_) fun _ => dropSource_shifts ..
  split
  · exact resolveReport_dropped ‹_›
  · exact .ite (fun _ => (raise_shifts ..).trans (runStop_shifts ..)) fun _ => raise_shifts ..
  · exact .ite (fun _ => takeRead_shifts ..) fun _ => raise_shifts ..

theorem landedAt_shifts (src : Addr) (q : Nat) (stamp : Stamp) (place : Place) (s : State) : Shifts 0 s (landedAt src q stamp place s) := by
  unfold landedAt
  split
  · exact resolveReport_dropped ‹_›
  · exact raise_shifts ..
  · next hr => exact leaveLanded_shifts (resolveReport_applied hr) ..

theorem landedReport_shifts (src : Addr) (stamp : Stamp) (place : Byte) (s : State) : Shifts 0 s (landedReport src stamp place s) := by
  unfold landedReport
  split
  · exact dropSource_shifts ..
  · split
    · exact landedAt_shifts ..
    · exact dropSource_shifts ..

theorem trayReadyReport_shifts (src : Addr) (bin : Byte) (s : State) : Shifts 0 s (trayReadyReport src bin s) := by
  refine .ite (fun _ => ?_) fun _ => dropSource_shifts ..
  split
  · unfold takeTrayReady
    split
    · exact (exchangeTray_shifts ..).trans (drainTest_shifts _)
    · exact raise_shifts ..
  · exact raise_shifts ..

theorem jamReport_shifts (src : Addr) (s : State) : Shifts 0 s (jamReport src s) :=
  .ite (fun _ => .ite (fun _ => raise_shifts ..) fun _ => (raise_shifts ..).trans (runStop_shifts ..)) fun _ => dropSource_shifts ..

/-! ## Requests by their bodies -/

theorem ofLength_keeps {act act' : State → State × Reply} {a : List Byte} {n : Nat} (h : ActKeeps act) (he : ofLength a n act = some act') :
    ActKeeps act' := by
  unfold ofLength at he
  split at he
  · cases he; exact h
  · cases he

theorem requestEffect_keeps {src : Addr} {code : Nat} {a : List Byte} {act : State → State × Reply}
    (h : requestEffect src code a = some act) : ActKeeps act := by
  unfold requestEffect at h
  split at h
  case h_1 => exact ofLength_keeps (idleOnly_keeps (actSetWindow_keeps _ _ _ _ _ _)) h
  case h_2 => exact ofLength_keeps (actWriteMapEntries_keeps _ _ _) h
  case h_3 => exact ofLength_keeps (actLoadDescriptors_keeps _ _) h
  case h_4 => exact ofLength_keeps (actRetire_keeps _ _) h
  case h_5 => exact ofLength_keeps (actReadDescriptor_keeps _) h
  case h_6 => exact ofLength_keeps (actFindPiece_keeps _) h
  case h_7 => exact ofLength_keeps (idleOnly_keeps (actSetLayout_keeps _)) h
  case h_8 => exact ofLength_keeps (fun s => .refl s) h
  case h_9 => exact ofLength_keeps (idleOnly_keeps (actSetTiming_keeps _ _ _ _ _)) h
  case h_10 =>
    split at h
    · cases h; exact actReadTrack_keeps _
    · exact ofLength_keeps (actReadTrack_keeps _) h
  case h_11 => exact ofLength_keeps (idleOnly_keeps (actSetSelection_keeps _ _ _)) h
  case h_12 => exact ofLength_keeps (idleOnly_keeps (actSetInserts_keeps _ _ _)) h
  case h_13 => exact ofLength_keeps (idleOnly_keeps (actSetInsertPolicy_keeps _ _ _)) h
  case h_14 => exact ofLength_keeps (actStageFeederMap_keeps _) h
  case h_15 => exact ofLength_keeps actCommitFeederMap_keeps h
  case h_16 => exact ofLength_keeps (actRestoreFeeder_keeps _ _) h
  case h_17 => exact ofLength_keeps (fun s => .refl s) h
  case h_18 => exact ofLength_keeps (actReadInsertTables_keeps _) h
  case h_19 => exact ofLength_keeps (idleOnly_keeps (actSetSheetParameters_keeps _ _ _)) h
  case h_20 => exact ofLength_keeps (idleOnly_keeps (actSetEnvelopeClass_keeps _ _ _ _ _)) h
  case h_21 => exact ofLength_keeps (idleOnly_keeps (actSetBands_keeps _ _)) h
  case h_22 => exact ofLength_keeps (fun s => .refl s) h
  case h_23 => exact ofLength_keeps (actStageSortElements_keeps _ _ _) h
  case h_24 => exact ofLength_keeps (idleOnly_keeps (actSetFallback_keeps _)) h
  case h_25 => exact ofLength_keeps actCommitSortPlan_keeps h
  case h_26 => exact ofLength_keeps (actReadSortPlan_keeps _ _ _) h
  case h_27 => exact ofLength_keeps (actTrySortKey_keeps _ _ _) h
  case h_28 => exact ofLength_keeps (actSetBinLimits_keeps _ _ _ _ _) h
  case h_29 => exact ofLength_keeps (actReadTrays_keeps _) h
  case h_30 => exact ofLength_keeps (fun s => .refl s) h
  case h_31 => exact ofLength_keeps actStartRun_keeps h
  case h_32 => exact ofLength_keeps actEndRun_keeps h
  case h_33 => exact ofLength_keeps (actStop_keeps src) h
  case h_34 => exact ofLength_keeps actResume_keeps h
  case h_35 => exact ofLength_keeps (actDeclareRemoved_keeps _ _ _ _) h
  case h_36 => exact ofLength_keeps actAbortRun_keeps h
  case h_37 => exact ofLength_keeps actRestart_keeps h
  case h_38 => exact ofLength_keeps (fun s => .refl s) h
  case h_39 => exact ofLength_keeps (actReadCompletions_keeps _) h
  case h_40 => exact ofLength_keeps (fun s => .refl s) h
  case h_41 => exact ofLength_keeps (actClearSummary_keeps _) h
  case h_42 => exact ofLength_keeps (fun s => .refl s) h
  case h_43 => exact ofLength_keeps (fun s => .refl s) h
  case h_44 => cases h

theorem bodyEffect_keeps (src : Addr) (body : List Byte) : ActKeeps (bodyEffect src body) := by
  unfold bodyEffect
  split
  · exact refuse_keeps _
  · next c a =>
    split
    · cases he : requestEffect src c.toNat a with
      | none => exact refuse_keeps _
      | some act => exact requestEffect_keeps he
    · exact refuse_keeps _

/-! ## Segments and frames -/

theorem setAssembly_shifts (s : State) (x : Option Assembly) : Shifts 0 s (setAssembly s x) := .aside rfl rfl rfl rfl rfl

theorem addSegment_kept (src : Addr) (tag : Tag) (n : Nat) (last : Bool) (body : List Byte) (s : State) :
    LawsKept s (addSegment src tag n last body s) :=
  .ite (fun _ => (setAssembly_shifts s none).kept.trans (answer_kept (bodyEffect_keeps src body) ..)) fun _ =>
    (setAssembly_shifts ..).kept

theorem takeSegment_kept (src : Addr) (tag : Tag) (segment : Byte) (body : List Byte) (s : State) :
    LawsKept s (takeSegment src tag segment body s) := by
  refine .ite (fun _ => addSegment_kept ..) fun _ => ?_
  split
  · exact .ite (fun _ => addSegment_kept ..) fun _ => (raise_shifts ..).kept
  · exact (raise_shifts ..).kept

theorem consume_kept (src : Addr) (kind : Byte) (stamp : Stamp) (x : List Byte) (s : State) :
    LawsKept s (consume src kind stamp x s) := by
  unfold consume
  split
  · exact sheetReport_kept ..
  · exact (feedReport_shifts ..).kept
  · exact (materialReport_shifts ..).kept
  · exact (readReport_shifts ..).kept
  · exact (landedReport_shifts ..).kept
  · exact (trayReadyReport_shifts ..).kept
  · exact (jamReport_shifts ..).kept
  · exact .ite (fun _ => takeSegment_kept ..) fun _ => (raise_shifts ..).kept
  · exact (raise_shifts ..).kept

/-- The queues of the ring port changed, within their places. -/
theorem shifts_queues {x : Rp} (h : QueueLaw s → QueueLaw (withRp s x)) : Shifts 0 s (withRp s x) :=
  ⟨tablesLaw_congr rfl rfl, h, booksLaw_congr rfl, fun n hn => by rw [Int.add_zero]; exact flightLaw_congr rfl rfl hn⟩

theorem forwardFrame_shifts (src : Addr) (bytes : List Byte) (s : State) : Shifts 0 s (forwardFrame src bytes s) := by
  refine .ite (fun h => shifts_queues fun ⟨h1, h2, _⟩ => ⟨h1, h2, ?_⟩) fun _ => raise_shifts ..
  show (s.rp.forward ++ [bytes]).length ≤ Config.forwardQueue
  rw [List.length_append]; exact h

theorem takeFrame_kept (bytes : List Byte) (s : State) : LawsKept s (takeFrame bytes s) :=
  .ite (fun _ => .ite (fun _ => .refl s) fun _ => .ite (fun _ => consume_kept ..) fun _ => (forwardFrame_shifts ..).kept) fun _ =>
    (raise_shifts ..).kept

theorem beginSend_shifts (s : State) : Shifts 0 s (beginSend s) := by
  unfold beginSend
  split
  · exact .aside rfl rfl rfl rfl rfl
  · exact .refl s

theorem finishSend_shifts (s : State) : Shifts 0 s (finishSend s) := by
  unfold finishSend
  split
  · exact shifts_queues fun ⟨h1, h2, h3⟩ => ⟨h1, h2, (List.tail_sublist _).length_le.trans h3⟩
  · exact shifts_queues fun ⟨h1, h2, h3⟩ =>
      ⟨(List.tail_sublist _).countP_le.trans h1, (List.tail_sublist _).countP_le.trans h2, h3⟩
  · exact .refl s

/-! ## Commands -/

theorem nil_canonical {α : Type} [DecidableEq α] {z : α} : Table.canonical z [] := ⟨.nil, fun _ h => absurd h List.not_mem_nil⟩

theorem reset_tables : TablesLaw State.reset :=
  ⟨nil_canonical, nil_canonical, nil_canonical, nil_canonical, nil_canonical, nil_canonical, nil_canonical, nil_canonical, nil_canonical,
    nil_canonical, nil_canonical, nil_canonical, nil_canonical, nil_canonical⟩

theorem reset_log : LogLaw State.reset :=
  ⟨nil_canonical, fun _ h => absurd h List.not_mem_nil, Nat.zero_le _, rfl, fun _ => rfl⟩

theorem reset_queues : QueueLaw State.reset := ⟨Nat.zero_le _, Nat.zero_le _, Nat.zero_le _⟩

theorem reset_books : BooksLaw State.reset :=
  ⟨rfl, iff_of_false (fun h => nomatch h) (fun h => nomatch h), fun _ h => (nomatch h),
    iff_of_false (fun h => nomatch h) (fun h => h rfl), fun h => nomatch h⟩

/-- Power-on reset makes the laws hold, whatever was there before. -/
theorem poweredOn_kept (straps : Addr) (s : State) : LawsKept s (poweredOn straps s) :=
  ⟨fun _ => tablesLaw_congr rfl rfl reset_tables, fun _ => reset_log, fun _ => queueLaw_congr rfl reset_queues,
    fun _ => booksLaw_congr rfl reset_books⟩

theorem offered_kept {f : State → State} (h : Shifts 0 s (f s)) : LawsKept s (live f s) := live_kept h.kept

theorem exitWork_shifts (k : BitVec 6) (s : State) : Shifts 0 s (exitWork k s) := .ite (fun _ => exitDeadlineAt_shifts ..) fun _ => .refl s

theorem feedWork_shifts (k : BitVec 6) (i : BitVec 4) (s : State) : Shifts 0 s (feedWork k i s) :=
  .ite (fun _ => feedDeadlineAt_shifts ..) fun _ => .refl s

theorem verifyWork_shifts (k : BitVec 6) (s : State) : Shifts 0 s (verifyWork k s) :=
  .ite (fun _ => verifyDeadlineAt_shifts ..) fun _ => .refl s

theorem segmentStep_shifts (s : State) : Shifts 0 s (segmentStep s) := (pushSegment_shifts s).trans (placeAlert_shifts _)

/-- A command completes and keeps the laws. -/
def Completes (s : State) (o : Host.Outcome State Fault Refusal) : Prop := ∃ t, o = .next t ∧ LawsKept s t

theorem manage_keeps {act : State → State × Reply} (h : ActKeeps act) (src : Addr) (tag : Tag) (code : Nat) (s : State) :
    Completes s (manage src tag code act s) := ⟨_, rfl, event_kept fun u => answer_kept h src tag _ u⟩

theorem setLayout_keeps (record : List Byte) :
    ActKeeps (if record.length = 36 then idleOnly (actSetLayout record) else refuse .badArgument) := by
  split
  · exact idleOnly_keeps (actSetLayout_keeps record)
  · exact refuse_keeps _

theorem exec_keeps (i : Instr) (s : State) : Completes s (exec i s) :=
  match i with
  | .powerOnReset straps => ⟨_, rfl, poweredOn_kept straps s⟩
  | .resetLineHeld => ⟨_, rfl, Shifts.kept (.aside rfl rfl rfl rfl rfl)⟩
  | .pitchArrival => ⟨_, rfl, event_kept fun u => (takePitch_shifts u).kept⟩
  | .release => ⟨_, rfl, offered_kept (dueRelease_shifts s)⟩
  | .exitDeadline slot => ⟨_, rfl, offered_kept (exitWork_shifts slot s)⟩
  | .feedDeadline slot insert => ⟨_, rfl, offered_kept (feedWork_shifts slot insert s)⟩
  | .verifyDeadline slot => ⟨_, rfl, offered_kept (verifyWork_shifts slot s)⟩
  | .feederMapCopy => ⟨_, rfl, offered_kept (dueMapCopy_shifts s)⟩
  | .sortPlanCopy => ⟨_, rfl, offered_kept (duePlanCopy_shifts s)⟩
  | .trayChangeRetry => ⟨_, rfl, offered_kept (dueTrayRetry_shifts s)⟩
  | .frameArrival bytes => ⟨_, rfl, event_kept fun u => takeFrame_kept bytes u⟩
  | .downstreamSendBegin => ⟨_, rfl, event_kept fun u => (beginSend_shifts u).kept⟩
  | .frameSent => ⟨_, rfl, event_kept fun u => (finishSend_shifts u).kept⟩
  | .pendingCutterCommandQueued => ⟨_, rfl, offered_kept (offerCutter_shifts s)⟩
  | .responseSegmentQueued => ⟨_, rfl, offered_kept (segmentStep_shifts s)⟩
  | .alert => ⟨_, rfl, offered_kept (placeAlert_shifts s)⟩
  | .heldRecordAppended => ⟨_, rfl, offered_kept (appendHeld_shifts s)⟩
  | .sheet src id index count => ⟨_, rfl, event_kept fun u => sheetReport_kept src id index count u⟩
  | .feed src stamp outcome => ⟨_, rfl, event_kept fun u => (feedReport_shifts src stamp outcome u).kept⟩
  | .material src level => ⟨_, rfl, event_kept fun u => (materialReport_shifts src level u).kept⟩
  | .read src stamp id => ⟨_, rfl, event_kept fun u => (readReport_shifts src stamp id u).kept⟩
  | .landed src stamp place => ⟨_, rfl, event_kept fun u => (landedReport_shifts src stamp place u).kept⟩
  | .trayReady src bin => ⟨_, rfl, event_kept fun u => (trayReadyReport_shifts src bin u).kept⟩
  | .jam src => ⟨_, rfl, event_kept fun u => (jamReport_shifts src u).kept⟩
  | .request src tag segment body => ⟨_, rfl, event_kept fun u => takeSegment_kept src tag segment body u⟩
  | .setWindow .. => manage_keeps (idleOnly_keeps (actSetWindow_keeps _ _ _ _ _ _)) ..
  | .writeMapEntries .. => manage_keeps (actWriteMapEntries_keeps _ _ _) ..
  | .loadDescriptors .. => manage_keeps (actLoadDescriptors_keeps _ _) ..
  | .retire .. => manage_keeps (actRetire_keeps _ _) ..
  | .readDescriptor .. => manage_keeps (actReadDescriptor_keeps _) ..
  | .findPiece .. => manage_keeps (actFindPiece_keeps _) ..
  | .setLayout .. => manage_keeps (setLayout_keeps _) ..
  | .readLayout .. => manage_keeps (fun s => .refl s) ..
  | .setTiming .. => manage_keeps (idleOnly_keeps (actSetTiming_keeps _ _ _ _ _)) ..
  | .readTrack .. => manage_keeps (actReadTrack_keeps _) ..
  | .setSelection .. => manage_keeps (sized_keeps (idleOnly_keeps (actSetSelection_keeps _ _ _)) _) ..
  | .setInserts .. => manage_keeps (sized_keeps (idleOnly_keeps (actSetInserts_keeps _ _ _)) _) ..
  | .setInsertPolicy .. => manage_keeps (idleOnly_keeps (actSetInsertPolicy_keeps _ _ _)) ..
  | .stageFeederMap .. => manage_keeps (actStageFeederMap_keeps _) ..
  | .commitFeederMap .. => manage_keeps actCommitFeederMap_keeps ..
  | .restoreFeeder .. => manage_keeps (actRestoreFeeder_keeps _ _) ..
  | .readFeeders .. => manage_keeps (fun s => .refl s) ..
  | .readInsertTables .. => manage_keeps (actReadInsertTables_keeps _) ..
  | .setSheetParameters .. => manage_keeps (idleOnly_keeps (actSetSheetParameters_keeps _ _ _)) ..
  | .setEnvelopeClass .. => manage_keeps (idleOnly_keeps (actSetEnvelopeClass_keeps _ _ _ _ _)) ..
  | .setBands .. => manage_keeps (sized_keeps (idleOnly_keeps (actSetBands_keeps _ _)) _) ..
  | .readPlannerTables .. => manage_keeps (fun s => .refl s) ..
  | .stageSortElements .. => manage_keeps (actStageSortElements_keeps _ _ _) ..
  | .setFallback .. => manage_keeps (idleOnly_keeps (actSetFallback_keeps _)) ..
  | .commitSortPlan .. => manage_keeps actCommitSortPlan_keeps ..
  | .readSortPlan .. => manage_keeps (actReadSortPlan_keeps _ _ _) ..
  | .trySortKey .. => manage_keeps (actTrySortKey_keeps _ _ _) ..
  | .setBinLimits .. => manage_keeps (actSetBinLimits_keeps _ _ _ _ _) ..
  | .readTrays .. => manage_keeps (actReadTrays_keeps _) ..
  | .readBins .. => manage_keeps (fun s => .refl s) ..
  | .startRun .. => manage_keeps actStartRun_keeps ..
  | .endRun .. => manage_keeps actEndRun_keeps ..
  | .stop src _ => manage_keeps (actStop_keeps src) ..
  | .resume .. => manage_keeps actResume_keeps ..
  | .declareRemoved .. => manage_keeps (actDeclareRemoved_keeps _ _ _ _) ..
  | .abortRun .. => manage_keeps actAbortRun_keeps ..
  | .restart .. => manage_keeps actRestart_keeps ..
  | .readRunStatus .. => manage_keeps (fun s => .refl s) ..
  | .readCompletions .. => manage_keeps (actReadCompletions_keeps _) ..
  | .readRunCounters .. => manage_keeps (fun s => .refl s) ..
  | .clearSummary .. => manage_keeps (actClearSummary_keeps _) ..
  | .readSummary .. => manage_keeps (fun s => .refl s) ..
  | .readPort .. => manage_keeps (fun s => .refl s) ..

theorem withPending_kept (s : State) (l : List Instr) : LawsKept s (withPending s l) := Shifts.kept (.aside rfl rfl rfl rfl rfl)

/-- Every step keeps the four laws. -/
theorem step_keeps (h : step s = .next t) : LawsKept s t := by
  unfold step at h
  split at h
  · cases h; exact .refl s
  · next c rest _ =>
    obtain ⟨u, hu, hk⟩ := exec_keeps c (withPending s rest)
    cases hu.symm.trans h
    exact (withPending_kept s rest).trans hk

/-- Settles O57: the stores are written through `tput` and its like alone (`Shifts.tables`, `LawsKept.tables`). -/
theorem everyStepKeepsTablesCanonical : Obligations.EveryStepKeepsTablesCanonical := fun _ _ hs h => (step_keeps h).tables hs

/-- Settles O58, by the strengthened law that counts the pieces between two places (`FlightLaw`). -/
theorem everyStepKeepsCompletionLogLaw : Obligations.EveryStepKeepsCompletionLogLaw := fun _ _ hs h => (step_keeps h).log hs

/-- Settles O59: a frame is queued only into a free entry. -/
theorem everyStepKeepsQueueBounds : Obligations.EveryStepKeepsQueueBounds := fun _ _ hs h => (step_keeps h).queues hs

/-- Settles O60. -/
theorem everyStepKeepsBooks : Obligations.EveryStepKeepsBooks := fun _ _ hs h => (step_keeps h).books hs

/-- Settles O56. -/
theorem deviceLawsHoldAfterReset : Obligations.DeviceLawsHoldAfterReset := ⟨reset_tables, reset_log, reset_queues, reset_books⟩

end

end Sys2Proof.Machine
end

section
/-! Commands in general: the step, the reset line and power-on (R164), requests dropped (R185) and the bodies of requests (R184). -/

namespace Sys2Proof.Machine

/-! ## The step and the reset line -/

/-- Settles O1. -/
theorem stepRunsFrontCommand : Obligations.StepRunsFrontCommand :=
  ⟨fun _ _ _ h => by unfold step; rw [h], fun _ h => by unfold step; rw [h]⟩

theorem live_of_held {f : State → State} {s : State} (h : s.resetHeld = true) : live f s = s := if_pos h

theorem live_of_free {f : State → State} {s : State} (h : s.resetHeld = false) : live f s = f s := if_neg (by simp [h])

/-- Every command but the reset line's own acts only while the line is not held. -/
theorem exec_is_live (c : Instr) (s : State) (hp : ∀ a, c ≠ .powerOnReset a) (hh : c ≠ .resetLineHeld) :
    ∃ f : State → State, exec c s = .next (live f s) := by
  cases c with
  | powerOnReset a => exact absurd rfl (hp a)
  | resetLineHeld => exact absurd rfl hh
  | _ => exact ⟨_, rfl⟩

/-- Settles O2: every other command goes through `live`. -/
theorem heldResetLineStopsCommands : Obligations.HeldResetLineStopsCommands := fun s => by
  refine ⟨rfl, fun h c hp hh => ?_⟩
  obtain ⟨f, hf⟩ := exec_is_live c s hp hh
  rw [hf, live_of_held h]

/-- Settles O3: the fields of `State.reset`, whose stores are empty and so read their defaults everywhere. -/
theorem powerOnResetValues : Obligations.PowerOnResetValues := fun straps s =>
  ⟨poweredOn straps s, rfl, fun _ => rfl, fun _ => rfl, fun _ => rfl, rfl, rfl, fun _ => rfl, rfl, rfl, rfl, rfl, rfl, rfl, rfl, rfl,
    fun _ => rfl, rfl, fun _ => rfl, fun _ => rfl, rfl, rfl, rfl, fun _ => ⟨rfl, rfl⟩, fun _ => rfl, rfl, rfl, rfl, rfl, fun _ => rfl, rfl,
    fun _ => ⟨rfl, rfl⟩, rfl, rfl, rfl, fun _ => rfl, rfl, rfl, rfl, rfl, rfl, rfl, rfl, rfl, rfl, rfl⟩

/-! ## Requests in general -/

/-- Every request is handled by `manage`. -/
theorem exec_is_manage {c : Instr} (h : isRequest c = true) (s : State) : ∃ src tag code act, exec c s = manage src tag code act s := by
  cases c with
  | powerOnReset | pitchArrival | release | exitDeadline | feedDeadline | verifyDeadline | feederMapCopy | sortPlanCopy
  | trayChangeRetry | frameArrival | downstreamSendBegin | frameSent | pendingCutterCommandQueued | responseSegmentQueued | alert
  | sheet | feed | material | read | landed | trayReady | heldRecordAppended | jam | request | resetLineHeld => cases h
  | _ => exact ⟨_, _, _, _, rfl⟩

/-- Settles O22. -/
theorem requestsDroppedWhenNotTaken : Obligations.RequestsDroppedWhenNotTaken := fun c s hc hs ht => by
  obtain ⟨src, tag, code, act, he⟩ := exec_is_manage hc s
  rw [he, manage, event_live hs, answer, if_neg (by simp [ht])]

/-- Settles O21, by the lemma of each command. -/
theorem wellFormedRequestsFit : Obligations.WellFormedRequestsFit := fun i =>
  match i with
  | .powerOnReset .. => Laws.RequestFits.powerOnReset _
  | .pitchArrival => Laws.RequestFits.pitchArrival
  | .release => Laws.RequestFits.release
  | .exitDeadline .. => Laws.RequestFits.exitDeadline _
  | .feedDeadline .. => Laws.RequestFits.feedDeadline _ _
  | .verifyDeadline .. => Laws.RequestFits.verifyDeadline _
  | .feederMapCopy => Laws.RequestFits.feederMapCopy
  | .sortPlanCopy => Laws.RequestFits.sortPlanCopy
  | .trayChangeRetry => Laws.RequestFits.trayChangeRetry
  | .frameArrival .. => Laws.RequestFits.frameArrival _
  | .downstreamSendBegin => Laws.RequestFits.downstreamSendBegin
  | .frameSent => Laws.RequestFits.frameSent
  | .pendingCutterCommandQueued => Laws.RequestFits.pendingCutterCommandQueued
  | .responseSegmentQueued => Laws.RequestFits.responseSegmentQueued
  | .alert => Laws.RequestFits.alert
  | .sheet .. => Laws.RequestFits.sheet _ _ _ _
  | .feed .. => Laws.RequestFits.feed _ _ _
  | .material .. => Laws.RequestFits.material _ _
  | .read .. => Laws.RequestFits.read _ _ _
  | .landed .. => Laws.RequestFits.landed _ _ _
  | .trayReady .. => Laws.RequestFits.trayReady _ _
  | .heldRecordAppended => Laws.RequestFits.heldRecordAppended
  | .jam .. => Laws.RequestFits.jam _
  | .request .. => Laws.RequestFits.request _ _ _ _
  | .setWindow .. => Laws.RequestFits.setWindow _ _ _ _ _ _ _ _
  | .writeMapEntries .. => Laws.RequestFits.writeMapEntries _ _ _ _ _
  | .loadDescriptors .. => Laws.RequestFits.loadDescriptors _ _ _ _
  | .retire .. => Laws.RequestFits.retire _ _ _ _
  | .readDescriptor .. => Laws.RequestFits.readDescriptor _ _ _
  | .findPiece .. => Laws.RequestFits.findPiece _ _ _
  | .setLayout .. => Laws.RequestFits.setLayout _ _ _
  | .readLayout .. => Laws.RequestFits.readLayout _ _
  | .setTiming .. => Laws.RequestFits.setTiming _ _ _ _ _ _ _
  | .readTrack .. => Laws.RequestFits.readTrack _ _ _
  | .setSelection .. => Laws.RequestFits.setSelection _ _ _ _ _
  | .setInserts .. => Laws.RequestFits.setInserts _ _ _ _ _
  | .setInsertPolicy .. => Laws.RequestFits.setInsertPolicy _ _ _ _ _
  | .stageFeederMap .. => Laws.RequestFits.stageFeederMap _ _ _
  | .commitFeederMap .. => Laws.RequestFits.commitFeederMap _ _
  | .restoreFeeder .. => Laws.RequestFits.restoreFeeder _ _ _ _
  | .readFeeders .. => Laws.RequestFits.readFeeders _ _
  | .readInsertTables .. => Laws.RequestFits.readInsertTables _ _ _
  | .setSheetParameters .. => Laws.RequestFits.setSheetParameters _ _ _ _ _
  | .setEnvelopeClass .. => Laws.RequestFits.setEnvelopeClass _ _ _ _ _ _ _
  | .setBands .. => Laws.RequestFits.setBands _ _ _ _
  | .readPlannerTables .. => Laws.RequestFits.readPlannerTables _ _
  | .stageSortElements .. => Laws.RequestFits.stageSortElements _ _ _ _ _
  | .setFallback .. => Laws.RequestFits.setFallback _ _ _
  | .commitSortPlan .. => Laws.RequestFits.commitSortPlan _ _
  | .readSortPlan .. => Laws.RequestFits.readSortPlan _ _ _ _ _
  | .trySortKey .. => Laws.RequestFits.trySortKey _ _ _ _ _
  | .setBinLimits .. => Laws.RequestFits.setBinLimits _ _ _ _ _ _ _
  | .readTrays .. => Laws.RequestFits.readTrays _ _ _
  | .readBins .. => Laws.RequestFits.readBins _ _
  | .startRun .. => Laws.RequestFits.startRun _ _
  | .endRun .. => Laws.RequestFits.endRun _ _
  | .stop .. => Laws.RequestFits.stop _ _
  | .resume .. => Laws.RequestFits.resume _ _
  | .declareRemoved .. => Laws.RequestFits.declareRemoved _ _ _ _ _ _
  | .abortRun .. => Laws.RequestFits.abortRun _ _
  | .restart .. => Laws.RequestFits.restart _ _
  | .readRunStatus .. => Laws.RequestFits.readRunStatus _ _
  | .readCompletions .. => Laws.RequestFits.readCompletions _ _ _
  | .readRunCounters .. => Laws.RequestFits.readRunCounters _ _
  | .clearSummary .. => Laws.RequestFits.clearSummary _ _ _
  | .readSummary .. => Laws.RequestFits.readSummary _ _
  | .readPort .. => Laws.RequestFits.readPort _ _
  | .resetLineHeld => Laws.RequestFits.resetLineHeld

/-! ## The pitch line (R44) and stamps (R56) -/

/-- Settles O4, by the run state. -/
theorem pitchArrivalByRunState : Obligations.PitchArrivalByRunState := fun s hs => by
  refine ⟨takePitch (settle s), congrArg Host.Outcome.next (event_live hs), fun h => ?_, fun h => ?_, fun h => ?_⟩
  · unfold takePitch
    rcases h with h | h <;> rw [h]
  · have hraise : takePitch (settle s) = raise .pitchInStop none (some (settle s).tu.pitch) none (settle s) := by unfold takePitch; rw [h]
    rw [hraise]; exact raise_flagOnly ..
  · unfold takePitch; rw [h]

theorem resolveStamp_some_iff (c : Pitch) (st : Stamp) (P : Pitch) :
    resolveStamp c st = some P ↔ (stampOf (c + 1) - st).toNat ≤ 127 ∧ P = c + 1 - BitVec.ofNat 32 (stampOf (c + 1) - st).toNat := by
  unfold resolveStamp
  dsimp only
  split
  · next h => rw [Option.some.injEq, eq_comm]; exact (and_iff_right h).symm
  · next h => exact iff_of_false (fun h' => nomatch h') fun h' => h h'.1

theorem pitchDiff_window (c P : Pitch) : (-1 ≤ pitchDiff c P ∧ pitchDiff c P ≤ 126) ↔ (c + 1 - P).toNat ≤ 127 := by
  unfold pitchDiff
  rw [BitVec.toInt_eq_toNat_cond]
  split <;> bv_omega

/-- Settles O5: the distance of a pitch back from c + 1 is that of its stamp while it is at most 127. -/
theorem stampResolvesInWindow : Obligations.StampResolvesInWindow := by
  intro c st P
  rw [resolveStamp_some_iff, pitchDiff_window]
  constructor
  · rintro ⟨hb, rfl⟩
    unfold stampOf at *
    exact ⟨by bv_omega, by bv_omega⟩
  · rintro ⟨rfl, hw⟩
    have hback : (stampOf (c + 1) - stampOf P).toNat = (c + 1 - P).toNat := by unfold stampOf; bv_omega
    rw [hback]
    exact ⟨hw, by bv_omega⟩

/-! ## The downstream port (R183) -/

theorem exec_downstreamSendBegin {s : State} (hs : s.resetHeld = false) : exec .downstreamSendBegin s = .next (beginSend (settle s)) :=
  congrArg Host.Outcome.next (event_live hs)

theorem exec_frameSent {s : State} (hs : s.resetHeld = false) : exec .frameSent s = .next (finishSend (settle s)) :=
  congrArg Host.Outcome.next (event_live hs)

/-- The port begins no frame while it sends one, or with both queues empty. -/
theorem beginSend_of_busy {u : State} (h : u.rp.sending ≠ none ∨ (u.rp.forward = [] ∧ u.rp.originate = [])) : beginSend u = u := by
  unfold beginSend
  split
  · next q hs hq =>
    rcases h with h | ⟨hf, ho⟩
    · exact absurd hs h
    · simp [nextPort, hf, ho] at hq
  · rfl

theorem nextPort_forward {x : Rp} (hf : x.forward ≠ []) (h : x.originate = [] ∨ x.turn = .forward) : nextPort x = some .forward := by
  unfold nextPort
  cases h1 : x.forward with
  | nil => exact absurd h1 hf
  | cons a as =>
    cases h2 : x.originate with
    | nil => rfl
    | cons b bs => rcases h with h | h <;> simp_all

theorem nextPort_originate {x : Rp} (ho : x.originate ≠ []) (h : x.forward = [] ∨ x.turn = .originate) :
    nextPort x = some .originate := by
  unfold nextPort
  cases h2 : x.originate with
  | nil => exact absurd h2 ho
  | cons b bs =>
    cases h1 : x.forward with
    | nil => rfl
    | cons a as => rcases h with h | h <;> simp_all

theorem beginSend_of_next {u : State} {q : Port} (hs : u.rp.sending = none) (hq : nextPort u.rp = some q) :
    beginSend u = withRp u { u.rp with sending := some q, turn := otherPort q } := by
  unfold beginSend; rw [hs, hq]

/-- Settles O18: the beginning by the two queues and the turn, the end by the queue being sent from. -/
theorem downstreamPortSendsByTurn : Obligations.DownstreamPortSendsByTurn := fun s hs => by
  refine ⟨⟨_, exec_downstreamSendBegin hs, beginSend_of_busy, fun h hf ht => ?_, fun h ho ht => ?_⟩,
    ⟨_, exec_frameSent hs, fun h => ?_, fun h => ?_, fun h => ?_⟩⟩
  · exact beginSend_of_next h (nextPort_forward hf ht)
  · exact beginSend_of_next h (nextPort_originate ho ht)
  · unfold finishSend; rw [h]
  · unfold finishSend; rw [h]; simp only [List.drop_one]
  · unfold finishSend; rw [h]; simp only [List.drop_one]

/-! ## Received frames (R178-R180) -/

theorem exec_frameArrival {bytes : List Byte} {s : State} (hs : s.resetHeld = false) :
    exec (.frameArrival bytes) s = .next (takeFrame bytes (settle s)) := congrArg Host.Outcome.next (event_live hs)

theorem takeFrame_damaged {bytes : List Byte} (h : ¬FrameIntact bytes) (u : State) :
    takeFrame bytes u = raise .linkCheck none none none u := if_neg (mt (frameGood_iff bytes).mp h)

theorem takeFrame_intact {bytes : List Byte} (h : FrameIntact bytes) (u : State) :
    takeFrame bytes u =
      if u.rp.own ≠ Config.unassigned ∧ addrOf (byteAt bytes 1) = u.rp.own then u
      else if u.rp.own ≠ Config.unassigned ∧ addrOf (byteAt bytes 0) = u.rp.own then
        consume (addrOf (byteAt bytes 1)) (byteAt bytes 2) (byteAt bytes 3) (framePayload bytes) u
      else forwardFrame (addrOf (byteAt bytes 1)) bytes u := if_pos ((frameGood_iff bytes).mpr h)

/-- Settles O16: the check, the own source and the forward queue in turn. -/
theorem frameArrivalChecksAndForwards : Obligations.FrameArrivalChecksAndForwards := fun bytes s hs => by
  refine ⟨_, exec_frameArrival hs, fun h => ?_, fun h hown hsrc => ?_, fun h hother => ?_⟩
  · rw [takeFrame_damaged h]; exact raise_flagOnly ..
  · rw [takeFrame_intact h]; exact if_pos ⟨hown, hsrc⟩
  · have hforward : takeFrame bytes (settle s) = forwardFrame (addrOf (byteAt bytes 1)) bytes (settle s) := by
      rw [takeFrame_intact h]
      rcases hother with h63 | ⟨h1, h0⟩
      · rw [if_neg fun h' => h'.1 h63, if_neg fun h' => h'.1 h63]
      · rw [if_neg fun h' => h1 h'.2, if_neg fun h' => h0 h'.2]
    rw [hforward]
    refine ⟨fun hroom => if_pos hroom, fun hfull => ?_⟩
    have hover : forwardFrame (addrOf (byteAt bytes 1)) bytes (settle s) =
        raise .forwardOverrun (some (addrOf (byteAt bytes 1))) none none (settle s) := if_neg (Nat.not_lt.mpr hfull)
    rw [hover]; exact raise_flagOnly ..

/-! ## Causes (R172, R173, R175) -/

/-- Settles O38, from what a cause does (`raise_flagOnly`). -/
theorem causeSetsFlagAndCapture : Obligations.CauseSetsFlagAndCapture := fun f a p i s => by
  have h := raise_flagOnly f a p i s
  obtain ⟨⟨hsum, -⟩, -, hempty, hfull⟩ := id h
  refine ⟨h, hfull, fun h0 hroom hresp haddr => ?_, fun h0 hwait => (hempty h0).2 hwait⟩
  obtain ⟨hpend, hrp⟩ := (hempty h0).1 hroom hresp haddr
  refine ⟨hpend, ?_⟩
  rw [hrp, hsum, h0, BitVec.zero_or]; rfl

end Sys2Proof.Machine
end

section
/-! The works of an arrival (R61, R73, R84, R115, R127, R142) and what freed entries and places are offered to (R41, R148, R175, R186). -/

namespace Sys2Proof.Machine

section
variable {s : State} {k : Nat} {p : Piece}

/-! ## The works as commands -/

theorem exec_exitDeadline (slot : BitVec 6) (hs : s.resetHeld = false) (hd : s.due.deadlines = true) :
    exec (.exitDeadline slot) s = .next (exitDeadlineAt slot.toNat s) :=
  congrArg Host.Outcome.next ((live_of_free hs).trans (if_pos hd))

theorem exec_feedDeadline (slot : BitVec 6) (insert : BitVec 4) (hs : s.resetHeld = false) (hd : s.due.deadlines = true) :
    exec (.feedDeadline slot insert) s = .next (feedDeadlineAt slot.toNat insert.toNat s) :=
  congrArg Host.Outcome.next ((live_of_free hs).trans (if_pos hd))

theorem exec_verifyDeadline (slot : BitVec 6) (hs : s.resetHeld = false) (hd : s.due.deadlines = true) :
    exec (.verifyDeadline slot) s = .next (verifyDeadlineAt slot.toNat s) :=
  congrArg Host.Outcome.next ((live_of_free hs).trans (if_pos hd))

theorem exec_feederMapCopy (hs : s.resetHeld = false) (hd : s.due.mapCopy = true) (hc : s.iu.commitPending = true) :
    exec .feederMapCopy s = .next (mapCopy (withDue s { s.due with mapCopy := false })) :=
  congrArg Host.Outcome.next (((live_of_free hs).trans (if_pos hd)).trans (if_pos hc))

theorem exec_sortPlanCopy (hs : s.resetHeld = false) (hd : s.due.planCopy = true) (hc : s.su.commitPending = true) :
    exec .sortPlanCopy s = .next (planCopy (withDue s { s.due with planCopy := false })) :=
  congrArg Host.Outcome.next (((live_of_free hs).trans (if_pos hd)).trans (if_pos hc))

theorem exec_trayChangeRetry (hs : s.resetHeld = false) (hd : s.due.trayRetry = true) :
    exec .trayChangeRetry s = .next (retryOwed allBins (withDue s { s.due with trayRetry := false })) :=
  congrArg Host.Outcome.next ((live_of_free hs).trans (if_pos hd))

/-! ## Deadlines (R61, R84, R115) -/

theorem exitDeadlineAt_eq (hp : pieceAt s k = some p) :
    exitDeadlineAt k s = if exitPassed s p then leaveWithout .lost .lost k s else s := by
  unfold exitDeadlineAt; rw [hp]

/-- The position of the station where a piece leaves, by its path (R61). -/
theorem exitPassed_iff (s : State) (p : Piece) : exitPassed s p = true ↔
    ((if p.path = .gate then s.tu.layout.gate.pos else s.tu.layout.sorter.pos : Nat) : Int) + s.tu.timing.allowance <
      pitchDiff s.tu.pitch p.entry := decide_eq_true_iff

/-- Settles O7, by whether the deadline has passed. -/
theorem exitDeadlineLosesPiece : Obligations.ExitDeadlineLosesPiece := fun slot p s hs hd hp hlaw => by
  refine ⟨_, exec_exitDeadline slot hs hd, fun h => ?_, fun h => ?_⟩
  · rw [exitDeadlineAt_eq hp, if_neg (mt (exitPassed_iff s p).mp (by omega))]
  · obtain ⟨_, _, _, _, hring, -⟩ := hlaw
    obtain ⟨m, hleft, hun, hbu, hno, he⟩ := leaveWithout_spec hring hp .lost .lost
    refine ⟨m, hleft, hun, hbu, hno, ?_⟩
    rw [exitDeadlineAt_eq hp, if_pos ((exitPassed_iff s p).mpr h), he]
    exact flightChanged_spec m

theorem feedDeadlineAt_eq {i f : Nat} {e : Planned} (hp : pieceAt s k = some p) (he : p.planned.find? (fun x => x.insert == i) = some e)
    (hf : waitsOn e = some f) :
    feedDeadlineAt k i s = if feedPassed s p f then takeMiss k p e f .noFeedReport s.tu.pitch s else s := by
  unfold feedDeadlineAt; rw [hp]; dsimp only; rw [he]; dsimp only; rw [hf]

theorem feedPassed_iff (s : State) (p : Piece) (f : Nat) :
    feedPassed s p f = true ↔ ((placeAt s f).pos : Int) + s.tu.timing.allowance < pitchDiff s.tu.pitch p.entry := decide_eq_true_iff

/-- Settles O8, by whether the deadline has passed. -/
theorem feedDeadlineCountsMiss : Obligations.FeedDeadlineCountsMiss := fun slot insert p e f s hs hd hp he hf => by
  refine ⟨_, exec_feedDeadline slot insert hs hd, fun h => ?_, fun h => ?_⟩
  · rw [feedDeadlineAt_eq hp he hf, if_neg (mt (feedPassed_iff s p f).mp (by omega))]
  · rw [feedDeadlineAt_eq hp he hf, if_pos ((feedPassed_iff s p f).mpr h)]
    exact takeMiss_spec hp f .noFeedReport s.tu.pitch

theorem verifyDeadlineAt_eq (hp : pieceAt s k = some p) :
    verifyDeadlineAt k s =
      if verifyPassed s p then
        if p.id.isSome then recordFault k .verifyNoread (setVerify k .failed s) else setVerify k .failed s
      else s := by
  unfold verifyDeadlineAt; rw [hp]

theorem verifyPassed_iff (s : State) (p : Piece) : verifyPassed s p = true ↔
    p.verify = .pending ∧ (s.tu.layout.verify.pos : Int) + s.tu.timing.allowance < pitchDiff s.tu.pitch p.entry := by
  simp [verifyPassed]

theorem setVerify_eq (hp : pieceAt s k = some p) (v : Verify) : setVerify k v s = setPiece s k (some { p with verify := v }) := by
  unfold setVerify; rw [hp]

/-- A verify status set, and then a fault recorded in the piece (R104, R115). -/
theorem recordFault_setVerify (hp : pieceAt s k = some p) (v : Verify) (f : PieceFault) :
    FaultRecorded k f { p with verify := v } s (recordFault k f (setVerify k v s)) := by
  rw [setVerify_eq hp]
  exact recordFault_spec f (setPiece_onlyPiece _ _ _) rfl rfl rfl (pieceAt_setPiece_some ..)

/-- Settles O9, by whether the deadline has passed and whether the piece has an ID. -/
theorem verifyDeadlineFailsPiece : Obligations.VerifyDeadlineFailsPiece := fun slot p s hs hd hp => by
  refine ⟨_, exec_verifyDeadline slot hs hd, fun h => ?_, fun hv h => ⟨fun hid => ?_, fun hid => ?_⟩⟩
  · rw [verifyDeadlineAt_eq hp, if_neg fun h' => ?_]
    obtain ⟨hv, hpast⟩ := (verifyPassed_iff s p).mp h'
    rcases h with h | h
    · exact h hv
    · omega
  · rw [verifyDeadlineAt_eq hp, if_pos ((verifyPassed_iff s p).mpr ⟨hv, h⟩), if_neg (by simp [hid])]
    exact setVerify_eq hp .failed
  · rw [verifyDeadlineAt_eq hp, if_pos ((verifyPassed_iff s p).mpr ⟨hv, h⟩), if_pos hid]
    exact recordFault_setVerify hp .failed .verifyNoread

/-! ## Copies and retries (R73, R127, R142) -/

theorem mapCopy_frames (s : State) :
    (mapCopy s).ds = s.ds ∧ (mapCopy s).cu = s.cu ∧ (mapCopy s).tu = s.tu ∧ (mapCopy s).pp = s.pp ∧ (mapCopy s).su = s.su ∧
      (mapCopy s).bu = s.bu ∧ (mapCopy s).rc = s.rc ∧ (mapCopy s).cl.log = s.cl.log ∧ (mapCopy s).cl.counters = s.cl.counters ∧
      (mapCopy s).due = s.due := by
  simp [mapCopy]

theorem movedFeeder_eq (was is : Bool) (x : Feeder) :
    movedFeeder was is x = match was, is with
      | false, true => { x with state := levelState x.level, consecutive := 0 }
      | true, true => x
      | _, false => { x with state := .offline } := by
  cases was <;> cases is <;> rfl

/-- Settles O10. -/
theorem feederMapCopyMovesFeeders : Obligations.FeederMapCopyMovesFeeders := fun s hs hd hc hlaw => by
  obtain ⟨hds, hcu, htu, hpp, hsu, hbu, hrc, hlog, hcount, hdue⟩ := mapCopy_frames (withDue s { s.due with mapCopy := false })
  obtain ⟨m, hm, ⟨hiu, hmoved⟩, hfirst, hnone⟩ := mapCopy_spec (withDue s { s.due with mapCopy := false })
  have ht := exec_feederMapCopy hs hd hc
  generalize mapCopy (withDue s { s.due with mapCopy := false }) = t at *
  have htiu : t.iu = m.iu := by
    by_cases hf : ∃ f, f < 8 ∧ becomesEmpty s f = true
    · obtain ⟨hlt, he⟩ := Nat.find_spec hf
      obtain ⟨-, ⟨-, -, -, -, -, -, h, -⟩, -⟩ := hfirst _ hlt he fun g hg => by
        have hne : becomesEmpty s g = false := by simpa [show g < 8 by omega] using Nat.find_min hf hg
        exact hne
      exact h
    · have hne : ∀ f, f < 8 → becomesEmpty s f = false := fun f h => by simpa [h] using not_exists.mp hf f
      rw [hnone hne]
  rw [hiu] at htiu
  have hall : t.iu = { s.iu with active := s.iu.staged, commitPending := false, feeders := t.iu.feeders } := by rw [htiu]; rfl
  refine ⟨t, ht, by rw [hall], by rw [hall], by rw [hall], fun f hf => ?_, fun f hf he hlow => ?_, fun h => ?_, hall, hds, hcu, htu, hpp,
    hsu, hbu, hrc, hlog, hcount, hdue⟩
  · have hat := hmoved hlaw f hf
    rw [movedFeeder_eq] at hat
    have hsame : feederAt t f = feederAt m f := by unfold feederAt; rw [htiu]
    rw [hsame]; exact hat
  · obtain ⟨⟨hsum, hcap, -⟩, -⟩ := hfirst f hf he hlow
    rw [hm] at hsum hcap
    exact ⟨hsum, hcap⟩
  · rw [hnone h, hm]; exact ⟨rfl, rfl⟩

/-- Settles O11. -/
theorem sortPlanCopyMakesGroupBreak : Obligations.SortPlanCopyMakesGroupBreak := fun _ hs hd hc =>
  ⟨_, exec_sortPlanCopy hs hd hc, planCopy_spec _⟩

/-- Settles O12. -/
theorem trayChangeRetryQueuesOwed : Obligations.TrayChangeRetryQueuesOwed := fun s hs hd => by
  obtain ⟨hbins, heq⟩ := retryOwed_spec (withDue s { s.due with trayRetry := false })
  exact ⟨_, exec_trayChangeRetry hs hd, hbins, heq⟩

/-! ## Offers (R41, R148, R175, R186) -/

theorem offerCutter_eq : offerCutter s = match s.cu.pendingCutter with
    | some q => if commandRoom s then queueCutter q s else s
    | none => s := rfl

/-- Settles O13: the test of R40 in Safety's terms, and the offer by the pending command and the room. -/
theorem cutterIsRegulated : Obligations.CutterIsRegulated := fun s =>
  ⟨cutterTest_spec s, fun hs => by
    refine ⟨offerCutter s, congrArg Host.Outcome.next (live_of_free hs), fun q hq hroom => ?_, fun h => ?_⟩
    · rw [offerCutter_eq, hq]
      dsimp only
      rw [if_pos hroom, queueCutter_of_room hroom]; rfl
    · rw [offerCutter_eq]
      cases hq : s.cu.pendingCutter with
      | none => rfl
      | some q =>
        rcases h with h | h
        · rw [h] at hq; cases hq
        · simp [h]⟩

theorem exec_responseSegmentQueued (hs : s.resetHeld = false) : exec .responseSegmentQueued s = .next (placeAlert (pushSegment s)) :=
  congrArg Host.Outcome.next (live_of_free hs)

/-- With no management entry free a segment stays in the buffer, and a pending ALERT waits (R175, R186). -/
theorem offers_of_full (h : managementRoom s = false) : placeAlert (pushSegment s) = s := by
  have hfull : 4 ≤ (s.rp.originate.filter isManagement).length := by
    rw [managementCount_eq]; exact Nat.not_lt.mp (of_decide_eq_false h)
  have hpush : pushSegment s = s := pushSegment_full (s := s) (x := s.rp.response) hfull
  rw [hpush, placeAlert_offered]
  exact if_neg fun h' => by rw [managementFree_pos, h] at h'; exact Bool.false_ne_true h'.2.1

/-- The next segment of a buffered response queued in a free entry (R184, R186). -/
theorem pushSegment_of_room {r : Response} {seg : List Byte} {rest : List (List Byte)} (hr : s.rp.response = some r)
    (hseg : r.segments = seg :: rest) (h : managementRoom s = true) :
    pushSegment s = withRp s { s.rp with
      originate := s.rp.originate ++ [⟨r.dest, .response, stampNow s, segmentPayload r.tag r.next (decide (rest = [])) seg⟩]
      response := if rest = [] then none else some { r with next := r.next + 1, segments := rest } } := by
  obtain ⟨d, tag, j, segs⟩ := r
  cases hseg
  have hroom : (s.rp.originate.filter isManagement).length < 4 := by rw [managementCount_eq]; exact of_decide_eq_true h
  have hself : s = portWith s s.rp.originate (some ⟨d, tag, j, seg :: rest⟩) := by rw [← hr]; rfl
  have hnext := pushSegment_next (s := s) (d := d) (tag := tag) (j := j) (seg := seg) (rest := rest) hroom
  rw [← hself] at hnext
  rw [hnext]
  cases rest <;> rfl

theorem managementCount_append (f : Frame) (hf : isManagement f = true) (x : Option Response) :
    managementCount (withRp s { s.rp with originate := s.rp.originate ++ [f], response := x }) = managementCount s + 1 := by
  simp [managementCount, hf]

/-- Settles O14: the segment by the room and by what is left behind it, the ALERT by what it waits for. -/
theorem managementEntriesAreOffered : Obligations.ManagementEntriesAreOffered := fun s hs => by
  refine ⟨fun r seg rest hr hseg => ⟨_, exec_responseSegmentQueued hs, fun hroom => ?_, offers_of_full⟩,
    placeAlert s, congrArg Host.Outcome.next (live_of_free hs), fun h1 h2 h3 h4 => ?_, fun h => ?_⟩
  · have hpush := pushSegment_of_room hr hseg hroom
    refine ⟨fun hrest => ?_, fun hrest => ?_, fun hrest hpend hcount haddr => ?_⟩
    · rw [if_neg hrest] at hpush
      rw [hpush, placeAlert_offered]
      exact if_neg fun h => nomatch h.2.2.1
    · rw [if_pos hrest] at hpush
      rw [hpush, placeAlert_offered]
    · rw [if_pos hrest] at hpush
      rw [hpush, placeAlert_offered, alertOffered, if_pos]
      · simp [stampNow]
      · refine ⟨hpend, ?_, rfl, haddr⟩
        rw [managementFree_pos]
        refine decide_eq_true ?_
        rw [managementCount_append _ rfl]
        exact Nat.succ_lt_succ hcount
  · have hp := (alertPlaceable_iff s).mpr ⟨h1, h2, h3, h4⟩
    rcases placeAlert_cases s with ⟨h, -⟩ | ⟨-, h⟩
    · rw [hp] at h; cases h
    · exact h
  · rcases placeAlert_cases s with ⟨-, h'⟩ | ⟨h', -⟩
    · exact h'
    · obtain ⟨h1, h2, h3, h4⟩ := (alertPlaceable_iff s).mp h'
      rcases h with h | h | h | h
      · rw [h1] at h; cases h
      · rw [h2] at h; cases h
      · exact absurd h3 h
      · exact absurd h h4

/-- The first of some numbers that a test gives something. -/
theorem head_filterMap_range {α : Type} {f : Nat → Option α} {n b : Nat} {x : α} (hb : b < n) (hx : f b = some x)
    (h : ∀ j, j < b → f j = none) : ((List.range n).filterMap f).head? = some x := by
  induction n with
  | zero => omega
  | succ n ih =>
    rw [List.range_succ, List.filterMap_append, List.head?_append]
    rcases Nat.lt_or_eq_of_le (Nat.le_of_lt_succ hb) with hlt | rfl
    · rw [ih hlt]; rfl
    · have hnil : (List.range b).filterMap f = [] := List.filterMap_eq_nil_iff.mpr fun j hj => h j (List.mem_range.mp hj)
      rw [hnil]; simp [hx]

theorem waitingBin_eq {b : Nat} {r : TrayRec} (hb : b < 17) (hst : (binAt s b).state = .closePending) (hheld : (binAt s b).held = some r)
    (h : ∀ j, j < b → (binAt s j).state ≠ .closePending) : waitingBin s = some (b, r) := by
  refine head_filterMap_range hb (by rw [hst, hheld]) fun j hj => ?_
  have hj' := h j hj
  split
  · next hc _ => exact absurd hc hj'
  · rfl

theorem nextTraySeq_eq (q : BitVec 16) : nextTraySeq q = if q = 65535#16 then 1#16 else q + 1 := rfl

/-- Settles O15. -/
theorem heldRecordIsAppended : Obligations.HeldRecordIsAppended := fun b r s hs hroom hb hst hheld hlow => by
  have hlog : trayLogRoom s = true := decide_eq_true hroom
  have happ : appendHeld s = drainTest (openTray b (appendTrayRec s r)) := by
    unfold appendHeld
    rw [if_pos hlog, waitingBin_eq hb hst hheld hlow]
  refine ⟨_, openTray b (appendTrayRec s r), congrArg Host.Outcome.next ((live_of_free hs).trans happ), rfl, ?_, fun j hj => ?_, ?_, rfl,
    drainTest_spec _⟩
  · rw [binAt_openTray]; rfl
  · exact binAt_openTray_other hj _
  · exact nextTraySeq_eq _

end

end Sys2Proof.Machine
end

section
/-! Frames and requests spelt byte by byte (R178, R181, R184, R185, R188): what is encoded is decoded again. -/

namespace Sys2Proof.Machine

/-! ## Numbers and flags -/

theorem be3_toNat (x : BitVec 24) : BitVec.ofNat 24 (numOf (be3 x.toNat)) = x := by
  apply BitVec.eq_of_toNat_eq
  simp [numOf, be3, be2]
  omega

theorem be4_toNat (x : BitVec 32) : BitVec.ofNat 32 (numOf (be4 x.toNat)) = x := by
  apply BitVec.eq_of_toNat_eq
  simp [numOf, be4, be3, be2]
  omega

theorem flagOf_flagByte (b : Bool) : flagOf (if b then 1#8 else 0#8) = b := by cases b <;> rfl

theorem addrOf_addrByte (a : Addr) : addrOf (addrByte a) = a := by
  unfold addrOf addrByte; exact BitVec.setWidth_setWidth_of_le a (by decide)

/-! ## Consumed frames (R178, R181) -/

/-- A frame written out: destination, source, kind, stamp, length, payload and check (R178). -/
def frameOf (own src : Addr) (kind : Byte) (stamp : Stamp) (x : List Byte) : List Byte :=
  let body := addrByte own :: addrByte src :: kind :: stamp :: BitVec.ofNat 8 x.length :: x
  body ++ be2 (crcOf body).toNat

section
variable {own src : Addr} {kind : Byte} {stamp : Stamp} {x : List Byte}

theorem frameOf_length_field (hx : x.length ≤ 56) : (byteAt (frameOf own src kind stamp x) 4).toNat = x.length := by
  show (BitVec.ofNat 8 x.length).toNat = x.length
  rw [BitVec.toNat_ofNat]; omega

theorem frameOf_intact (hx : x.length ≤ 56) : FrameIntact (frameOf own src kind stamp x) := by
  have hn := frameOf_length_field (own := own) (src := src) (kind := kind) (stamp := stamp) hx
  unfold FrameIntact
  rw [hn]
  refine ⟨hx, by simp [frameOf, be2]; omega, ?_⟩
  have hbody : 5 + x.length = (addrByte own :: addrByte src :: kind :: stamp :: BitVec.ofNat 8 x.length :: x).length := by
    simp; omega
  rw [field_two, frameOf, hbody, List.drop_left, List.take_left]

theorem framePayload_frameOf (hx : x.length ≤ 56) : framePayload (frameOf own src kind stamp x) = x := by
  unfold framePayload
  rw [frameOf_length_field hx]
  show (x ++ _).take x.length = x
  exact List.take_left

/-- An intact frame of another station to the part is consumed (R179, R181). -/
theorem takeFrame_frameOf {u : State} (hown : u.rp.own ≠ 63) (hsrc : src ≠ u.rp.own) (hx : x.length ≤ 56) :
    takeFrame (frameOf u.rp.own src kind stamp x) u = consume src kind stamp x u := by
  have hs : addrOf (byteAt (frameOf u.rp.own src kind stamp x) 1) = src := addrOf_addrByte src
  have hd : addrOf (byteAt (frameOf u.rp.own src kind stamp x) 0) = u.rp.own := addrOf_addrByte u.rp.own
  rw [takeFrame_intact (frameOf_intact hx), hs, hd, if_neg fun h => hsrc h.2, if_pos ⟨hown, rfl⟩, framePayload_frameOf hx]
  rfl

end

/-- Two events act alike when they do in the settled state. -/
theorem event_congr {f g : State → State} {s : State} (h : f (settle s) = g (settle s)) : event f s = event g s := by
  simp only [event, live, h]

theorem kindOf_some {b : Byte} {k : Kind} (h : kindOf b = some k) : b.toNat = kindCode k := by
  unfold kindOf at h
  split at h <;> cases h <;> assumption

/-- A frame of a kind the part does not take, or of another length than its kind has, is dropped (R181). -/
theorem consume_dropped {src : Addr} {kind : Byte} {stamp : Stamp} {x : List Byte} {u : State}
    (h : (kind.toNat, x.length) ∉ [(1, 5), (2, 1), (3, 1), (4, 3), (5, 1), (6, 1), (7, 0)]) (hreq : kind = 15 → x.length < 3) :
    consume src kind stamp x u = dropUnexpected src u := by
  have hno : ∀ {k n}, kindOf kind = some k → x.length = n → (kindCode k, n) ∉ [(1, 5), (2, 1), (3, 1), (4, 3), (5, 1), (6, 1), (7, 0)] :=
    fun hk hn => by rw [← kindOf_some hk, ← hn]; exact h
  unfold consume
  split
  case h_1 hk hn => exact absurd (by decide) (hno hk hn)
  case h_2 hk hn => exact absurd (by decide) (hno hk hn)
  case h_3 hk hn => exact absurd (by decide) (hno hk hn)
  case h_4 hk hn => exact absurd (by decide) (hno hk hn)
  case h_5 hk hn => exact absurd (by decide) (hno hk hn)
  case h_6 hk hn => exact absurd (by decide) (hno hk hn)
  case h_7 hk hn => exact absurd (by decide) (hno hk hn)
  case h_8 hk =>
    have h15 : kind = 15 := BitVec.eq_of_toNat_eq (kindOf_some hk)
    exact if_neg (Nat.not_le.mpr (hreq h15))
  case h_9 => rfl

theorem consume_sheet (src : Addr) (stamp : Stamp) (id : PieceId) (i n : Byte) (u : State) :
    consume src 1 stamp (be3 id.toNat ++ [i, n]) u = sheetReport src id i n u := by
  have h : consume src 1 stamp (be3 id.toNat ++ [i, n]) u = sheetReport src (BitVec.ofNat 24 (numOf (be3 id.toNat))) i n u := rfl
  rw [h, be3_toNat]

theorem consume_read (src : Addr) (stamp : Stamp) (id : PieceId) (u : State) :
    consume src 4 stamp (be3 id.toNat) u = readReport src stamp id u := by
  have h : consume src 4 stamp (be3 id.toNat) u = readReport src stamp (BitVec.ofNat 24 (numOf (be3 id.toNat))) u := rfl
  rw [h, be3_toNat]

theorem consume_request (src : Addr) (stamp : Stamp) (tag : Tag) (seg : Byte) (body : List Byte) (u : State) :
    consume src 15 stamp (be2 tag.toNat ++ seg :: body) u = takeSegment src tag seg body u := by
  have hlen : 3 ≤ (be2 tag.toNat ++ seg :: body).length := by simp [be2]
  have h : consume src 15 stamp (be2 tag.toNat ++ seg :: body) u =
      if 3 ≤ (be2 tag.toNat ++ seg :: body).length then takeSegment src (BitVec.ofNat 16 (numOf (be2 tag.toNat))) seg body u
      else dropUnexpected src u := rfl
  rw [h, if_pos hlen, be2_toNat]

theorem dropUnexpected_flagOnly (src : Addr) (u : State) : FlagOnly .unexpectedReport (some src) none none u (dropUnexpected src u) :=
  raise_flagOnly ..

/-- Settles O17: the frame is intact and consumed, and its payload decodes to the report's operands. -/
theorem consumedFramesActAsReports : Obligations.ConsumedFramesActAsReports := by
  intro src stamp s hown hsrc
  have hframe : ∀ (kind : Byte) (x : List Byte) (f : State → State), x.length ≤ 56 → consume src kind stamp x (settle s) = f (settle s) →
      exec (.frameArrival (frameOf (settle s).rp.own src kind stamp x)) s = .next (event f s) := fun kind x f hx hf =>
    congrArg Host.Outcome.next (event_congr ((takeFrame_frameOf hown hsrc hx).trans hf))
  refine ⟨fun id i n => ?sheet, fun o => ?feed, fun l => ?material, fun id => ?read, fun x => ?landed, fun b => ?trayReady, ?jam,
    fun tag seg body hb => ?request, fun kind x hs hx hother hreq => ?dropped⟩
  case sheet => exact hframe 1 (be3 id.toNat ++ [i, n]) (sheetReport src id i n) (by simp [be3, be2]) (consume_sheet ..)
  case feed => exact hframe 2 [o] (feedReport src stamp o) (by simp) rfl
  case material => exact hframe 3 [l] (materialReport src l) (by simp) rfl
  case read => exact hframe 4 (be3 id.toNat) (readReport src stamp id) (by simp [be3, be2]) (consume_read ..)
  case landed => exact hframe 5 [x] (landedReport src stamp x) (by simp) rfl
  case trayReady => exact hframe 6 [b] (trayReadyReport src b) (by simp) rfl
  case jam => exact hframe 7 [] (jamReport src) (by simp) rfl
  case request =>
    exact hframe 15 (be2 tag.toNat ++ seg :: body) (takeSegment src tag seg body) (by simp [be2]; omega) (consume_request ..)
  case dropped =>
    refine ⟨_, hframe kind x (dropUnexpected src) hx (consume_dropped hother hreq), ?_⟩
    rw [event_live hs]; exact dropUnexpected_flagOnly ..

/-! ## Segments (R184, R185) -/

theorem takeSegment_eq (src : Addr) (tag : Tag) (seg : Byte) (body : List Byte) (u : State) :
    takeSegment src tag seg body u = match gathered u src tag seg body with
      | some whole => addSegment src tag (seg.toNat % 128) seg.msb whole u
      | none => dropUnexpected src u := by
  unfold takeSegment gathered
  dsimp only
  by_cases h0 : seg.toNat % 128 = 0
  · rw [if_pos h0, if_pos h0, h0]
  · rw [if_neg h0, if_neg h0]
    cases ha : u.rp.assembly with
    | none => rfl
    | some a =>
      rw [Option.filter_some]
      show (if expects a src tag (seg.toNat % 128) then _ else _) = _
      unfold expects
      split
      · rfl
      · rfl

/-- A message is complete with the last mark or past 384 bytes, and is then taken or dropped (R184, R185). -/
theorem addSegment_complete {src : Addr} {tag : Tag} {n : Nat} {seg : Byte} {whole : List Byte} {u : State}
    (h : 128 ≤ seg.toNat ∨ 384 < whole.length) :
    addSegment src tag n seg.msb whole u = answer src tag (bodyCode whole) (bodyEffect src whole) (setAssembly u none) := by
  refine if_pos ?_
  rw [BitVec.msb_eq_decide, decide_eq_true_iff]; exact h

theorem addSegment_waiting {src : Addr} {tag : Tag} {n : Nat} {seg : Byte} {whole : List Byte} {u : State} (h1 : seg.toNat < 128)
    (h2 : whole.length ≤ 384) : addSegment src tag n seg.msb whole u = setAssembly u (some ⟨src, tag, n + 1, whole⟩) := by
  refine if_neg ?_
  rw [BitVec.msb_eq_decide, decide_eq_true_iff]
  rintro (h | h)
  · exact absurd h1 (Nat.not_lt.mpr h)
  · exact absurd h2 (Nat.not_le.mpr h)

theorem bodyCode_eq (body : List Byte) : bodyCode body = body.headD 0 := by cases body <;> rfl

/-- An empty message, one whose code or length R188 does not know, and one past 384 bytes are refused (R184, R185). -/
theorem bodyEffect_refused {src : Addr} {body : List Byte} (h : body = [] ∨ body.length ∉ bodyLengths body ∨ 384 < body.length) :
    bodyEffect src body = refuse .badArgument := by
  unfold bodyEffect
  split
  · rfl
  · next c a =>
    split
    · next hfit =>
      rcases h with h | h | h
      · cases h
      · rw [(requestEffect_none src c a).mpr h]; rfl
      · exact absurd hfit (Nat.not_le.mpr h)
    · rfl

theorem answer_dropped {src : Addr} {tag : Tag} {code : Byte} {act : State → State × Reply} {u : State} (h : requestTaken u = false) :
    answer src tag code act u = u := if_neg (by simp [h])

theorem answer_taken {src : Addr} {tag : Tag} {code : Byte} {x : Status} {u : State} (h : requestTaken u = true) :
    Answered src tag code ⟨x, 0, 0, []⟩ u (answer src tag code (refuse x) u) := by
  rw [answer, if_pos h]
  exact respond_answered src tag _ _ u

theorem setAssembly_eq (u : State) (x : Option Assembly) : setAssembly u x = withRp u { u.rp with assembly := x } := rfl

theorem requestTaken_setAssembly (u : State) (x : Option Assembly) : requestTaken (setAssembly u x) = requestTaken u := rfl

theorem exec_request {src : Addr} {tag : Tag} {seg : Byte} {body : List Byte} {s : State} (hs : s.resetHeld = false) :
    exec (.request src tag seg body) s = .next (takeSegment src tag seg body (settle s)) := congrArg Host.Outcome.next (event_live hs)

theorem takeSegment_of_gathered {src : Addr} {tag : Tag} {seg : Byte} {body whole : List Byte} {u : State}
    (h : gathered u src tag seg body = some whole) :
    takeSegment src tag seg body u = addSegment src tag (seg.toNat % 128) seg.msb whole u := by
  rw [takeSegment_eq, h]

theorem takeSegment_of_stray {src : Addr} {tag : Tag} {seg : Byte} {body : List Byte} {u : State}
    (h : gathered u src tag seg body = none) : takeSegment src tag seg body u = dropUnexpected src u := by
  rw [takeSegment_eq, h]

/-- Settles O19: by what the segment gathers, and by whether the message is complete. -/
theorem requestSegmentsAssemble : Obligations.RequestSegmentsAssemble := fun src tag seg body s hs => by
  refine ⟨_, exec_request hs, fun hg => ?stray, fun whole hg => ⟨fun h1 h2 => ?waiting, fun hc ht => ?dropped, fun hc ht hbad => ?refused⟩⟩
  case stray => rw [takeSegment_of_stray hg]; exact dropUnexpected_flagOnly ..
  case waiting =>
    rw [takeSegment_of_gathered hg, addSegment_waiting h1 h2, Nat.mod_eq_of_lt h1, setAssembly_eq]
  case dropped =>
    have hnot : requestTaken (setAssembly (settle s) none) = false := (requestTaken_setAssembly _ _).trans ht
    rw [takeSegment_of_gathered hg, addSegment_complete hc, answer_dropped hnot, setAssembly_eq]
  case refused =>
    have htaken : requestTaken (setAssembly (settle s) none) = true := (requestTaken_setAssembly _ _).trans ht
    rw [takeSegment_of_gathered hg, addSegment_complete hc, bodyEffect_refused hbad, bodyCode_eq]
    rw [setAssembly_eq] at htaken ⊢
    exact answer_taken htaken

end Sys2Proof.Machine
end

section
/-! What each request refuses with BAD_ARGUMENT (R4-R174): one lemma for each request that refuses arguments. -/

namespace Sys2Proof.Machine

section
variable {src : Addr} {tag : Tag} {s : State}

theorem actSetWindow_refused {w k mode : Byte} {en : Bool} {base : PieceId} {start : BitVec 16}
    (h : BadArguments (.setWindow src tag w en base k mode start)) : actSetWindow w en base k mode start s = refuse .badArgument s := by
  unfold actSetWindow
  by_cases hw : w.toNat < Config.windows
  · rw [if_pos hw]
    have hw4 : w.toNat < 4 := hw
    rcases h with h | ⟨rfl, h⟩
    · omega
    · have hnone : windowFields base k mode start = none := by
        unfold windowFields windowModeOf
        split
        · rfl
        · next m hm =>
          refine if_neg fun hok => ?_
          split at hm <;> cases hm
          all_goals
            obtain ⟨hk1, hk2, hbase, hstart⟩ := hok
            dsimp only [Config.descriptorSlots, Config.mapEntries] at hstart
            have hk : ¬Outside 4 20 k.toNat := by unfold Outside; omega
            rcases h with h | h | h | ⟨rfl, h⟩ | ⟨rfl, h⟩
          all_goals first
            | exact absurd h hk
            | exact absurd hbase h
            | omega
            | simp_all
      rw [if_pos rfl, hnone]
  · rw [if_neg hw]

theorem mapWriteOk_iff {first : BitVec 16} {count : Byte} {entries : List (Bool × BitVec 16)} : mapWriteOk first count entries = true ↔
    countField count ≤ 32 ∧ entries.length = countField count ∧ first.toNat + countField count ≤ 8192 ∧
      ∀ e ∈ entries, e.1 = true → e.2.toNat < 4096 := by
  unfold mapWriteOk
  rw [countOf_eq]
  simp only [Bool.and_eq_true, decide_eq_true_eq, beq_iff_eq, and_assoc, List.all_eq_true, Bool.or_eq_true, Bool.not_eq_true',
    Config.mapEntries, Config.descriptorSlots]
  refine and_congr_right fun _ => and_congr_right fun _ => and_congr decide_eq_true_iff (forall₂_congr fun e _ => ?_)
  cases e.1
  · simp
  · exact ⟨fun h _ => of_decide_eq_true (h.resolve_left (by simp)), fun h => .inr (decide_eq_true (h rfl))⟩

theorem actWriteMapEntries_refused {first : BitVec 16} {count : Byte} {entries : List (Bool × BitVec 16)}
    (hlen : entries.length = countField count) (h : BadArguments (.writeMapEntries src tag first count entries)) :
    actWriteMapEntries first count entries s = refuse .badArgument s := by
  refine if_neg fun hok => ?_
  obtain ⟨h1, h2, h3, h4⟩ := mapWriteOk_iff.mp hok
  rcases h with h | h | ⟨e, he, hv, h⟩
  · omega
  · omega
  · exact absurd (h4 e he hv) (Nat.not_lt.mpr h)

theorem actLoadDescriptors_refused {count : Byte} {records : List DescriptorRecord} (hlen : records.length = countField count)
    (h : BadArguments (.loadDescriptors src tag count records)) : actLoadDescriptors count records s = refuse .badArgument s := by
  refine if_neg fun hok => ?_
  have h32 : countField count ≤ 32 := hok.1
  exact absurd h (Nat.not_lt.mpr (hlen ▸ h32))

theorem layoutOk_iff {record : List Byte} : layoutOk record = true ↔
    record.length = 36 ∧ ∀ i, i < 36 → i ∉ [8, 11, 14, 17, 20, 23, 26, 29] → (byteAt record i).toNat ≤ 63 := by
  unfold layoutOk presentBytes
  simp only [Bool.and_eq_true, beq_iff_eq, List.all_eq_true, List.mem_range, Bool.or_eq_true, List.contains_iff_mem, decide_eq_true_eq]
  exact and_congr_right fun _ => forall₂_congr fun i _ => or_iff_not_imp_left

theorem actSetLayout_refused {record : List Byte} (h : BadArguments (.setLayout src tag record)) :
    actSetLayout record s = refuse .badArgument s := by
  obtain ⟨i, hi, hn, h⟩ := h
  exact if_neg fun hok => absurd ((layoutOk_iff.mp hok).2 i hi hn) (Nat.not_le.mpr h)

theorem actSetTiming_refused {lr lf lg ls a : Byte} (h : BadArguments (.setTiming src tag lr lf lg ls a)) :
    actSetTiming lr lf lg ls a s = refuse .badArgument s := by
  unfold actSetTiming timingOf
  rw [if_neg]
  simp only [BadArguments, Outside] at h
  omega

theorem actReadTrack_refused {slot : Option Byte} (h : BadArguments (.readTrack src tag slot)) :
    actReadTrack slot s = refuse .badArgument s := by
  obtain ⟨k, rfl, h⟩ := h
  exact if_neg (Nat.not_lt.mpr h)

theorem actSetSelection_refused {first count : Byte} {sets : List (BitVec 16)} (hlen : sets.length = countField count)
    (h : BadArguments (.setSelection src tag first count sets)) : actSetSelection first count sets s = refuse .badArgument s := by
  refine if_neg fun ⟨h1, h2, h3⟩ => ?_
  rw [countOf_eq, ← hlen] at h1 h2
  have h2' : first.toNat + sets.length ≤ 256 := h2
  rcases h with h | h | ⟨x, hx, h⟩
  · omega
  · omega
  · exact absurd (of_decide_eq_true (List.all_eq_true.mp h3 x hx)) (Nat.not_lt.mpr h)

theorem actSetInserts_refused {first count : Byte} {entries : List (BitVec 16 × BitVec 16)} (hlen : entries.length = count.toNat)
    (h : BadArguments (.setInserts src tag first count entries)) : actSetInserts first count entries s = refuse .badArgument s := by
  refine if_neg fun ⟨h1, h2, h3⟩ => ?_
  have h2' : first.toNat + count.toNat ≤ 12 := h2
  rcases h with rfl | h | ⟨e, he, h⟩
  · simp at hlen; omega
  · omega
  · have := List.all_eq_true.mp h3 e he
    simp at this; omega

theorem actSetInsertPolicy_refused {limit threshold : Byte} {single : Bool}
    (h : BadArguments (.setInsertPolicy src tag limit threshold single)) :
    actSetInsertPolicy limit threshold single s = refuse .badArgument s := by
  refine if_neg ?_
  simp only [BadArguments, Outside] at h
  omega

theorem actStageFeederMap_refused {bank : List (Bool × Byte)} (h : BadArguments (.stageFeederMap src tag bank)) :
    actStageFeederMap bank s = refuse .badArgument s := by
  obtain ⟨e, he, hen, h⟩ := h
  refine if_neg fun ⟨_, hall⟩ => ?_
  have hlt : e.2.toNat < Config.inserts := by simpa [hen] using List.all_eq_true.mp hall e he
  exact absurd hlt (Nat.not_lt.mpr h)

theorem actRestoreFeeder_refused {feeder : Byte} {reset : Bool} (h : BadArguments (.restoreFeeder src tag feeder reset)) :
    actRestoreFeeder feeder reset s = refuse .badArgument s := if_neg (Nat.not_lt.mpr h)

theorem actReadInsertTables_refused {first : BitVec 16} (h : BadArguments (.readInsertTables src tag first)) :
    actReadInsertTables first s = refuse .badArgument s := if_neg (Nat.not_lt.mpr h)

theorem actSetSheetParameters_refused {mass caliper : BitVec 16} {panels : Byte}
    (h : BadArguments (.setSheetParameters src tag mass caliper panels)) :
    actSetSheetParameters mass caliper panels s = refuse .badArgument s := by
  refine if_neg ?_
  simp only [BadArguments, Outside] at h
  omega

theorem actSetEnvelopeClass_refused {cls : Byte} {en : Bool} {mass wall fill : BitVec 16}
    (h : BadArguments (.setEnvelopeClass src tag cls en mass wall fill)) :
    actSetEnvelopeClass cls en mass wall fill s = refuse .badArgument s := by
  unfold actSetEnvelopeClass
  simp only [BadArguments, Outside] at h
  by_cases hc : cls.toNat < 4
  · rcases h with h | ⟨rfl, h⟩
    · omega
    · rw [if_pos hc, if_pos rfl, if_neg (by omega)]
  · rw [if_neg hc]

theorem ascending_iff : ∀ l : List Nat, ascending l = true ↔ l.Pairwise (· < ·)
  | [] => by simp [ascending]
  | [a] => by simp [ascending]
  | a :: b :: l => by
    rw [ascending, Bool.and_eq_true, decide_eq_true_eq, ascending_iff (b :: l), List.pairwise_cons (a := a)]
    refine and_congr_left fun hbl => Iff.intro (fun hab x hx => ?_) (fun h => h b List.mem_cons_self)
    rcases List.mem_cons.mp hx with rfl | hx
    · exact hab
    · exact hab.trans ((List.pairwise_cons.mp hbl).1 x hx)

theorem actSetBands_refused {count : Byte} {limits : List (BitVec 16)} (hlen : limits.length = count.toNat)
    (h : BadArguments (.setBands src tag count limits)) : actSetBands count limits s = refuse .badArgument s := by
  refine if_neg fun ⟨h1, h2, h3⟩ => ?_
  rcases h with h | ⟨l, hl, h⟩ | h
  · omega
  · have := List.all_eq_true.mp h2 l hl
    simp at this; unfold Outside at h; omega
  · exact h ((ascending_iff _).mp h3)

theorem actionOf_bad {b : Byte} (h : BadAction b) : actionOf b = none := by
  obtain ⟨h17, h18⟩ := h
  unfold actionOf
  have hbin : ¬b.toNat < Config.bins := Nat.not_lt.mpr h17
  rw [if_neg hbin, if_neg fun he => h18 (by rw [he]; rfl)]

theorem elementOf_bad {r : ElementRecord} (h : BadElement r) : elementOf r = none := by
  have hkey : (3 < r.kind.toNat ∨ (r.kind = 1 ∧ (r.second.toNat < r.first.toNat ∨ 999999999 < r.second.toNat)) ∨
      (r.kind = 2 ∧ (r.first.toNat = 0 ∨ 9 < r.first.toNat ∨ 10 ^ r.first.toNat ≤ r.second.toNat)) ∨
      (r.kind = 3 ∧ (999999999 < r.first.toNat ∨ 999999999 < r.second.toNat))) →
      keyTestOf r.kind r.first.toNat r.second.toNat = none := by
    intro h
    unfold keyTestOf Config.maxKey
    rcases h with h | ⟨hk, h⟩ | ⟨hk, h⟩ | ⟨hk, h⟩
    · split
      · omega
      · omega
      · omega
      · rfl
    · rw [hk]; exact if_neg (by omega)
    · rw [hk]; exact if_neg (by omega)
    · rw [hk]; exact if_neg (by omega)
  have hnz : r.kind ≠ 0#8 := by
    intro h0
    simp [BadElement, h0] at h
  unfold elementOf
  rw [if_neg hnz]
  by_cases hk : keyTestOf r.kind r.first.toNat r.second.toNat = none
  · rw [hk]
  · have hrest : BadAction r.action ∨ 2 < r.service.toNat := by
      rcases h with h | h | h | h | ⟨-, h⟩
      · exact absurd (hkey (.inl h)) hk
      · exact absurd (hkey (.inr (.inl h))) hk
      · exact absurd (hkey (.inr (.inr (.inl h)))) hk
      · exact absurd (hkey (.inr (.inr (.inr h)))) hk
      · exact h
    rcases hrest with h | h
    · rw [actionOf_bad h]
      split
      · next h' => cases h'
      · rfl
    · have hs : serviceCondOf r.service = none := by
        unfold serviceCondOf
        split
        · omega
        · omega
        · omega
        · rfl
      rw [hs]
      split
      · next h' _ => cases h'
      · rfl

theorem elementsOf_bad : ∀ {l : List ElementRecord} {r : ElementRecord}, r ∈ l → BadElement r → elementsOf l = none
  | x :: xs, r, hr, h => by
    unfold elementsOf
    rcases List.mem_cons.mp hr with rfl | hr
    · rw [elementOf_bad h]
    · rw [elementsOf_bad hr h]
      split
      · next h' => cases h'
      · rfl

theorem actStageSortElements_refused {first count : Byte} {elements : List ElementRecord} (hlen : elements.length = count.toNat)
    (h : BadArguments (.stageSortElements src tag first count elements)) :
    actStageSortElements first count elements s = refuse .badArgument s := by
  unfold actStageSortElements
  split
  · next hok =>
    obtain ⟨h1, h2, -, h4⟩ := hok
    have h4' : first.toNat + count.toNat ≤ 64 := h4
    rcases h with rfl | h | h | ⟨r, hr, h⟩
    · simp at hlen; omega
    · omega
    · omega
    · rw [elementsOf_bad hr h]
  · rfl

theorem actSetFallback_refused {action : Byte} (h : BadArguments (.setFallback src tag action)) :
    actSetFallback action s = refuse .badArgument s := by
  unfold actSetFallback; rw [actionOf_bad h]

theorem actReadSortPlan_refused {bank first count : Byte} (h : BadArguments (.readSortPlan src tag bank first count)) :
    actReadSortPlan bank first count s = refuse .badArgument s := by
  unfold actReadSortPlan
  split
  · rfl
  · next hb =>
    refine if_neg fun ⟨h1, h2, h3⟩ => ?_
    have h3' : first.toNat + count.toNat ≤ 64 := h3
    have hbank : bank.toNat ≤ 1 := by
      unfold bankOf at hb
      split at hb
      · omega
      · omega
      · cases hb
    simp only [BadArguments, Outside] at h
    omega

theorem actTrySortKey_refused {key : BitVec 32} {band service : Byte} (h : BadArguments (.trySortKey src tag key band service)) :
    actTrySortKey key band service s = refuse .badArgument s := by
  unfold actTrySortKey
  split
  · rfl
  · next hv =>
    refine if_neg fun ⟨h1, h2⟩ => ?_
    have h1' : key.toNat ≤ 999999999 := h1
    have hservice : service.toNat ≤ 1 := by
      unfold serviceOf at hv
      split at hv
      · omega
      · omega
      · cases hv
    simp only [BadArguments] at h
    omega

theorem limitsOf_none {maxCount minCount : BitVec 16} {maxMass : BitVec 24}
    (h : Outside 1 4000 maxCount.toNat ∨ Outside 1 400000 maxMass.toNat ∨ maxCount.toNat < minCount.toNat) :
    limitsOf maxCount maxMass minCount = none := if_neg (by unfold Outside at h; omega)

theorem binOf_none {bin : Byte} (h : 17 ≤ bin.toNat) : binOf bin = none := if_neg (Nat.not_lt.mpr h)

theorem binOf_some {bin : Byte} (h : bin.toNat < 17) : binOf bin = some bin.toNat := if_pos h

theorem actSetBinLimits_refused {bin : Byte} {disabled : Bool} {maxCount minCount : BitVec 16} {maxMass : BitVec 24}
    (h : BadArguments (.setBinLimits src tag bin disabled maxCount maxMass minCount)) :
    actSetBinLimits bin disabled maxCount maxMass minCount s = refuse .badArgument s := by
  unfold actSetBinLimits
  by_cases hb : bin.toNat < 17
  · rcases h with h | ⟨rfl, h⟩
    · omega
    · rw [binOf_some hb]
      dsimp only
      rw [if_neg Bool.false_ne_true, limitsOf_none h]
  · rw [binOf_none (Nat.not_lt.mp hb)]

theorem actReadTrays_refused {count : Byte} (h : BadArguments (.readTrays src tag count)) :
    actReadTrays count s = refuse .badArgument s := if_neg (by simp only [BadArguments, Outside] at h; omega)

theorem actReadCompletions_refused {count : Byte} (h : BadArguments (.readCompletions src tag count)) :
    actReadCompletions count s = refuse .badArgument s := if_neg (by simp only [BadArguments, Outside] at h; omega)

end

end Sys2Proof.Machine
end

section
/-! Request bodies (R185, R188): each well-formed request's code and arguments decode to its own act, which is taken in IDLE alone or in every
run state, and refuses its bad arguments. -/

namespace Sys2Proof.Machine

/-! ## Records -/

section
variable {α : Type} {enc : α → List Byte} {k : Nat}

theorem groupsOf_flatMap (hk : 0 < k) (henc : ∀ x, (enc x).length = k) :
    ∀ (n : Nat) (xs : List α), xs.length ≤ n → groupsOf k n (xs.flatMap enc) = xs.map enc
  | 0, [], _ => rfl
  | n + 1, [], _ => rfl
  | n + 1, x :: xs, h => by
    obtain ⟨b, bs, hb⟩ : ∃ b bs, enc x = b :: bs := List.exists_cons_of_length_pos (by rw [henc]; exact hk)
    have hcut : groupsOf k (n + 1) (enc x ++ xs.flatMap enc) =
        (enc x ++ xs.flatMap enc).take k :: groupsOf k n ((enc x ++ xs.flatMap enc).drop k) := by rw [hb]; rfl
    rw [List.flatMap_cons, hcut, ← henc x, List.take_left, List.drop_left, henc x,
      groupsOf_flatMap hk henc n xs (Nat.le_of_succ_le_succ h)]
    rfl

/-- Records behind a head of i bytes decode to what they spell. -/
theorem argRecords_map {dec : List Byte → α} {i : Nat} {pre : List Byte} (xs : List α) (hk : 0 < k) (henc : ∀ x, (enc x).length = k)
    (hdec : ∀ x, dec (enc x) = x) (hpre : pre.length = i) : (argRecords (pre ++ xs.flatMap enc) i k).map dec = xs := by
  have hlen : xs.length ≤ (pre ++ xs.flatMap enc).length := by
    rw [List.length_append, Laws.RequestFits.length_records enc k henc]
    exact (Nat.le_mul_of_pos_left _ hk).trans (Nat.le_add_left _ _)
  subst hpre
  rw [argRecords, List.drop_left, groupsOf_flatMap hk henc _ _ hlen, List.map_map]
  exact (List.map_congr_left fun x _ => hdec x).trans xs.map_id

end

theorem mapArg_record (e : Bool × BitVec 16) : mapArg (flagByte e.1 ++ be2 e.2.toNat) = e := by
  have h : mapArg (flagByte e.1 ++ be2 e.2.toNat) = (flagOf (if e.1 then 1#8 else 0#8), BitVec.ofNat 16 (numOf (be2 e.2.toNat))) := rfl
  rw [h, flagOf_flagByte, be2_toNat]

theorem insertArg_record (e : BitVec 16 × BitVec 16) : insertArg (be2 e.1.toNat ++ be2 e.2.toNat) = e := by
  have h : insertArg (be2 e.1.toNat ++ be2 e.2.toNat) = (BitVec.ofNat 16 (numOf (be2 e.1.toNat)), BitVec.ofNat 16 (numOf (be2 e.2.toNat))) := rfl
  rw [h, be2_toNat, be2_toNat]

theorem feederMapArg_record (e : Bool × Byte) : feederMapArg (flagByte e.1 ++ [e.2]) = e := by
  have h : feederMapArg (flagByte e.1 ++ [e.2]) = (flagOf (if e.1 then 1#8 else 0#8), e.2) := rfl
  rw [h, flagOf_flagByte]

theorem argWord_record (x : BitVec 16) : argWord (be2 x.toNat) 0 = x := be2_toNat x

/-- Class and service share byte 5 of a descriptor record. -/
theorem classService_byte : ∀ (c : BitVec 2) (p : Bool), (BitVec.ofNat 8 (c.toNat + (if p then 4 else 0))).setWidth 2 = c ∧
    (BitVec.ofNat 8 (c.toNat + (if p then 4 else 0))).getLsbD 2 = p := by decide

theorem descriptorArg_record (r : DescriptorRecord) : descriptorArg (descriptorRecordBytes r) = r := by
  have h : descriptorArg (descriptorRecordBytes r) = ⟨BitVec.ofNat 24 (numOf (be3 r.id.toNat)), r.sheets, r.selection,
      (BitVec.ofNat 8 (r.envClass.toNat + (if r.priority then 4 else 0))).setWidth 2,
      (BitVec.ofNat 8 (r.envClass.toNat + (if r.priority then 4 else 0))).getLsbD 2, BitVec.ofNat 32 (numOf (be4 r.key.toNat))⟩ := rfl
  obtain ⟨h1, h2⟩ := classService_byte r.envClass r.priority
  rw [h, be3_toNat, be4_toNat, h1, h2]

theorem elementArg_record (r : ElementRecord) : elementArg (elementRecordBytes r) = r := by
  have h : elementArg (elementRecordBytes r) = ⟨r.kind, BitVec.ofNat 32 (numOf (be4 r.first.toNat)),
      BitVec.ofNat 32 (numOf (be4 r.second.toNat)), r.bands, r.service, r.action⟩ := rfl
  rw [h, be4_toNat, be4_toNat]

/-! ## A request and its body -/

/-- The codes of the requests of IDLE alone. -/
def idleCodes : List Byte := [1#8, 7#8, 9#8, 11#8, 12#8, 13#8, 19#8, 20#8, 21#8, 24#8, 31#8]

/-- The act of a request with a code: in IDLE alone, or in every run state. -/
def inState (code : Byte) (act : State → State × Reply) : State → State × Reply := if code ∈ idleCodes then idleOnly act else act

/-- A request's body decodes to its act, and the act refuses the request's bad arguments. -/
structure Spells (c : Instr) (src : Addr) (tag : Tag) (code : Byte) (args : List Byte) (act : State → State × Reply) : Prop where
  body : requestBody c = some (code :: args)
  effect : requestEffect src code.toNat args = some (inState code act)
  run : ∀ s, exec c s = manage src tag code.toNat (inState code act) s
  bad : BadArguments c → ∀ s, act s = refuse .badArgument s

section
variable {c : Instr} {src : Addr} {tag : Tag} {code : Byte} {args : List Byte} {act : State → State × Reply}

theorem Spells.ofIdle (hcode : code ∈ idleCodes) (body : requestBody c = some (code :: args))
    (effect : requestEffect src code.toNat args = some (idleOnly act))
    (run : ∀ s, exec c s = manage src tag code.toNat (idleOnly act) s) (bad : BadArguments c → ∀ s, act s = refuse .badArgument s) :
    Spells c src tag code args act := by
  have hin : inState code act = idleOnly act := if_pos hcode
  exact ⟨body, by rw [hin]; exact effect, by rw [hin]; exact run, bad⟩

theorem Spells.ofAny (hcode : code ∉ idleCodes) (body : requestBody c = some (code :: args))
    (effect : requestEffect src code.toNat args = some act)
    (run : ∀ s, exec c s = manage src tag code.toNat act s) (bad : BadArguments c → ∀ s, act s = refuse .badArgument s) :
    Spells c src tag code args act := by
  have hin : inState code act = act := if_neg hcode
  exact ⟨body, by rw [hin]; exact effect, by rw [hin]; exact run, bad⟩

end

/-- A request without arguments has none to refuse. -/
theorem Spells.plain {c : Instr} {src : Addr} {tag : Tag} {code : Byte} {act : State → State × Reply} (hcode : code ∉ idleCodes)
    (body : requestBody c = some [code]) (effect : requestEffect src code.toNat [] = some act)
    (run : ∀ s, exec c s = manage src tag code.toNat act s) (bad : ¬BadArguments c) : Spells c src tag code [] act :=
  .ofAny hcode body effect run fun h => absurd h bad

theorem ofLength_eq {a : List Byte} {n : Nat} {act : State → State × Reply} (h : a.length = n) : ofLength a n act = some act := if_pos h

theorem sized_eq {ok : Bool} {act : State → State × Reply} (h : ok = true) : sized ok act = act := by
  funext s; rw [sized, if_pos h]

section
variable {src : Addr} {tag : Tag}

theorem setWindow_spells (w : Byte) (en : Bool) (base : PieceId) (k mode : Byte) (start : BitVec 16) :
    Spells (.setWindow src tag w en base k mode start) src tag 1 (w :: (flagByte en ++ be3 base.toNat ++ [k, mode] ++ be2 start.toNat))
      (actSetWindow w en base k mode start) := by
  refine .ofIdle (by decide) rfl ?_ (fun _ => rfl) (fun h s => actSetWindow_refused h)
  have h : requestEffect src 1 (w :: (flagByte en ++ be3 base.toNat ++ [k, mode] ++ be2 start.toNat)) =
      some (idleOnly (actSetWindow w (flagOf (if en then 1#8 else 0#8)) (BitVec.ofNat 24 (numOf (be3 base.toNat))) k mode
        (BitVec.ofNat 16 (numOf (be2 start.toNat))))) := rfl
  rw [flagOf_flagByte, be3_toNat, be2_toNat] at h
  exact h

theorem writeMapEntries_spells {first : BitVec 16} {count : Byte} {entries : List (Bool × BitVec 16)}
    (hlen : entries.length = countField count) :
    Spells (.writeMapEntries src tag first count entries) src tag 2
      (be2 first.toNat ++ count :: entries.flatMap (fun e => flagByte e.1 ++ be2 e.2.toNat)) (actWriteMapEntries first count entries) := by
  refine .ofAny (by decide) rfl ?_ (fun _ => rfl) (fun h s => actWriteMapEntries_refused hlen h)
  have hrec := argRecords_map (k := 3) (dec := mapArg) (pre := be2 first.toNat ++ [count]) (i := 3) entries (by decide) (fun _ => rfl)
    mapArg_record rfl
  have hk := Laws.RequestFits.length_records (fun e : Bool × BitVec 16 => flagByte e.1 ++ be2 e.2.toNat) 3 (fun _ => rfl) entries
  generalize entries.flatMap (fun e => flagByte e.1 ++ be2 e.2.toNat) = x at hrec hk ⊢
  have h : requestEffect src 2 (be2 first.toNat ++ count :: x) = ofLength (be2 first.toNat ++ count :: x) (3 + 3 * countOf count)
      (actWriteMapEntries (BitVec.ofNat 16 (numOf (be2 first.toNat))) count
        ((argRecords (be2 first.toNat ++ [count] ++ x) 3 3).map mapArg)) := rfl
  rw [hrec, be2_toNat, ofLength_eq (by simp [be2, hk, hlen, countOf_eq]; omega)] at h
  exact h

theorem loadDescriptors_spells {count : Byte} {records : List DescriptorRecord} (hlen : records.length = countField count) :
    Spells (.loadDescriptors src tag count records) src tag 3 (count :: records.flatMap descriptorRecordBytes)
      (actLoadDescriptors count records) := by
  refine .ofAny (by decide) rfl ?_ (fun _ => rfl) (fun h s => actLoadDescriptors_refused hlen h)
  have hrec := argRecords_map (k := 10) (dec := descriptorArg) (pre := [count]) (i := 1) records (by decide) (fun _ => rfl)
    descriptorArg_record rfl
  have hk := Laws.RequestFits.length_records descriptorRecordBytes 10 (fun _ => rfl) records
  generalize records.flatMap descriptorRecordBytes = x at hrec hk ⊢
  have h : requestEffect src 3 (count :: x) = ofLength (count :: x) (1 + 10 * countOf count)
      (actLoadDescriptors count ((argRecords ([count] ++ x) 1 10).map descriptorArg)) := rfl
  rw [hrec, ofLength_eq (by simp [hk, hlen, countOf_eq]; omega)] at h
  exact h

theorem retire_spells (first last : BitVec 16) :
    Spells (.retire src tag first last) src tag 4 (be2 first.toNat ++ be2 last.toNat) (actRetire first last) := by
  refine .ofAny (by decide) rfl ?_ (fun _ => rfl) (fun h s => actRetire_refused h s)
  have h : requestEffect src 4 (be2 first.toNat ++ be2 last.toNat) =
      some (actRetire (BitVec.ofNat 16 (numOf (be2 first.toNat))) (BitVec.ofNat 16 (numOf (be2 last.toNat)))) := rfl
  rw [be2_toNat, be2_toNat] at h
  exact h

theorem readDescriptor_spells (slot : BitVec 16) :
    Spells (.readDescriptor src tag slot) src tag 5 (be2 slot.toNat) (actReadDescriptor slot) := by
  refine .ofAny (by decide) rfl ?_ (fun _ => rfl) (fun h s => actReadDescriptor_refused h s)
  have h : requestEffect src 5 (be2 slot.toNat) = some (actReadDescriptor (BitVec.ofNat 16 (numOf (be2 slot.toNat)))) := rfl
  rw [be2_toNat] at h
  exact h

theorem findPiece_spells (id : PieceId) : Spells (.findPiece src tag id) src tag 6 (be3 id.toNat) (actFindPiece id) := by
  refine .ofAny (by decide) rfl ?_ (fun _ => rfl) (fun h s => if_pos h)
  have h : requestEffect src 6 (be3 id.toNat) = some (actFindPiece (BitVec.ofNat 24 (numOf (be3 id.toNat)))) := rfl
  rw [be3_toNat] at h
  exact h

theorem setLayout_spells {record : List Byte} (hlen : record.length = 36) :
    Spells (.setLayout src tag record) src tag 7 record (actSetLayout record) := by
  refine .ofIdle (by decide) rfl (ofLength_eq hlen) (fun s => ?_) (fun h s => actSetLayout_refused h)
  have h : exec (.setLayout src tag record) s =
      manage src tag 7 (if record.length = 36 then idleOnly (actSetLayout record) else refuse .badArgument) s := rfl
  rw [if_pos hlen] at h
  exact h

theorem readTrack_spells (slot : Option Byte) : Spells (.readTrack src tag slot) src tag 10 slot.toList (actReadTrack slot) := by
  refine .ofAny (by decide) rfl ?_ (fun _ => rfl) (fun h s => actReadTrack_refused h)
  cases slot <;> rfl

theorem setSelection_spells {first count : Byte} {sets : List (BitVec 16)} (hlen : sets.length = countField count)
    (hfit : 3 + 2 * sets.length ≤ 384) :
    Spells (.setSelection src tag first count sets) src tag 11 (first :: count :: sets.flatMap (fun x => be2 x.toNat))
      (actSetSelection first count sets) := by
  refine .ofIdle (by decide) rfl ?_ (fun s => ?_) (fun h s => actSetSelection_refused hlen h)
  · have hrec := argRecords_map (k := 2) (dec := fun r => argWord r 0) (pre := [first, count]) (i := 2) sets (by decide) (fun _ => rfl)
      argWord_record rfl
    have hk := Laws.RequestFits.length_records (fun x : BitVec 16 => be2 x.toNat) 2 (fun _ => rfl) sets
    generalize sets.flatMap (fun x => be2 x.toNat) = x at hrec hk ⊢
    have h : requestEffect src 11 (first :: count :: x) = ofLength (first :: count :: x) (2 + 2 * countOf count)
        (idleOnly (actSetSelection first count ((argRecords ([first, count] ++ x) 2 2).map (fun r => argWord r 0)))) := rfl
    rw [hrec, ofLength_eq (by simp [hk, hlen, countOf_eq]; omega)] at h
    exact h
  · have h : exec (.setSelection src tag first count sets) s =
        manage src tag 11 (sized (sets.length == countOf count && decide (3 + 2 * sets.length ≤ Config.requestBytes))
          (idleOnly (actSetSelection first count sets))) s := rfl
    rw [sized_eq (Bool.and_eq_true _ _ ▸ ⟨beq_iff_eq.mpr hlen, decide_eq_true hfit⟩)] at h
    exact h

theorem setInserts_spells {first count : Byte} {entries : List (BitVec 16 × BitVec 16)} (hlen : entries.length = count.toNat)
    (hfit : 3 + 4 * entries.length ≤ 384) :
    Spells (.setInserts src tag first count entries) src tag 12
      (first :: count :: entries.flatMap (fun e => be2 e.1.toNat ++ be2 e.2.toNat)) (actSetInserts first count entries) := by
  refine .ofIdle (by decide) rfl ?_ (fun s => ?_) (fun h s => actSetInserts_refused hlen h)
  · have hrec := argRecords_map (k := 4) (dec := insertArg) (pre := [first, count]) (i := 2) entries (by decide) (fun _ => rfl)
      insertArg_record rfl
    have hk := Laws.RequestFits.length_records (fun e : BitVec 16 × BitVec 16 => be2 e.1.toNat ++ be2 e.2.toNat) 4 (fun _ => rfl) entries
    generalize entries.flatMap (fun e => be2 e.1.toNat ++ be2 e.2.toNat) = x at hrec hk ⊢
    have h : requestEffect src 12 (first :: count :: x) = ofLength (first :: count :: x) (2 + 4 * count.toNat)
        (idleOnly (actSetInserts first count ((argRecords ([first, count] ++ x) 2 4).map insertArg))) := rfl
    rw [hrec, ofLength_eq (by simp [hk, hlen]; omega)] at h
    exact h
  · have h : exec (.setInserts src tag first count entries) s =
        manage src tag 12 (sized (entries.length == count.toNat && decide (3 + 4 * entries.length ≤ Config.requestBytes))
          (idleOnly (actSetInserts first count entries))) s := rfl
    rw [sized_eq (Bool.and_eq_true _ _ ▸ ⟨beq_iff_eq.mpr hlen, decide_eq_true hfit⟩)] at h
    exact h

theorem setInsertPolicy_spells (limit threshold : Byte) (single : Bool) :
    Spells (.setInsertPolicy src tag limit threshold single) src tag 13 (limit :: threshold :: flagByte single)
      (actSetInsertPolicy limit threshold single) := by
  refine .ofIdle (by decide) rfl ?_ (fun _ => rfl) (fun h s => actSetInsertPolicy_refused h)
  have h : requestEffect src 13 (limit :: threshold :: flagByte single) =
      some (idleOnly (actSetInsertPolicy limit threshold (flagOf (if single then 1#8 else 0#8)))) := rfl
  rw [flagOf_flagByte] at h
  exact h

theorem stageFeederMap_spells {bank : List (Bool × Byte)} (hlen : bank.length = 8) :
    Spells (.stageFeederMap src tag bank) src tag 14 (bank.flatMap (fun e => flagByte e.1 ++ [e.2])) (actStageFeederMap bank) := by
  refine .ofAny (by decide) rfl ?_ (fun _ => rfl) (fun h s => actStageFeederMap_refused h)
  have hrec := argRecords_map (k := 2) (dec := feederMapArg) (pre := []) (i := 0) bank (by decide) (fun _ => rfl) feederMapArg_record rfl
  have hk := Laws.RequestFits.length_records (fun e : Bool × Byte => flagByte e.1 ++ [e.2]) 2 (fun _ => rfl) bank
  generalize bank.flatMap (fun e => flagByte e.1 ++ [e.2]) = x at hrec hk ⊢
  have h : requestEffect src 14 x = ofLength x 16 (actStageFeederMap ((argRecords ([] ++ x) 0 2).map feederMapArg)) := rfl
  rw [hrec, ofLength_eq (by omega)] at h
  exact h

theorem restoreFeeder_spells (feeder : Byte) (reset : Bool) :
    Spells (.restoreFeeder src tag feeder reset) src tag 16 (feeder :: flagByte reset) (actRestoreFeeder feeder reset) := by
  refine .ofAny (by decide) rfl ?_ (fun _ => rfl) (fun h s => actRestoreFeeder_refused h)
  have h : requestEffect src 16 (feeder :: flagByte reset) = some (actRestoreFeeder feeder (flagOf (if reset then 1#8 else 0#8))) := rfl
  rw [flagOf_flagByte] at h
  exact h

theorem readInsertTables_spells (first : BitVec 16) :
    Spells (.readInsertTables src tag first) src tag 18 (be2 first.toNat) (actReadInsertTables first) := by
  refine .ofAny (by decide) rfl ?_ (fun _ => rfl) (fun h s => actReadInsertTables_refused h)
  have h : requestEffect src 18 (be2 first.toNat) = some (actReadInsertTables (BitVec.ofNat 16 (numOf (be2 first.toNat)))) := rfl
  rw [be2_toNat] at h
  exact h

theorem setSheetParameters_spells (mass caliper : BitVec 16) (panels : Byte) :
    Spells (.setSheetParameters src tag mass caliper panels) src tag 19 (be2 mass.toNat ++ be2 caliper.toNat ++ [panels])
      (actSetSheetParameters mass caliper panels) := by
  refine .ofIdle (by decide) rfl ?_ (fun _ => rfl) (fun h s => actSetSheetParameters_refused h)
  have h : requestEffect src 19 (be2 mass.toNat ++ be2 caliper.toNat ++ [panels]) =
      some (idleOnly (actSetSheetParameters (BitVec.ofNat 16 (numOf (be2 mass.toNat))) (BitVec.ofNat 16 (numOf (be2 caliper.toNat))) panels)) := rfl
  rw [be2_toNat, be2_toNat] at h
  exact h

theorem setEnvelopeClass_spells (cls : Byte) (en : Bool) (mass wall fill : BitVec 16) :
    Spells (.setEnvelopeClass src tag cls en mass wall fill) src tag 20
      (cls :: (flagByte en ++ be2 mass.toNat ++ be2 wall.toNat ++ be2 fill.toNat)) (actSetEnvelopeClass cls en mass wall fill) := by
  refine .ofIdle (by decide) rfl ?_ (fun _ => rfl) (fun h s => actSetEnvelopeClass_refused h)
  have h : requestEffect src 20 (cls :: (flagByte en ++ be2 mass.toNat ++ be2 wall.toNat ++ be2 fill.toNat)) =
      some (idleOnly (actSetEnvelopeClass cls (flagOf (if en then 1#8 else 0#8)) (BitVec.ofNat 16 (numOf (be2 mass.toNat)))
        (BitVec.ofNat 16 (numOf (be2 wall.toNat))) (BitVec.ofNat 16 (numOf (be2 fill.toNat))))) := rfl
  rw [flagOf_flagByte, be2_toNat, be2_toNat, be2_toNat] at h
  exact h

theorem setBands_spells {count : Byte} {limits : List (BitVec 16)} (hlen : limits.length = count.toNat)
    (hfit : 2 + 2 * limits.length ≤ 384) :
    Spells (.setBands src tag count limits) src tag 21 (count :: limits.flatMap (fun x => be2 x.toNat)) (actSetBands count limits) := by
  refine .ofIdle (by decide) rfl ?_ (fun s => ?_) (fun h s => actSetBands_refused hlen h)
  · have hrec := argRecords_map (k := 2) (dec := fun r => argWord r 0) (pre := [count]) (i := 1) limits (by decide) (fun _ => rfl)
      argWord_record rfl
    have hk := Laws.RequestFits.length_records (fun x : BitVec 16 => be2 x.toNat) 2 (fun _ => rfl) limits
    generalize limits.flatMap (fun x => be2 x.toNat) = x at hrec hk ⊢
    have h : requestEffect src 21 (count :: x) = ofLength (count :: x) (1 + 2 * count.toNat)
        (idleOnly (actSetBands count ((argRecords ([count] ++ x) 1 2).map (fun r => argWord r 0)))) := rfl
    rw [hrec, ofLength_eq (by simp [hk, hlen]; omega)] at h
    exact h
  · have h : exec (.setBands src tag count limits) s =
        manage src tag 21 (sized (limits.length == count.toNat && decide (2 + 2 * limits.length ≤ Config.requestBytes))
          (idleOnly (actSetBands count limits))) s := rfl
    rw [sized_eq (Bool.and_eq_true _ _ ▸ ⟨beq_iff_eq.mpr hlen, decide_eq_true hfit⟩)] at h
    exact h

theorem stageSortElements_spells {first count : Byte} {elements : List ElementRecord} (hlen : elements.length = count.toNat) :
    Spells (.stageSortElements src tag first count elements) src tag 23 (first :: count :: elements.flatMap elementRecordBytes)
      (actStageSortElements first count elements) := by
  refine .ofAny (by decide) rfl ?_ (fun _ => rfl) (fun h s => actStageSortElements_refused hlen h)
  have hrec := argRecords_map (k := 12) (dec := elementArg) (pre := [first, count]) (i := 2) elements (by decide) (fun _ => rfl)
    elementArg_record rfl
  have hk := Laws.RequestFits.length_records elementRecordBytes 12 (fun _ => rfl) elements
  generalize elements.flatMap elementRecordBytes = x at hrec hk ⊢
  have h : requestEffect src 23 (first :: count :: x) = ofLength (first :: count :: x) (2 + 12 * count.toNat)
      (actStageSortElements first count ((argRecords ([first, count] ++ x) 2 12).map elementArg)) := rfl
  rw [hrec, ofLength_eq (by simp [hk, hlen]; omega)] at h
  exact h

theorem trySortKey_spells (key : BitVec 32) (band service : Byte) :
    Spells (.trySortKey src tag key band service) src tag 27 (be4 key.toNat ++ [band, service]) (actTrySortKey key band service) := by
  refine .ofAny (by decide) rfl ?_ (fun _ => rfl) (fun h s => actTrySortKey_refused h)
  have h : requestEffect src 27 (be4 key.toNat ++ [band, service]) =
      some (actTrySortKey (BitVec.ofNat 32 (numOf (be4 key.toNat))) band service) := rfl
  rw [be4_toNat] at h
  exact h

theorem setBinLimits_spells (bin : Byte) (disabled : Bool) (maxCount : BitVec 16) (maxMass : BitVec 24) (minCount : BitVec 16) :
    Spells (.setBinLimits src tag bin disabled maxCount maxMass minCount) src tag 28
      (bin :: (flagByte disabled ++ be2 maxCount.toNat ++ be3 maxMass.toNat ++ be2 minCount.toNat))
      (actSetBinLimits bin disabled maxCount maxMass minCount) := by
  refine .ofAny (by decide) rfl ?_ (fun _ => rfl) (fun h s => actSetBinLimits_refused h)
  have h : requestEffect src 28 (bin :: (flagByte disabled ++ be2 maxCount.toNat ++ be3 maxMass.toNat ++ be2 minCount.toNat)) =
      some (actSetBinLimits bin (flagOf (if disabled then 1#8 else 0#8)) (BitVec.ofNat 16 (numOf (be2 maxCount.toNat)))
        (BitVec.ofNat 24 (numOf (be3 maxMass.toNat))) (BitVec.ofNat 16 (numOf (be2 minCount.toNat)))) := rfl
  rw [flagOf_flagByte, be2_toNat, be3_toNat, be2_toNat] at h
  exact h

theorem declareRemoved_spells (range : Bool) (lo hi : Byte) (accumulator : Bool) :
    Spells (.declareRemoved src tag range lo hi accumulator) src tag 35 (flagByte range ++ [lo, hi] ++ flagByte accumulator)
      (actDeclareRemoved range lo hi accumulator) := by
  refine .ofAny (by decide) rfl ?_ (fun _ => rfl) (fun h => h.elim)
  have h : requestEffect src 35 (flagByte range ++ [lo, hi] ++ flagByte accumulator) =
      some (actDeclareRemoved (flagOf (if range then 1#8 else 0#8)) lo hi (flagOf (if accumulator then 1#8 else 0#8))) := rfl
  rw [flagOf_flagByte, flagOf_flagByte] at h
  exact h

theorem clearSummary_spells (flags : BitVec 24) :
    Spells (.clearSummary src tag flags) src tag 41 (be3 flags.toNat) (actClearSummary flags) := by
  refine .ofAny (by decide) rfl ?_ (fun _ => rfl) (fun h s => actClearSummary_refused h s)
  have h : requestEffect src 41 (be3 flags.toNat) = some (actClearSummary (BitVec.ofNat 24 (numOf (be3 flags.toNat)))) := rfl
  rw [be3_toNat] at h
  exact h

end

theorem wellFormed_iff {c : Instr} {n : Nat} (hn : bodyLength c = some n) : wellFormed c = true ↔ shapeOk c = true ∧ n ≤ 384 := by
  unfold wellFormed
  rw [hn, Bool.and_eq_true]
  exact and_congr_right fun _ => decide_eq_true_iff

/-- Every well-formed request's body decodes to its act, by its constructor. -/
theorem request_spells {c : Instr} {src : Addr} {tag : Tag} (hw : wellFormed c = true) (hr : requester c = some (src, tag)) :
    ∃ code args act, Spells c src tag code args act := by
  cases c <;> cases hr
  case setWindow => exact ⟨_, _, _, setWindow_spells ..⟩
  case writeMapEntries =>
    exact ⟨_, _, _, writeMapEntries_spells (beq_iff_eq.mp ((wellFormed_iff rfl).mp hw).1)⟩
  case loadDescriptors => exact ⟨_, _, _, loadDescriptors_spells (beq_iff_eq.mp ((wellFormed_iff rfl).mp hw).1)⟩
  case retire => exact ⟨_, _, _, retire_spells ..⟩
  case readDescriptor => exact ⟨_, _, _, readDescriptor_spells ..⟩
  case findPiece => exact ⟨_, _, _, findPiece_spells ..⟩
  case setLayout => exact ⟨_, _, _, setLayout_spells (beq_iff_eq.mp ((wellFormed_iff rfl).mp hw).1)⟩
  case readLayout => exact ⟨_, _, _, .plain (by decide) rfl rfl (fun _ => rfl) id⟩
  case setTiming => exact ⟨_, _, _, .ofIdle (by decide) rfl rfl (fun _ => rfl) (fun h s => actSetTiming_refused h)⟩
  case readTrack => exact ⟨_, _, _, readTrack_spells ..⟩
  case setSelection =>
    obtain ⟨hlen, hfit⟩ := (wellFormed_iff rfl).mp hw
    exact ⟨_, _, _, setSelection_spells (beq_iff_eq.mp hlen) hfit⟩
  case setInserts =>
    obtain ⟨hlen, hfit⟩ := (wellFormed_iff rfl).mp hw
    exact ⟨_, _, _, setInserts_spells (beq_iff_eq.mp hlen) hfit⟩
  case setInsertPolicy => exact ⟨_, _, _, setInsertPolicy_spells ..⟩
  case stageFeederMap => exact ⟨_, _, _, stageFeederMap_spells (beq_iff_eq.mp ((wellFormed_iff rfl).mp hw).1)⟩
  case commitFeederMap => exact ⟨_, _, _, .plain (by decide) rfl rfl (fun _ => rfl) id⟩
  case restoreFeeder => exact ⟨_, _, _, restoreFeeder_spells ..⟩
  case readFeeders => exact ⟨_, _, _, .plain (by decide) rfl rfl (fun _ => rfl) id⟩
  case readInsertTables => exact ⟨_, _, _, readInsertTables_spells ..⟩
  case setSheetParameters => exact ⟨_, _, _, setSheetParameters_spells ..⟩
  case setEnvelopeClass => exact ⟨_, _, _, setEnvelopeClass_spells ..⟩
  case setBands =>
    obtain ⟨hlen, hfit⟩ := (wellFormed_iff rfl).mp hw
    exact ⟨_, _, _, setBands_spells (beq_iff_eq.mp hlen) hfit⟩
  case readPlannerTables => exact ⟨_, _, _, .plain (by decide) rfl rfl (fun _ => rfl) id⟩
  case stageSortElements => exact ⟨_, _, _, stageSortElements_spells (beq_iff_eq.mp ((wellFormed_iff rfl).mp hw).1)⟩
  case setFallback => exact ⟨_, _, _, .ofIdle (by decide) rfl rfl (fun _ => rfl) (fun h s => actSetFallback_refused h)⟩
  case commitSortPlan => exact ⟨_, _, _, .plain (by decide) rfl rfl (fun _ => rfl) id⟩
  case readSortPlan => exact ⟨_, _, _, .ofAny (by decide) rfl rfl (fun _ => rfl) (fun h s => actReadSortPlan_refused h)⟩
  case trySortKey => exact ⟨_, _, _, trySortKey_spells ..⟩
  case setBinLimits => exact ⟨_, _, _, setBinLimits_spells ..⟩
  case readTrays => exact ⟨_, _, _, .ofAny (by decide) rfl rfl (fun _ => rfl) (fun h s => actReadTrays_refused h)⟩
  case readBins => exact ⟨_, _, _, .plain (by decide) rfl rfl (fun _ => rfl) id⟩
  case startRun => exact ⟨_, _, _, .ofIdle (by decide) rfl rfl (fun _ => rfl) (fun h => h.elim)⟩
  case endRun => exact ⟨_, _, _, .plain (by decide) rfl rfl (fun _ => rfl) id⟩
  case stop => exact ⟨_, _, _, .plain (by decide) rfl rfl (fun _ => rfl) id⟩
  case resume => exact ⟨_, _, _, .plain (by decide) rfl rfl (fun _ => rfl) id⟩
  case declareRemoved => exact ⟨_, _, _, declareRemoved_spells ..⟩
  case abortRun => exact ⟨_, _, _, .plain (by decide) rfl rfl (fun _ => rfl) id⟩
  case restart => exact ⟨_, _, _, .plain (by decide) rfl rfl (fun _ => rfl) id⟩
  case readRunStatus => exact ⟨_, _, _, .plain (by decide) rfl rfl (fun _ => rfl) id⟩
  case readCompletions => exact ⟨_, _, _, .ofAny (by decide) rfl rfl (fun _ => rfl) (fun h s => actReadCompletions_refused h)⟩
  case readRunCounters => exact ⟨_, _, _, .plain (by decide) rfl rfl (fun _ => rfl) id⟩
  case clearSummary => exact ⟨_, _, _, clearSummary_spells ..⟩
  case readSummary => exact ⟨_, _, _, .plain (by decide) rfl rfl (fun _ => rfl) id⟩
  case readPort => exact ⟨_, _, _, .plain (by decide) rfl rfl (fun _ => rfl) id⟩

/-! ## The two statements -/

theorem bodyEffect_spells {c : Instr} {src : Addr} {tag : Tag} {code : Byte} {args : List Byte} {act : State → State × Reply}
    (h : Spells c src tag code args act) (hfit : (code :: args).length ≤ 384) : bodyEffect src (code :: args) = inState code act := by
  have hfit' : (code :: args).length ≤ Config.requestBytes := hfit
  show (if (code :: args).length ≤ Config.requestBytes then (requestEffect src code.toNat args).getD (refuse .badArgument) else _) = _
  rw [if_pos hfit', h.effect, Option.getD_some]

/-- Settles O20: the completed body decodes to the request's act, taken in the state with the assembly given up. -/
theorem requestBodiesSpellTheirCommands : Obligations.RequestBodiesSpellTheirCommands := by
  intro c src tag seg body whole s u hw hr hb hlast hg hs hu hset
  obtain ⟨code, args, act, hsp⟩ := request_spells hw hr
  obtain rfl : code :: args = whole := Option.some.inj (hsp.body.symm.trans hb)
  have hfit := ((wellFormedRequestsFit c _ hb).2 hw).2.1
  have hcode : BitVec.ofNat 8 code.toNat = code := BitVec.eq_of_toNat_eq (by simp)
  rw [exec_request hs, takeSegment_of_gathered hg, addSegment_complete (.inl hlast), bodyEffect_spells hsp hfit, bodyCode_eq,
    hsp.run, manage, event_live hu, hset, hcode, setAssembly_eq]
  rfl

section
variable {src : Addr} {tag : Tag} {act : State → State × Reply} {u : State}

theorem idleOnly_refused (h : u.rc.state ≠ .idle) :
    idleOnly act (reserveBuffer src tag u) = refuse .wrongState (reserveBuffer src tag u) := if_neg h

theorem idleOnly_taken (h : u.rc.state = .idle) : idleOnly act (reserveBuffer src tag u) = act (reserveBuffer src tag u) := if_pos h

end

/-- Settles O23: by the request's act, in IDLE alone or in every run state. -/
theorem requestsRefusedByStateOrArguments : Obligations.RequestsRefusedByStateOrArguments := by
  intro c src tag body s hw hr hb hs
  obtain ⟨code, args, act, hsp⟩ := request_spells hw hr
  obtain rfl : code :: args = body := Option.some.inj (hsp.body.symm.trans hb)
  have hcode : BitVec.ofNat 8 code.toNat = code := BitVec.eq_of_toNat_eq (by simp)
  have hidle : (code :: args).head? ∈ [some 1#8, some 7#8, some 9#8, some 11#8, some 12#8, some 13#8, some 19#8, some 20#8, some 21#8,
      some 24#8, some 31#8] ↔ code ∈ idleCodes := by simp [idleCodes]
  have refused : ∀ x, inState code act (reserveBuffer src tag (settle s)) = refuse x (reserveBuffer src tag (settle s)) →
      ∃ t, exec c s = .next t ∧ Answered src tag code ⟨x, 0, 0, []⟩ (settle s) t := fun x hx => by
    obtain ⟨t, ht, ha⟩ := manage_answered (code := code.toNat) hs hx
    rw [hcode] at ha
    exact ⟨t, (hsp.run s).trans ht, ha⟩
  intro idleAlone
  refine ⟨fun hi hstate => refused _ ?_, fun hbad hi => refused _ ?_⟩
  · rw [inState, if_pos (hidle.mp hi)]
    exact idleOnly_refused hstate
  · unfold inState
    split
    · next hmem =>
      exact (idleOnly_taken (hi (hidle.mpr hmem))).trans (hsp.bad hbad _)
    · exact hsp.bad hbad _

end Sys2Proof.Machine
end

section
/-! The requests that write stores and tables (R4, R9, R14-R16, R46, R47, R66-R68, R72, R91-R93). -/

namespace Sys2Proof.Machine

section
variable {c : Instr} {src : Addr} {tag : Tag} {code : Byte} {args : List Byte} {act : State → State × Reply} {s w : State} {r : Reply}

/-- A request is answered in the state its act makes of the settled one. -/
theorem Spells.answered (h : Spells c src tag code args act) (hs : Takes s) (hi : code ∈ idleCodes → (settle s).rc.state = .idle)
    (ha : act (reserveBuffer src tag (settle s)) = (reserveBuffer src tag w, r)) :
    ∃ t, exec c s = .next t ∧ Answered src tag code r w t := by
  have hact : inState code act (reserveBuffer src tag (settle s)) = (reserveBuffer src tag w, r) := by
    unfold inState
    split
    · next hmem => rw [idleOnly_taken (hi hmem), ha]
    · exact ha
  obtain ⟨t, ht, hans⟩ := manage_answered (code := code.toNat) hs hact
  rw [show BitVec.ofNat 8 code.toNat = code from BitVec.eq_of_toNat_eq (by simp)] at hans
  exact ⟨t, (h.run s).trans ht, hans⟩

end

section
variable (src : Addr) (tag : Tag) (u : State)

/-! ## Windows and the map (R4, R9) -/

theorem windowFields_taken {base : PieceId} {k mode : Byte} {start : BitVec 16} (h1 : 4 ≤ k.toNat) (h2 : k.toNat ≤ 20)
    (h3 : base.toNat % 2 ^ k.toNat = 0) (h4 : mode = 0 ∧ start.toNat < 4096 ∨ mode = 1 ∧ start.toNat < 8192) :
    windowFields base k mode start = some ⟨true, base, k.toNat, if mode = 0 then .direct else .mapped, start.toNat⟩ := by
  rcases h4 with ⟨rfl, h4⟩ | ⟨rfl, h4⟩
  · exact if_pos ⟨h1, h2, h3, h4⟩
  · exact if_pos ⟨h1, h2, h3, h4⟩

theorem actSetWindow_enabled {w : Byte} {base : PieceId} {k mode : Byte} {start : BitVec 16} {x : Window} (hw : w.toNat < 4)
    (hx : windowFields base k mode start = some x) :
    actSetWindow w true base k mode start (reserveBuffer src tag u) =
      (reserveBuffer src tag (withDs u { u.ds with windows := tput .off u.ds.windows w.toNat x }), ⟨.done, 0, 0, []⟩) := by
  have hw' : w.toNat < Config.windows := hw
  rw [actSetWindow, if_pos hw', if_pos rfl, hx]; rfl

theorem actSetWindow_disabled (base : PieceId) (k mode : Byte) (start : BitVec 16) {w : Byte} (hw : w.toNat < 4) :
    actSetWindow w false base k mode start (reserveBuffer src tag u) =
      (reserveBuffer src tag (withDs u { u.ds with
        windows := tput .off u.ds.windows w.toNat { tget Window.off u.ds.windows w.toNat with enabled := false } }), ⟨.done, 0, 0, []⟩) := by
  have hw' : w.toNat < Config.windows := hw
  rw [actSetWindow, if_pos hw', if_neg Bool.false_ne_true]; rfl

theorem actWriteMapEntries_taken {first : BitVec 16} {count : Byte} {entries : List (Bool × BitVec 16)}
    (hlen : entries.length = countField count) (h1 : entries.length ≤ 32) (h2 : first.toNat + entries.length ≤ 8192)
    (h3 : ∀ e ∈ entries, e.1 = true → e.2.toNat < 4096) :
    actWriteMapEntries first count entries (reserveBuffer src tag u) =
      (reserveBuffer src tag (withDs u { u.ds with
        map := tputRun .off u.ds.map first.toNat (entries.map (fun e => ⟨e.1, e.2.toNat % 4096⟩)) }), ⟨.done, entries.length, 0, []⟩) := by
  rw [actWriteMapEntries, if_pos (mapWriteOk_iff.mpr ⟨hlen ▸ h1, hlen, hlen ▸ h2, h3⟩), countOf_eq, ← hlen]
  rfl

end

/-- Settles O24, by the three acts. -/
theorem windowsAndMapAreWritten : Obligations.WindowsAndMapAreWritten := fun src tag s hs =>
  ⟨fun w k mode base start hi hw h1 h2 h3 h4 => (setWindow_spells ..).answered hs (fun _ => hi)
      (actSetWindow_enabled src tag _ hw (windowFields_taken h1 h2 h3 h4)),
    fun w k mode base start hi hw => (setWindow_spells ..).answered hs (fun _ => hi) (actSetWindow_disabled src tag _ base k mode start hw),
    fun first count entries hlen h1 h2 h3 => (writeMapEntries_spells hlen).answered hs (fun h => absurd h (by decide))
      (actWriteMapEntries_taken src tag _ hlen h1 h2 h3)⟩

/-! ## Batches of descriptors (R14-R16) -/

section
variable (src : Addr) (tag : Tag)

/-- A load neither reads nor writes the response buffer. -/
theorem loadRecord_reserveBuffer (r : DescriptorRecord) (u : State) :
    loadRecord r (reserveBuffer src tag u) = (loadRecord r u).map (reserveBuffer src tag) := by
  have hreach : reach (reserveBuffer src tag u) r.id = reach u r.id := rfl
  have hslot : ∀ n, loadSlot r n (reserveBuffer src tag u) = (loadSlot r n u).map (reserveBuffer src tag) := fun n => by
    have hd : descAt (reserveBuffer src tag u) n = descAt u n := rfl
    unfold loadSlot
    rw [hd]
    cases descAt u n with
    | none => rfl
    | some d => dsimp only; split_ifs <;> rfl
  unfold loadRecord
  rw [hreach]
  split
  · cases reach u r.id with
    | slot w i n => exact hslot n
    | _ => rfl
  · rfl

theorem loadBatch_reserveBuffer : ∀ (l : List DescriptorRecord) (j : Nat) (u : State),
    loadBatch l j (reserveBuffer src tag u) = (reserveBuffer src tag (loadBatch l j u).1, (loadBatch l j u).2)
  | [], _, _ => rfl
  | r :: rs, j, u => by
    unfold loadBatch
    rw [loadRecord_reserveBuffer]
    cases loadRecord r u with
    | error e => rfl
    | ok v => exact loadBatch_reserveBuffer rs (j + 1) v

theorem actLoadDescriptors_taken {count : Byte} {records : List DescriptorRecord} (u : State) (hlen : records.length = countField count)
    (h : records.length ≤ 32) : actLoadDescriptors count records (reserveBuffer src tag u) =
      (reserveBuffer src tag (loadBatch records 0 u).1, loadReply records.length (loadBatch records 0 u).2) := by
  have hok : countField count ≤ 32 ∧ records.length = countField count := ⟨hlen ▸ h, hlen⟩
  rw [← countOf_eq] at hok
  rw [actLoadDescriptors, if_pos hok, loadBatch_reserveBuffer, countOf_eq, ← hlen]

end

theorem loadBatch_one (r : DescriptorRecord) (u : State) : loadBatch [r] 0 u = match loadRecord r u with
    | .ok v => (v, none)
    | .error e => (u, some (0, e)) := rfl

section
variable {r : DescriptorRecord} {u : State}

theorem batchOne_loaded {src : Addr} {tag : Tag} {t v : State} (h : loadRecord r u = .ok v)
    (ha : Answered src tag 3 (loadReply [r].length (loadBatch [r] 0 u).2) (loadBatch [r] 0 u).1 t) :
    Answered src tag 3 ⟨.done, 1, 0, []⟩ v t := by
  rw [loadBatch_one, h] at ha; exact ha

theorem batchOne_refused {src : Addr} {tag : Tag} {t : State} {e : LoadRefusal} (h : loadRecord r u = .error e)
    (ha : Answered src tag 3 (loadReply [r].length (loadBatch [r] 0 u).2) (loadBatch [r] 0 u).1 t) :
    Answered src tag 3 ⟨loadStatus e, 0, 1, be1 (statusCode (loadStatus e)) ++ be1 (loadLookup e)⟩ u t := by
  rw [loadBatch_one, h] at ha; exact ha

theorem loadRecord_of_fields (h : FieldsOk r) : loadRecord r u = match reach u r.id with
    | .noWindow => .error (.notFound 1)
    | .slotRange _ => .error (.notFound 2)
    | .mapRange _ => .error (.notFound 3)
    | .mapInvalid _ _ => .error (.notFound 4)
    | .slot _ _ n => loadSlot r n u := if_pos ((recordFieldsOk_iff r).mpr h)

theorem loadRecord_of_bad (h : ¬FieldsOk r) : loadRecord r u = .error .badArgument :=
  if_neg fun hok => h ((recordFieldsOk_iff r).mp hok)

/-- The slot check of R15, by the slot's descriptor. -/
theorem loadSlot_free {n : Nat} (h : descAt u n = none) : loadSlot r n u = .ok (setDesc u n (some (recordDescriptor r .loaded 0))) := by
  unfold loadSlot; rw [h]

theorem loadSlot_held {n : Nat} {d : Descriptor} (h : descAt u n = some d) : loadSlot r n u =
    if d.id = r.id ∧ d.state = .loaded then .ok (setDesc u n (some (recordDescriptor r .loaded 0)))
    else if d.id = r.id ∧ d.state = .diverted then .ok (setDesc u n (some (recordDescriptor r .diverted d.reprint)))
    else .error .slotBusy := by unfold loadSlot; rw [h]

end

/-- Settles O26: the batch by `loadBatch_spec`, the batch of one by the record's fields, its lookup and its slot. -/
theorem descriptorBatchesLoad : Obligations.DescriptorBatchesLoad := by
  intro src tag count records s hs hlen h32
  obtain ⟨t, ht, ha⟩ := (loadDescriptors_spells hlen).answered hs (fun h => absurd h (by decide))
    (actLoadDescriptors_taken src tag _ hlen h32)
  refine ⟨t, (loadBatch records 0 (settle s)).1, ht, ?_, ?_⟩
  case refine_1 =>
    rcases loadBatch_spec records 0 (settle s) with ⟨x, hx, hl⟩ | ⟨before, r, rest, x, e, hrec, hx, hl, hr⟩
    · rw [hx] at ha ⊢
      exact .inl ⟨hl, ha⟩
    · rw [hx] at ha ⊢
      have hrest : records.length - (0 + before.length) = rest.length + 1 := by rw [hrec]; simp
      refine .inr ⟨before, r, rest, _, _, hrec, hl, hr, ?_⟩
      rw [loadReply, hrest, Nat.zero_add] at ha
      simpa only [List.length_eq_zero_iff] using ha
  case refine_2 =>
    rintro r rfl
    have ok : ∀ v, loadRecord r (settle s) = .ok v → Answered src tag 3 ⟨.done, 1, 0, []⟩ v t := fun v hv => batchOne_loaded hv ha
    have error : ∀ (e : LoadRefusal) (bytes : List Byte), be1 (statusCode (loadStatus e)) ++ be1 (loadLookup e) = bytes →
        loadRecord r (settle s) = .error e → Answered src tag 3 ⟨loadStatus e, 0, 1, bytes⟩ (settle s) t := fun e bytes hb he =>
      hb ▸ batchOne_refused he ha
    refine ⟨fun hf => error .badArgument _ rfl (loadRecord_of_bad hf), fun hf hr => error (.notFound 1) _ rfl ?_, fun w hf hr => error (.notFound 2) _ rfl ?_,
      fun w hf hr => error (.notFound 3) _ rfl ?_, fun w i hf hr => error (.notFound 4) _ rfl ?_, fun w i n hf hr => ?slot⟩
    case slot =>
      have hslot : loadRecord r (settle s) = loadSlot r n (settle s) := by rw [loadRecord_of_fields hf, hr]
      refine ⟨fun hd => ok _ (hslot.trans (loadSlot_free hd)), fun d hd => ?_⟩
      rw [loadSlot_held hd] at hslot
      refine ⟨fun h1 h2 => ?again, fun h1 h2 => ?reprint, fun h => ?busy⟩
      case again =>
        rw [if_pos ⟨h1, h2⟩] at hslot
        exact ok _ hslot
      case reprint =>
        rw [if_neg (by simp [h2]), if_pos ⟨h1, h2⟩] at hslot
        exact ok _ hslot
      case busy =>
        have hno : ∀ x : DescState, x = .loaded ∨ x = .diverted → ¬(d.id = r.id ∧ d.state = x) := by
          rintro x hx ⟨h1, rfl⟩
          rcases h with h | h | h
          · exact h h1
          · rw [h] at hx; simp at hx
          · rw [h] at hx; simp at hx
        rw [if_neg (hno _ (.inl rfl)), if_neg (hno _ (.inr rfl))] at hslot
        exact error .slotBusy _ rfl hslot
    all_goals rw [loadRecord_of_fields hf, hr]

/-! ## The line's and the planner's tables (R46, R47, R91-R93) -/

section
variable (src : Addr) (tag : Tag) (u : State)

theorem actSetLayout_taken {record : List Byte} (hlen : record.length = 36)
    (h : ∀ i, i < 36 → i ∉ [8, 11, 14, 17, 20, 23, 26, 29] → (byteAt record i).toNat ≤ 63) :
    actSetLayout record (reserveBuffer src tag u) =
      (reserveBuffer src tag (withTu u { u.tu with layout := layoutOf record }), ⟨.done, 0, 0, []⟩) :=
  if_pos (layoutOk_iff.mpr ⟨hlen, h⟩)

theorem actSetTiming_taken {lr lf lg ls a : Byte} (h : 1 ≤ lr.toNat ∧ lr.toNat ≤ 4 ∧ 1 ≤ lf.toNat ∧ lf.toNat ≤ 8 ∧ 1 ≤ lg.toNat ∧
    lg.toNat ≤ 8 ∧ 1 ≤ ls.toNat ∧ ls.toNat ≤ 8 ∧ 1 ≤ a.toNat ∧ a.toNat ≤ 4) :
    actSetTiming lr lf lg ls a (reserveBuffer src tag u) =
      (reserveBuffer src tag (withTu u { u.tu with timing := ⟨lr.toNat, lf.toNat, lg.toNat, ls.toNat, a.toNat⟩ }), ⟨.done, 0, 0, []⟩) := by
  rw [actSetTiming, timingOf, if_pos h]; rfl

theorem actSetSheetParameters_taken {mass caliper : BitVec 16} {panels : Byte} (h : 1 ≤ mass.toNat ∧ mass.toNat ≤ 20000 ∧
    20 ≤ caliper.toNat ∧ caliper.toNat ≤ 400 ∧ 1 ≤ panels.toNat ∧ panels.toNat ≤ 3) :
    actSetSheetParameters mass caliper panels (reserveBuffer src tag u) =
      (reserveBuffer src tag (withPp u { u.pp with sheetMass := mass.toNat, sheetCaliper := caliper.toNat, panels := panels.toNat }),
        ⟨.done, 0, 0, []⟩) := if_pos h

theorem actSetEnvelopeClass_enabled {cls : Byte} {mass wall fill : BitVec 16} (hc : cls.toNat < 4) (h : 1 ≤ mass.toNat ∧
    mass.toNat ≤ 60000 ∧ wall.toNat ≤ 2000 ∧ 1 ≤ fill.toNat ∧ fill.toNat ≤ 20000) :
    actSetEnvelopeClass cls true mass wall fill (reserveBuffer src tag u) =
      (reserveBuffer src tag (withPp u { u.pp with
        classes := tput .off u.pp.classes cls.toNat ⟨true, mass.toNat, wall.toNat, fill.toNat⟩ }), ⟨.done, 0, 0, []⟩) := by
  rw [actSetEnvelopeClass, if_pos hc, if_pos rfl, if_pos h]; rfl

theorem actSetEnvelopeClass_disabled (mass wall fill : BitVec 16) {cls : Byte} (hc : cls.toNat < 4) :
    actSetEnvelopeClass cls false mass wall fill (reserveBuffer src tag u) =
      (reserveBuffer src tag (withPp u { u.pp with
        classes := tput .off u.pp.classes cls.toNat { tget EnvClass.off u.pp.classes cls.toNat with enabled := false } }),
        ⟨.done, 0, 0, []⟩) := by
  rw [actSetEnvelopeClass, if_pos hc, if_neg Bool.false_ne_true]; rfl

theorem actSetBands_taken {count : Byte} {limits : List (BitVec 16)} (hlen : limits.length = count.toNat) (h8 : limits.length ≤ 8)
    (h : ∀ l ∈ limits, 1 ≤ l.toNat ∧ l.toNat ≤ 20000) (hasc : ascending (limits.map BitVec.toNat) = true) :
    actSetBands count limits (reserveBuffer src tag u) =
      (reserveBuffer src tag (withPp u { u.pp with bands := limits.map BitVec.toNat }), ⟨.done, 0, 0, []⟩) :=
  if_pos ⟨hlen ▸ h8, List.all_eq_true.mpr fun l hl => by simpa using h l hl, hasc⟩

end

theorem addrByte_addrOf {b : Byte} (h : b.toNat ≤ 63) : addrByte (addrOf b) = b := by
  apply BitVec.eq_of_toNat_eq
  simp [addrByte, addrOf]; omega

theorem placeAt_layoutOf {t : State} {record : List Byte} (ht : t.tu.layout = layoutOf record) {f : Nat} (hf : f < 8) : placeAt t f =
    ⟨addrOf (byteAt record (6 + 3 * f)), (byteAt record (7 + 3 * f)).toNat, (byteAt record (8 + 3 * f)).getLsbD 0⟩ := by
  unfold placeAt
  rw [ht]
  show tget FeederPlace.off (tputRun FeederPlace.off [] 0 _) f = _
  rw [tget_tputRun nil_canonical, Nat.sub_zero]
  simp [hf, Config.feeders]
  rfl

/-- Settles O28, by the acts of the five requests. -/
theorem lineAndPlannerTablesAreReplaced : Obligations.LineAndPlannerTablesAreReplaced := by
  intro src tag s hs hi
  refine ⟨fun record hlen h => ?layout,
    fun lr lf lg ls a h1 h2 h3 h4 h5 h6 h7 h8 h9 h10 => ?timing,
    fun mass caliper panels h1 h2 h3 h4 h5 h6 => (setSheetParameters_spells ..).answered hs (fun _ => hi)
      (actSetSheetParameters_taken src tag _ ⟨h1, h2, h3, h4, h5, h6⟩),
    fun cls mass wall fill hc h1 h2 h3 h4 h5 => (setEnvelopeClass_spells ..).answered hs (fun _ => hi)
      (actSetEnvelopeClass_enabled src tag _ hc ⟨h1, h2, h3, h4, h5⟩),
    fun cls mass wall fill hc => (setEnvelopeClass_spells ..).answered hs (fun _ => hi)
      (actSetEnvelopeClass_disabled src tag _ mass wall fill hc),
    fun count limits hlen h8 h hasc => (setBands_spells hlen (by omega)).answered hs (fun _ => hi)
      (actSetBands_taken src tag _ hlen h8 h hasc)⟩
  case timing =>
    have hsp : Spells (.setTiming src tag lr lf lg ls a) src tag 9 [lr, lf, lg, ls, a] (actSetTiming lr lf lg ls a) :=
      .ofIdle (by decide) rfl rfl (fun _ => rfl) (fun h s => actSetTiming_refused h)
    exact hsp.answered hs (fun _ => hi) (actSetTiming_taken src tag _ ⟨h1, h2, h3, h4, h5, h6, h7, h8, h9, h10⟩)
  case layout =>
    obtain ⟨t, ht, ha⟩ := (setLayout_spells hlen).answered hs (fun _ => hi) (actSetLayout_taken src tag _ hlen h)
    obtain ⟨⟨-, -, -, -, -, htu, -⟩, -⟩ := ha.keeps
    have hl : t.tu.layout = layoutOf record := congrArg Tu.layout htu
    have haddr : ∀ i, i < 36 → i ∉ [8, 11, 14, 17, 20, 23, 26, 29] → addrByte (addrOf (byteAt record i)) = byteAt record i :=
      fun i h1 h2 => addrByte_addrOf (h i h1 h2)
    refine ⟨t, ht, by rw [hl]; exact ha, ?_, ?_, ?_, ?_, ?_, fun f hf => placeAt_layoutOf hl hf, ?_, ?_, ?_⟩
    · rw [hl]; exact haddr 0 (by decide) (by decide)
    · rw [hl]; exact haddr 1 (by decide) (by decide)
    · rw [hl]; exact haddr 2 (by decide) (by decide)
    · rw [hl]; exact haddr 3 (by decide) (by decide)
    all_goals rw [hl]; rfl

/-! ## The insert unit's tables (R66-R68, R72) -/

section
variable (src : Addr) (tag : Tag) (u : State)

theorem actSetSelection_taken {first count : Byte} {sets : List (BitVec 16)} (hlen : sets.length = countField count)
    (h1 : sets.length ≤ 32) (h2 : first.toNat + sets.length ≤ 256) (h3 : ∀ x ∈ sets, x.toNat < 4096) :
    actSetSelection first count sets (reserveBuffer src tag u) =
      (reserveBuffer src tag (withIu u { u.iu with
        selection := tputRun 0#12 u.iu.selection first.toNat (sets.map (BitVec.setWidth 12)) }), ⟨.done, sets.length, 0, []⟩) := by
  have hok : countField count ≤ 32 ∧ first.toNat + countField count ≤ Config.selections ∧ sets.all (fun x => decide (x.toNat < 4096)) = true :=
    ⟨hlen ▸ h1, hlen ▸ h2, List.all_eq_true.mpr fun x hx => decide_eq_true (h3 x hx)⟩
  rw [← countOf_eq] at hok
  rw [actSetSelection, if_pos hok, countOf_eq, ← hlen]
  rfl

theorem actSetInserts_taken {first count : Byte} {entries : List (BitVec 16 × BitVec 16)} (hlen : entries.length = count.toNat)
    (h1 : entries ≠ []) (h2 : first.toNat + entries.length ≤ 12) (h3 : ∀ e ∈ entries, e.1.toNat ≤ 60000 ∧ e.2.toNat ≤ 6000) :
    actSetInserts first count entries (reserveBuffer src tag u) =
      (reserveBuffer src tag (withIu u { u.iu with
        inserts := tputRun .off u.iu.inserts first.toNat (entries.map (fun e => ⟨e.1.toNat, e.2.toNat⟩)) }), ⟨.done, 0, 0, []⟩) :=
  if_pos ⟨hlen ▸ List.length_pos_iff.mpr h1, hlen ▸ h2, List.all_eq_true.mpr fun e he => by simpa using h3 e he⟩

theorem actStageFeederMap_taken {bank : List (Bool × Byte)} (hlen : bank.length = 8) (h : ∀ e ∈ bank, e.2.toNat < 12) :
    actStageFeederMap bank (reserveBuffer src tag u) =
      (reserveBuffer src tag (withIu u { u.iu with staged := tputRun .off [] 0 (bank.map (fun e => ⟨e.1, e.2.toNat⟩)) }),
        ⟨.done, 0, 0, []⟩) :=
  if_pos ⟨hlen, List.all_eq_true.mpr fun e he => Bool.or_eq_true_iff.mpr (.inr (decide_eq_true (h e he)))⟩

end

theorem reevaluateAll_reserveBuffer (src : Addr) (tag : Tag) (n : Nat) : ∀ (l : List Nat) (u : State),
    reevaluateAll n l (reserveBuffer src tag u) = reserveBuffer src tag (reevaluateAll n l u)
  | [], _ => rfl
  | f :: fs, u => reevaluateAll_reserveBuffer src tag n fs (setFeeder u f _)

/-- The state with a new insert policy, before the degraded flags are looked at again (R68). -/
def withPolicy (limit threshold : Byte) (single : Bool) (u : State) : State :=
  withIu u { u.iu with limit := limit.toNat, threshold := threshold.toNat, single := single }

theorem actSetInsertPolicy_taken (src : Addr) (tag : Tag) (u : State) {limit threshold : Byte} (single : Bool) (h1 : limit.toNat ≤ 15)
    (h2 : 50 ≤ threshold.toNat) (h3 : threshold.toNat ≤ 99) :
    actSetInsertPolicy limit threshold single (reserveBuffer src tag u) =
      (reserveBuffer src tag (reevaluateAll threshold.toNat (List.range 8) (withPolicy limit threshold single u)), ⟨.done, 0, 0, []⟩) := by
  rw [← reevaluateAll_reserveBuffer]
  exact if_pos ⟨h1, h2, h3⟩

/-- The new policy and the degraded flags it brings, as the answered state shows them (R68). -/
theorem policy_answered {src : Addr} {tag : Tag} {u t : State} {limit threshold : Byte} {single : Bool} {r : Reply}
    (ha : Answered src tag 13 r (reevaluateAll threshold.toNat (List.range 8) (withPolicy limit threshold single u)) t) :
    Answered src tag 13 r (withIu u { u.iu with
      limit := limit.toNat, threshold := threshold.toNat, single := single, feeders := t.iu.feeders }) t ∧
    (Table.canonical .off u.iu.feeders → ∀ f, f < 8 → feederAt t f =
      { feederAt u f with degraded := decide ((feederAt u f).condition < threshold.toNat) }) := by
  obtain ⟨⟨-, -, -, -, -, -, hiu, -⟩, -⟩ := ha.keeps
  have hf : t.iu.feeders = (reevaluateAll threshold.toNat (List.range 8) (withPolicy limit threshold single u)).iu.feeders :=
    congrArg Iu.feeders hiu
  refine ⟨?_, fun hc f hf8 => ?_⟩
  · rw [reevaluateAll_eq, ← hf] at ha
    exact ha
  · have hget : feederAt t f = feederAt (reevaluateAll threshold.toNat (List.range 8) (withPolicy limit threshold single u)) f :=
      congrArg (tget Feeder.off · f) hf
    have hc' : Table.canonical .off (withPolicy limit threshold single u).iu.feeders := hc
    rw [hget, feederAt_reevaluateAll _ List.nodup_range _ hc', if_pos (List.mem_range.mpr hf8)]
    rfl

/-- Settles O29, by the acts of the four requests. -/
theorem insertTablesAreWritten : Obligations.InsertTablesAreWritten := by
  intro src tag s hs
  refine ⟨fun first count sets hi hlen h1 h2 h3 => (setSelection_spells hlen (by omega)).answered hs (fun _ => hi)
      (actSetSelection_taken src tag _ hlen h1 h2 h3),
    fun first count entries hi hlen h1 h2 h3 => (setInserts_spells hlen (by omega)).answered hs (fun _ => hi)
      (actSetInserts_taken src tag _ hlen h1 h2 h3),
    fun limit threshold single hi h1 h2 h3 => ?policy,
    fun bank hlen h => (stageFeederMap_spells hlen).answered hs (fun h => absurd h (by decide)) (actStageFeederMap_taken src tag _ hlen h)⟩
  case policy =>
    obtain ⟨t, ht, ha⟩ := (setInsertPolicy_spells ..).answered hs (fun _ => hi) (actSetInsertPolicy_taken src tag _ single h1 h2 h3)
    obtain ⟨hans, hflags⟩ := policy_answered ha
    exact ⟨t, ht, hans, fun hlaw f hf => hflags hlaw.2.2.2.2.2.2.2.1 f hf⟩

end Sys2Proof.Machine
end

section
/-! The commits of the feeder map and the sort plan, RESTORE FEEDER, the plan's elements and fallback, and SET BIN LIMITS (R73, R74, R87, R88,
R118, R119, R121, R122, R127, R136-R138). -/

namespace Sys2Proof.Machine

section
variable {c : Instr} {src : Addr} {tag : Tag} {code : Byte} {args : List Byte} {act : State → State × Reply} {s w : State} {r : Reply}
  {effect : State → State → Prop}

/-- The one next state of a request is the answer to whatever its act says. -/
theorem Spells.answers (h : Spells c src tag code args act) (hs : Takes s) (hi : code ∈ idleCodes → (settle s).rc.state = .idle) :
    ∃ t, exec c s = .next t ∧ ∀ w r, act (reserveBuffer src tag (settle s)) = (reserveBuffer src tag w, r) →
      Answered src tag code r w t := by
  refine ⟨_, h.run s, fun w r ha => ?_⟩
  obtain ⟨t, ht, hans⟩ := h.answered hs hi ha
  exact Host.Outcome.next.inj ((h.run s).symm.trans ht) ▸ hans

/-- A request is handled: its act's effect, and then the answer. -/
theorem Spells.handled (h : Spells c src tag code args act) (hs : Takes s) (hi : code ∈ idleCodes → (settle s).rc.state = .idle)
    (ha : act (reserveBuffer src tag (settle s)) = (w, r)) (he : effect (reserveBuffer src tag (settle s)) w) :
    ∃ t, exec c s = .next t ∧ Handled src tag code r effect (settle s) t := by
  have hact : inState code act (reserveBuffer src tag (settle s)) = (w, r) := by
    unfold inState
    split
    · next hmem => rw [idleOnly_taken (hi hmem), ha]
    · exact ha
  obtain ⟨t, ht, hans⟩ := manage_handled (code := code.toNat) hs rfl hact he
  rw [show BitVec.ofNat 8 code.toNat = code from BitVec.eq_of_toNat_eq (by simp)] at hans
  exact ⟨t, (h.run s).trans ht, hans⟩

end

section
variable {src : Addr} {tag : Tag}

theorem commitFeederMap_spells : Spells (.commitFeederMap src tag) src tag 15 [] actCommitFeederMap :=
  .plain (by decide) rfl rfl (fun _ => rfl) id

theorem setFallback_spells (action : Byte) : Spells (.setFallback src tag action) src tag 24 [action] (actSetFallback action) :=
  .ofIdle (by decide) rfl rfl (fun _ => rfl) (fun h s => actSetFallback_refused h)

theorem commitSortPlan_spells : Spells (.commitSortPlan src tag) src tag 25 [] actCommitSortPlan :=
  .plain (by decide) rfl rfl (fun _ => rfl) id

end

/-! ## The feeder map and RESTORE FEEDER (R73, R74, R87, R88) -/

section
variable (src : Addr) (tag : Tag) {u : State}

theorem actCommitFeederMap_pending (h : u.rc.state ≠ .idle) : actCommitFeederMap (reserveBuffer src tag u) =
    (reserveBuffer src tag (withIu u { u.iu with commitPending := true }), ⟨.done, 0, 0, []⟩) := if_neg h

theorem actCommitFeederMap_copied (h : u.rc.state = .idle) : actCommitFeederMap (reserveBuffer src tag u) =
    (mapCopy (reserveBuffer src tag u), ⟨.done, 0, 0, []⟩) := if_pos h

theorem restored_eq (threshold : Nat) (reset : Bool) (x : Feeder) : restored threshold reset x =
    ⟨if x.state = .failed then levelState x.level else x.state, x.level, 0, if reset then 0 else x.calls, if reset then 0 else x.misses,
      if reset then 0 else x.doubles, if reset then 100 else x.condition, if reset then false else x.degraded⟩ := by
  cases reset <;> rfl

/-- A feeder becomes EMPTY by its restoring exactly when it was FAILED with no material. -/
theorem restored_empties {threshold : Nat} {reset : Bool} {x : Feeder} :
    (x.state = .failed ∧ (restored threshold reset x).state = .empty) ↔ x.state = .failed ∧ x.level = .empty := by
  rw [restored_eq]
  refine and_congr_right fun h => ?_
  dsimp only
  rw [if_pos h]
  cases x.level <;> simp [levelState]

/-- What RESTORE FEEDER leaves: the feeder restored, with FEEDER_EMPTY when that makes it EMPTY (R88). -/
def restoredState (f : Nat) (reset : Bool) (u : State) : State :=
  let y := restored u.iu.threshold reset (feederAt u f)
  if (feederAt u f).state = .failed ∧ (feederAt u f).level = .empty then raiseFeederEmpty f (setFeeder u f y) else setFeeder u f y

theorem actRestoreFeeder_taken {feeder : Byte} (reset : Bool) (u : State) (h : feeder.toNat < 8) : actRestoreFeeder feeder reset u =
    (restoredState feeder.toNat reset u,
      ⟨.done, 0, 0, feederRecord (restored u.iu.threshold reset (feederAt u feeder.toNat))⟩) := by
  have h8 : feeder.toNat < Config.feeders := h
  rw [actRestoreFeeder, if_pos h8]
  dsimp only
  rw [doneWith, feederBytes_eq]
  simp only [restored_empties]
  rfl

theorem restoredState_iu (f : Nat) (reset : Bool) (u : State) :
    (restoredState f reset u).iu = (setFeeder u f (restored u.iu.threshold reset (feederAt u f))).iu := by
  unfold restoredState
  dsimp only
  split
  · exact (raise_keeps ..).2.2.2.2.2.2.1
  · rfl

theorem restoredState_says (f : Nat) (reset : Bool) (u : State) :
    let y := restored u.iu.threshold reset (feederAt u f)
    ((feederAt u f).state = .failed → (feederAt u f).level = .empty →
      FlagOnly .feederEmpty (some (placeAt u f).addr) none none (setFeeder u f y) (restoredState f reset u)) ∧
    (((feederAt u f).state ≠ .failed ∨ (feederAt u f).level ≠ .empty) → restoredState f reset u = setFeeder u f y) := by
  refine ⟨fun h1 h2 => ?_, fun h => ?_⟩
  · rw [restoredState, if_pos ⟨h1, h2⟩]; exact raise_flagOnly ..
  · exact if_neg fun ⟨h1, h2⟩ => h.elim (· h1) (· h2)

/-- The feeders in a state whose insert unit is that of a restored one. -/
theorem feederAt_restored {f : Nat} {reset : Bool} {u v t : State} (hc : Table.canonical .off v.iu.feeders) (hv : u.iu = v.iu)
    (ht : t.iu = (restoredState f reset u).iu) (g : Nat) :
    feederAt t g = if g = f then restored u.iu.threshold reset (feederAt u f) else feederAt v g := by
  rw [restoredState_iu] at ht
  have hg : feederAt t g = feederAt (setFeeder u f (restored u.iu.threshold reset (feederAt u f))) g :=
    congrArg (fun i : Iu => tget Feeder.off i.feeders g) ht
  have hu : feederAt u g = feederAt v g := congrArg (fun i : Iu => tget Feeder.off i.feeders g) hv
  rw [hg, feederAt_setFeeder u (by rw [hv]; exact hc), hu]

end

/-- The feeder restored by RESTORE FEEDER (R88). -/
def restoredFeeder (reset : Bool) (x : Feeder) : Feeder :=
  ⟨if x.state = .failed then levelState x.level else x.state, x.level, 0, if reset then 0 else x.calls, if reset then 0 else x.misses,
    if reset then 0 else x.doubles, if reset then 100 else x.condition, if reset then false else x.degraded⟩

/-- RESTORE FEEDER as it is handled: the feeder's new record, FEEDER_EMPTY when that is EMPTY, and no other feeder (R88). -/
theorem restoreFeeder_handled {src : Addr} {tag : Tag} {f : Nat} {reset : Bool} {u t : State} {r : Reply}
    (ha : Answered src tag 16 r (restoredState f reset (reserveBuffer src tag u)) t) :
    Handled src tag 16 r (fun v w =>
      ((feederAt u f).state = .failed → (feederAt u f).level = .empty →
        FlagOnly .feederEmpty (some (placeAt v f).addr) none none (setFeeder v f (restoredFeeder reset (feederAt u f))) w) ∧
      (((feederAt u f).state ≠ .failed ∨ (feederAt u f).level ≠ .empty) → w = setFeeder v f (restoredFeeder reset (feederAt u f)))) u t ∧
    (Table.canonical .off u.iu.feeders → feederAt t f = restoredFeeder reset (feederAt u f) ∧
      ∀ g, g ≠ f → feederAt t g = feederAt u g) := by
  have hnew : ∀ n, restored n reset (feederAt u f) = restoredFeeder reset (feederAt u f) := fun n => restored_eq n reset _
  refine ⟨⟨_, ?_, ha⟩, fun hc => ?_⟩
  · have h := restoredState_says f reset (reserveBuffer src tag u)
    have hold : feederAt (reserveBuffer src tag u) f = feederAt u f := rfl
    rw [hold, hnew] at h
    exact h
  · obtain ⟨⟨-, -, -, -, -, -, hiu, -⟩, -⟩ := ha.keeps
    have hat := feederAt_restored (u := reserveBuffer src tag u) (v := u) hc rfl hiu
    refine ⟨?_, fun g hg => ?_⟩
    · rw [hat, if_pos rfl]; exact hnew _
    · rw [hat, if_neg hg]

theorem actRestoreFeeder_reserved (src : Addr) (tag : Tag) {feeder : Byte} (reset : Bool) (u : State) (h : feeder.toNat < 8) :
    actRestoreFeeder feeder reset (reserveBuffer src tag u) = (restoredState feeder.toNat reset (reserveBuffer src tag u),
      ⟨.done, 0, 0, feederRecord (restoredFeeder reset (feederAt u feeder.toNat))⟩) := by
  rw [actRestoreFeeder_taken reset _ h, restored_eq]; rfl

/-- Settles O30: the commit by the run state, the restoring by `restoredState`. -/
theorem feedersAreCommittedAndRestored : Obligations.FeedersAreCommittedAndRestored := by
  intro src tag s hs
  refine ⟨?commit, fun feeder reset hf => ?restore⟩
  case commit =>
    by_cases hi : (settle s).rc.state = .idle
    · obtain ⟨t, ht, ha⟩ := commitFeederMap_spells.handled (effect := MapCopyMade) hs (fun h => absurd h (by decide))
        (actCommitFeederMap_copied src tag hi) (mapCopy_spec _)
      exact ⟨t, ht, fun h => absurd hi h, fun _ => ha⟩
    · obtain ⟨t, ht, ha⟩ := commitFeederMap_spells.answered hs (fun h => absurd h (by decide)) (actCommitFeederMap_pending src tag hi)
      exact ⟨t, ht, fun _ => ha, fun h => absurd h hi⟩
  case restore =>
    obtain ⟨t, ht, x, hx, ha⟩ := (restoreFeeder_spells feeder reset).handled (effect := fun u v => v = restoredState feeder.toNat reset u)
      hs (fun h => absurd h (by decide)) (actRestoreFeeder_reserved src tag reset _ hf) rfl
    have hx' : x = restoredState feeder.toNat reset (reserveBuffer src tag (settle s)) := hx
    rw [hx'] at ha
    obtain ⟨hh, hat⟩ := restoreFeeder_handled ha
    refine ⟨t, ht, ?_, fun hlaw => ?_⟩
    · exact hh
    · exact hat hlaw.2.2.2.2.2.2.2.1

/-! ## The sort plan (R118, R119, R121, R122, R127-R129) -/

section
variable (src : Addr) (tag : Tag) (u : State)

theorem actStageSortElements_taken {first count : Byte} {elements : List ElementRecord} {es : List Element}
    (hlen : elements.length = count.toNat) (h0 : elements ≠ []) (h16 : elements.length ≤ 16) (h64 : first.toNat + elements.length ≤ 64)
    (hes : elementsOf elements = some es) : actStageSortElements first count elements (reserveBuffer src tag u) =
      (reserveBuffer src tag (withSu u { u.su with staged := tputRun .disabled u.su.staged first.toNat es }),
        ⟨.done, elements.length, 0, []⟩) := by
  have hok : 1 ≤ count.toNat ∧ count.toNat ≤ 16 ∧ elements.length = count.toNat ∧ first.toNat + count.toNat ≤ Config.sortElements :=
    ⟨hlen ▸ List.length_pos_iff.mpr h0, hlen ▸ h16, hlen, hlen ▸ h64⟩
  rw [actStageSortElements, if_pos hok, hes, ← hlen]
  rfl

theorem actSetFallback_taken {action : Byte} {a : Action} (h : actionOf action = some a) : actSetFallback action (reserveBuffer src tag u) =
    (reserveBuffer src tag (withSu u { u.su with fallback := a }), ⟨.done, 0, 0, []⟩) := by
  rw [actSetFallback, h]; rfl

theorem actCommitSortPlan_pending (h : u.rc.state ≠ .idle) : actCommitSortPlan (reserveBuffer src tag u) =
    (reserveBuffer src tag (withSu u { u.su with commitPending := true }), ⟨.done, 0, 0, 0#8 :: be2 u.su.generation.toNat⟩) := if_neg h

theorem planCopy_generation (v : State) : (planCopy v).su.generation = v.su.generation + 1 := by
  generalize hx : ({ v.su with active := v.su.staged, generation := v.su.generation + 1#16, commitPending := false } : Su) = x
  have hcopy : planCopy v = renewGenerations allBins (closeNonEmpty .groupBreak allBins (withSu v x)) := by subst hx; rfl
  have hclose : (closeNonEmpty .groupBreak allBins (withSu v x)).su = x :=
    (closeNonEmpty_keeps .groupBreak allBins (withSu v x)).2.2.2.2.2.2.2.2.1
  rw [hcopy, renewGenerations_eq, withBu_su, hclose, ← hx]
  rfl

theorem actCommitSortPlan_copied (h : u.rc.state = .idle) : actCommitSortPlan (reserveBuffer src tag u) =
    (planCopy (reserveBuffer src tag u), ⟨.done, 0, 0, 1#8 :: be2 (u.su.generation + 1).toNat⟩) := by
  have hcopy : actCommitSortPlan (reserveBuffer src tag u) = (planCopy (reserveBuffer src tag u),
      ⟨.done, 0, 0, 1#8 :: be2 (planCopy (reserveBuffer src tag u)).su.generation.toNat⟩) := if_pos h
  rw [hcopy, planCopy_generation]
  rfl

end

/-- Settles O31, by the acts of the three requests. -/
theorem sortPlanIsStagedAndCommitted : Obligations.SortPlanIsStagedAndCommitted := by
  intro src tag s hs
  refine ⟨fun first count elements hlen h0 h16 h64 hok => ?stage, fun action hi hok => ?fallback, ?commit⟩
  case stage =>
    obtain ⟨es, hes, his⟩ := elementsOf_are hok
    obtain ⟨t, ht, ha⟩ := (stageSortElements_spells hlen).answered hs (fun h => absurd h (by decide))
      (actStageSortElements_taken src tag _ hlen h0 h16 h64 hes)
    exact ⟨t, es, ht, his, ha⟩
  case fallback =>
    obtain ⟨a, ha, his⟩ := actionOf_is hok
    obtain ⟨t, ht, hans⟩ := (setFallback_spells action).answered hs (fun _ => hi) (actSetFallback_taken src tag _ ha)
    exact ⟨t, a, ht, his, hans⟩
  case commit =>
    by_cases hi : (settle s).rc.state = .idle
    · obtain ⟨t, ht, ha⟩ := commitSortPlan_spells.handled (effect := PlanCopied) hs (fun h => absurd h (by decide))
        (actCommitSortPlan_copied src tag _ hi) (planCopy_spec _)
      exact ⟨t, ht, fun h => absurd hi h, fun _ => ha⟩
    · obtain ⟨t, ht, ha⟩ := commitSortPlan_spells.answered hs (fun h => absurd h (by decide)) (actCommitSortPlan_pending src tag _ hi)
      exact ⟨t, ht, fun _ => ha, fun h => absurd h hi⟩

/-! ## SET BIN LIMITS (R136-R138) -/

/-- Limits SET BIN LIMITS accepts (R136). -/
def LimitsInRange (maxCount : BitVec 16) (maxMass : BitVec 24) (minCount : BitVec 16) : Prop :=
  1 ≤ maxCount.toNat ∧ maxCount.toNat ≤ 4000 ∧ 1 ≤ maxMass.toNat ∧ maxMass.toNat ≤ 400000 ∧ minCount.toNat ≤ maxCount.toNat

theorem limitsOf_some {maxCount minCount : BitVec 16} {maxMass : BitVec 24} (h : LimitsInRange maxCount maxMass minCount) :
    limitsOf maxCount maxMass minCount = some ⟨maxCount.toNat, maxMass.toNat, minCount.toNat⟩ := if_pos h

section
variable (src : Addr) (tag : Tag) {u : State} {b : Nat}

theorem applyLimits_opens (l : Limits) (h : (binAt u b).state = .disabled) : applyLimits b (some l) (reserveBuffer src tag u) =
    (reserveBuffer src tag (openTray b (setBin u b { binAt u b with limits := some l })), ⟨.done, 0, 0, []⟩) := by
  have hbin : binAt (reserveBuffer src tag u) b = binAt u b := rfl
  unfold applyLimits
  rw [hbin]
  generalize binAt u b = x at *
  cases x
  cases h
  rfl

theorem applyLimits_stays_disabled (h : (binAt u b).state = .disabled) : applyLimits b none (reserveBuffer src tag u) =
    (reserveBuffer src tag u, ⟨.done, 0, 0, []⟩) := by
  have hbin : binAt (reserveBuffer src tag u) b = binAt u b := rfl
  unfold applyLimits
  rw [hbin]
  generalize binAt u b = x at *
  cases x
  cases h
  rfl

theorem binSettled_of_empty {x : Bin} {y : Tray} (h : x.state = .opened) (hy : x.tray = some y) (he : trayEmpty y = true) :
    binSettled x = true := by simp [binSettled, h, hy, he]

theorem applyLimits_settled {x : Tray} (l : Option Limits) (h : (binAt u b).state = .opened) (hx : (binAt u b).tray = some x)
    (he : trayEmpty x = true) : applyLimits b l (reserveBuffer src tag u) =
      (reserveBuffer src tag (setBin u b (match l with | none => .off | some l => { binAt u b with limits := some l })),
        ⟨.done, 0, 0, []⟩) := by
  have hset := binSettled_of_empty h hx he
  have hbin : binAt (reserveBuffer src tag u) b = binAt u b := rfl
  unfold applyLimits
  rw [hbin]
  generalize binAt u b = x at *
  cases x
  cases h
  cases l with
  | none => exact if_pos hset
  | some l => exact if_pos hset

theorem applyLimits_refused (l : Option Limits) (h : (binAt u b).state = .full ∨ (binAt u b).state = .closePending ∨
      ∃ x, (binAt u b).tray = some x ∧ trayEmpty x = false ∧ (binAt u b).state = .opened) :
    applyLimits b l (reserveBuffer src tag u) = (reserveBuffer src tag u, ⟨.wrongState, 0, 0, []⟩) := by
  have hbin : binAt (reserveBuffer src tag u) b = binAt u b := rfl
  unfold applyLimits
  dsimp only
  rw [hbin]
  rcases h with h | h | ⟨x, hx, he, h⟩
  · rw [h]; rfl
  · rw [h]; rfl
  · have hset : ¬binSettled (binAt u b) = true := by simp [binSettled, h, hx, he]
    generalize binAt u b = x at *
    cases x
    cases h
    cases l with
    | none => exact if_neg hset
    | some l => exact if_neg hset

theorem actSetBinLimits_disable {bin : Byte} (maxCount : BitVec 16) (maxMass : BitVec 24) (minCount : BitVec 16) (h : bin.toNat < 17)
    (v : State) : actSetBinLimits bin true maxCount maxMass minCount v = applyLimits bin.toNat none v := by
  rw [actSetBinLimits, binOf_some h]; rfl

theorem actSetBinLimits_enable {bin : Byte} {maxCount minCount : BitVec 16} {maxMass : BitVec 24} (h : bin.toNat < 17)
    (hr : LimitsInRange maxCount maxMass minCount) (v : State) : actSetBinLimits bin false maxCount maxMass minCount v =
      applyLimits bin.toNat (some ⟨maxCount.toNat, maxMass.toNat, minCount.toNat⟩) v := by
  rw [actSetBinLimits, binOf_some h]
  dsimp only
  rw [if_neg Bool.false_ne_true, limitsOf_some hr]

end

/-- The bins and the tray sequence after SET BIN LIMITS opens a bin (R137, R138). -/
theorem openedBin_answered {src : Addr} {tag : Tag} {u t : State} {b : Nat} {l : Limits} {r : Reply}
    (ha : Answered src tag 28 r (openTray b (setBin u b { binAt u b with limits := some l })) t) :
    binAt t b = ⟨.opened, some l, some ⟨u.rc.run, u.bu.nextSeq, u.su.generation, 0, 0, 0, 0, none, none, 0, (binAt u b).carried, none⟩,
      false, none, false⟩ ∧
    (∀ j, j ≠ b → binAt t j = binAt u j) ∧ t.bu.nextSeq = (if u.bu.nextSeq = 65535#16 then 1#16 else u.bu.nextSeq + 1) ∧
    Answered src tag 28 r (withBu u { u.bu with bins := t.bu.bins, nextSeq := t.bu.nextSeq }) t := by
  obtain ⟨⟨-, -, -, -, -, -, -, -, -, hbu, -⟩, -⟩ := ha.keeps
  have hbin : ∀ j, binAt t j = binAt (openTray b (setBin u b { binAt u b with limits := some l })) j :=
    fun j => congrArg (fun i : Bu => tget Bin.off i.bins j) hbu
  have hnew : binAt (setBin u b { binAt u b with limits := some l }) b = { binAt u b with limits := some l } :=
    binAt_setBin (fun h => by simpa [Bin.off] using congrArg Bin.limits h) b u
  refine ⟨?_, fun j hj => ?_, ?_, ?_⟩
  · rw [hbin, binAt_openTray, hnew]; rfl
  · rw [hbin, binAt_openTray_other hj]; exact binAt_setBin_other hj u _
  · rw [hbu, ← nextTraySeq_eq]; rfl
  · rw [hbu]; exact ha

/-- Settles O32: by the bin's number, the limits and the bin's state. -/
theorem binLimitsByBinState : Obligations.BinLimitsByBinState := by
  intro src tag bin maxCount minCount maxMass s hs
  have any : (28#8 : Byte) ∈ idleCodes → (settle s).rc.state = .idle := fun h => absurd h (by decide)
  obtain ⟨t, ht, ha⟩ := (setBinLimits_spells bin false maxCount maxMass minCount).answers hs any
  obtain ⟨t', ht', ha'⟩ := (setBinLimits_spells bin true maxCount maxMass minCount).answers hs any
  refine ⟨⟨t, ht, fun h => ha _ _ (actSetBinLimits_refused (src := src) (tag := tag) ?bad), fun hb hr => ?set⟩,
    t', ht', fun h => ha' _ _ (actSetBinLimits_refused (src := src) (tag := tag) (.inl h)), fun hb => ?disable⟩
  case bad =>
    refine h.imp_right fun h => ⟨rfl, ?_⟩
    unfold Outside; omega
  case set =>
    have hact := actSetBinLimits_enable hb hr (reserveBuffer src tag (settle s))
    exact ⟨fun h => openedBin_answered (ha _ _ (hact.trans (applyLimits_opens src tag _ h))),
      fun x h hx he => ha _ _ (hact.trans (applyLimits_settled src tag (some _) h hx he)),
      fun h => ha _ _ (hact.trans (applyLimits_refused src tag _ h))⟩
  case disable =>
    have hact := actSetBinLimits_disable maxCount maxMass minCount hb (reserveBuffer src tag (settle s))
    exact ⟨fun h => ha' _ _ (hact.trans (applyLimits_stays_disabled src tag h)),
      fun x h hx he => ha' _ _ (hact.trans (applyLimits_settled src tag none h hx he)),
      fun h => ha' _ _ (hact.trans (applyLimits_refused src tag _ h))⟩

end Sys2Proof.Machine
end

section
/-! The reads of tables, stores and status (R19, R46, R65, R89, R102, R133, R134, R150, R165, R171, R176, R187): what each answers, byte by
byte, with the state as it was. -/

namespace Sys2Proof.Machine

/-! ## Lengths -/

theorem field_length (w n : Nat) : (field w n).length = w := by
  induction w generalizing n with
  | zero => rfl
  | succ w ih => rw [field, List.length_append, ih]; rfl

theorem fieldOr_length (w : Nat) (n : Option Nat) : (fieldOr w n).length = w := by
  cases n with
  | none => exact List.length_replicate
  | some n => exact field_length w n

theorem length_placeIn {α : Type} [DecidableEq α] (names : List α) (x : α) : (placeIn names x).length = 1 := field_length 1 _

theorem length_placeOr {α : Type} [DecidableEq α] (names : List α) (x : Option α) : (placeOr names x).length = 1 := fieldOr_length 1 _

theorem idField_length (id : Option PieceId) : (idField id).length = 3 := field_length 3 _

/-- Records of k bytes each have k bytes each together. -/
theorem length_flatMap_of {α : Type} {f : α → List Byte} {k : Nat} (h : ∀ x, (f x).length = k) (l : List α) :
    (l.flatMap f).length = k * l.length := Laws.RequestFits.length_records f k h l

theorem feederRecord_length (x : Feeder) : (feederRecord x).length = 17 := by
  simp [feederRecord, length_placeIn, field_length, flagField]

theorem mapRecord_length (t : Table MapSlot) : (mapRecord t).length = 16 := by
  rw [mapRecord, length_flatMap_of (k := 2) fun f => by simp [flagField, field_length], List.length_range]

theorem keyField_length (t : KeyTest) : (keyField t).length = 9 := by cases t <;> simp [keyField, field_length]

theorem actionField_length (a : Action) : (actionField a).length = 1 := by cases a <;> rfl

theorem elementRecord_length (e : Element) : (elementRecord e).length = 12 := by
  cases e with
  | disabled => rfl
  | enabled t bands c a => simp [elementRecord, keyField_length, length_placeIn, actionField_length]

theorem trayRecord_length (r : TrayRec) : (trayRecord r).length = 22 := by
  simp [trayRecord, field_length, length_placeOr, idField_length]

theorem currentTrayRecord_length (y : Tray) : (currentTrayRecord y).length = 25 := by
  simp [currentTrayRecord, field_length, length_placeOr, idField_length, flagField]

theorem binRecord_length (x : Bin) : (binRecord x).length = 57 := by
  have hl : (x.limits.elim (List.replicate 7 255#8) (fun l => field 2 l.maxCount ++ field 3 l.maxMass ++ field 2 l.minCount)).length = 7 := by
    cases x.limits <;> simp [field_length]
  have ht : (x.tray.elim (List.replicate 25 255#8) currentTrayRecord).length = 25 := by
    cases x.tray <;> simp [currentTrayRecord_length]
  have hh : (x.held.elim (List.replicate 22 255#8) trayRecord).length = 22 := by cases x.held <;> simp [trayRecord_length]
  simp only [binRecord, List.length_append, length_placeIn, hl, ht, hh]; rfl

/-! ## The reads of stores and tables -/

section
variable (src : Addr) (tag : Tag) (u : State)

theorem actFindPiece_says {id : PieceId} (h : id ≠ 16777215#24) :
    actFindPiece id (reserveBuffer src tag u) = (reserveBuffer src tag u, ⟨.done, 0, 0, findBytes u id⟩) := if_neg h

theorem actReadLayout_says : actReadLayout (reserveBuffer src tag u) =
    (reserveBuffer src tag u, ⟨.done, 0, 0, layoutRecord u.tu.layout ++ field 1 u.rp.own.toNat⟩) := by
  rw [← layoutBytes_eq, ← addrByte_eq]; rfl

theorem actReadTrack_says : actReadTrack none (reserveBuffer src tag u) = (reserveBuffer src tag u, ⟨.done, 0, 0, trackRecord u⟩) := by
  rw [← trackBytes_eq]; rfl

theorem namedSlotBytes_eq (k : Nat) : namedSlotBytes u k = (pieceAt u k).elim [] pieceRecord := by
  unfold namedSlotBytes
  cases pieceAt u k with
  | none => rfl
  | some p => exact pieceBytes_eq p

theorem actReadTrack_names {k : Byte} (h : k.toNat < 64) : actReadTrack (some k) (reserveBuffer src tag u) =
    (reserveBuffer src tag u, ⟨.done, 0, 0, trackRecord u ++ (pieceAt u k.toNat).elim [] pieceRecord⟩) := by
  rw [← trackBytes_eq, ← namedSlotBytes_eq]
  exact if_pos h

/-- The results of READ FEEDERS (R89). -/
def feedersResults (u : State) : List Byte :=
  (List.range 8).flatMap (fun f => feederRecord (feederAt u f)) ++ mapRecord u.iu.staged ++ mapRecord u.iu.active ++
    flagField u.iu.commitPending ++ field 1 u.iu.limit ++ field 1 u.iu.threshold ++ flagField u.iu.single

theorem feedersResults_length : (feedersResults u).length = 172 := by
  simp only [feedersResults, List.length_append, length_flatMap_of (fun f => feederRecord_length (feederAt u f)), mapRecord_length,
    field_length, flagField, List.length_range]
  rfl

theorem actReadFeeders_says : actReadFeeders (reserveBuffer src tag u) = (reserveBuffer src tag u, ⟨.done, 0, 0, feedersResults u⟩) := by
  unfold feedersResults
  simp only [← feederBytes_eq]
  rfl

/-- The results of READ INSERT TABLES (R89). -/
def insertResults (first : Nat) (u : State) : List Byte :=
  (List.range 12).flatMap (fun i => field 2 (tget InsertSpec.off u.iu.inserts i).mass ++
      field 2 (tget InsertSpec.off u.iu.inserts i).caliper) ++ field 1 (min 32 (256 - first)) ++
    (List.range (min 32 (256 - first))).flatMap (fun j => bitField 2 (fun i => (tget 0#12 u.iu.selection (first + j)).getLsbD i))

theorem insertResults_length (first : Nat) : (insertResults first u).length = 49 + 2 * min 32 (256 - first) := by
  have h1 : ((List.range 12).flatMap (fun i => field 2 (tget InsertSpec.off u.iu.inserts i).mass ++
      field 2 (tget InsertSpec.off u.iu.inserts i).caliper)).length = 4 * 12 := by
    rw [length_flatMap_of (k := 4) fun i => by simp [field_length], List.length_range]
  simp only [insertResults, List.length_append, h1, field_length, length_flatMap_of (fun j => field_length 2 _), bitField,
    List.length_range]

theorem actReadInsertTables_says {first : BitVec 16} (h : first.toNat < 256) : actReadInsertTables first (reserveBuffer src tag u) =
    (reserveBuffer src tag u, ⟨.done, 0, 0, insertResults first.toNat u⟩) := by
  have hact : actReadInsertTables first (reserveBuffer src tag u) = (reserveBuffer src tag u, ⟨.done, 0, 0,
      (List.range 12).flatMap (fun i => insertSpecBytes (tget .off u.iu.inserts i)) ++ be1 (selectionRun first.toNat).length ++
        (selectionRun first.toNat).flatMap (fun c => be2 (tget 0#12 u.iu.selection c).toNat)⟩) := if_pos h
  have hlen : (selectionRun first.toNat).length = min 32 (256 - first.toNat) := by
    rw [selectionRun, List.length_map, List.length_range]; rfl
  have hbits : ∀ c, be2 (tget 0#12 u.iu.selection c).toNat = bitField 2 (fun i => (tget 0#12 u.iu.selection c).getLsbD i) :=
    fun c => (bitField_toNat 2 _ (by decide)).symm
  rw [hact, hlen]
  simp only [hbits]
  rw [selectionRun, List.flatMap_map]
  rfl

/-- The results of READ PLANNER TABLES (R102). -/
def plannerResults (u : State) : List Byte :=
  field 2 u.pp.sheetMass ++ field 2 u.pp.sheetCaliper ++ field 1 u.pp.panels ++
    [0, 1, 2, 3].flatMap (fun c => flagField (tget EnvClass.off u.pp.classes c).enabled ++
      field 2 (tget EnvClass.off u.pp.classes c).mass ++ field 2 (tget EnvClass.off u.pp.classes c).wall ++
      field 2 (tget EnvClass.off u.pp.classes c).fill) ++
    field 1 u.pp.bands.length ++ u.pp.bands.flatMap (field 2)

theorem plannerResults_length : (plannerResults u).length = 34 + 2 * u.pp.bands.length := by
  have h1 : ([0, 1, 2, 3].flatMap (fun c => flagField (tget EnvClass.off u.pp.classes c).enabled ++
      field 2 (tget EnvClass.off u.pp.classes c).mass ++ field 2 (tget EnvClass.off u.pp.classes c).wall ++
      field 2 (tget EnvClass.off u.pp.classes c).fill)).length = 7 * 4 := length_flatMap_of (fun c => by simp [field_length, flagField]) _
  simp only [plannerResults, List.length_append, h1, field_length, length_flatMap_of (field_length 2)]

theorem actReadPlannerTables_says : actReadPlannerTables (reserveBuffer src tag u) =
    (reserveBuffer src tag u, ⟨.done, 0, 0, plannerResults u⟩) := rfl

/-- The results of READ SORT PLAN (R133). -/
def sortPlanResults (bank : Byte) (first count : Nat) (u : State) : List Byte :=
  field 2 u.su.generation.toNat ++ flagField u.su.commitPending ++ actionField u.su.fallback ++
    (List.range count).flatMap (fun i => elementRecord (tget .disabled (if bank = 0 then u.su.active else u.su.staged) (first + i)))

theorem sortPlanResults_length (bank : Byte) (first count : Nat) : (sortPlanResults bank first count u).length = 4 + 12 * count := by
  simp only [sortPlanResults, List.length_append, field_length, actionField_length, flagField,
    length_flatMap_of (fun i => elementRecord_length _), List.length_range]
  rfl

theorem bankOf_eq {bank : Byte} (h : bank.toNat ≤ 1) (v : State) : bankOf bank v = some (if bank = 0 then v.su.active else v.su.staged) := by
  unfold bankOf
  by_cases h0 : bank = 0
  · subst h0; rfl
  · have h1 : bank = 1#8 := by
      refine BitVec.eq_of_toNat_eq ?_
      have : bank.toNat ≠ 0 := fun h => h0 (BitVec.eq_of_toNat_eq h)
      show bank.toNat = 1
      omega
    rw [if_neg h0, h1]; rfl

theorem actReadSortPlan_says {bank first count : Byte} (hb : bank.toNat ≤ 1) (h : 1 ≤ count.toNat ∧ count.toNat ≤ 16 ∧
    first.toNat + count.toNat ≤ 64) : actReadSortPlan bank first count (reserveBuffer src tag u) =
      (reserveBuffer src tag u, ⟨.done, 0, 0, sortPlanResults bank first.toNat count.toNat u⟩) := by
  have hok : 1 ≤ count.toNat ∧ count.toNat ≤ 16 ∧ first.toNat + count.toNat ≤ Config.sortElements := h
  rw [actReadSortPlan, bankOf_eq hb]
  dsimp only
  rw [if_pos hok, sortPlanResults]
  simp only [← elementBytes_eq, ← actionByte_eq]
  rfl

theorem serviceOf_eq {service : Byte} (h : service.toNat ≤ 1) :
    serviceOf service = some (if service = 0 then .standard else .priority) := by
  unfold serviceOf
  by_cases h0 : service = 0
  · subst h0; rfl
  · have h1 : service = 1#8 := by
      refine BitVec.eq_of_toNat_eq ?_
      have : service.toNat ≠ 0 := fun h => h0 (BitVec.eq_of_toNat_eq h)
      show service.toNat = 1
      omega
    rw [if_neg h0, h1]; rfl

theorem actTrySortKey_says {key : BitVec 32} {band service : Byte} (hk : key.toNat ≤ 999999999) (hb : band.toNat ≤ 7)
    (hv : service.toNat ≤ 1) : actTrySortKey key band service (reserveBuffer src tag u) = (reserveBuffer src tag u, ⟨.done, 0, 0,
      tryBytes u u.su.active key.toNat band.toNat (if service = 0 then .standard else .priority) ++
        tryBytes u u.su.staged key.toNat band.toNat (if service = 0 then .standard else .priority)⟩) := by
  rw [actTrySortKey, serviceOf_eq hv]
  exact if_pos ⟨hk, hb⟩

end

section
variable {src : Addr} {tag : Tag}

theorem readSortPlan_spells (bank first count : Byte) :
    Spells (.readSortPlan src tag bank first count) src tag 26 [bank, first, count] (actReadSortPlan bank first count) :=
  .ofAny (by decide) rfl rfl (fun _ => rfl) (fun h _ => actReadSortPlan_refused h)

theorem readTrays_spells (count : Byte) : Spells (.readTrays src tag count) src tag 29 [count] (actReadTrays count) :=
  .ofAny (by decide) rfl rfl (fun _ => rfl) (fun h _ => actReadTrays_refused h)

theorem readCompletions_spells (count : Byte) : Spells (.readCompletions src tag count) src tag 39 [count] (actReadCompletions count) :=
  .ofAny (by decide) rfl rfl (fun _ => rfl) (fun h _ => actReadCompletions_refused h)

/-- A request without arguments is answered by its act. -/
theorem plain_answered {c : Instr} {code : Byte} {act : State → State × Reply} {s w : State} {r : Reply} (hs : Takes s)
    (hcode : code ∉ idleCodes) (hc : requestBody c = some [code] ∧ requestEffect src code.toNat [] = some act ∧ ¬BadArguments c)
    (run : ∀ s, exec c s = manage src tag code.toNat act s)
    (ha : act (reserveBuffer src tag (settle s)) = (reserveBuffer src tag w, r)) :
    ∃ t, exec c s = .next t ∧ Answered src tag code r w t :=
  (Spells.plain hcode hc.1 hc.2.1 run hc.2.2).answered hs (fun h => absurd h hcode) ha

end

/-- Settles O34, by the results of each read. -/
theorem tableReadsChangeNothing : Obligations.TableReadsChangeNothing := by
  intro src tag s hs
  dsimp only
  refine ⟨fun id h => ?find, ?layout, ?track, fun k hk => ?named, ?feeders, fun first hf => ?inserts, ?planner,
    fun bank first count h1 h2 h3 h4 => ?plan, fun key band service h1 h2 h3 => ?key⟩
  case find =>
    obtain ⟨t, ht, ha⟩ := (findPiece_spells id).answered hs (fun h => absurd h (by decide)) (actFindPiece_says src tag _ h)
    exact ⟨t, _, ht, findBytes_answers _ id, ha⟩
  case layout => exact plain_answered (code := 8) hs (by decide) ⟨rfl, rfl, id⟩ (fun _ => rfl) (actReadLayout_says src tag _)
  case track => exact (readTrack_spells none).answered hs (fun h => absurd h (by decide)) (actReadTrack_says src tag _)
  case named => exact (readTrack_spells (some k)).answered hs (fun h => absurd h (by decide)) (actReadTrack_names src tag _ hk)
  case feeders =>
    obtain ⟨t, ht, ha⟩ := plain_answered (c := .readFeeders src tag) (code := 17) hs (by decide) ⟨rfl, rfl, id⟩ (fun _ => rfl) (actReadFeeders_says src tag _)
    exact ⟨t, _, ht, feedersResults_length _, rfl, ha⟩
  case inserts =>
    obtain ⟨t, ht, ha⟩ := (readInsertTables_spells first).answered hs (fun h => absurd h (by decide)) (actReadInsertTables_says src tag _ hf)
    exact ⟨t, _, ht, insertResults_length _ _, rfl, ha⟩
  case planner =>
    obtain ⟨t, ht, ha⟩ := plain_answered (c := .readPlannerTables src tag) (code := 22) hs (by decide) ⟨rfl, rfl, id⟩ (fun _ => rfl) (actReadPlannerTables_says src tag _)
    exact ⟨t, _, ht, plannerResults_length _, rfl, ha⟩
  case plan =>
    obtain ⟨t, ht, ha⟩ := (readSortPlan_spells bank first count).answered hs (fun h => absurd h (by decide))
      (actReadSortPlan_says src tag _ h1 ⟨h2, h3, h4⟩)
    exact ⟨t, _, ht, rfl, sortPlanResults_length .., ha⟩
  case key =>
    obtain ⟨t, ht, ha⟩ := (trySortKey_spells key band service).answered hs (fun h => absurd h (by decide))
      (actTrySortKey_says src tag _ h1 h2 h3)
    obtain ⟨n, a, hn, hna⟩ := tryBytes_says (settle s) (settle s).su.active key.toNat band.toNat (if service = 0 then .standard else .priority)
    obtain ⟨m, b, hm, hmb⟩ := tryBytes_says (settle s) (settle s).su.staged key.toNat band.toNat (if service = 0 then .standard else .priority)
    rw [hna, hmb, ← List.append_assoc] at ha
    exact ⟨t, n, a, m, b, ht, hn, hm, ha⟩

/-! ## The reads of status -/

section
variable (src : Addr) (tag : Tag) (u : State)

/-- The results of READ BINS (R150). -/
def binsResults (u : State) : List Byte :=
  (List.range 17).flatMap (fun b => binRecord (binAt u b)) ++ field 4 u.bu.brCount ++ field 4 u.bu.brMass ++
    field 2 u.bu.nextSeq.toNat ++ field 2 u.bu.log.length

theorem binsResults_length : (binsResults u).length = 17 * 57 + 12 := by
  simp only [binsResults, List.length_append, length_flatMap_of (fun b => binRecord_length (binAt u b)), field_length, List.length_range]

theorem actReadBins_says : actReadBins (reserveBuffer src tag u) = (reserveBuffer src tag u, ⟨.done, 0, 0, binsResults u⟩) := by
  unfold binsResults
  simp only [← binBytes_eq, field_four]
  rfl

/-- The results of READ RUN STATUS (R165). -/
def runStatusResults (u : State) : List Byte :=
  placeIn runStates u.rc.state ++ placeOr runStates u.rc.resume ++
    u.rc.stop.elim (List.replicate 6 255#8) (fun x =>
      placeIn [StopCause.stopRequest, .jam, .phantom, .accumulatorOverrun] x.cause ++ addrField x.addr ++ field 4 x.pitch.toNat) ++
    field 2 u.rc.run.toNat ++ field 4 u.tu.pitch.toNat ++
    [if u.cu.hold = .hold then 0#8 else 1#8, u.cu.pendingCutter.elim 255#8 (fun x => if x = .go then 1#8 else 0#8),
      u.cu.place.elim 0#8 (fun x => if x.waiting then 2#8 else 1#8)] ++
    field 1 u.cu.queue.length ++ field 1 u.tu.ring.length ++ field 2 u.cl.log.length ++ field 2 (headroom u)

theorem runStatusResults_length : (runStatusResults u).length = 23 := by
  have hstop : (u.rc.stop.elim (List.replicate 6 255#8) (fun x =>
      placeIn [StopCause.stopRequest, .jam, .phantom, .accumulatorOverrun] x.cause ++ addrField x.addr ++ field 4 x.pitch.toNat)).length = 6 := by
    cases u.rc.stop <;> simp [length_placeIn, addrField, fieldOr_length, field_length]
  simp only [runStatusResults, List.length_append, length_placeIn, length_placeOr, hstop, field_length]
  rfl

theorem runStateByte_eq (x : RunState) : be1 (runStateCode x) = placeIn runStates x := by cases x <;> rfl

theorem stopBytes_eq (x : StopRec) : stopBytes x =
    placeIn [StopCause.stopRequest, .jam, .phantom, .accumulatorOverrun] x.cause ++ addrField x.addr ++ field 4 x.pitch.toNat := by
  have h1 : be1 (stopCauseCode x.cause) = placeIn [StopCause.stopRequest, .jam, .phantom, .accumulatorOverrun] x.cause := by
    cases x.cause <;> rfl
  rw [stopBytes, h1, optBytes_eq (f := BitVec.toNat) addrByte_eq, field_four]; rfl

theorem cutterBytes_eq : be1 (cutterCode u.cu.hold) ++ (optBytes 1 (fun x => be1 (cutterCode (cutterOf x))) u.cu.pendingCutter ++
    be1 (placeCode u.cu.place)) =
    [if u.cu.hold = .hold then 0#8 else 1#8, u.cu.pendingCutter.elim 255#8 (fun x => if x = .go then 1#8 else 0#8),
      u.cu.place.elim 0#8 (fun x => if x.waiting then 2#8 else 1#8)] := by
  have h1 : be1 (cutterCode u.cu.hold) = [if u.cu.hold = .hold then 0#8 else 1#8] := by cases u.cu.hold <;> rfl
  have h2 : optBytes 1 (fun x => be1 (cutterCode (cutterOf x))) u.cu.pendingCutter =
      [u.cu.pendingCutter.elim 255#8 (fun x => if x = .go then 1#8 else 0#8)] := by
    cases u.cu.pendingCutter with
    | none => rfl
    | some x => cases x <;> rfl
  have h3 : be1 (placeCode u.cu.place) = [u.cu.place.elim 0#8 (fun x => if x.waiting then 2#8 else 1#8)] := by
    cases u.cu.place with
    | none => rfl
    | some x => simp only [placeCode, Option.elim_some]; split <;> rfl
  rw [h1, h2, h3]; rfl

theorem actReadRunStatus_says : actReadRunStatus (reserveBuffer src tag u) =
    (reserveBuffer src tag u, ⟨.done, 0, 0, runStatusResults u⟩) := by
  have hresume : optBytes 1 (fun x => be1 (runStateCode x)) u.rc.resume = placeOr runStates u.rc.resume :=
    optBytes_eq runStateByte_eq _
  have hstop : optBytes 6 stopBytes u.rc.stop = u.rc.stop.elim (List.replicate 6 255#8) (fun x =>
      placeIn [StopCause.stopRequest, .jam, .phantom, .accumulatorOverrun] x.cause ++ addrField x.addr ++ field 4 x.pitch.toNat) := by
    rw [funext stopBytes_eq]; cases u.rc.stop <;> rfl
  have hact : actReadRunStatus (reserveBuffer src tag u) = (reserveBuffer src tag u, ⟨.done, 0, 0,
      be1 (runStateCode u.rc.state) ++ optBytes 1 (fun x => be1 (runStateCode x)) u.rc.resume ++ optBytes 6 stopBytes u.rc.stop ++
        be2 u.rc.run.toNat ++ be4 u.tu.pitch.toNat ++ be1 (cutterCode u.cu.hold) ++
        optBytes 1 (fun x => be1 (cutterCode (cutterOf x))) u.cu.pendingCutter ++ be1 (placeCode u.cu.place) ++ be1 u.cu.queue.length ++
        be1 u.tu.ring.length ++ be2 u.cl.log.length ++ be2 (headroom u)⟩) := rfl
  rw [hact, runStatusResults, ← cutterBytes_eq, ← hstop, ← hresume, ← runStateByte_eq, field_four]
  simp only [List.append_assoc]
  rfl

theorem actReadRunCounters_says : actReadRunCounters (reserveBuffer src tag u) = (reserveBuffer src tag u, ⟨.done, 0, 0,
    [u.cl.counters.opened, u.cl.counters.released, u.cl.counters.exited, u.cl.counters.sorted, u.cl.counters.diverted,
      u.cl.counters.sheets, u.cl.counters.noReads].flatMap (fun n => field 4 n.toNat) ++ field 2 u.rc.run.toNat ++ field 2 (inFlight u)⟩) := by
  rw [← countersBytes_eq]; rfl

theorem actReadSummary_says : actReadSummary (reserveBuffer src tag u) = (reserveBuffer src tag u, ⟨.done, 0, 0,
    bitField 3 (fun i => u.cl.summary.getLsbD i) ++ captureRecord u.cl.capture ++ flagField u.cl.alertPending⟩) := by
  rw [← captureBytes_eq, ← summaryBytes_eq]; rfl

/-- The results of READ PORT (R187). -/
def portResults (u : State) : List Byte :=
  field 1 u.rp.own.toNat ++ field 1 u.rp.forward.length ++ field 1 (commands u).length ++
    field 1 (u.rp.originate.filter isManagement).length ++ placeIn [Port.forward, .originate] u.rp.turn ++
    u.rp.assembly.elim [0#8, 255#8, 255#8] (fun a => 1#8 :: field 1 a.src.toNat ++ field 1 a.expect) ++ [0#8, 255#8]

theorem portResults_length : (portResults u).length = 10 := by
  have h : (u.rp.assembly.elim [0#8, 255#8, 255#8] (fun a => 1#8 :: field 1 a.src.toNat ++ field 1 a.expect)).length = 3 := by
    cases u.rp.assembly <;> rfl
  simp only [portResults, List.length_append, length_placeIn, h, field_length]
  rfl

theorem actReadPort_says : actReadPort (reserveBuffer src tag u) = (reserveBuffer src tag u, ⟨.done, 0, 0, portResults u⟩) := by
  have hturn : be1 (portCode u.rp.turn) = placeIn [Port.forward, .originate] u.rp.turn := by cases u.rp.turn <;> rfl
  have hasm : assemblyBytes u.rp.assembly = u.rp.assembly.elim [0#8, 255#8, 255#8] (fun a => 1#8 :: field 1 a.src.toNat ++ field 1 a.expect) := by
    cases u.rp.assembly with
    | none => rfl
    | some a => rw [Option.elim_some, ← addrByte_eq]; rfl
  have hact : actReadPort (reserveBuffer src tag u) = (reserveBuffer src tag u, ⟨.done, 0, 0,
      addrByte u.rp.own :: (be1 u.rp.forward.length ++ be1 (commandCount u) ++ be1 (managementCount u) ++ be1 (portCode u.rp.turn) ++
        assemblyBytes u.rp.assembly ++ flagByte false ++ absent 1)⟩) := rfl
  rw [hact, addrByte_cons, portResults, hturn, hasm, commandCount_eq, ← managementCount_eq]
  simp only [List.append_assoc]
  rfl

end

/-- Settles O35, by the results of each read. -/
theorem statusReadsChangeNothing : Obligations.StatusReadsChangeNothing := by
  intro src tag s hs
  dsimp only
  refine ⟨?bins, ?status, ?counters, ?summary, ?port⟩
  case bins =>
    obtain ⟨t, ht, ha⟩ := plain_answered (c := .readBins src tag) (code := 30) hs (by decide) ⟨rfl, rfl, id⟩ (fun _ => rfl) (actReadBins_says src tag _)
    exact ⟨t, _, ht, binsResults_length _, rfl, ha⟩
  case status =>
    obtain ⟨t, ht, ha⟩ := plain_answered (c := .readRunStatus src tag) (code := 38) hs (by decide) ⟨rfl, rfl, id⟩ (fun _ => rfl) (actReadRunStatus_says src tag _)
    exact ⟨t, _, ht, runStatusResults_length _, ha, rfl⟩
  case counters => exact plain_answered (code := 40) hs (by decide) ⟨rfl, rfl, id⟩ (fun _ => rfl) (actReadRunCounters_says src tag _)
  case summary => exact plain_answered (code := 42) hs (by decide) ⟨rfl, rfl, id⟩ (fun _ => rfl) (actReadSummary_says src tag _)
  case port =>
    obtain ⟨t, ht, ha⟩ := plain_answered (c := .readPort src tag) (code := 43) hs (by decide) ⟨rfl, rfl, id⟩ (fun _ => rfl) (actReadPort_says src tag _)
    exact ⟨t, _, ht, portResults_length _, ha, rfl⟩

end Sys2Proof.Machine
end

section
/-! READ COMPLETIONS and READ TRAYS: the oldest entries, and the drains they make (R13, R40, R148, R170). -/

namespace Sys2Proof.Machine

/-! ## Drains -/

theorem drainOne_cons {s : State} {e : Entry} {rest : List Entry} (h : s.cl.log = e :: rest) :
    drainOne s = freeDrained e (cutterTest (withCl s { s.cl with log := rest })) := by unfold drainOne; rw [h]

theorem drainOne_nil {s : State} (h : s.cl.log = []) : drainOne s = s := by unfold drainOne; rw [h]

/-- Freeing a drained entry's slot touches the descriptor slots alone. -/
theorem freeDrained_eq (e : Entry) (s : State) : freeDrained e s = withDs s { s.ds with slots := (freeDrained e s).ds.slots } := by
  unfold freeDrained
  split
  · split
    · split <;> rfl
    · rfl
  · rfl

/-- Freeing a drained entry's slot leaves a descriptor that is not SORTED. -/
theorem freeDrained_unsorted {e : Entry} {s : State} {n : Nat} {d : Descriptor} (hd : descAt s n = some d) (h : d.state ≠ .sorted) :
    descAt (freeDrained e s) n = some d := by
  obtain ⟨hfree, hkeep⟩ := freeDrained_spec e s
  by_cases hf : ∃ m, Frees s e m
  · obtain ⟨m, hm⟩ := hf
    have hne : n ≠ m := by
      rintro rfl
      have := hm.2.2
      rw [hd] at this
      simp [h] at this
    rw [hfree m hm, descAt_setDesc_other hne, hd]
  · rw [hkeep fun m hm => hf ⟨m, hm⟩, hd]

/-- What drains leave as it was: all but the log's head, the hold state and its command, the slots freed, and the ring port. -/
structure DrainKeeps (k : Nat) (u t : State) : Prop where
  log : t.cl.log = u.cl.log.drop k
  counters : t.cl.counters = u.cl.counters
  tu : t.tu = u.tu
  iu : t.iu = u.iu
  pp : t.pp = u.pp
  su : t.su = u.su
  bu : t.bu = u.bu
  rc : t.rc = u.rc
  place : t.cu.place = u.cu.place
  queue : t.cu.queue = u.cu.queue
  ds : t.ds = { u.ds with slots := t.ds.slots }
  unsorted : ∀ n d, descAt u n = some d → d.state ≠ .sorted → descAt t n = some d
  still : u.rc.state ≠ .running → t = withCl (withDs u t.ds) { u.cl with log := u.cl.log.drop k }

theorem drainOne_keeps (u : State) : DrainKeeps 1 u (drainOne u) := by
  cases hl : u.cl.log with
  | nil =>
    have hdrop : u.cl.log.drop 1 = u.cl.log := by rw [hl]; rfl
    rw [drainOne_nil hl]
    exact ⟨hdrop.symm, rfl, rfl, rfl, rfl, rfl, rfl, rfl, rfl, rfl, rfl, fun _ _ h _ => h, fun _ => by rw [hdrop]; rfl⟩
  | cons e rest =>
    rw [drainOne_cons hl]
    have hm := cutterTest_keeps (withCl u { u.cl with log := rest })
    have hstill := (cutterTest_spec (withCl u { u.cl with log := rest })).1
    generalize cutterTest (withCl u { u.cl with log := rest }) = m at hm hstill ⊢
    obtain ⟨-, -, -, hds, hplace, hqueue, htu, hiu, hpp, hsu, hbu, hrc, hlog, hcounters, -⟩ := hm
    have heq := freeDrained_eq e m
    have hun := fun n d => @freeDrained_unsorted e m n d
    generalize freeDrained e m = t at heq hun ⊢
    refine ⟨?_, ?_, ?_, ?_, ?_, ?_, ?_, ?_, ?_, ?_, ?_, fun n d hd => hun n d ?_, fun h => ?_⟩
    case refine_1 => rw [heq, hl]; exact hlog
    case refine_12 => rw [descAt_congr hds]; exact hd
    case refine_13 =>
      have hms := hstill h
      subst hms
      rw [heq, hl]; rfl
    case refine_11 => rw [heq, hds]; rfl
    all_goals rw [heq]; assumption

theorem drainMany_keeps : ∀ (k : Nat) (u : State), DrainKeeps k u (drainMany k u)
  | 0, u => ⟨rfl, rfl, rfl, rfl, rfl, rfl, rfl, rfl, rfl, rfl, rfl, fun _ _ h _ => h, fun _ => rfl⟩
  | k + 1, u => by
    have h1 := drainOne_keeps u
    have h2 := drainMany_keeps k (drainOne u)
    rw [drainMany]
    generalize drainOne u = m at h1 h2 ⊢
    generalize drainMany k m = t at h2 ⊢
    refine ⟨?_, h2.counters.trans h1.counters, h2.tu.trans h1.tu, h2.iu.trans h1.iu, h2.pp.trans h1.pp, h2.su.trans h1.su,
      h2.bu.trans h1.bu, h2.rc.trans h1.rc, h2.place.trans h1.place, h2.queue.trans h1.queue, ?_,
      fun n d hd hs => h2.unsorted n d (h1.unsorted n d hd hs) hs, fun h => ?_⟩
    · rw [h2.log, h1.log, List.drop_drop, Nat.add_comm]
    · rw [h2.ds, h1.ds]
    · have hm := h1.still h
      rw [h2.still (by rw [h1.rc]; exact h), h1.log, List.drop_drop, Nat.add_comm]
      generalize t.ds = x
      rw [hm]; rfl

/-! ## The two requests -/

/-- The reply of READ COMPLETIONS: the number, the occupancy left, and the oldest entries (R170). -/
def completionsReply (count : Nat) (u : State) : Reply :=
  ⟨.done, 0, 0, field 1 (min count u.cl.log.length) ++ field 2 (u.cl.log.length - min count u.cl.log.length) ++
    (u.cl.log.take count).flatMap completionRecord⟩

theorem actReadCompletions_taken (src : Addr) (tag : Tag) {count : Byte} (u : State) (h1 : 1 ≤ count.toNat) (h16 : count.toNat ≤ 16) :
    actReadCompletions count (reserveBuffer src tag u) =
      (drainMany (min count.toNat u.cl.log.length) (reserveBuffer src tag u), completionsReply count.toNat u) := by
  have hact : actReadCompletions count (reserveBuffer src tag u) =
      (drainMany (u.cl.log.take count.toNat).length (reserveBuffer src tag u), ⟨.done, 0, 0, be1 (u.cl.log.take count.toNat).length ++
        be2 (u.cl.log.length - (u.cl.log.take count.toNat).length) ++ (u.cl.log.take count.toNat).flatMap entryBytes⟩) := if_pos ⟨h1, h16⟩
  rw [hact, funext entryBytes_eq, List.length_take]
  rfl

theorem actReadTrays_taken (src : Addr) (tag : Tag) {count : Byte} (u : State) (h1 : 1 ≤ count.toNat) (h8 : count.toNat ≤ 8) :
    actReadTrays count (reserveBuffer src tag u) =
      (reserveBuffer src tag (withBu u { u.bu with log := u.bu.log.drop count.toNat }), ⟨.done, 0, 0,
        field 1 (min count.toNat u.bu.log.length) ++ (u.bu.log.take count.toNat).flatMap trayRecord⟩) := by
  have hact : actReadTrays count (reserveBuffer src tag u) =
      (reserveBuffer src tag (withBu u { u.bu with log := u.bu.log.drop count.toNat }), ⟨.done, 0, 0,
        be1 (u.bu.log.take count.toNat).length ++ (u.bu.log.take count.toNat).flatMap trayRecBytes⟩) := if_pos ⟨h1, h8⟩
  rw [hact, funext trayRecBytes_eq, List.length_take]
  rfl

theorem drop_min_length {α : Type} (n : Nat) (l : List α) : l.drop (min n l.length) = l.drop n := by
  rcases Nat.le_total n l.length with h | h
  · rw [Nat.min_eq_left h]
  · rw [Nat.min_eq_right h, List.drop_length, List.drop_eq_nil_of_le h]

theorem take_min_length {α : Type} (n : Nat) (l : List α) : l.take (min n l.length) = l.take n := by
  rw [List.take_eq_take_iff]; omega

/-- The answered state after drains made while the response has the buffer. -/
theorem completions_answered {src : Addr} {tag : Tag} {count : Nat} {u x t : State} {r : Reply}
    (hx : x = drainMany (min count u.cl.log.length) (reserveBuffer src tag u)) (ha : Answered src tag 39 r x t) :
    t.cl.log = u.cl.log.drop count ∧ t.cl.counters = u.cl.counters ∧ t.tu = u.tu ∧
      t.iu = u.iu ∧ t.pp = u.pp ∧ t.su = u.su ∧ t.bu = u.bu ∧ t.rc = u.rc ∧ t.cu.place = u.cu.place ∧ t.cu.queue = u.cu.queue ∧
      t.ds = { u.ds with slots := t.ds.slots } ∧
      (u.rc.state ≠ .running → Answered src tag 39 r (withCl (withDs u t.ds) { u.cl with log := u.cl.log.drop count }) t) ∧
      (∀ n d, descAt u n = some d → d.state ≠ .sorted → descAt t n = some d) ∧
      (Table.canonical none u.ds.slots →
        (∀ e ∈ u.cl.log.take count, ∀ n, Frees u e n → descAt t n = none) ∧
        (∀ n, (∀ e ∈ u.cl.log.take count, ¬Frees u e n) → descAt t n = descAt u n)) := by
  obtain ⟨⟨-, -, -, hds, hcu, htu, hiu, hpp, hsu, hbu, hrc⟩, -, hlog, hcounters, -⟩ := ha.keeps
  have hk := drainMany_keeps (min count u.cl.log.length) (reserveBuffer src tag u)
  have hslots := fun hc => drainMany_slots (min count u.cl.log.length) (s := reserveBuffer src tag u) hc
  have htake : (reserveBuffer src tag u).cl.log.take (min count u.cl.log.length) = u.cl.log.take count := take_min_length ..
  have hdrop : u.cl.log.drop (min count u.cl.log.length) = u.cl.log.drop count := drop_min_length ..
  rw [htake] at hslots
  rw [← hx] at hk hslots
  refine ⟨(hlog.trans hk.log).trans hdrop, hcounters.trans hk.counters, htu.trans hk.tu, hiu.trans hk.iu, hpp.trans hk.pp,
    hsu.trans hk.su, hbu.trans hk.bu, hrc.trans hk.rc, (congrArg Cu.place hcu).trans hk.place, (congrArg Cu.queue hcu).trans hk.queue,
    ?_, fun h => ?_, fun n d hd hs => ?_, fun hc => ⟨fun e he n hf => ?_, fun n hno => ?_⟩⟩
  · rw [hds]; exact hk.ds
  · have hstill := hk.still h
    have hres : x = reserveBuffer src tag (withCl (withDs u x.ds) { u.cl with log := u.cl.log.drop (min count u.cl.log.length) }) := hstill
    rw [hdrop] at hres
    rw [hds]
    generalize x.ds = y at hres
    rw [hres] at ha
    exact ha
  · rw [descAt_congr hds]; exact hk.unsorted n d hd hs
  · rw [descAt_congr hds]; exact (hslots hc).1 e he n hf
  · rw [descAt_congr hds]; exact (hslots hc).2 n hno

theorem drained_reserved (src : Addr) (tag : Tag) (count : Nat) (u : State) :
    Drained (min count u.cl.log.length) (reserveBuffer src tag u) (drainMany (min count u.cl.log.length) (reserveBuffer src tag u)) :=
  drainMany_spec _ (Nat.min_le_right ..)

/-- Settles O36: the drains by `drainMany_spec`, what they leave by `drainMany_keeps`. -/
theorem logReadsDrainOldestEntries : Obligations.LogReadsDrainOldestEntries := by
  intro src tag count s hs h1
  refine ⟨fun h16 => ?completions, fun h8 => (readTrays_spells count).answered hs (fun h => absurd h (by decide))
    (actReadTrays_taken src tag _ h1 h8)⟩
  case completions =>
    obtain ⟨t, ht, x, hx, ha⟩ := (readCompletions_spells count).handled
      (effect := fun u v => v = drainMany (min count.toNat (settle s).cl.log.length) u)
      hs (fun h => absurd h (by decide)) (actReadCompletions_taken src tag _ h1 h16) rfl
    have hx' : x = drainMany (min count.toNat (settle s).cl.log.length) (reserveBuffer src tag (settle s)) := hx
    have hrest := completions_answered hx' ha
    have hdrained : Drained (min count.toNat (settle s).cl.log.length) (reserveBuffer src tag (settle s)) x := by
      rw [hx']; exact drained_reserved ..
    obtain ⟨r1, r2, r3, r4, r5, r6, r7, r8, r9, r10, r11, r12, r13, r14⟩ := hrest
    exact ⟨t, ht, ⟨x, hdrained, ha⟩, r1, r2, r3, r4, r5, r6, r7, r8, r9, r10, r11, r12, r13, fun hlaw => r14 hlaw.1⟩

end Sys2Proof.Machine
end

section
/-! Stops and returns of the run, and the reports JAM, TRAY_READY and MATERIAL (R71, R137, R143, R144, R155-R158, R161). -/

namespace Sys2Proof.Machine

section
variable {c : Instr} {src : Addr} {tag : Tag} {code : Byte} {args : List Byte} {act : State → State × Reply} {s : State}

/-- The one next state of a request, answered when its act leaves the reserved buffer and handled otherwise. -/
theorem Spells.says (h : Spells c src tag code args act) (hs : Takes s) (hi : code ∈ idleCodes → (settle s).rc.state = .idle) :
    ∃ t, exec c s = .next t ∧
      (∀ w r, act (reserveBuffer src tag (settle s)) = (reserveBuffer src tag w, r) → Answered src tag code r w t) ∧
      (∀ w r (effect : State → State → Prop), act (reserveBuffer src tag (settle s)) = (w, r) →
        effect (reserveBuffer src tag (settle s)) w → Handled src tag code r effect (settle s) t) := by
  obtain ⟨t, ht, hans⟩ := h.answers hs hi
  refine ⟨t, ht, hans, fun w r effect ha he => ?_⟩
  obtain ⟨t', ht', hh⟩ := h.handled hs hi ha he
  exact Host.Outcome.next.inj (ht.symm.trans ht') ▸ hh

end

section
variable {src : Addr} {tag : Tag}

theorem endRun_spells : Spells (.endRun src tag) src tag 32 [] actEndRun := .plain (by decide) rfl rfl (fun _ => rfl) id

theorem stop_spells : Spells (.stop src tag) src tag 33 [] (actStop src) := .plain (by decide) rfl rfl (fun _ => rfl) id

theorem resume_spells : Spells (.resume src tag) src tag 34 [] actResume := .plain (by decide) rfl rfl (fun _ => rfl) id

end

/-! ## STOP, END RUN and RESUME (R155, R157, R161) -/

section
variable (src : Addr) (tag : Tag) {u : State}

theorem actStop_refused (h : u.rc.state = .idle) :
    actStop src (reserveBuffer src tag u) = (reserveBuffer src tag u, ⟨.wrongState, 0, 0, []⟩) := if_pos h

theorem actStop_stops (h : u.rc.state ≠ .idle) : actStop src (reserveBuffer src tag u) =
    (runStop .stopRequest (some src) (reserveBuffer src tag u), ⟨.done, 0, 0, []⟩) := if_neg h

theorem actEndRun_running (h : u.rc.state = .running) : actEndRun (reserveBuffer src tag u) =
    (flightChanged (completeAtEnd (queueCutter .holdByRun
      (withRc (reserveBuffer src tag u) { (reserveBuffer src tag u).rc with state := .draining }))), ⟨.done, 0, 0, []⟩) := by
  have h' : (reserveBuffer src tag u).rc.state = .running := h
  unfold actEndRun
  rw [h']; rfl

theorem actEndRun_stopped (h : u.rc.state = .stopped) (hr : u.rc.resume = some .running) : actEndRun (reserveBuffer src tag u) =
    (completeAtEnd (queueCutter .holdByRun
      (withRc (reserveBuffer src tag u) { (reserveBuffer src tag u).rc with resume := some .draining })), ⟨.done, 0, 0, []⟩) := by
  have h' : (reserveBuffer src tag u).rc.state = .stopped := h
  have hr' : (reserveBuffer src tag u).rc.resume = some .running := hr
  unfold actEndRun
  rw [h', hr']; rfl

theorem actEndRun_refused (h : u.rc.state = .idle ∨ u.rc.state = .draining ∨ (u.rc.state = .stopped ∧ u.rc.resume ≠ some .running)) :
    actEndRun (reserveBuffer src tag u) = (reserveBuffer src tag u, ⟨.wrongState, 0, 0, []⟩) := by
  have hrc : (reserveBuffer src tag u).rc = u.rc := rfl
  unfold actEndRun
  rw [hrc]
  split
  · next h' => rw [h'] at h; simp at h
  · next h' hr' => rw [h', hr'] at h; simp at h
  · rfl

theorem goWithdrawn_eq (v : State) : (if goCondition v then withCu v { v.cu with pendingCutter := none } else v) =
    withCu v { v.cu with pendingCutter := if GoMet v then none else v.cu.pendingCutter } := by
  by_cases h : GoMet v
  · rw [if_pos h, if_pos ((goCondition_iff v).mpr h)]
  · rw [if_neg h, if_neg fun h' => h ((goCondition_iff v).mp h')]; rfl

theorem actResume_running (h : u.rc.state = .stopped) (hr : u.rc.resume = some .running) : actResume (reserveBuffer src tag u) =
    (resumeRunning (reserveBuffer src tag u), ⟨.done, 0, 0, []⟩) := by
  have h' : (reserveBuffer src tag u).rc.state = .stopped := h
  have hr' : (reserveBuffer src tag u).rc.resume = some .running := hr
  unfold actResume
  rw [h', hr']; rfl

theorem actResume_draining (h : u.rc.state = .stopped) (hr : u.rc.resume = some .draining) : actResume (reserveBuffer src tag u) =
    (resumeDraining (reserveBuffer src tag u), ⟨.done, 0, 0, []⟩) := by
  have h' : (reserveBuffer src tag u).rc.state = .stopped := h
  have hr' : (reserveBuffer src tag u).rc.resume = some .draining := hr
  unfold actResume
  rw [h', hr']; rfl

theorem actResume_refused (h : u.rc.state ≠ .stopped) :
    actResume (reserveBuffer src tag u) = (reserveBuffer src tag u, ⟨.wrongState, 0, 0, []⟩) := by
  have hrc : (reserveBuffer src tag u).rc = u.rc := rfl
  unfold actResume
  rw [hrc]
  split
  · next h' _ => exact absurd h' h
  · next _ h' _ => exact absurd h' h
  · rfl

end

theorem resumeRunning_tested (v : State) : CutterTested (withCu (withRc v { v.rc with state := .running, resume := none })
    { v.cu with pendingCutter := if GoMet v then none else v.cu.pendingCutter }) (resumeRunning v) := by
  unfold resumeRunning
  dsimp only
  rw [goWithdrawn_eq]
  exact cutterTest_spec _

theorem resumeDraining_falls (v : State) : ∃ a, RecordEnded (withRc v { v.rc with state := .draining, resume := none }) a ∧
    FlightFell a (resumeDraining v) := ⟨_, completeAtEnd_spec _, flightChanged_spec _⟩

/-- Settles O41, by `runStop_spec`. -/
theorem stopRequestStopsRun : Obligations.StopRequestStopsRun := by
  intro src tag s hs
  obtain ⟨t, ht, answered, handled⟩ := (stop_spells (src := src) (tag := tag)).says hs (fun h => absurd h (by decide))
  exact ⟨t, ht, fun h => handled _ _ (RunStopped .stopRequest (some src)) (actStop_stops src tag h) (runStop_spec ..),
    fun h => answered _ _ (actStop_refused src tag h)⟩

/-- Settles O40: by the run state; the HOLD, the open record and the flight by their own laws. -/
theorem endRunDrains : Obligations.EndRunDrains := by
  intro src tag s hs
  obtain ⟨t, ht, answered, handled⟩ := (endRun_spells (src := src) (tag := tag)).says hs (fun h => absurd h (by decide))
  refine ⟨t, ht, fun h => handled _ _ _ (actEndRun_running src tag h) ⟨_, _, queueCutter_holdByRun _, completeAtEnd_spec _, flightChanged_spec _⟩,
    fun h hr => handled _ _ _ (actEndRun_stopped src tag h hr) ⟨_, queueCutter_holdByRun _, completeAtEnd_spec _⟩,
    fun h => answered _ _ (actEndRun_refused src tag h)⟩

/-- Settles O42: by the run state and the resume state. -/
theorem resumeReturnsToResumeState : Obligations.ResumeReturnsToResumeState := by
  intro src tag s hs
  obtain ⟨t, ht, answered, handled⟩ := (resume_spells (src := src) (tag := tag)).says hs (fun h => absurd h (by decide))
  exact ⟨t, ht, fun h hr => handled _ _ _ (actResume_running src tag h hr) (resumeRunning_tested _),
    fun h hr => handled _ _ _ (actResume_draining src tag h hr) (resumeDraining_falls _),
    fun h => answered _ _ (actResume_refused src tag h)⟩

/-! ## Reports -/

section
variable {s : State} (hs : s.resetHeld = false)
include hs

theorem exec_jam (src : Addr) : exec (.jam src) s = .next (jamReport src (settle s)) := congrArg Host.Outcome.next (event_live hs)

theorem exec_trayReady (src : Addr) (b : Byte) : exec (.trayReady src b) s = .next (trayReadyReport src b (settle s)) :=
  congrArg Host.Outcome.next (event_live hs)

theorem exec_material (src : Addr) (l : Byte) : exec (.material src l) s = .next (materialReport src l (settle s)) :=
  congrArg Host.Outcome.next (event_live hs)

end

theorem isAt_self {src : Addr} (h : src ≠ 63#6) : isAt src src = true := by
  unfold isAt
  rw [beq_self_eq_true, Bool.true_and]
  exact bne_iff_ne.mpr h

theorem jamReport_idle {src : Addr} {u : State} (hr : isRole u src = true) (h : u.rc.state = .idle) :
    jamReport src u = dropUnexpected src u := by
  rw [jamReport, if_pos hr, if_pos h]

theorem jamReport_stops {src : Addr} {u : State} (hr : isRole u src = true) (h : u.rc.state ≠ .idle) :
    jamReport src u = runStop .jam (some src) (raise .jam (some src) (some u.tu.pitch) none u) := by
  rw [jamReport, if_pos hr, if_neg h]

/-- Settles O55: by the run state. -/
theorem jamReportStopsRun : Obligations.JamReportStopsRun := by
  intro src s hs hr
  refine ⟨_, exec_jam hs src, fun h => ?_, fun h => ?_⟩
  · rw [jamReport_stops hr h]
    exact ⟨_, raise_flagOnly .., runStop_spec ..⟩
  · rw [jamReport_idle hr h]
    exact dropUnexpected_flagOnly ..

/-! ## TRAY_READY (R143, R144, R156) -/

theorem trayReadyReport_eq {src : Addr} {u : State} (hsrc : src = u.tu.layout.sorter.addr) (h63 : src ≠ 63#6) (bin : Byte) :
    trayReadyReport src bin u = if bin.toNat < 17 then takeTrayReady src bin.toNat u else dropUnexpected src u := by
  have hat : isAt src u.tu.layout.sorter.addr = true := hsrc ▸ isAt_self h63
  rw [trayReadyReport, if_pos hat]
  by_cases hb : bin.toNat < 17
  · rw [if_pos hb, binOf_some hb]
  · rw [if_neg hb, binOf_none (Nat.not_lt.mp hb)]

theorem takeTrayReady_dropped {src : Addr} {b : Nat} {u : State} (h : (binAt u b).state ≠ .full ∨ (binAt u b).owed = true) :
    takeTrayReady src b u = dropUnexpected src u := by
  unfold takeTrayReady
  split
  · next h1 h2 _ => rw [h1, h2] at h; simp at h
  · rfl

theorem takeTrayReady_exchanges {src : Addr} {b : Nat} {u : State} {x : Tray} (h1 : (binAt u b).state = .full)
    (h2 : (binAt u b).owed = false) (h3 : (binAt u b).tray = some x) : takeTrayReady src b u = drainTest (exchangeTray b x u) := by
  unfold takeTrayReady
  rw [h1, h2, h3]

/-- The bin opens its next tray when its record joins the log (R137, R143). -/
theorem exchangeTray_logged {b : Nat} {x : Tray} {l : Limits} {u : State} (hb : binAt u b = ⟨.full, some l, some x, false, none, false⟩)
    (hroom : u.bu.log.length < 256) :
    let m := exchangeTray b x u
    m = withBu u m.bu ∧ m.bu.log = u.bu.log ++ [⟨x.run, x.seq, b, x.generation, x.reason, x.landed, x.landedMass, x.firstId, x.lastId,
      x.bands, decide (x.landed < l.minCount), x.contaminated⟩] ∧ (∀ j, j ≠ b → binAt m j = binAt u j) ∧
    m.bu.nextSeq = (if u.bu.nextSeq = 65535#16 then 1#16 else u.bu.nextSeq + 1) ∧
    binAt m b = ⟨.opened, some l, some ⟨u.rc.run, u.bu.nextSeq, u.su.generation, 0, 0, 0, 0, none, none, 0, false, none⟩, false, none, false⟩ := by
  have hlog : trayLogRoom u = true := decide_eq_true hroom
  have he : exchangeTray b x u = openTray b (appendTrayRec u (finalise b (binAt u b) x)) := if_pos hlog
  have hbin : binAt (appendTrayRec u (finalise b (binAt u b) x)) b = binAt u b := rfl
  rw [he]
  refine ⟨rfl, ?_, fun j hj => binAt_openTray_other hj _, nextTraySeq_eq _, ?_⟩
  · rw [hb]; rfl
  · rw [binAt_openTray, hbin, hb]; rfl

theorem exchangeTray_waits {b : Nat} {x : Tray} {u : State} (hfull : 256 ≤ u.bu.log.length) : exchangeTray b x u =
    raise .trayLogWait (some u.tu.layout.sorter.addr) none none
      (setBin u b { binAt u b with state := .closePending, tray := none, held := some (finalise b (binAt u b) x) }) := by
  have hlog : ¬trayLogRoom u = true := by
    unfold trayLogRoom; rw [decide_eq_true_iff]; exact Nat.not_lt.mpr hfull
  exact if_neg hlog

/-- A CLOSE_PENDING bin keeps the drain end away (R156). -/
theorem drainTest_of_closePending {b : Nat} {u : State} (hb : b < 17) (h : (binAt u b).state = .closePending) : drainTest u = u := by
  refine (drainTest_spec u).2 fun hr => ?_
  rcases hr.2.2 b hb with h' | ⟨h', -⟩ <;> rw [h] at h' <;> cases h'

/-- The bin is CLOSE_PENDING with its record held, and TRAY_LOG_WAIT is set, when the log is full (R143). -/
theorem takeTrayReady_waits {src : Addr} {b : Nat} {x : Tray} {l : Limits} {u : State} (hb : b < 17)
    (hsrc : src = u.tu.layout.sorter.addr)
    (hbin : binAt u b = ⟨.full, some l, some x, false, none, false⟩) (hfull : 256 ≤ u.bu.log.length) :
    let t := takeTrayReady src b u
    FlagTaken .trayLogWait (some src) none none u t ∧ t.bu.log = u.bu.log ∧ (∀ j, j ≠ b → binAt t j = binAt u j) ∧
    binAt t b = ⟨.closePending, some l, none, false, some ⟨x.run, x.seq, b, x.generation, x.reason, x.landed, x.landedMass, x.firstId,
      x.lastId, x.bands, decide (x.landed < l.minCount), x.contaminated⟩, false⟩ ∧
    t.tu = u.tu ∧ t.ds = u.ds ∧ t.cu = u.cu ∧ t.rc = u.rc := by
  have ht : takeTrayReady src b u = drainTest (exchangeTray b x u) :=
    takeTrayReady_exchanges (by rw [hbin]) (by rw [hbin]) (by rw [hbin])
  rw [ht, exchangeTray_waits hfull, ← hsrc, hbin]
  generalize hv : setBin u b _ = v
  have hflag := raise_flagOnly .trayLogWait (some src) none none v
  obtain ⟨htaken, ⟨-, -, -, hds, hcu, htu, -, -, -, hbu, hrc⟩, -⟩ := hflag
  have hbins : ∀ j, binAt (raise .trayLogWait (some src) none none v) j = binAt v j :=
    fun j => congrArg (fun i : Bu => tget Bin.off i.bins j) hbu
  have hvb : binAt v b = ⟨.closePending, some l, none, false, some ⟨x.run, x.seq, b, x.generation, x.reason, x.landed, x.landedMass,
      x.firstId, x.lastId, x.bands, decide (x.landed < l.minCount), x.contaminated⟩, false⟩ := by
    rw [← hv]; exact binAt_setBin (fun h => by cases h) b u
  have hclosed : (binAt (raise .trayLogWait (some src) none none v) b).state = .closePending := by rw [hbins, hvb]
  rw [drainTest_of_closePending hb hclosed]
  refine ⟨?_, ?_, fun j hj => ?_, (hbins b).trans hvb, ?_, ?_, ?_, ?_⟩
  · rw [← hv] at htaken ⊢; exact htaken
  · rw [hbu, ← hv]; rfl
  · rw [hbins, ← hv]; exact binAt_setBin_other hj u _
  · rw [htu, ← hv]; rfl
  · rw [hds, ← hv]; rfl
  · rw [hcu, ← hv]; rfl
  · rw [hrc, ← hv]; rfl

/-- Settles O54: by the bin, and by the room in the tray log. -/
theorem trayReadyExchangesTray : Obligations.TrayReadyExchangesTray := by
  intro src bin s hs hsrc h63
  have heq := trayReadyReport_eq hsrc h63 bin
  refine ⟨_, exec_trayReady hs src bin, fun l x hb hbin => ⟨fun hroom => ?logged, fun hfull => ?waits⟩, fun h => ?dropped⟩
  case logged =>
    rw [heq, if_pos hb, takeTrayReady_exchanges (x := x) (by rw [hbin]) (by rw [hbin]) (by rw [hbin])]
    obtain ⟨h1, h2, h3, h4, h5⟩ := exchangeTray_logged hbin hroom
    exact ⟨_, drainTest_spec _, h1, h2, h3, h4, h5⟩
  case waits =>
    rw [heq, if_pos hb]
    exact takeTrayReady_waits hb hsrc hbin hfull
  case dropped =>
    rw [heq]
    split
    · next hb =>
      rw [takeTrayReady_dropped (h.resolve_left (Nat.not_le.mpr hb))]
      exact dropUnexpected_flagOnly ..
    · exact dropUnexpected_flagOnly ..

/-! ## MATERIAL (R71) -/

theorem levelOf_none {b : Byte} (h : 3 ≤ b.toNat) : levelOf b = none := by
  unfold levelOf
  split
  · omega
  · omega
  · omega
  · rfl

theorem placeAt_of_feederOf {u : State} {src : Addr} {f : Nat} (h : feederOf u src = some f) : (placeAt u f).addr = src := by
  have := List.find?_some h
  simp only [Bool.and_eq_true, beq_iff_eq] at this
  exact this.1.2

/-- A feeder with a new level (R71). -/
def leveledFeeder (l : Level) (x : Feeder) : Feeder :=
  { x with level := l, state := if x.state = .offline ∨ x.state = .failed then x.state else levelState l }

/-- A MATERIAL makes a feeder EMPTY exactly when the level is EMPTY and the feeder follows it. -/
theorem leveledFeeder_empty {l : Level} {x : Feeder} :
    (leveledFeeder l x).state = .empty ↔ l = .empty ∧ x.state ≠ .offline ∧ x.state ≠ .failed := by
  unfold leveledFeeder
  dsimp only
  split
  · next h => rcases h with h | h <;> rw [h] <;> simp
  · next h =>
    rw [not_or] at h
    cases l <;> simp [levelState, h]

theorem takeMaterial_eq (f : Nat) (l : Level) (u : State) : takeMaterial f l u =
    if (leveledFeeder l (feederAt u f)).state = .empty then raiseFeederEmpty f (setFeeder u f (leveledFeeder l (feederAt u f)))
    else setFeeder u f (leveledFeeder l (feederAt u f)) := by
  have h : materialState (feederAt u f).state l = (leveledFeeder l (feederAt u f)).state := by
    unfold materialState leveledFeeder
    cases (feederAt u f).state <;> rfl
  have hfeeder : ({ feederAt u f with level := l, state := materialState (feederAt u f).state l } : Feeder) =
      leveledFeeder l (feederAt u f) := by rw [h]; rfl
  exact congrArg (fun y : Feeder => if y.state = .empty then raiseFeederEmpty f (setFeeder u f y) else setFeeder u f y) hfeeder

/-- A MATERIAL taken: the feeder, FEEDER_EMPTY when it becomes EMPTY, and nothing else (R71). -/
theorem takeMaterial_says {src : Addr} {f : Nat} {l : Level} {u : State} (hf : feederOf u src = some f) (hc : Table.canonical .off u.iu.feeders) :
    let t := takeMaterial f l u
    feederAt t f = leveledFeeder l (feederAt u f) ∧ (∀ g, g ≠ f → feederAt t g = feederAt u g) ∧
    SameBlocks (withIu u t.iu) t ∧ SamePort u t ∧
    (l = .empty → (feederAt u f).state ≠ .offline → (feederAt u f).state ≠ .failed → FlagTaken .feederEmpty (some src) none none u t) ∧
    ((l ≠ .empty ∨ (feederAt u f).state = .offline ∨ (feederAt u f).state = .failed) → t.cl = u.cl ∧ t.rp = u.rp) := by
  have hplace : (placeAt (setFeeder u f (leveledFeeder l (feederAt u f))) f).addr = src := placeAt_of_feederOf hf
  have hat : ∀ g, feederAt (setFeeder u f (leveledFeeder l (feederAt u f))) g = if g = f then leveledFeeder l (feederAt u f) else feederAt u g :=
    fun g => feederAt_setFeeder u hc f g _
  have hempty := leveledFeeder_empty (l := l) (x := feederAt u f)
  rw [takeMaterial_eq]
  by_cases h : (leveledFeeder l (feederAt u f)).state = .empty
  · rw [if_pos h, raiseFeederEmpty, hplace]
    obtain ⟨hl, h1, h2⟩ := hempty.mp h
    have hflag := raise_flagOnly .feederEmpty (some src) none none (setFeeder u f (leveledFeeder l (feederAt u f)))
    have hkeep := raise_keeps .feederEmpty (some src) none none (setFeeder u f (leveledFeeder l (feederAt u f)))
    obtain ⟨htaken, ⟨s1, s2, s3, s4, s5, s6, hiu, s8, s9, s10, s11⟩, -⟩ := hflag
    generalize raise .feederEmpty (some src) none none _ = t at *
    have hfeeder : ∀ g, feederAt t g = feederAt (setFeeder u f (leveledFeeder l (feederAt u f))) g :=
      fun g => congrArg (fun i : Iu => tget Feeder.off i.feeders g) hiu
    refine ⟨by rw [hfeeder, hat, if_pos rfl], fun g hg => by rw [hfeeder, hat, if_neg hg], ⟨s1, s2, s3, s4, s5, s6, rfl, s8, s9, s10, s11⟩,
      ?_, fun _ _ _ => htaken, fun h' => ?_⟩
    · simp at hkeep; exact ⟨by simp [hkeep], by simp [hkeep], by simp [hkeep], by simp [hkeep], by simp [hkeep]⟩
    · rcases h' with h' | h' | h'
      · exact absurd hl h'
      · exact absurd h' h1
      · exact absurd h' h2
  · rw [if_neg h]
    refine ⟨by rw [hat, if_pos rfl], fun g hg => by rw [hat, if_neg hg], ⟨rfl, rfl, rfl, rfl, rfl, rfl, rfl, rfl, rfl, rfl, rfl⟩,
      ⟨rfl, rfl, rfl, rfl, rfl⟩, fun h1 h2 h3 => absurd (hempty.mpr ⟨h1, h2, h3⟩) h, fun _ => ⟨rfl, rfl⟩⟩

theorem materialReport_taken {src : Addr} {level : Byte} {f : Nat} {l : Level} {u : State} (hf : feederOf u src = some f)
    (hl : levelOf level = some l) : materialReport src level u = takeMaterial f l u := by
  unfold materialReport; rw [hf, hl]

theorem materialReport_dropped {src : Addr} {level : Byte} {f : Nat} {u : State} (hf : feederOf u src = some f)
    (hl : levelOf level = none) : materialReport src level u = dropUnexpected src u := by
  unfold materialReport; rw [hf, hl]

/-- Settles O50: by the level. -/
theorem materialReportsMoveFeeders : Obligations.MaterialReportsMoveFeeders := by
  intro src level f s hs hf hlaw
  refine ⟨_, exec_material hs src level, fun h => ?_, fun l hl => ?_⟩
  · rw [materialReport_dropped hf (levelOf_none h)]
    exact dropUnexpected_flagOnly ..
  · rw [materialReport_taken hf hl]
    obtain ⟨h1, h2, h3, h4, h5, h6⟩ := takeMaterial_says (l := l) hf hlaw.2.2.2.2.2.2.2.1
    have hiff : levelOf level = some .empty ↔ l = .empty := by rw [hl]; exact Option.some_inj
    exact ⟨h1, h2, h3, h4, fun h => h5 (hiff.mp h), fun h => h6 (h.imp_left fun h' he => h' (hiff.mpr he))⟩

end Sys2Proof.Machine
end

section
/-! START RUN: its ten checks, and the trays and the state it starts with (R48, R49, R94, R137, R153, R154). -/

namespace Sys2Proof.Machine

/-! ## The ten checks -/

section
variable (u : State)

/-- The present feeders by their numbers. -/
def presentNumbers (u : State) : List Nat := (List.range 8).filter (fun f => (placeAt u f).present)

theorem presentFeeders_eq : presentFeeders u.tu.layout = (presentNumbers u).map (placeAt u) := by
  unfold presentFeeders presentNumbers
  rw [List.filter_map]; rfl

theorem mem_presentNumbers {u : State} {f : Nat} : f ∈ presentNumbers u ↔ f < 8 ∧ (placeAt u f).present = true := by
  unfold presentNumbers; rw [List.mem_filter, List.mem_range]

/-- A test of every present feeder. -/
theorem all_present_iff (p : FeederPlace → Bool) :
    (presentFeeders u.tu.layout).all p = true ↔ ∀ f, f < 8 → (placeAt u f).present = true → p (placeAt u f) = true := by
  rw [presentFeeders_eq, List.all_map, List.all_eq_true]
  simp only [mem_presentNumbers, and_imp, Function.comp]

theorem lineAddresses_eq : lineAddresses u.tu.layout = addressesOf u := by
  unfold lineAddresses addressesOf
  rw [presentFeeders_eq, List.map_map]; rfl

theorem checkAddresses_iff : checkAddresses u = true ↔ Passes u 1 := by
  unfold checkAddresses Passes
  rw [lineAddresses_eq, Bool.and_eq_true, decide_eq_true_iff, List.all_eq_true, and_comm]
  simp only [Bool.and_eq_true, bne_iff_ne]; rfl

theorem checkFolder_iff : checkFolder u = true ↔ Passes u 2 := by
  unfold checkFolder Passes
  rw [Bool.and_eq_true, all_present_iff]
  simp only [decide_eq_true_eq]

theorem checkFeeders_iff : checkFeeders u = true ↔ Passes u 3 := by
  have hn : (presentNumbers u).Nodup := List.nodup_range.filter _
  unfold checkFeeders Passes
  rw [decide_eq_true_iff, presentFeeders_eq, List.map_map, List.nodup_map_iff_inj_on hn]
  simp only [mem_presentNumbers, and_imp, Function.comp]
  refine ⟨fun h f hf g hg pf pg hne he => hne (h f hf pf g hg pg he), fun h f hf pf g hg pg he => ?_⟩
  by_contra hne
  exact h f hf g hg pf pg hne he

theorem checkFeederReach_iff : checkFeederReach u = true ↔ Passes u 4 := by
  unfold checkFeederReach Passes
  rw [all_present_iff]
  simp only [decide_eq_true_eq]

theorem foldl_max_le (c v : Nat) : ∀ (l : List Nat) (a : Nat), l.foldl max a + c ≤ v ↔ a + c ≤ v ∧ ∀ x ∈ l, x + c ≤ v
  | [], a => by simp
  | x :: l, a => by
    rw [List.foldl_cons, foldl_max_le c v l, List.forall_mem_cons, ← and_assoc]
    refine and_congr_left fun _ => ?_
    omega

theorem furthestFeeder_le (c v : Nat) : furthestFeeder u.tu.layout + c ≤ v ↔
    (∀ f, f < 8 → (placeAt u f).present = true → (placeAt u f).pos + c ≤ v) ∧
      ((∀ f, f < 8 → (placeAt u f).present = false) → u.tu.layout.folder.pos + c ≤ v) := by
  have hmem : ∀ P : Nat → Prop, (∀ f ∈ presentNumbers u, P f) ↔ ∀ f, f < 8 → (placeAt u f).present = true → P f := fun P => by
    simp only [mem_presentNumbers, and_imp]
  unfold furthestFeeder
  rw [presentFeeders_eq]
  cases hl : presentNumbers u with
  | nil =>
    have hnone : ∀ f, f < 8 → (placeAt u f).present = false := fun f hf => by
      by_contra h
      have : f ∈ presentNumbers u := mem_presentNumbers.mpr ⟨hf, by simpa using h⟩
      rw [hl] at this; cases this
    refine ⟨fun h => ⟨fun f hf hp => ?_, fun _ => h⟩, fun h => h.2 hnone⟩
    rw [hnone f hf] at hp; cases hp
  | cons g gs =>
    have hg : g < 8 ∧ (placeAt u g).present = true := mem_presentNumbers.mp (hl ▸ List.mem_cons_self)
    have hall : (∀ x ∈ (List.map (placeAt u) (g :: gs)).map FeederPlace.pos, x + c ≤ v) ↔
        ∀ f, f < 8 → (placeAt u f).present = true → (placeAt u f).pos + c ≤ v := by
      rw [← hmem fun f => (placeAt u f).pos + c ≤ v, hl, List.map_map, List.forall_mem_map]; rfl
    have hfold := foldl_max_le c v ((List.map (placeAt u) (g :: gs)).map FeederPlace.pos) 0
    refine hfold.trans ⟨fun h => ⟨hall.mp h.2, fun h' => ?_⟩, fun h => ⟨?_, hall.mpr h.1⟩⟩
    · rw [h' g hg.1] at hg; cases hg.2
    · have := h.1 g hg.1 hg.2; omega

theorem checkVerify_iff : checkVerify u = true ↔ Passes u 5 := by
  unfold checkVerify Passes
  rw [decide_eq_true_iff, Nat.add_assoc, furthestFeeder_le]
  simp only [Nat.add_assoc]

theorem checkRing_iff : checkRing u = true ↔ Passes u 8 := by
  have hp : Passes u 8 ↔ u.tu.layout.gate.pos + u.tu.timing.allowance + u.tu.timing.lr ≤ 63 ∧
      u.tu.layout.sorter.pos + u.tu.timing.allowance + u.tu.timing.lr ≤ 63 := Iff.rfl
  rw [checkRing, hp, decide_eq_true_iff]
  omega

theorem checkClasses_iff : checkClasses u = true ↔ Passes u 9 := by
  unfold checkClasses Passes
  rw [List.any_eq_true]
  simp only [List.mem_range]

theorem checkBands_iff : checkBands u = true ↔ Passes u 10 := by
  unfold checkBands Passes
  rw [Bool.and_eq_true, ascending_iff, Bool.not_eq_true', List.isEmpty_eq_false_iff]
  exact Iff.rfl

/-- Check n of the list is the check n of the rules. -/
theorem startChecks_iff {n : Nat} (h1 : 1 ≤ n) (h10 : n ≤ 10) : (startChecks u).getD (n - 1) false = true ↔ Passes u n := by
  interval_cases n
  · exact checkAddresses_iff u
  · exact checkFolder_iff u
  · exact checkFeeders_iff u
  · exact checkFeederReach_iff u
  · exact checkVerify_iff u
  · exact decide_eq_true_iff
  · exact decide_eq_true_iff
  · exact checkRing_iff u
  · exact checkClasses_iff u
  · exact checkBands_iff u

theorem firstFailed_at : ∀ (cs : List Bool) (n k : Nat), k < cs.length → cs.getD k false = false → (∀ j, j < k → cs.getD j false = true) →
    firstFailed n cs = some (n + k)
  | c :: cs, n, 0, _, h, _ => if_neg (by rw [show c = false from h]; exact Bool.false_ne_true)
  | c :: cs, n, k + 1, hk, h, hb => by
    have hc : c = true := hb 0 (Nat.succ_pos k)
    have hrest := firstFailed_at cs (n + 1) k (Nat.lt_of_succ_lt_succ hk) h fun j hj => hb (j + 1) (Nat.succ_lt_succ hj)
    rw [firstFailed, if_pos hc, hrest]
    congr 1; omega

theorem firstFailed_none : ∀ (cs : List Bool) (n : Nat), (∀ j, j < cs.length → cs.getD j false = true) → firstFailed n cs = none
  | [], _, _ => rfl
  | c :: cs, n, h => by
    have hc : c = true := h 0 (Nat.succ_pos _)
    rw [firstFailed, if_pos hc]
    exact firstFailed_none cs (n + 1) fun j hj => h (j + 1) (Nat.succ_lt_succ hj)

theorem firstFailed_check {u : State} {n : Nat} (h1 : 1 ≤ n) (h10 : n ≤ 10) (hn : ¬Passes u n)
    (hb : ∀ m, 1 ≤ m → m < n → Passes u m) : firstFailed 1 (startChecks u) = some n := by
  have hlen : (startChecks u).length = 10 := rfl
  have hat : (startChecks u).getD (n - 1) false = false := by
    rw [← Bool.not_eq_true]; exact fun h => hn ((startChecks_iff u h1 h10).mp h)
  have hbefore : ∀ j, j < n - 1 → (startChecks u).getD j false = true := fun j hj =>
    (startChecks_iff u (n := j + 1) (by omega) (by omega)).mpr (hb (j + 1) (by omega) (by omega))
  rw [firstFailed_at (startChecks u) 1 (n - 1) (by omega) hat hbefore]
  congr 1; omega

theorem firstFailed_passed {u : State} (h : ∀ n, 1 ≤ n → n ≤ 10 → Passes u n) : firstFailed 1 (startChecks u) = none := by
  refine firstFailed_none _ _ fun j hj => ?_
  have hlen : (startChecks u).length = 10 := rfl
  exact (startChecks_iff u (n := j + 1) (by omega) (by omega)).mpr (h (j + 1) (by omega) (by omega))

end

/-! ## The trays of a start (R137) -/

/-- The bins below b that are OPEN. -/
def openedBelow (u : State) (b : Nat) : Nat := ((List.range b).filter (fun j => decide ((binAt u j).state = .opened))).length

theorem openedBelow_le (u : State) (b : Nat) : openedBelow u b ≤ b :=
  (List.length_filter_le _ _).trans_eq List.length_range

theorem openedBelow_succ (u : State) (b : Nat) :
    openedBelow u (b + 1) = openedBelow u b + if (binAt u b).state = .opened then 1 else 0 := by
  unfold openedBelow
  rw [List.range_succ, List.filter_append, List.length_append]
  congr 1
  by_cases h : (binAt u b).state = .opened <;> simp [h]

theorem nextTraySeq_ofNat {k : Nat} (h : k < 65535) : nextTraySeq (BitVec.ofNat 16 k) = BitVec.ofNat 16 (k + 1) := by
  unfold nextTraySeq
  rw [if_neg]
  · apply BitVec.eq_of_toNat_eq; simp
  · intro he
    have := congrArg BitVec.toNat he
    simp at this; omega

/-- The trays opened touch the bins and the tray sequence alone. -/
theorem startBins_eq : ∀ (l : List Nat) (u : State),
    startBins l u = withBu u { u.bu with bins := (startBins l u).bu.bins, nextSeq := (startBins l u).bu.nextSeq }
  | [], _ => rfl
  | b :: bs, u => by
    have h := startBins_eq bs (if (binAt u b).state = .opened then openTray b u else u)
    rw [startBins]
    generalize startBins bs (if (binAt u b).state = .opened then openTray b u else u) = t at h
    rw [h]
    split <;> rfl

theorem startBins_append : ∀ (l k : List Nat) (u : State), startBins (l ++ k) u = startBins k (startBins l u)
  | [], _, _ => rfl
  | _ :: l, k, _ => startBins_append l k _

/-- A bin with a new tray of the given sequence. -/
def freshBin (u : State) (b : Nat) (seq : BitVec 16) : Bin :=
  ⟨.opened, (binAt u b).limits, some ⟨u.rc.run, seq, u.su.generation, 0, 0, 0, 0, none, none, 0, (binAt u b).carried, none⟩, false, none, false⟩

/-- The first n bins after a start, whose OPEN ones take new trays in their order (R137). -/
structure BinsStarted (n : Nat) (u t : State) : Prop where
  opened : ∀ b, b < n → (binAt u b).state = .opened → binAt t b = freshBin u b (BitVec.ofNat 16 (1 + openedBelow u b))
  kept : ∀ b, ((binAt u b).state ≠ .opened ∨ n ≤ b) → binAt t b = binAt u b
  seq : t.bu.nextSeq = BitVec.ofNat 16 (1 + openedBelow u n)
  same : t = withBu u { u.bu with bins := t.bu.bins, nextSeq := t.bu.nextSeq }

theorem startBins_spec {u : State} (h1 : u.bu.nextSeq = 1#16) : ∀ n, n < 65535 - 1 → BinsStarted n u (startBins (List.range n) u)
  | 0, _ => ⟨fun _ h => absurd h (Nat.not_lt_zero _), fun _ _ => rfl, h1, rfl⟩
  | n + 1, hn => by
    have ih := startBins_spec h1 n (by omega)
    have hsame := startBins_eq (List.range (n + 1)) u
    have hle := openedBelow_le u n
    rw [List.range_succ, startBins_append] at hsame ⊢
    generalize startBins (List.range n) u = m at ih hsame ⊢
    have hm : binAt m n = binAt u n := ih.kept n (.inr le_rfl)
    have hrc : m.rc = u.rc := (congrArg State.rc ih.same).trans rfl
    have hsu : m.su = u.su := (congrArg State.su ih.same).trans rfl
    have hsucc := openedBelow_succ u n
    have hstep : startBins [n] m = if (binAt u n).state = .opened then openTray n m else m := by rw [← hm]; rfl
    rw [hstep] at hsame ⊢
    by_cases ho : (binAt u n).state = .opened
    · rw [if_pos ho] at hsame hsucc ⊢
      refine ⟨fun b hb hob => ?_, fun b hb => ?_, ?_, hsame⟩
      · rcases Nat.lt_succ_iff_lt_or_eq.mp hb with hlt | rfl
        · rw [binAt_openTray_other (Nat.ne_of_lt hlt)]; exact ih.opened b hlt hob
        · rw [binAt_openTray, hm, newTray, hrc, hsu, ih.seq]; rfl
      · have hbn : b ≠ n := by
          rintro rfl
          rcases hb with hb | hb
          · exact hb ho
          · omega
        rw [binAt_openTray_other hbn]
        exact ih.kept b (hb.imp_right fun h => by omega)
      · have hseq : (openTray n m).bu.nextSeq = nextTraySeq m.bu.nextSeq := rfl
        rw [hseq, ih.seq, nextTraySeq_ofNat (by omega), hsucc]; rfl
    · rw [if_neg ho] at hsame hsucc ⊢
      refine ⟨fun b hb hob => ?_, fun b hb => ?_, by rw [hsucc]; exact ih.seq, hsame⟩
      · have hbn : b ≠ n := fun h => ho (h ▸ hob)
        exact ih.opened b (by omega) hob
      · by_cases hbn : b = n
        · rw [hbn]; exact hm
        · exact ih.kept b (hb.imp_right fun h => by omega)

/-! ## The start (R154) -/

/-- The state of a start before LOG_HEADROOM and the test of R40. -/
def startedState (u : State) : State :=
  let s1 := startTrays (startNumbers u)
  withCu (withRc s1 { s1.rc with state := .running, resume := none }) { s1.cu with pendingCutter := none }

/-- The state of a start before its trays, with tray sequence 1. -/
def numberedState (u : State) : State := withBu (startNumbers u) { (startNumbers u).bu with nextSeq := 1#16 }

theorem startTrays_eq (u : State) : startTrays (startNumbers u) =
    withBu (startBins allBins (numberedState u)) { (startBins allBins (numberedState u)).bu with brCount := 0, brMass := 0 } := by
  unfold startTrays numberedState; rfl

theorem allBins_eq : allBins = List.range 17 := rfl

/-- What a start makes of every block. -/
theorem startedState_says (u : State) :
    startedState u = { u with
      rc := ⟨.running, nextRun u.rc.run, none, none⟩
      tu := { u.tu with pitch := 0 }
      cl := { u.cl with counters := ⟨0, 0, 0, 0, 0, 0, 0⟩ }
      cu := { u.cu with pendingCutter := none }
      bu := ⟨(startedState u).bu.bins, 0, 0, BitVec.ofNat 16 (1 + openedBelow u 17), u.bu.log⟩
      due := ⟨false, false, false, false, false⟩ } ∧
    (∀ b, b < 17 → (binAt u b).state = .opened → binAt (startedState u) b = ⟨.opened, (binAt u b).limits,
      some ⟨nextRun u.rc.run, BitVec.ofNat 16 (1 + openedBelow u b), u.su.generation, 0, 0, 0, 0, none, none, 0, (binAt u b).carried, none⟩,
      false, none, false⟩) ∧
    (∀ b, ((binAt u b).state ≠ .opened ∨ 17 ≤ b) → binAt (startedState u) b = binAt u b) := by
  obtain ⟨hopened, hkept, hseq, hsame⟩ := startBins_spec (u := numberedState u) rfl 17 (by decide)
  unfold startedState
  dsimp only
  rw [startTrays_eq, allBins_eq]
  generalize startBins (List.range 17) (numberedState u) = t at *
  refine ⟨?_, fun b hb ho => hopened b hb ho, fun b hb => hkept b hb⟩
  rw [hseq] at hsame
  rw [hsame]
  rfl

theorem startedRun_eq (u : State) : startedRun u = cutterTest
    (if headroom (startedState u) ≤ 8 then raise .logHeadroom none none none (startedState u) else startedState u) := rfl

theorem headroom_startedState (u : State) : headroom (startedState u) = headroom u := by
  rw [(startedState_says u).1]; rfl

section
variable (src : Addr) (tag : Tag) {u : State}

theorem actStartRun_refused {n : Nat} (h : firstFailed 1 (startChecks u) = some n) :
    actStartRun (reserveBuffer src tag u) = (reserveBuffer src tag u, ⟨.badArgument, n, 0, []⟩) := by
  have h' : firstFailed 1 (startChecks (reserveBuffer src tag u)) = some n := h
  unfold actStartRun
  rw [h']

theorem actStartRun_starts (h : firstFailed 1 (startChecks u) = none) : actStartRun (reserveBuffer src tag u) =
    (startedRun (reserveBuffer src tag u), ⟨.done, 0, 0, be2 (nextRun u.rc.run).toNat⟩) := by
  have h' : firstFailed 1 (startChecks (reserveBuffer src tag u)) = none := h
  unfold actStartRun
  rw [h']
  rfl

theorem startRun_spells : Spells (.startRun src tag) src tag 31 [] actStartRun :=
  .ofIdle (by decide) rfl rfl (fun _ => rfl) fun h => h.elim

end

/-- A run starts: the state of every block, LOG_HEADROOM, and the test of R40 (R39, R40, R154). -/
theorem startedRun_says (u : State) : ∃ m, (headroom u ≤ 8 → FlagOnly .logHeadroom none none none (startedState u) m) ∧
    (8 < headroom u → m = startedState u) ∧ CutterTested m (startedRun u) := by
  rw [startedRun_eq, headroom_startedState]
  refine ⟨_, fun h => ?_, fun h => ?_, cutterTest_spec _⟩
  · rw [if_pos h]; exact raise_flagOnly ..
  · rw [if_neg (Nat.not_le.mpr h)]

/-- What a start does, by the state u in which it is asked for (R39, R40, R137, R154). -/
def StartEffect (u v w : State) : Prop :=
  ∃ a m,
    a = { v with
      rc := ⟨.running, if u.rc.run = 65535#16 then 1#16 else u.rc.run + 1, none, none⟩
      tu := { v.tu with pitch := 0 }
      cl := { v.cl with counters := ⟨0, 0, 0, 0, 0, 0, 0⟩ }
      cu := { v.cu with pendingCutter := none }
      bu := ⟨a.bu.bins, 0, 0, BitVec.ofNat 16 (1 + openedBelow u 17), v.bu.log⟩
      due := ⟨false, false, false, false, false⟩ } ∧
    (∀ b, b < 17 → (binAt v b).state = .opened → binAt a b = ⟨.opened, (binAt v b).limits,
      some ⟨if u.rc.run = 65535#16 then 1#16 else u.rc.run + 1, BitVec.ofNat 16 (1 + openedBelow u b), v.su.generation, 0, 0, 0, 0, none,
        none, 0, (binAt v b).carried, none⟩, false, none, false⟩) ∧
    (∀ b, ((binAt v b).state ≠ .opened ∨ 17 ≤ b) → binAt a b = binAt v b) ∧
    (headroom v ≤ 8 → FlagOnly .logHeadroom none none none a m) ∧ (8 < headroom v → m = a) ∧ CutterTested m w

theorem startedRun_effect (src : Addr) (tag : Tag) (u : State) :
    StartEffect u (reserveBuffer src tag u) (startedRun (reserveBuffer src tag u)) := by
  obtain ⟨hall, hopen, hkept⟩ := startedState_says (reserveBuffer src tag u)
  obtain ⟨m, hlow, hhigh, htest⟩ := startedRun_says (reserveBuffer src tag u)
  exact ⟨_, m, hall, hopen, hkept, hlow, hhigh, htest⟩

/-- Settles O39: the first check that fails, or the state started. -/
theorem startRunChecksAndStarts : Obligations.StartRunChecksAndStarts := by
  intro src tag s hs hi
  obtain ⟨t, ht, answered, handled⟩ := (startRun_spells src tag).says hs (fun _ => hi)
  refine ⟨t, ht, fun n h1 h10 hn hb => answered _ _ (actStartRun_refused src tag (firstFailed_check h1 h10 hn hb)), fun h => ?_⟩
  exact handled _ _ (StartEffect (settle s)) (actStartRun_starts src tag (firstFailed_passed h)) (startedRun_effect ..)

end Sys2Proof.Machine
end

section
/-! RESTART: what it keeps and gives up in every block, and its answer (R21, R43, R44, R50, R90, R135, R151, R163, R177, R187). -/

namespace Sys2Proof.Machine

/-! ## Descriptor slots (R21) -/

theorem mem_restartSlots {x : Table (Option Descriptor)} {n : Nat} {d : Descriptor} :
    (n, some d) ∈ restartSlots x ↔ ∃ v, (n, v) ∈ x ∧ v.bind restartDescriptor = some d := by
  unfold restartSlots
  rw [List.mem_filter, List.mem_map]
  constructor
  · rintro ⟨⟨e, he, hb⟩, -⟩
    obtain ⟨rfl, hv⟩ := Prod.mk.inj hb
    exact ⟨e.2, he, hv⟩
  · rintro ⟨v, hv, hb⟩
    exact ⟨⟨(n, v), hv, by rw [← hb]⟩, rfl⟩

theorem tget_restartSlots {x : Table (Option Descriptor)} (hc : Table.canonical none x) (n : Nat) :
    tget none (restartSlots x) n = (tget none x n).bind restartDescriptor := by
  refine Option.ext fun d => ⟨fun h => ?_, fun h => ?_⟩
  · have hmem : (n, some d) ∈ restartSlots x := h ▸ mem_of_tget (by rw [h]; simp)
    obtain ⟨v, hv, hb⟩ := mem_restartSlots.mp hmem
    rw [tget_of_mem hc hv, hb]
  · have hne : tget none x n ≠ none := fun h0 => by rw [h0] at h; cases h
    exact tget_of_mem (restartSlots_canonical hc) (mem_restartSlots.mpr ⟨_, mem_of_tget hne, h⟩)

theorem restartDescriptor_eq (d : Descriptor) : restartDescriptor d =
    if d.state = .sorted then none else if d.state = .inTrack then some { d with state := .diverted } else some d := by
  obtain ⟨state, id, sheets, selection, envClass, key, service, reprint⟩ := d
  cases state <;> rfl

/-! ## Bins (R151) -/

/-- The bins below b that have limits. -/
def limitedBelow (u : State) (b : Nat) : Nat := ((List.range b).filter (fun j => (binAt u j).limits.isSome)).length

theorem limitedBelow_le (u : State) (b : Nat) : limitedBelow u b ≤ b := (List.length_filter_le _ _).trans_eq List.length_range

theorem limitedBelow_succ (u : State) (b : Nat) :
    limitedBelow u (b + 1) = limitedBelow u b + if (binAt u b).limits.isSome then 1 else 0 := by
  unfold limitedBelow
  rw [List.range_succ, List.filter_append, List.length_append]
  congr 1
  by_cases h : (binAt u b).limits.isSome <;> simp [h]

/-- A bin after RESTART: DISABLED without limits, OPEN with an empty tray of the given sequence with them (R151). -/
def restartedBin (u : State) (b : Nat) (seq : BitVec 16) : Bin :=
  match (binAt u b).limits with
  | none => .off
  | some l => ⟨.opened, some l, some ⟨u.rc.run, seq, u.su.generation, 0, 0, 0, 0, none, none, 0, false, none⟩, false, none, false⟩

/-- RESTART's effect on one bin. -/
def restartBin (b : Nat) (u : State) : State :=
  match (binAt u b).limits with
  | some l => openTray b (setBin u b { Bin.off with limits := some l })
  | none => setBin u b .off

theorem restartBins_cons (b : Nat) (bs : List Nat) (u : State) : restartBins (b :: bs) u = restartBins bs (restartBin b u) := by
  rw [restartBins, restartBin]
  cases (binAt u b).limits <;> rfl

theorem restartBins_append : ∀ (l k : List Nat) (u : State), restartBins (l ++ k) u = restartBins k (restartBins l u)
  | [], _, _ => rfl
  | b :: l, k, u => by rw [List.cons_append, restartBins_cons, restartBins_cons, restartBins_append l k]

theorem restartBin_eq (b : Nat) (u : State) :
    restartBin b u = withBu u { u.bu with bins := (restartBin b u).bu.bins, nextSeq := (restartBin b u).bu.nextSeq } := by
  unfold restartBin
  split <;> rfl

theorem restartBin_other {b j : Nat} (h : j ≠ b) (u : State) : binAt (restartBin b u) j = binAt u j := by
  unfold restartBin
  split
  · rw [binAt_openTray_other h]; exact binAt_setBin_other h u _
  · exact binAt_setBin_other h u _

theorem restartBin_canonical {b : Nat} {u : State} (hc : Table.canonical .off u.bu.bins) : Table.canonical .off (restartBin b u).bu.bins := by
  unfold restartBin
  split
  · exact Table.canonical_tput (Table.canonical_tput hc _ _) _ _
  · exact Table.canonical_tput hc _ _

theorem restartBin_same {b : Nat} {u : State} (hc : Table.canonical .off u.bu.bins) :
    binAt (restartBin b u) b = restartedBin u b u.bu.nextSeq := by
  unfold restartBin restartedBin
  cases (binAt u b).limits with
  | none => exact tget_tput_same hc _ _
  | some l =>
    have hset : binAt (setBin u b { Bin.off with limits := some l }) b = { Bin.off with limits := some l } :=
      tget_tput_same hc _ _
    rw [binAt_openTray, hset]; rfl

theorem restartBin_seq (b : Nat) (u : State) : (restartBin b u).bu.nextSeq =
    if (binAt u b).limits.isSome then nextTraySeq u.bu.nextSeq else u.bu.nextSeq := by
  unfold restartBin
  cases (binAt u b).limits <;> rfl

/-- The first n bins after RESTART. -/
structure BinsRestarted (n : Nat) (u t : State) : Prop where
  new : ∀ b, b < n → binAt t b = restartedBin u b (BitVec.ofNat 16 (1 + limitedBelow u b))
  kept : ∀ b, n ≤ b → binAt t b = binAt u b
  seq : t.bu.nextSeq = BitVec.ofNat 16 (1 + limitedBelow u n)
  canonical : Table.canonical .off t.bu.bins
  rc : t.rc = u.rc
  su : t.su = u.su

theorem restartBins_spec {u : State} (h1 : u.bu.nextSeq = 1#16) (hc : Table.canonical .off u.bu.bins) :
    ∀ n, n < 65534 → BinsRestarted n u (restartBins (List.range n) u)
  | 0, _ => ⟨fun _ h => absurd h (Nat.not_lt_zero _), fun _ _ => rfl, h1, hc, rfl, rfl⟩
  | n + 1, hn => by
    have ih := restartBins_spec h1 hc n (by omega)
    have hle := limitedBelow_le u n
    rw [List.range_succ, restartBins_append]
    generalize restartBins (List.range n) u = m at ih ⊢
    have hstep : restartBins [n] m = restartBin n m := restartBins_cons n [] m
    have hbin : binAt m n = binAt u n := ih.kept n le_rfl
    have heq := restartBin_eq n m
    rw [hstep]
    refine ⟨fun b hb => ?_, fun b hb => ?_, ?_, restartBin_canonical ih.canonical, ?_, ?_⟩
    · rcases Nat.lt_succ_iff_lt_or_eq.mp hb with hlt | rfl
      · rw [restartBin_other (Nat.ne_of_lt hlt)]; exact ih.new b hlt
      · rw [restartBin_same ih.canonical, restartedBin, hbin, ih.seq, ih.rc, ih.su]; rfl
    · rw [restartBin_other (by omega)]; exact ih.kept b (by omega)
    · rw [restartBin_seq, hbin, ih.seq, limitedBelow_succ, nextTraySeq_ofNat (by omega)]
      split <;> rfl
    · exact (congrArg State.rc heq).trans ih.rc
    · exact (congrArg State.su heq).trans ih.su

theorem restartBins_eq : ∀ (l : List Nat) (u : State),
    restartBins l u = withBu u { u.bu with bins := (restartBins l u).bu.bins, nextSeq := (restartBins l u).bu.nextSeq }
  | [], _ => rfl
  | b :: bs, u => by
    have h := restartBins_eq bs (restartBin b u)
    have hb := restartBin_eq b u
    rw [restartBins_cons]
    generalize restartBins bs (restartBin b u) = t at h ⊢
    generalize restartBin b u = m at h hb
    rw [h, hb]; rfl

/-! ## The state and the answer -/

section
variable (u : State)

/-- The part after RESTART but for its bins. -/
def restartedFeeders (u : State) : State := restartFeeders (List.range 8) (restartBlocks u)

theorem restarted_eq : restarted u = restartBins allBins (restartedFeeders u) := rfl

/-- Every block after RESTART, its feeders, bins and tray sequence apart. -/
theorem restarted_blocks : restarted u = { u with
    due := .none
    ds := { u.ds with slots := restartSlots u.ds.slots }
    cu := ⟨none, [], .hold, none⟩
    tu := { u.tu with pitch := 0, ring := [] }
    iu := { u.iu with commitPending := false, feeders := (restarted u).iu.feeders }
    su := { u.su with commitPending := false }
    bu := ⟨(restarted u).bu.bins, 0, 0, (restarted u).bu.nextSeq, []⟩
    rc := ⟨.idle, u.rc.run, none, none⟩
    cl := ⟨[], ⟨0, 0, 0, 0, 0, 0, 0⟩, 0, none, false⟩
    rp := restartRp u.rp } := by
  have hb := restartBins_eq allBins (restartedFeeders u)
  have hf := restartFeeders_keeps (List.range 8) (restartBlocks u)
  have hiu := restartFeeders_iu (List.range 8) (restartBlocks u)
  rw [restarted_eq]
  unfold restartedFeeders at *
  generalize restartBins allBins (restartFeeders (List.range 8) (restartBlocks u)) = t at hb ⊢
  generalize restartFeeders (List.range 8) (restartBlocks u) = m at hb hf hiu
  obtain ⟨f1, f2, f3, f4, f5, f6, f7, f8, f9, f10, f11, f12⟩ := hf
  obtain ⟨pending, due, held, ds, cu, tu, iu, pp, su, bu, rc, cl, rp⟩ := m
  dsimp only at f1 f2 f3 f4 f5 f6 f7 f8 f9 f10 f11 f12 hiu
  subst f1 f2 f3 f4 f5 f6 f7 f8 f9 f10 f11 f12
  rw [hb, hiu]
  rfl

end

/-- The answer of RESTART: one segment behind what is left of the originate queue, and no ALERT. -/
theorem answered_restart {src : Addr} {tag : Tag} {x t : State} (hlen : x.rp.originate.length ≤ 1) (ha : x.cl.alertPending = false)
    (hp : x.tu.pitch = 0) (h : Answered src tag 37 ⟨.done, 0, 0, []⟩ x t) :
    t = withRp x { x.rp with
      originate := x.rp.originate ++ [⟨src, .response, 0, be2 tag.toNat ++ [128, 37, 0, 0, 0, 0, 0]⟩]
      response := none } := by
  have hfilter := List.length_filter_le isManagement x.rp.originate
  have hfree : min (segmentsOf (responseBody 37 ⟨.done, 0, 0, []⟩)).length (managementFree x) = 1 := by
    have h1 : (segmentsOf (responseBody 37 ⟨.done, 0, 0, []⟩)).length = 1 := rfl
    rw [h1, managementFree]; omega
  have hr : responseQueued src tag 37 ⟨.done, 0, 0, []⟩ x = withRp x { x.rp with
      originate := x.rp.originate ++ [⟨src, .response, 0, be2 tag.toNat ++ [128, 37, 0, 0, 0, 0, 0]⟩]
      response := none } := by
    unfold responseQueued
    dsimp only
    rw [hfree, hp]; rfl
  rw [h, hr, alertOffered, if_neg]
  exact fun hc => Bool.false_ne_true (ha.symm.trans hc.1)

theorem keepBegun_length {α : Type} (b : Bool) (q : List α) : (keepBegun b q).length ≤ 1 := by
  cases b
  · exact Nat.zero_le 1
  · exact List.length_take_le 1 q

theorem keepBegun_eq {α : Type} (x : Option Port) (p : Port) (q : List α) :
    keepBegun (x == some p) q = if x = some p then q.take 1 else [] := by
  by_cases h : x = some p <;> simp [keepBegun, h]

theorem descAt_restarted {u : State} (hc : Table.canonical none u.ds.slots) (n : Nat) : descAt (restarted u) n =
    (match descAt u n with
      | none => none
      | some d => if d.state = .sorted then none else if d.state = .inTrack then some { d with state := .diverted } else some d) := by
  have hslots : descAt (restarted u) n = tget none (restartSlots u.ds.slots) n := by
    rw [restarted_blocks]; rfl
  rw [hslots, tget_restartSlots hc]
  unfold descAt
  cases tget none u.ds.slots n with
  | none => rfl
  | some d => exact restartDescriptor_eq d

theorem restarted_iu (u : State) : (restarted u).iu = (restartedFeeders u).iu := by
  rw [restarted_eq, restartBins_eq]; rfl

theorem feederAt_restarted {u : State} (hc : Table.canonical .off u.iu.feeders) {f : Nat} (hf : f < 8) :
    feederAt (restarted u) f = restartFeeder (tget MapSlot.off u.iu.active f).enabled (feederAt u f) := by
  have h : feederAt (restarted u) f = feederAt (restartedFeeders u) f := congrArg (fun i : Iu => tget Feeder.off i.feeders f) (restarted_iu u)
  rw [h, restartedFeeders, feederAt_restartFeeders List.nodup_range (restartBlocks u) hc, if_pos (List.mem_range.mpr hf)]
  rfl

/-- The bins that RESTART finds: those of the state before it, with the sequence starting over. -/
theorem binsRestarted {u : State} (hc : Table.canonical .off u.bu.bins) : BinsRestarted 17 (restartedFeeders u) (restarted u) ∧
    (∀ b, binAt (restartedFeeders u) b = binAt u b) ∧ (restartedFeeders u).rc = ⟨.idle, u.rc.run, none, none⟩ ∧
    (restartedFeeders u).su = { u.su with commitPending := false } := by
  obtain ⟨-, -, -, -, -, -, -, hsu, hbu, hrc, -⟩ := restartFeeders_keeps (List.range 8) (restartBlocks u)
  have hbins : (restartedFeeders u).bu.bins = u.bu.bins := (congrArg Bu.bins hbu :)
  have hseq : (restartedFeeders u).bu.nextSeq = 1#16 := (congrArg Bu.nextSeq hbu :)
  refine ⟨?_, fun b => congrArg (tget Bin.off · b) hbins, hrc, hsu⟩
  rw [restarted_eq, allBins_eq]
  exact restartBins_spec hseq (hbins.symm ▸ hc) 17 (by decide)

theorem limitedBelow_congr {u v : State} (h : ∀ b, binAt v b = binAt u b) (b : Nat) : limitedBelow v b = limitedBelow u b := by
  simp only [limitedBelow, h]

theorem restart_spells (src : Addr) (tag : Tag) : Spells (.restart src tag) src tag 37 [] actRestart :=
  .plain (by decide) rfl rfl (fun _ => rfl) id

/-- The effect of RESTART while its response has the buffer. -/
def RestartEffect (u v : State) : Prop := v = restarted u

theorem actRestart_effect (u : State) : RestartEffect u (restarted u) := rfl

/-- The state after RESTART and its answer, in terms of what `restarted` leaves. -/
theorem handled_restart {src : Addr} {tag : Tag} {u t : State} (h : Handled src tag 37 ⟨.done, 0, 0, []⟩ RestartEffect u t) :
    ∃ x, x = restarted (reserveBuffer src tag u) ∧ t = withRp x { restartRp u.rp with
      originate := (if u.rp.sending = some .originate then u.rp.originate.take 1 else []) ++
        [⟨src, .response, 0, be2 tag.toNat ++ [128, 37, 0, 0, 0, 0, 0]⟩]
      response := none } := by
  obtain ⟨x, hx, ha⟩ := h
  have hx' : x = restarted (reserveBuffer src tag u) := hx
  have hb := hx'.trans (restarted_blocks _)
  have hrp : x.rp = restartRp (reserveBuffer src tag u).rp := congrArg State.rp hb
  have ho : x.rp.originate = keepBegun (u.rp.sending == some .originate) u.rp.originate := congrArg Rp.originate hrp
  have ht := answered_restart (by rw [ho]; exact keepBegun_length _ _) (congrArg (fun y => y.cl.alertPending) hb)
    (congrArg (fun y => y.tu.pitch) hb) ha
  refine ⟨x, hx', ht.trans ?_⟩
  rw [ho, hrp, keepBegun_eq]; rfl

/-- Settles O45: the blocks by `restarted_blocks`, its slots, feeders and bins by their own lemmas, and the answer by `handled_restart`. -/
theorem restartKeepsLoadedTables : Obligations.RestartKeepsLoadedTables := by
  intro src tag s hs
  obtain ⟨t, ht, -, handled⟩ := (restart_spells src tag).says hs (fun h => absurd h (by decide))
  have hh := handled _ _ RestartEffect rfl (actRestart_effect _)
  obtain ⟨x, hx, hans⟩ := handled_restart hh
  refine ⟨t, ht, ?_⟩
  clear hh handled ht hs
  generalize settle s = u at *
  have hb := hx.trans (restarted_blocks _)
  rw [← hx] at hb
  subst hans
  refine ⟨congrArg State.rc hb, congrArg State.cu hb, congrArg State.tu hb, congrArg (fun y => y.ds.windows) hb,
    congrArg (fun y => y.ds.map) hb, fun hl n => ?_, (congrArg State.pp hb :), congrArg State.su hb, congrArg State.iu hb,
    fun hl f hf => ?_, congrArg (fun y => y.bu.log) hb, congrArg (fun y => y.bu.brCount) hb, congrArg (fun y => y.bu.brMass) hb,
    fun hl => ?_, congrArg State.cl hb, rfl, rfl, rfl, rfl, keepBegun_eq _ _ _, rfl⟩
  · obtain ⟨hslots, -⟩ := hl
    subst hx
    exact descAt_restarted (u := reserveBuffer src tag u) hslots n
  · obtain ⟨-, -, -, -, -, -, -, hfeeders, -⟩ := hl
    subst hx
    exact feederAt_restarted (u := reserveBuffer src tag u) hfeeders hf
  · obtain ⟨-, -, -, -, -, -, -, -, -, -, -, -, -, hbins⟩ := hl
    subst hx
    obtain ⟨hspec, hsame, hrc, hsu⟩ := binsRestarted (u := reserveBuffer src tag u) hbins
    have hnew : ∀ b, b < 17 → binAt (restarted (reserveBuffer src tag u)) b =
        restartedBin (restartedFeeders (reserveBuffer src tag u)) b (BitVec.ofNat 16 (1 + limitedBelow u b)) := fun b hb => by
      rw [hspec.new b hb, limitedBelow_congr hsame]; rfl
    refine ⟨fun b hlt hnone => (hnew b hlt).trans ?_, fun b hlt hsome => (hnew b hlt).trans ?_,
      hspec.seq.trans (by rw [limitedBelow_congr hsame]; rfl)⟩
    · have hn : (binAt (restartedFeeders (reserveBuffer src tag u)) b).limits = none := by rw [hsame]; exact hnone
      rw [restartedBin, hn]; rfl
    · have hn : (binAt (restartedFeeders (reserveBuffer src tag u)) b).limits = (binAt u b).limits := by rw [hsame]; rfl
      obtain ⟨l, hl⟩ := Option.isSome_iff_exists.mp hsome
      rw [restartedBin, hn, hl, hrc, hsu]; rfl

end Sys2Proof.Machine
end

section
/-! DECLARE REMOVED and ABORT RUN: refused, or pieces and sets taken out in order (R159, R160, R162). -/

namespace Sys2Proof.Machine

/-! ## Pieces taken out in STOPPED -/

theorem leaveWithout_stopped (o : Outcome) (f : PieceFault) (k : Nat) {u : State} (hs : u.rc.state = .stopped) :
    (leaveWithout o f k u).rc = u.rc ∧ (leaveWithout o f k u).bu.log = u.bu.log := by
  have hlog : ∀ p m (v : State), (releaseReservation p m v).bu.log = v.bu.log := fun p m v => by
    unfold releaseReservation
    split
    · split <;> rfl
    · rfl
  unfold leaveWithout
  split
  · dsimp only
    rw [flightChanged_of_not_draining (by simp [setPiece, hs])]
    simp [setPiece, hlog]
  · exact ⟨rfl, rfl⟩

theorem removePieces_stopped : ∀ (l : List Nat) {u : State}, u.rc.state = .stopped →
    (removePieces l u).rc = u.rc ∧ (removePieces l u).bu.log = u.bu.log
  | [], _, _ => ⟨rfl, rfl⟩
  | k :: ks, u, hs => by
    obtain ⟨hrc, hlog⟩ := leaveWithout_stopped .removed .removed k hs
    obtain ⟨irc, ilog⟩ := removePieces_stopped ks (hrc ▸ hs : (leaveWithout .removed .removed k u).rc.state = .stopped)
    exact ⟨irc.trans hrc, ilog.trans hlog⟩

theorem PiecesRemoved.log_length {ks : List Nat} {u t : State} (h : PiecesRemoved ks u t) :
    t.cl.log.length = u.cl.log.length + ks.length := by
  induction ks generalizing u with
  | nil => cases h; rfl
  | cons k ks ih =>
    obtain ⟨p, m, -, hl, -, -, -, hr⟩ := h
    obtain ⟨-, -, -, hlog, -⟩ := hl
    rw [ih hr, hlog, List.length_append, List.length_cons]
    simp only [List.length_cons, List.length_nil]
    omega

theorem trackSlots_length {u : State} (hc : Table.canonical none u.tu.ring) : (trackSlots u).length = u.tu.ring.length := by
  have h := (sortOldest u.tu.pitch (u.tu.ring.filterMap (fun e => e.2.map (fun p => (e.1, p))))).1.length_eq
  have hall : ∀ l : Table (Option Piece), (∀ e ∈ l, e.2 ≠ none) →
      (l.filterMap (fun e => e.2.map (fun p => (e.1, p)))).length = l.length := by
    intro l hl
    rw [List.filterMap_length_eq_length]
    intro e he
    have hne := hl e he
    cases h2 : e.2 with
    | none => exact absurd h2 hne
    | some p => rfl
  rw [trackSlots, List.length_map]
  exact h.trans (hall _ hc.2)

/-! ## DECLARE REMOVED -/

section
variable {src : Addr} {tag : Tag} {u t : State}

theorem actDeclareRemoved_running (range : Bool) (lo hi : Byte) (accumulator : Bool) (h : u.rc.state ≠ .stopped) :
    actDeclareRemoved range lo hi accumulator (reserveBuffer src tag u) = (reserveBuffer src tag u, ⟨.wrongState, 0, 0, []⟩) := if_neg h

theorem removalOk_iff (range : Bool) (lo hi : Byte) (accumulator : Bool) : removalOk u range lo hi accumulator = true ↔
    (range = true ∨ accumulator = true) ∧
      (range = true → -(u.tu.timing.lr : Int) ≤ lo.toInt ∧ lo.toInt ≤ (hi.toNat : Int) ∧ hi.toNat ≤ 63) := by
  cases range <;> simp [removalOk, and_assoc]

theorem actDeclareRemoved_refused {range : Bool} {lo hi : Byte} {accumulator : Bool} (h : u.rc.state = .stopped)
    (hbad : (range = false ∧ accumulator = false) ∨
      (range = true ∧ ((hi.toNat : Int) < lo.toInt ∨ lo.toInt < -(u.tu.timing.lr : Int) ∨ 63 < hi.toNat))) :
    actDeclareRemoved range lo hi accumulator (reserveBuffer src tag u) = (reserveBuffer src tag u, ⟨.badArgument, 0, 0, []⟩) := by
  have hno : removalOk (reserveBuffer src tag u) range lo hi accumulator ≠ true := fun hok => by
    obtain ⟨hsome, hrange⟩ := (removalOk_iff range lo hi accumulator).mp hok
    rcases hbad with ⟨rfl, rfl⟩ | ⟨hr, hb⟩
    · simp at hsome
    · obtain ⟨h1, h2, h3⟩ := hrange hr
      have h1' : -(u.tu.timing.lr : Int) ≤ lo.toInt := h1
      omega
  unfold actDeclareRemoved
  rw [if_pos (show (reserveBuffer src tag u).rc.state = .stopped from h), if_neg hno]; rfl

/-- The state after the pieces and the sets of a DECLARE REMOVED are out. -/
def declaredOut (range : Bool) (lo hi : Byte) (accumulator : Bool) (u : State) : State :=
  if accumulator then removeSets (removePieces (declaredSlots u range lo hi) u) else removePieces (declaredSlots u range lo hi) u

/-- The effect of a DECLARE REMOVED (R160). -/
def DeclareEffect (ks : List Nat) (accumulator : Bool) (u v : State) : Prop :=
  ∃ a, PiecesRemoved ks u a ∧ (accumulator = true → SetsRemoved a v) ∧ (accumulator = false → v = a)

theorem actDeclareRemoved_taken {range : Bool} {lo hi : Byte} {accumulator : Bool} (h : u.rc.state = .stopped)
    (hok : removalOk u range lo hi accumulator = true) :
    actDeclareRemoved range lo hi accumulator (reserveBuffer src tag u) = (declaredOut range lo hi accumulator (reserveBuffer src tag u),
      ⟨.done, (declaredSlots u range lo hi).length, if accumulator then (setsHeld u).length else 0, []⟩) := by
  have hcu := (removePieces_keeps (declaredSlots (reserveBuffer src tag u) range lo hi) (reserveBuffer src tag u)).2.2.2.1
  have hsets : collatedSets (removePieces (declaredSlots (reserveBuffer src tag u) range lo hi) (reserveBuffer src tag u)) = setsHeld u := by
    rw [collatedSets_eq, setsHeld, hcu]; rfl
  unfold actDeclareRemoved
  rw [if_pos (show (reserveBuffer src tag u).rc.state = .stopped from h),
    if_pos (show removalOk (reserveBuffer src tag u) range lo hi accumulator = true from hok)]
  dsimp only
  rw [hsets]; rfl

/-- The slots a DECLARE REMOVED empties, in order; without a range there are none (R160). -/
theorem declared_order {range : Bool} (lo hi : Byte) (hc : range = true → Table.canonical none u.tu.ring) :
    RemovalOrder u (fun q => range = true ∧ lo.toInt ≤ q ∧ q ≤ (hi.toNat : Int)) (declaredSlots u range lo hi) := by
  cases range with
  | true => exact declaredSlots_order (hc rfl) ..
  | false => exact ⟨List.nodup_nil, fun k => ⟨fun h => (nomatch h), fun h => by simp at h⟩, List.Pairwise.nil⟩

theorem declared_removed {range : Bool} (lo hi : Byte) (hs : u.rc.state = .stopped) (hc : range = true → Table.canonical none u.tu.ring) :
    PiecesRemoved (declaredSlots u range lo hi) u (removePieces (declaredSlots u range lo hi) u) := by
  cases range with
  | false => exact rfl
  | true =>
    obtain ⟨hn, hmem, -⟩ := declaredSlots_order (hc rfl) true lo hi
    exact removePieces_spec hn (hc rfl) hs fun k hk => ((hmem k).mp hk).1

theorem declareEffect_declaredOut {range : Bool} (lo hi : Byte) (accumulator : Bool) (hs : u.rc.state = .stopped)
    (hc : range = true → Table.canonical none u.tu.ring) :
    DeclareEffect (declaredSlots u range lo hi) accumulator u (declaredOut range lo hi accumulator u) := by
  refine ⟨_, declared_removed lo hi hs hc, fun ha => ?_, fun ha => ?_⟩ <;> subst ha
  · exact removeSets_spec _
  · rfl

theorem declareEffect_reserved {range : Bool} (lo hi : Byte) (accumulator : Bool) (hs : u.rc.state = .stopped)
    (hc : range = true → Table.canonical none u.tu.ring) : DeclareEffect (declaredSlots u range lo hi) accumulator (reserveBuffer src tag u)
      (declaredOut range lo hi accumulator (reserveBuffer src tag u)) :=
  declareEffect_declaredOut (u := reserveBuffer src tag u) lo hi accumulator hs hc

/-- What the effect leaves of the ring: the pieces whose slots are not listed. -/
theorem DeclareEffect.rest {ks : List Nat} {accumulator : Bool} {v : State} (h : DeclareEffect ks accumulator u v) :
    v.rc = u.rc ∧ v.tu.pitch = u.tu.pitch ∧ ∀ k, pieceAt v k = if k ∈ ks then none else pieceAt u k := by
  obtain ⟨a, hp, hsets, hnone⟩ := h
  have hpitch : a.tu.pitch = u.tu.pitch := by
    clear hsets hnone
    induction ks generalizing u with
    | nil => cases hp; rfl
    | cons k ks ih =>
      obtain ⟨p, m, -, ⟨-, -, htu, -⟩, -, -, -, hr⟩ := hp
      exact (ih hr).trans ((congrArg Tu.pitch htu).trans rfl)
  have hsame : v.rc = a.rc ∧ v.tu = a.tu := by
    cases accumulator with
    | false => rw [hnone rfl]; exact ⟨rfl, rfl⟩
    | true =>
      obtain ⟨-, -, -, -, -, -, -, htu, -, -, -, -, hrc⟩ := hsets rfl
      exact ⟨hrc, htu⟩
  refine ⟨hsame.1.trans hp.keeps.2.1, (congrArg Tu.pitch hsame.2).trans hpitch, fun k => ?_⟩
  exact (congrArg (fun y : Tu => tget none y.ring k) hsame.2).trans (hp.pieceAt k)

/-- The pieces left by a range: those whose positions do not lie in it. -/
theorem filter_of_order {takes : Int → Prop} {out : Int → Bool} {ks : List Nat} (ho : RemovalOrder u takes ks)
    (hout : ∀ q, out q = true ↔ takes q) (k : Nat) : (if k ∈ ks then none else pieceAt u k) =
      (pieceAt u k).filter (fun p => !out (pitchDiff u.tu.pitch p.entry)) := by
  obtain ⟨-, hmem, -⟩ := ho
  have hk : k ∈ ks ↔ (pieceAt u k).isSome = true ∧ takes ((pieceAt u k).elim 0 (fun p => pitchDiff u.tu.pitch p.entry)) := hmem k
  cases hp : pieceAt u k with
  | none => simp
  | some p =>
    rw [hp] at hk
    have hk' : k ∈ ks ↔ out (pitchDiff u.tu.pitch p.entry) = true := by rw [hk, hout]; simp
    rw [Option.filter_some]
    cases h : out (pitchDiff u.tu.pitch p.entry) with
    | true => rw [if_pos (hk'.mpr h)]; rfl
    | false => rw [if_neg (fun hm => Bool.false_ne_true (h.symm.trans (hk'.mp hm)))]; rfl

/-- A Handled request's blocks are those its effect leaves. -/
theorem Handled.blocks {code : Byte} {r : Reply} {effect : State → State → Prop} (h : Handled src tag code r effect u t) :
    ∃ x, effect (reserveBuffer src tag u) x ∧ SameBlocks x t ∧ t.cl.log = x.cl.log := by
  obtain ⟨x, he, ha⟩ := h
  obtain ⟨hb, -, hl, -⟩ := ha.keeps
  exact ⟨x, he, hb, hl⟩

theorem declared_result {range accumulator : Bool} {lo hi : Byte} {r : Reply}
    (ho : RemovalOrder u (fun q => range = true ∧ lo.toInt ≤ q ∧ q ≤ (hi.toNat : Int)) (declaredSlots u range lo hi))
    (hh : Handled src tag 35 r (DeclareEffect (declaredSlots u range lo hi) accumulator) u t) :
    t.rc = u.rc ∧ t.tu.pitch = u.tu.pitch ∧ ∀ k, pieceAt t k = (pieceAt u k).filter (fun p =>
      !(range && decide (lo.toInt ≤ pitchDiff u.tu.pitch p.entry) && decide (pitchDiff u.tu.pitch p.entry ≤ hi.toNat))) := by
  obtain ⟨x, he, hb, -⟩ := hh.blocks
  obtain ⟨hrc, hpitch, hpieces⟩ := he.rest
  obtain ⟨-, -, -, -, -, btu, -, -, -, -, brc⟩ := hb
  refine ⟨brc.trans hrc, (congrArg Tu.pitch btu).trans hpitch, fun k => ?_⟩
  have hk : pieceAt t k = if k ∈ declaredSlots u range lo hi then none else pieceAt u k :=
    (congrArg (fun y : Tu => tget none y.ring k) btu).trans (hpieces k)
  rw [hk]
  exact filter_of_order (out := fun q => range && decide (lo.toInt ≤ q) && decide (q ≤ hi.toNat)) ho (fun q => by simp [and_assoc]) k

end

/-- Settles O43: refused by the state and the arguments, and otherwise the pieces of the range and then the sets go, in order. -/
theorem declareRemovedTakesOut : Obligations.DeclareRemovedTakesOut := by
  intro src tag range lo hi accumulator s hs
  obtain ⟨t, ht, answered, handled⟩ := (declareRemoved_spells (src := src) (tag := tag) range lo hi accumulator).says hs
    (fun h => absurd h (by decide))
  refine ⟨t, ht, fun h => answered _ _ (actDeclareRemoved_running range lo hi accumulator h),
    fun h hbad => answered _ _ (actDeclareRemoved_refused h hbad), fun h hsome hrange => ?_⟩
  have hok : removalOk (settle s) range lo hi accumulator = true :=
    (removalOk_iff range lo hi accumulator).mpr ⟨hsome, fun hr => ⟨(hrange hr).1, (hrange hr).2.1, (hrange hr).2.2.1⟩⟩
  have hc : range = true → Table.canonical none (settle s).tu.ring := fun hr => by
    obtain ⟨-, -, -, -, -, -, -, hring, -⟩ := hrange hr
    exact hring
  have horder := declared_order lo hi hc
  have hh := handled _ _ (DeclareEffect (declaredSlots (settle s) range lo hi) accumulator) (actDeclareRemoved_taken h hok)
    (declareEffect_reserved lo hi accumulator h hc)
  exact ⟨⟨_, horder, hh⟩, declared_result horder hh⟩

/-! ## ABORT RUN -/

theorem abortRun_spells (src : Addr) (tag : Tag) : Spells (.abortRun src tag) src tag 36 [] actAbortRun :=
  .plain (by decide) rfl rfl (fun _ => rfl) id

theorem FlagOnly.bu {f : Flag} {a : Option Addr} {p : Option Pitch} {i : Option PieceId} {u t : State} (h : FlagOnly f a p i u t) :
    t.bu = u.bu := by
  have hb := h.2.1
  obtain ⟨-, -, -, -, -, -, -, -, -, hbu, -⟩ := hb
  exact hbu

theorem ChangesSent.bu {u v t : State} (h : ChangesSent u v t) : t.bu = v.bu := by
  rcases Nat.lt_or_ge (commandFree u) (closingBins u).length with hlt | hge
  · exact (h.2 hlt).bu
  · rw [h.1 hge]

theorem runEndClose_log (u : State) : (runEndClose u).bu.log = u.bu.log := by
  rw [(runEndClose_spec u).2.bu, withBu_bu]

theorem planCopyIfPending_log (u : State) : (planCopyIfPending u).bu.log = u.bu.log := by
  unfold planCopyIfPending
  split
  · obtain ⟨-, -, -, hsent⟩ := planCopy_spec u
    rw [hsent.bu, withSu_bu, withBu_bu]
  · rfl

/-- The effect of an abort (R162). -/
def AbortEffect (ks : List Nat) (u v : State) : Prop :=
  ∃ a b c, PiecesRemoved ks u a ∧ SetsRemoved a b ∧ BinsClosed .runEnd b c ∧
    CopiesMade (withRc c { c.rc with state := .idle, resume := none }) v

section
variable {src : Addr} {tag : Tag} {u t : State}

theorem actAbortRun_refused (h : u.rc.state ≠ .stopped) :
    actAbortRun (reserveBuffer src tag u) = (reserveBuffer src tag u, ⟨.wrongState, 0, 0, []⟩) := if_neg h

theorem actAbortRun_stopped (h : u.rc.state = .stopped) : actAbortRun (reserveBuffer src tag u) =
    (abortedRun (reserveBuffer src tag u), ⟨.done, (trackSlots u).length + (setsHeld u).length, 0, []⟩) := by
  rw [actAbortRun, if_pos (show (reserveBuffer src tag u).rc.state = .stopped from h), collatedSets_eq]; rfl

theorem abortEffect_reserved (hs : u.rc.state = .stopped) (hc : Table.canonical none u.tu.ring) :
    AbortEffect (trackSlots u) (reserveBuffer src tag u) (abortedRun (reserveBuffer src tag u)) := by
  obtain ⟨hn, hmem, -⟩ := trackSlots_order (s := reserveBuffer src tag u) hc
  obtain ⟨c, hclose, hcopies⟩ := abortEnd_spec (removeSets (removePieces (trackSlots (reserveBuffer src tag u)) (reserveBuffer src tag u)))
  exact ⟨_, _, c, removePieces_spec hn hc hs fun k hk => ((hmem k).mp hk).1, removeSets_spec _, hclose, hcopies⟩

/-- What an abort leaves besides bins, log and tables (R162). -/
structure Aborted (u t : State) : Prop where
  rc : t.rc = { u.rc with state := .idle, resume := none }
  place : t.cu.place = none
  queue : t.cu.queue = []
  hold : t.cu.hold = u.cu.hold
  pitch : t.tu.pitch = u.tu.pitch
  layout : t.tu.layout = u.tu.layout
  pp : t.pp = u.pp
  log : t.bu.log = u.bu.log
  pieces : LogLaw u → t.tu.ring = [] ∧ t.cl.log.length = u.cl.log.length + inFlight u

theorem abortEnd_log (v : State) : (abortEnd v).bu.log = v.bu.log := by
  have hmap : ∀ w : State, (mapCopyIfPending w).bu = w.bu := fun w => by simp
  rw [abortEnd, planCopyIfPending_log, hmap, withRc_bu, runEndClose_log]

theorem removeSets_queue (v : State) : (removeSets v).cu = { v.cu with place := none, queue := [] } := (removeSets_spec v).1

/-- With every piece and set taken out the log has grown by all that was in flight. -/
theorem abortedRun_pieces (hs : u.rc.state = .stopped) (hl : LogLaw u) :
    (abortedRun u).tu.ring = [] ∧ (abortedRun u).cl.log.length = u.cl.log.length + inFlight u := by
  obtain ⟨hc, -⟩ := hl
  obtain ⟨hn, hmem, -⟩ := trackSlots_order hc
  have hlen := (removePieces_spec hn hc hs fun k hk => ((hmem k).mp hk).1).log_length
  have hsets := (removeSets_spec (removePieces (trackSlots u) u)).2.1
  have hheld : (setsHeld (removePieces (trackSlots u) u)).length = u.cu.place.toList.length + u.cu.queue.length := by
    simp only [setsHeld, removePieces_keeps]
    cases u.cu.place <;> simp [Nat.add_comm]
  constructor
  · simp [abortedRun, abortEnd, ring_removePieces hc hs]
  · have hlog : (abortedRun u).cl.log = (removeSets (removePieces (trackSlots u) u)).cl.log := by simp [abortedRun, abortEnd]
    rw [hlog, hsets, List.length_append, List.length_map, hheld, hlen, trackSlots_length hc, inFlight]
    omega

theorem abortedRun_aborted (hs : u.rc.state = .stopped) : Aborted u (abortedRun u) := by
  obtain ⟨prc, plog⟩ := removePieces_stopped (trackSlots u) hs
  have hlog : (abortedRun u).bu.log = u.bu.log := by
    rw [abortedRun, abortEnd_log]
    simp [plog]
  have hcu : (abortedRun u).cu = { u.cu with place := none, queue := [] } := by simp [abortedRun, abortEnd, removeSets_queue]
  refine ⟨?_, congrArg Cu.place hcu, congrArg Cu.queue hcu, (congrArg Cu.hold hcu).trans rfl, ?_, ?_, ?_, hlog, abortedRun_pieces hs⟩ <;>
    simp [abortedRun, abortEnd, prc]

/-- What the answer leaves of it. -/
theorem aborted_answered {r : Reply} {x : State} (h : Aborted (reserveBuffer src tag u) x) (ha : Answered src tag 36 r x t) : Aborted u t := by
  obtain ⟨⟨-, -, -, -, hcu, htu, -, hpp, -, hbu, hrc⟩, -, hlog, -⟩ := ha.keeps
  exact ⟨hrc.trans h.rc, (congrArg Cu.place hcu).trans h.place, (congrArg Cu.queue hcu).trans h.queue, (congrArg Cu.hold hcu).trans h.hold,
    (congrArg Tu.pitch htu).trans h.pitch, (congrArg Tu.layout htu).trans h.layout, hpp.trans h.pp, (congrArg Bu.log hbu).trans h.log,
    fun hl => ⟨(congrArg Tu.ring htu).trans (h.pieces hl).1, (congrArg List.length hlog).trans (h.pieces hl).2⟩⟩

/-- An abort's one state: the run aborted. -/
def AbortOnly (u v : State) : Prop := v = abortedRun u

theorem abortOnly (u : State) : AbortOnly u (abortedRun u) := rfl

theorem aborted_handled {r : Reply} (hs : u.rc.state = .stopped) (h : Handled src tag 36 r AbortOnly u t) : Aborted u t := by
  obtain ⟨x, hx, ha⟩ := h
  have hx' : x = abortedRun (reserveBuffer src tag u) := hx
  exact aborted_answered (hx' ▸ abortedRun_aborted (u := reserveBuffer src tag u) hs) ha

end

/-- Settles O44: refused outside STOPPED, and in it pieces, sets, bins and copies in order. -/
theorem abortRunEndsInIdle : Obligations.AbortRunEndsInIdle := by
  intro src tag s hs
  obtain ⟨t, ht, answered, handled⟩ := (abortRun_spells src tag).says hs (fun h => absurd h (by decide))
  refine ⟨t, ht, fun h => answered _ _ (actAbortRun_refused h), fun h ⟨_, _, _, _, hring, _⟩ => ⟨trackSlots (settle s),
    trackSlots_order hring, handled _ _ (AbortEffect (trackSlots (settle s))) (actAbortRun_stopped h) (abortEffect_reserved h hring)⟩,
    fun h => ?_⟩
  have ha := aborted_handled h (handled _ _ AbortOnly (actAbortRun_stopped h) (abortOnly _))
  exact ⟨ha.rc, ha.place, ha.queue, ha.hold, ha.pitch, ha.layout, ha.pp, ha.log, ha.pieces⟩

end Sys2Proof.Machine
end

section
/-! Reports of wrong sources, stale, late or without a piece (R23, R55-R60). -/

namespace Sys2Proof.Machine

section
variable {s : State} (hs : s.resetHeld = false)
include hs

theorem exec_sheet (src : Addr) (id : PieceId) (i n : Byte) : exec (.sheet src id i n) s = .next (sheetReport src id i n (settle s)) :=
  congrArg Host.Outcome.next (event_live hs)

theorem exec_feed (src : Addr) (st : Stamp) (o : Byte) : exec (.feed src st o) s = .next (feedReport src st o (settle s)) :=
  congrArg Host.Outcome.next (event_live hs)

theorem exec_read (src : Addr) (st : Stamp) (id : PieceId) : exec (.read src st id) s = .next (readReport src st id (settle s)) :=
  congrArg Host.Outcome.next (event_live hs)

theorem exec_landed (src : Addr) (st : Stamp) (x : Byte) : exec (.landed src st x) s = .next (landedReport src st x (settle s)) :=
  congrArg Host.Outcome.next (event_live hs)

end

section
variable {src : Addr} {u : State}

/-! ## Reports of wrong sources (R23, R55) -/

theorem isAt_other {a : Addr} (h : src ≠ a) : isAt src a = false := by
  rw [isAt, beq_eq_false_iff_ne.mpr h, Bool.false_and]

theorem dropSource_spec (src : Addr) (u : State) :
    (isRole u src = false → FlagOnly .unknownSource (some src) none none u (dropSource src u)) ∧
      (isRole u src = true → FlagOnly .unexpectedReport (some src) none none u (dropSource src u)) := by
  refine ⟨fun h => ?_, fun h => ?_⟩
  · rw [dropSource, if_neg (by rw [h]; exact Bool.false_ne_true)]; exact raise_flagOnly ..
  · rw [dropSource, if_pos h]; exact dropUnexpected_flagOnly ..

theorem sheetReport_wrong (h : src ≠ u.tu.layout.sheetReader) (id : PieceId) (i n : Byte) :
    sheetReport src id i n u = dropSource src u := by
  rw [sheetReport, isAt_other h]; rfl

theorem feedReport_wrong (h : feederOf u src = none) (st : Stamp) (o : Byte) : feedReport src st o u = dropSource src u := by
  rw [feedReport, h]

theorem materialReport_wrong (h : feederOf u src = none) (l : Byte) : materialReport src l u = dropSource src u := by
  rw [materialReport, h]

theorem readReport_wrong (h : src ≠ u.tu.layout.verify.addr) (st : Stamp) (id : PieceId) : readReport src st id u = dropSource src u := by
  rw [readReport, isAt_other h]; rfl

theorem trayReadyReport_wrong (h : src ≠ u.tu.layout.sorter.addr) (b : Byte) : trayReadyReport src b u = dropSource src u := by
  rw [trayReadyReport, isAt_other h]; rfl

theorem jamReport_wrong (h : isRole u src = false) : jamReport src u = dropSource src u := by
  rw [jamReport, h]; rfl

/-- The place a LANDED of a bin or BR names. -/
theorem placeOf_sorter {x : Byte} (h : x.toNat < 18) : placeOf x = some (if x.toNat < 17 then .bin x.toNat else .br) := by
  unfold placeOf
  by_cases hb : x.toNat < 17
  · rw [if_pos (show x.toNat < Config.bins from hb), if_pos hb]
  · rw [if_neg (show ¬ x.toNat < Config.bins from hb), if_neg hb, if_pos (BitVec.eq_of_toNat_eq (by change x.toNat = 17; omega))]

theorem placeOf_none {x : Byte} (h : 18 < x.toNat) : placeOf x = none := by
  have hne : ∀ k : Byte, k.toNat ≤ 18 → x ≠ k := fun k hk he => by subst he; omega
  unfold placeOf
  rw [if_neg (by change ¬ x.toNat < 17; omega), if_neg (hne 17#8 (by decide)), if_neg (hne 18#8 (by decide))]

/-- A LANDED of a bin or BR is the sorter's. -/
theorem landedReport_sorter {x : Byte} (h : x.toNat < 18) (st : Stamp) : landedReport src st x u =
    if isAt src u.tu.layout.sorter.addr then
      landedAt src u.tu.layout.sorter.pos st (if x.toNat < 17 then .bin x.toNat else .br) u
    else dropSource src u := by
  rw [landedReport, placeOf_sorter h]
  by_cases hb : x.toNat < 17 <;> by_cases ha : isAt src u.tu.layout.sorter.addr = true <;> simp [hb, ha, landingStation]

/-- A LANDED of the gate is the gate's. -/
theorem landedReport_gate (st : Stamp) : landedReport src st 18 u =
    if isAt src u.tu.layout.gate.addr then landedAt src u.tu.layout.gate.pos st .gate u else dropSource src u := by
  have hp : placeOf 18 = some .gate := by decide
  rw [landedReport, hp]
  by_cases ha : isAt src u.tu.layout.gate.addr = true <;> simp [ha, landingStation]

theorem landedReport_wrong {x : Byte} (hg : src ≠ u.tu.layout.gate.addr ∨ x ≠ 18) (hb : src ≠ u.tu.layout.sorter.addr ∨ 18 ≤ x.toNat)
    (st : Stamp) : landedReport src st x u = dropSource src u := by
  rcases Nat.lt_trichotomy x.toNat 18 with h | h | h
  · rw [landedReport_sorter h, isAt_other (hb.resolve_right (by omega))]; rfl
  · have hx : x = 18 := BitVec.eq_of_toNat_eq h
    subst hx
    rw [landedReport_gate, isAt_other (hg.resolve_right (fun h' => h' rfl))]; rfl
  · rw [landedReport, placeOf_none h]

/-! ## Reports that find no piece (R56-R60) -/

theorem targetPiece_eq (e : Pitch) : targetPiece u e = (pieceAt u (ringSlot e)).filter (fun p => decide (p.entry = e)) := by
  unfold targetPiece
  cases pieceAt u (ringSlot e) with
  | none => rfl
  | some p => simp only [Option.filter_some, decide_eq_true_eq]

section
variable {q : Nat} {st : Stamp} {P : Pitch}

theorem resolveReport_unresolved (h : resolveStamp u.tu.pitch st = none) :
    resolveReport src q st u = .dropped (raise .staleStamp (some src) none none u) := by
  rw [resolveReport, h]

variable (h : resolveStamp u.tu.pitch st = some P)
include h

theorem resolveReport_old (hold : (q : Int) + u.tu.timing.allowance + 8 < pitchDiff u.tu.pitch P) :
    resolveReport src q st u = .dropped (raise .staleStamp (some src) (some P) none u) := by
  rw [resolveReport, h]; exact if_pos hold

theorem resolveReport_late (hnew : pitchDiff u.tu.pitch P ≤ (q : Int) + u.tu.timing.allowance + 8)
    (hlate : (u.tu.timing.allowance : Int) < pitchDiff u.tu.pitch P) (hrun : u.rc.state ≠ .idle) : resolveReport src q st u =
      .dropped (raise .lateReport (some src) (some P) ((targetPiece u (P - BitVec.ofNat 32 q)).bind Piece.id) u) := by
  rw [resolveReport, h]
  exact (if_neg (by omega)).trans (if_pos ⟨hrun, hlate⟩)

theorem resolveReport_absent (hnew : pitchDiff u.tu.pitch P ≤ (q : Int) + u.tu.timing.allowance + 8)
    (hlate : pitchDiff u.tu.pitch P ≤ u.tu.timing.allowance ∨ u.rc.state = .idle) (hnone : targetPiece u (P - BitVec.ofNat 32 q) = none) :
    resolveReport src q st u = .absent P := by
  rw [resolveReport, h]
  refine (if_neg (by omega)).trans ((if_neg fun hl => ?_).trans (by rw [hnone]))
  rcases hlate with h' | h'
  · omega
  · exact hl.1 h'

/-- A report of its own station that finds its piece. -/
theorem resolveReport_found {p : Piece} (hnew : pitchDiff u.tu.pitch P ≤ (q : Int) + u.tu.timing.allowance + 8)
    (hlate : pitchDiff u.tu.pitch P ≤ u.tu.timing.allowance ∨ u.rc.state = .idle) (hp : targetPiece u (P - BitVec.ofNat 32 q) = some p) :
    resolveReport src q st u = .applied P (ringSlot (P - BitVec.ofNat 32 q)) p := by
  rw [resolveReport, h]
  refine (if_neg (by omega)).trans ((if_neg fun hl => ?_).trans (by rw [hp]))
  rcases hlate with h' | h'
  · omega
  · exact hl.1 h'

end

/-- A report that resolves as the checks say: dropped with the state they leave, or handed on as one that finds no piece. -/
structure Unresolved (src : Addr) (q : Nat) (st : Stamp) (stray : Prop) (u t : State) : Prop where
  dropped : ∀ v, resolveReport src q st u = .dropped v → t = v
  absent : ∀ P, resolveReport src q st u = .absent P → ¬ stray → t = dropAbsent src P u

theorem Unresolved.flags {q : Nat} {st : Stamp} {stray : Prop} {t : State} (h : Unresolved src q st stray u t) :
    (resolveStamp u.tu.pitch st = none → FlagOnly .staleStamp (some src) none none u t) ∧
      (∀ P, resolveStamp u.tu.pitch st = some P →
        let age := pitchDiff u.tu.pitch P
        let entry := P - BitVec.ofNat 32 q
        let there := (pieceAt u (ringSlot entry)).filter (fun p => decide (p.entry = entry))
        ((q : Int) + u.tu.timing.allowance + 8 < age → FlagOnly .staleStamp (some src) (some P) none u t) ∧
        (age ≤ (q : Int) + u.tu.timing.allowance + 8 → (u.tu.timing.allowance : Int) < age →
          u.rc.state ≠ .idle → FlagOnly .lateReport (some src) (some P) (there.bind Piece.id) u t) ∧
        (age ≤ (q : Int) + u.tu.timing.allowance + 8 → (age ≤ u.tu.timing.allowance ∨ u.rc.state = .idle) → there = none →
          ¬ stray → FlagOnly .unexpectedReport (some src) (some P) none u t)) := by
  refine ⟨fun hn => ?_, fun P hP => ⟨fun hold => ?_, fun hnew hlate hrun => ?_, fun hnew hlate hnone hs => ?_⟩⟩
  · rw [h.dropped _ (resolveReport_unresolved hn)]; exact raise_flagOnly ..
  · rw [h.dropped _ (resolveReport_old hP hold)]; exact raise_flagOnly ..
  · rw [h.dropped _ (resolveReport_late hP hnew hlate hrun), targetPiece_eq]; exact raise_flagOnly ..
  · rw [h.absent P (resolveReport_absent hP hnew hlate ((targetPiece_eq _).trans hnone)) hs]; exact raise_flagOnly ..

section
variable {st : Stamp}

theorem feedReport_unresolved {f : Nat} (h : feederOf u src = some f) (o : Byte) (stray : Prop) :
    Unresolved src (placeAt u f).pos st stray u (feedReport src st o u) := by
  refine ⟨fun v hv => ?_, fun P hP _ => ?_⟩ <;> rw [feedReport, h] <;> dsimp only
  · rw [hv]
  · rw [hP]

theorem readReport_unresolved (h63 : src ≠ 63#6) (h : src = u.tu.layout.verify.addr) (id : PieceId) :
    Unresolved src u.tu.layout.verify.pos st (id ≠ 16777215#24 ∧ u.rc.state ≠ .idle) u (readReport src st id u) := by
  have hat : isAt src u.tu.layout.verify.addr = true := h ▸ isAt_self h63
  refine ⟨fun v hv => ?_, fun P hP hs => ?_⟩ <;> rw [readReport, if_pos hat]
  · rw [hv]
  · rw [hP]; exact if_neg hs

theorem landedAt_unresolved (q : Nat) (x : Place) (stray : Prop) : Unresolved src q st stray u (landedAt src q st x u) := by
  refine ⟨fun v hv => ?_, fun P hP _ => ?_⟩ <;> rw [landedAt]
  · rw [hv]
  · rw [hP]

theorem landedReport_unresolved {x : Byte} {q : Nat} (h63 : src ≠ 63#6)
    (h : (x = 18 ∧ src = u.tu.layout.gate.addr ∧ q = u.tu.layout.gate.pos) ∨
      (x.toNat < 18 ∧ src = u.tu.layout.sorter.addr ∧ q = u.tu.layout.sorter.pos)) (stray : Prop) :
    Unresolved src q st stray u (landedReport src st x u) := by
  rcases h with ⟨rfl, ha, rfl⟩ | ⟨hx, ha, rfl⟩
  · have hat : isAt src u.tu.layout.gate.addr = true := ha ▸ isAt_self h63
    rw [landedReport_gate, if_pos hat]; exact landedAt_unresolved ..
  · have hat : isAt src u.tu.layout.sorter.addr = true := ha ▸ isAt_self h63
    rw [landedReport_sorter hx, if_pos hat]; exact landedAt_unresolved ..

end

end

/-- Settles O46: by the report. -/
theorem reportsFromWrongSourcesDropped : Obligations.ReportsFromWrongSourcesDropped := by
  refine ⟨fun c src s hs hc => ?_, fun c src st q s hs h63 hc => ?_⟩
  · have hdrop : exec c s = .next (dropSource src (settle s)) := by
      rcases hc with ⟨id, i, n, rfl, h⟩ | ⟨st, o, rfl, h⟩ | ⟨l, rfl, h⟩ | ⟨st, id, rfl, h⟩ | ⟨st, x, rfl, hg, hb⟩ | ⟨b, rfl, h⟩ | ⟨rfl, h⟩
      · rw [exec_sheet hs, sheetReport_wrong h]
      · rw [exec_feed hs, feedReport_wrong h]
      · rw [exec_material hs, materialReport_wrong h]
      · rw [exec_read hs, readReport_wrong h]
      · rw [exec_landed hs, landedReport_wrong hg hb]
      · rw [exec_trayReady hs, trayReadyReport_wrong h]
      · rw [exec_jam hs, jamReport_wrong h]
    exact ⟨_, hdrop, dropSource_spec src (settle s)⟩
  · have hun : ∃ t, exec c s = .next t ∧
        Unresolved src q st (¬ ((settle s).rc.state = .idle ∨ ∀ id, id ≠ 16777215#24 → c ≠ .read src st id)) (settle s) t := by
      rcases hc with ⟨o, f, rfl, h, hq⟩ | ⟨id, rfl, h, hq⟩ | ⟨rfl, h, hq⟩ | ⟨x, rfl, hx, h, hq⟩
      · rw [hq]
        exact ⟨_, exec_feed hs .., feedReport_unresolved h ..⟩
      · have hr := readReport_unresolved (st := st) h63 h id
        rw [hq]
        refine ⟨_, exec_read hs .., hr.dropped, fun P hP hplain => hr.absent P hP fun ⟨hid, hrun⟩ => ?_⟩
        exact hplain fun hor => hor.elim hrun fun hne => hne id hid rfl
      · exact ⟨_, exec_landed hs .., landedReport_unresolved h63 (.inl ⟨rfl, h, hq⟩) _⟩
      · exact ⟨_, exec_landed hs .., landedReport_unresolved h63 (.inr ⟨hx, h, hq⟩) _⟩
    obtain ⟨t, ht, hf⟩ := hun
    obtain ⟨hnone, hsome⟩ := hf.flags
    refine ⟨t, ht, hnone, fun P hP => ?_⟩
    obtain ⟨hold, hlate, habsent⟩ := hsome P hP
    exact ⟨hold, hlate, fun h1 h2 h3 h4 => habsent h1 h2 h3 (not_not_intro h4)⟩

end Sys2Proof.Machine
end

section
/-! A FEED applied to a piece: the call counted, the entry settled, the miss taken (R80-R87). -/

namespace Sys2Proof.Machine

section
variable {src : Addr} {u : State} {q k f : Nat} {st : Stamp} {P : Pitch} {p : Piece} {e : Planned}

/-- A report that applies is handed on with its piece (R56-R59). -/
theorem resolveReport_applies (h : AppliesTo u q st P k p) : resolveReport src q st u = .applied P k p ∧ pieceAt u k = some p := by
  obtain ⟨hP, hage, rfl, hp, he⟩ := h
  refine ⟨resolveReport_found hP (by omega) (.inl hage) ?_, hp⟩
  rw [targetPiece_eq, hp]
  simp only [Option.filter_some, he, decide_true, if_true]

theorem feedReport_applies (hf : feederOf u src = some f) (h : AppliesTo u (placeAt u f).pos st P k p) (o : Byte) :
    feedReport src st o u = applyFeed src f k p o P u := by
  rw [feedReport, hf]
  dsimp only
  rw [(resolveReport_applies h).1]

theorem applyFeed_dropped {o : Byte} (h : (∀ e ∈ p.planned, waitsOn e ≠ some f) ∨ 3 ≤ o.toNat) :
    applyFeed src f k p o P u = dropUnexpected src u := by
  have hnone : (∀ e ∈ p.planned, waitsOn e ≠ some f) → waitingEntry p f = none := fun hno =>
    List.find?_eq_none.mpr fun e he => by simpa using hno e he
  unfold applyFeed
  rcases h with h | h
  · rw [hnone h]
  · split
    · rw [if_neg (by omega)]
    · rfl

theorem applyFeed_taken (he : waitingEntry p f = some e) {o : Byte} (n : Nat) (ho : o.toNat = n) (hn : n ≤ 2) :
    applyFeed src f k p o P u = takeFeed k p e f n P u := by
  rw [applyFeed, he]
  dsimp only
  rw [ho, if_pos hn]

/-- A fault recorded beside a change of the insert unit (R104). -/
theorem FaultRecorded.withIu {x : PieceFault} {m : State} (h : FaultRecorded k x p u m) (i : Iu) :
    FaultRecorded k x p (withIu u i) (withIu m i) := by
  obtain ⟨⟨h1, h2, h3, h4, h5, h6, -, h8, h9, h10, h11, h12⟩, hpath, hfurther⟩ := h
  exact ⟨⟨h1, h2, h3, h4, h5, h6, rfl, h8, h9, h10, h11, h12⟩, hpath, hfurther⟩

/-- FED: the entry is settled and the call counted (R81, R83). -/
theorem takeFeed_fed (hp : pieceAt u k = some p) : ∃ t, takeFeed k p e f 0 P u = t ∧
    feederAt t f = fedFeeder u.iu.threshold false (feederAt u f) ∧ (∀ g, g ≠ f → feederAt t g = feederAt u g) ∧
    t.iu = { u.iu with feeders := t.iu.feeders } ∧ pieceAt t k = some (entryAs e.insert .fed p) ∧
    (∀ j, j ≠ k → pieceAt t j = pieceAt u j) ∧ t.tu = { u.tu with ring := t.tu.ring } ∧ t = withIu (withTu u t.tu) t.iu := by
  obtain ⟨hf, hother, hkept⟩ := countFeed_spec f false (setPiece u k (some (entryAs e.insert .fed p)))
  have ht : takeFeed k p e f 0 P u = countFeed f false (setPiece u k (some (entryAs e.insert .fed p))) := by
    rw [takeFeed, if_pos rfl, setEntryStatus_eq hp]
  refine ⟨_, ht, hf, hother, ?_, ?_, fun j hj => ?_, ?_, ?_⟩ <;>
    generalize countFeed f false (setPiece u k (some (entryAs e.insert .fed p))) = t at hkept ⊢ <;> rw [hkept]
  · rfl
  · exact pieceAt_setPiece_some ..
  · exact pieceAt_setPiece_other hj ..
  · rfl
  · rfl

/-- DOUBLE: the entry is DOUBLED with its fault and the call counted (R81, R83). -/
theorem takeFeed_double (hp : pieceAt u k = some p) : ∃ t, takeFeed k p e f 2 P u = t ∧
    feederAt t f = fedFeeder u.iu.threshold true (feederAt u f) ∧ (∀ g, g ≠ f → feederAt t g = feederAt u g) ∧
    t.iu = { u.iu with feeders := t.iu.feeders } ∧
    FaultRecorded k .insertDouble (entryAs e.insert .doubled p) (withIu u t.iu) t := by
  have hfault : FaultRecorded k .insertDouble (entryAs e.insert .doubled p) u
      (recordFault k .insertDouble (setPiece u k (some (entryAs e.insert .doubled p)))) :=
    recordFault_spec .insertDouble (setPiece_onlyPiece _ _ _) rfl rfl rfl (by simp)
  have ht : takeFeed k p e f 2 P u =
      countFeed f true (recordFault k .insertDouble (setPiece u k (some (entryAs e.insert .doubled p)))) := by
    rw [takeFeed, if_neg (by decide), if_neg (by decide), setEntryStatus_eq hp]
  generalize recordFault k .insertDouble (setPiece u k (some (entryAs e.insert .doubled p))) = m at hfault ht
  obtain ⟨hf, hother, hkept⟩ := countFeed_spec f true m
  have hiu : m.iu = u.iu := by
    obtain ⟨⟨-, -, -, -, -, -, hiu, -⟩, -⟩ := hfault
    exact hiu
  have hfeeder : ∀ g, feederAt m g = feederAt u g := fun g => congrArg (fun i : Iu => tget Feeder.off i.feeders g) hiu
  refine ⟨_, ht, by rw [hf, hiu, hfeeder], fun g hg => (hother g hg).trans (hfeeder g), ?_, ?_⟩
  · rw [hkept, hiu]; rfl
  · have h := FaultRecorded.withIu hfault (countFeed f true m).iu
    have hw : withIu m (countFeed f true m).iu = countFeed f true m := by
      generalize countFeed f true m = t at hkept ⊢
      rw [hkept]; rfl
    rw [hw] at h; exact h

theorem takeFeed_miss (hp : pieceAt u k = some p) :
    ∃ m, MissCounted f P p.id u m ∧ MissSettled k .insertMissed p e m (takeFeed k p e f 1 P u) := by
  rw [takeFeed, if_neg (by decide), if_pos rfl]
  exact takeMiss_spec hp f .insertMissed P

end

/-- Settles O49: by the entry that waits and by the outcome. -/
theorem feedReportsSettleEntries : Obligations.FeedReportsSettleEntries := by
  intro src st o f k P p s hs hf happ
  obtain ⟨-, hp⟩ := resolveReport_applies (src := src) happ
  refine ⟨_, (exec_feed hs src st o).trans (congrArg Host.Outcome.next (feedReport_applies hf happ o)), fun h => ?_,
    fun e he => ⟨fun ho => ?_, fun ho => ?_, fun ho => ?_⟩⟩
  · rw [applyFeed_dropped h]; exact dropUnexpected_flagOnly ..
  · subst ho
    obtain ⟨t, ht, h⟩ := takeFeed_fed (e := e) (f := f) (P := P) hp
    rw [applyFeed_taken he 0 rfl (by decide), ht]
    exact h
  · subst ho
    rw [applyFeed_taken he 1 rfl (by decide)]
    exact takeFeed_miss hp
  · subst ho
    obtain ⟨t, ht, h⟩ := takeFeed_double (e := e) (f := f) (P := P) hp
    rw [applyFeed_taken he 2 rfl (by decide), ht]
    exact h

end Sys2Proof.Machine
end

section
/-! A READ applied to a piece: the match, the no-read, the mismatch with its slip test, and the PHANTOM (R59, R104-R115, R157). -/

namespace Sys2Proof.Machine

section
variable {u t : State} {k : Nat} {p : Piece}

/-- The path rule leaves a piece as it was but for its path (R106-R109). -/
theorem PathChosen.piece (h : PathChosen k p u t) : ∃ x, pieceAt t k = some { p with path := x } := by
  obtain ⟨hgate, hsorter, hstay⟩ := h
  have hself : ∃ x, some (if p.path = .undecided then { p with path := .reject } else p) = some { p with path := x } := by
    by_cases hu : p.path = .undecided
    · exact ⟨.reject, by rw [if_pos hu]⟩
    · exact ⟨p.path, by rw [if_neg hu]⟩
  have hstay' : (¬GateInReach u p ∨ commandRoom u = false) → (onSort p.path = false ∨ ¬SorterInReach u p ∨ commandRoom u = false) →
      ∃ x, pieceAt t k = some { p with path := x } := fun h1 h2 => (hstay h1 h2).1 ▸ hself
  cases hroom : commandRoom u with
  | false => exact hstay' (.inr hroom) (.inr (.inr hroom))
  | true =>
    by_cases hg : GateInReach u p
    · exact ⟨_, (hgate hg hroom).1⟩
    · cases ho : onSort p.path with
      | false => exact hstay' (.inl hg) (.inl ho)
      | true =>
        by_cases hs : SorterInReach u p
        · exact ⟨_, (hsorter hg ho hs hroom).1⟩
        · exact hstay' (.inl hg) (.inr (.inl hs))

theorem FaultRecorded.piece {f : PieceFault} (h : FaultRecorded k f p u t) : ∃ x, pieceAt t k = some { faulted f p with path := x } := by
  obtain ⟨-, hfirst, hfurther⟩ := h
  cases hf : p.fault with
  | none => exact (hfirst hf).piece
  | some g => exact ⟨p.path, (hfurther (by rw [hf]; rfl)).1⟩

theorem recordFault_recorded (hp : pieceAt u k = some p) (f : PieceFault) : FaultRecorded k f p u (recordFault k f u) :=
  recordFault_spec f ⟨fun _ _ => rfl, rfl, rfl, ⟨rfl, rfl, rfl⟩, rfl, rfl, rfl, rfl, rfl, rfl, rfl, rfl⟩ rfl rfl rfl hp

/-! ## The slip test (R114) -/

/-- What the slip test leaves of the listed pieces and of everything else. -/
structure Slipped (l : List Nat) (u t : State) : Prop where
  other : ∀ j, j ∉ l → pieceAt t j = pieceAt u j
  faulted : ∀ j ∈ l, ∀ y, pieceAt u j = some y → ∃ x, pieceAt t j = some { faulted .verifyMismatch y with path := x }
  rest : t.ds = u.ds ∧ t.cu = u.cu ∧ t.iu = u.iu ∧ t.pp = u.pp ∧ t.su = u.su ∧ t.rc = u.rc ∧ t.cl.log = u.cl.log ∧
    t.cl.counters = u.cl.counters

theorem faultSlips_spec : ∀ (l : List Nat) {u : State}, l.Nodup → (∀ j ∈ l, (pieceAt u j).isSome = true) → Slipped l u (faultSlips l u)
  | [], _, _, _ => ⟨fun _ _ => rfl, fun _ h => (nomatch h), rfl, rfl, rfl, rfl, rfl, rfl, rfl, rfl⟩
  | i :: is, u, hn, hsome => by
    obtain ⟨hi, hn⟩ := List.nodup_cons.mp hn
    obtain ⟨y, hy⟩ := Option.isSome_iff_exists.mp (hsome i List.mem_cons_self)
    have hrec := recordFault_recorded hy .verifyMismatch
    obtain ⟨x, hx⟩ := hrec.piece
    obtain ⟨⟨hother, -, -, -, hds, hcu, hiu, hpp, hsu, hrc, hlog, hcounters⟩, -⟩ := hrec
    have hne : ∀ j ∈ is, j ≠ i := fun j hj he => hi (he ▸ hj)
    have ih := faultSlips_spec is (u := recordFault i .verifyMismatch u) hn fun j hj => by
      rw [hother j (hne j hj)]; exact hsome j (List.mem_cons_of_mem _ hj)
    obtain ⟨r1, r2, r3, r4, r5, r6, r7, r8⟩ := ih.rest
    refine ⟨fun j hj => ?_, fun j hj y' hy' => ?_, r1.trans hds, r2.trans hcu, r3.trans hiu, r4.trans hpp, r5.trans hsu, r6.trans hrc,
      r7.trans hlog, r8.trans hcounters⟩
    · exact (ih.other j fun h => hj (List.mem_cons_of_mem _ h)).trans (hother j fun h => hj (h ▸ List.mem_cons_self))
    · rcases List.mem_cons.mp hj with rfl | hjis
      · obtain rfl : y = y' := Option.some.inj (hy.symm.trans hy')
        exact ⟨x, (ih.other j hi).trans hx⟩
      · exact ih.faulted j hjis y' ((hother j (hne j hjis)).trans hy')

/-- The slots the slip test takes: those of the other pieces that carry the ID read. -/
theorem slipSlots_spec (hc : Table.canonical none u.tu.ring) (k : Nat) (id : PieceId) : (slipSlots u k id).Nodup ∧
    ∀ j, j ∈ slipSlots u k id ↔ j ≠ k ∧ ∃ y, pieceAt u j = some y ∧ y.id = some id := by
  obtain ⟨hmem, hnodup, -⟩ := onTrack_spec hc
  refine ⟨List.pairwise_map.mpr (hnodup.filter _), fun j => ?_⟩
  unfold slipSlots
  rw [List.mem_map]
  constructor
  · rintro ⟨⟨i, y⟩, hiy, rfl⟩
    obtain ⟨hin, hcond⟩ := List.mem_filter.mp hiy
    simp only [Bool.and_eq_true, bne_iff_ne, beq_iff_eq] at hcond
    exact ⟨hcond.1, y, (hmem i y).mp hin, hcond.2⟩
  · rintro ⟨hj, y, hy, hid⟩
    refine ⟨(j, y), List.mem_filter.mpr ⟨(hmem j y).mpr hy, ?_⟩, rfl⟩
    simp only [Bool.and_eq_true, bne_iff_ne, beq_iff_eq]
    exact ⟨hj, hid⟩

theorem slipSlots_nil (hc : Table.canonical none u.tu.ring) {id : PieceId}
    (h : ∀ j y, j ≠ k → pieceAt u j = some y → y.id ≠ some id) : slipSlots u k id = [] := by
  refine List.eq_nil_iff_forall_not_mem.mpr fun j hj => ?_
  obtain ⟨hjk, y, hy, hid⟩ := ((slipSlots_spec hc k id).2 j).mp hj
  exact h j y hjk hy hid

theorem slipSlots_single (hc : Table.canonical none u.tu.ring) {id : PieceId} {j : Nat} {y : Piece} (hj : j ≠ k)
    (hy : pieceAt u j = some y) (hid : y.id = some id) (h : ∀ i w, i ≠ k → i ≠ j → pieceAt u i = some w → w.id ≠ some id) :
    slipSlots u k id = [j] := by
  obtain ⟨hn, hmem⟩ := slipSlots_spec hc k id
  have hsub : ∀ i ∈ slipSlots u k id, i = j := fun i hi => by
    obtain ⟨hik, w, hw, hwid⟩ := (hmem i).mp hi
    exact by_contra fun hij => h i w hik hij hw hwid
  have hin : j ∈ slipSlots u k id := (hmem j).mpr ⟨hj, y, hy, hid⟩
  exact List.perm_singleton.mp ((List.perm_ext_iff_of_nodup hn (List.nodup_singleton j)).mpr fun i =>
    ⟨fun hi => List.mem_singleton.mpr (hsub i hi), fun hi => List.mem_singleton.mp hi ▸ hin⟩)

/-! ## The READ taken (R111-R114) -/

section
variable {id : PieceId} (hp : pieceAt u k = some p)
include hp

theorem takeRead_faulted (hid : id ≠ 16777215#24) (hown : p.id = some id) (hf : p.fault.isSome = true) :
    takeRead k p id u = setPiece u k (some { p with verify := .matched }) := by
  rw [takeRead, if_neg (show ¬ id = Config.noRead from hid), if_pos hown, setVerify_eq hp]
  exact if_neg (by rw [Option.isNone_eq_false_iff.mpr hf]; exact Bool.false_ne_true)

theorem takeRead_noRead : (p.id = none → takeRead k p 16777215#24 u = setPiece u k (some { p with verify := .failed })) ∧
    (p.id.isSome = true → FaultRecorded k .verifyNoread { p with verify := .failed } u (takeRead k p 16777215#24 u)) := by
  have h : takeRead k p 16777215#24 u =
      if p.id.isSome then recordFault k .verifyNoread (setVerify k .failed u) else setVerify k .failed u := if_pos rfl
  refine ⟨fun hn => ?_, fun hsome => ?_⟩
  · rw [h, if_neg (by rw [hn]; exact Bool.false_ne_true), setVerify_eq hp]
  · rw [h, if_pos hsome]; exact recordFault_setVerify hp ..

/-- A piece whose READ carries another ID, before the slip test (R113). -/
def mismatched (k : Nat) (p : Piece) (u : State) : State :=
  if p.id.isSome then recordFault k .verifyMismatch (setVerify k .failed u) else setVerify k .failed u

theorem mismatched_spec : (p.id = none → mismatched k p u = setPiece u k (some { p with verify := .failed })) ∧
    (p.id.isSome = true → FaultRecorded k .verifyMismatch { p with verify := .failed } u (mismatched k p u)) := by
  refine ⟨fun hn => ?_, fun hsome => ?_⟩
  · rw [mismatched, if_neg (by rw [hn]; exact Bool.false_ne_true), setVerify_eq hp]
  · rw [mismatched, if_pos hsome]; exact recordFault_setVerify hp ..

theorem mismatched_onlyPiece : OnlyPiece k u (mismatched k p u) := by
  obtain ⟨hnone, hsome⟩ := mismatched_spec hp
  cases hid : p.id with
  | none => rw [hnone hid]; exact setPiece_onlyPiece _ _ _
  | some i => exact (hsome (by rw [hid]; rfl)).1

omit hp in
theorem takeRead_mismatch (hid : id ≠ 16777215#24) (hother : p.id ≠ some id) :
    takeRead k p id u = faultSlips (slipSlots u k id) (mismatched k p u) := by
  rw [takeRead, if_neg (show ¬ id = Config.noRead from hid), if_neg hother]; rfl

theorem slipTest_spec (hc : Table.canonical none u.tu.ring) :
    Slipped (slipSlots u k id) (mismatched k p u) (faultSlips (slipSlots u k id) (mismatched k p u)) := by
  obtain ⟨hn, hmem⟩ := slipSlots_spec hc k id
  obtain ⟨hkept, -⟩ := mismatched_onlyPiece hp
  refine faultSlips_spec _ hn fun j hj => ?_
  obtain ⟨hjk, y, hy, -⟩ := (hmem j).mp hj
  rw [hkept j hjk, hy]; rfl

end

end

/-- Settles O51: by the piece's verify status and the ID read; PHANTOM by `runStop_spec`. -/
theorem verifyReadsSettlePieces : Obligations.VerifyReadsSettlePieces := by
  intro src st id P s hs hsrc h63
  refine ⟨_, exec_read hs src st id, ?_⟩
  generalize settle s = u at *
  have hat : isAt src u.tu.layout.verify.addr = true := hsrc ▸ isAt_self h63
  refine ⟨fun k p happ => ?_, fun hP hage hnone hid hrun => ?_⟩
  · obtain ⟨hres, hp⟩ := resolveReport_applies (src := src) happ
    have hread : readReport src st id u = applyRead src k p id P u := by
      rw [readReport, if_pos hat, hres]
    have htaken : p.verify = .pending → readReport src st id u = takeRead k p id u := fun h => hread.trans (if_pos h)
    refine ⟨fun h => ?_, fun h hid hown hf => ?_, fun h hno => ?_, fun h hid hother hl => ?_⟩
    · rw [hread, applyRead, if_neg h]; exact raise_flagOnly ..
    · rw [htaken h]; exact takeRead_faulted hp hid hown hf
    · subst hno
      rw [htaken h]; exact takeRead_noRead hp
    · obtain ⟨-, -, -, -, hc, -⟩ := hl
      obtain ⟨hnodup, hmem⟩ := slipSlots_spec hc k id
      obtain ⟨hnone, hsome⟩ := mismatched_spec hp
      obtain ⟨hkept, -, -, -, hds, hcu, hiu, hpp, hsu, hrc, hlog, hcounters⟩ := mismatched_onlyPiece hp
      have hslip := slipTest_spec (id := id) hp hc
      rw [htaken h, takeRead_mismatch hid hother]
      obtain ⟨r1, r2, r3, r4, r5, r6, r7, r8⟩ := hslip.rest
      refine ⟨_, hnone, hsome, hslip.other k fun hk => ((hmem k).mp hk).1 rfl, fun hstray => ?_, fun j y hj hy hid' => ⟨?_, fun halone => ?_⟩,
        fun j hj hstray => ?_, r1.trans hds, r2.trans hcu, r3.trans hiu, r4.trans hpp, r5.trans hsu, r6.trans hrc, r7.trans hlog,
        r8.trans hcounters⟩
      · rw [slipSlots_nil hc hstray]; rfl
      · obtain ⟨x, hx⟩ := hslip.faulted j ((hmem j).mpr ⟨hj, y, hy, hid'⟩) y ((hkept j hj).trans hy)
        exact ⟨_, hx, rfl, rfl, rfl, rfl, rfl, rfl⟩
      · rw [slipSlots_single hc hj hy hid' halone]
        exact recordFault_recorded ((hkept j hj).trans hy) _
      · refine (hslip.other j fun hjs => ?_).trans (hkept j hj)
        obtain ⟨-, y, hy, hid'⟩ := (hmem j).mp hjs
        exact hstray y hy hid'
  · have hres := resolveReport_absent (src := src) hP (q := u.tu.layout.verify.pos) (by omega) (.inl hage) hnone
    have hread : readReport src st id u = runStop .phantom (some src) (raise .phantom (some src) (some P) (some id) u) := by
      rw [readReport, if_pos hat, hres]; exact if_pos ⟨hid, hrun⟩
    rw [hread]
    exact ⟨_, raise_flagOnly .., runStop_spec ..⟩

end Sys2Proof.Machine
end

section
/-! The READ that matches a good piece: the sort decision and the cascade (R111, R118-R125, R139-R142). -/

namespace Sys2Proof.Machine

section
variable {src : Addr} {st : Stamp} {P : Pitch} {id : PieceId} {k j : Nat} {p : Piece} {d : Descriptor} {u : State}

theorem readReport_matches (hsrc : src = u.tu.layout.verify.addr) (h63 : src ≠ 63#6) (hid : id ≠ 16777215#24)
    (h : AppliesTo u u.tu.layout.verify.pos st P k p) (hv : p.verify = .pending) (hown : p.id = some id) (hf : p.fault = none) :
    readReport src st id u = sortPiece k (setPiece u k (some { p with verify := .matched })) := by
  obtain ⟨hres, hp⟩ := resolveReport_applies (src := src) h
  have hat : isAt src u.tu.layout.verify.addr = true := hsrc ▸ isAt_self h63
  rw [readReport, if_pos hat, hres]
  refine (if_pos hv).trans ?_
  rw [takeRead, if_neg (show ¬ id = Config.noRead from hid), if_pos hown, setVerify_eq hp]
  exact if_pos (by rw [hf]; rfl)

theorem pieceDecision_eq (hd : p.slot.bind (descAt u) = some d) (hj : p.band = some j) {a : Action} (h : Decides u d.key j d.service a) :
    pieceDecision u p = a := by
  unfold pieceDecision
  rw [hd, hj]
  exact decision_of_decides h

end

section
variable {k : Nat} {p : Piece} {u t : State}

/-- What the cascade makes of a piece, and the fault when no bin takes it (R125, R140, R141). -/
def cascaded (k : Nat) (p : Piece) (l : List Nat) (u : State) : State :=
  match cascade k p l u with
  | (v, true) => v
  | (v, false) => recordFault k .noOutput v

theorem sortPiece_reject (hp : pieceAt u k = some p) (h : pieceDecision u p = .reject) : sortPiece k u = recordFault k .unsortable u := by
  rw [sortPiece, hp]
  dsimp only
  rw [h]

theorem sortPiece_bin {b : Nat} (hp : pieceAt u k = some p) (h : pieceDecision u p = .bin b) :
    sortPiece k u = cascaded k p (triedBins b u.su.fallback) u := by
  rw [sortPiece, hp]
  dsimp only
  rw [h]
  dsimp only
  rw [cascadeBins_eq]; rfl

theorem cascaded_nil (hp : pieceAt u k = some p) : FaultRecorded k .noOutput p u (cascaded k p [] u) := recordFault_recorded hp _

theorem FlagOnly.pieceAt {f : Flag} {a : Option Addr} {x : Option Pitch} {i : Option PieceId} (h : FlagOnly f a x i u t) (j : Nat) :
    pieceAt t j = pieceAt u j := by
  obtain ⟨-, ⟨-, -, -, -, -, htu, -⟩, -⟩ := h
  exact congrArg (fun y : Tu => tget none y.ring j) htu

theorem cascaded_takes {c : Nat} (rest : List Nat) {y : Tray} (hp : pieceAt u k = some p)
    (ht : takesPiece (p.mass.getD 0) (binAt u c) = true) (hy : (binAt u c).tray = some y) :
    PieceTaken k p c y u (cascaded k p (c :: rest) u) := by
  obtain ⟨hroom, hfull⟩ := cascade_takes k p rest ht hy
  refine ⟨fun hr => ?_, fun hr => ?_⟩
  · obtain ⟨t, he, h⟩ := hroom hr
    rw [cascaded, he]; exact h
  · have hflag := raise_flagOnly .commandQueueFull (some u.tu.layout.sorter.addr) (some u.tu.pitch) p.id u
    refine ⟨_, hflag, ?_⟩
    rw [cascaded, hfull hr]
    exact recordFault_recorded ((hflag.pieceAt k).trans hp) _

/-- The bins passed, and then the first that takes the piece, or none. -/
theorem cascaded_spec {l : List Nat} (hn : l.Nodup) (hp : pieceAt u k = some p) :
    let passed := l.takeWhile (fun c => !takesPiece (p.mass.getD 0) (binAt u c))
    ∃ m, PassedOver (p.mass.getD 0) passed u m ∧
      (∀ c rest y, l = passed ++ c :: rest → (binAt u c).tray = some y → PieceTaken k p c y m (cascaded k p l u)) ∧
      (l = passed → FaultRecorded k .noOutput p m (cascaded k p l u)) := by
  intro passed
  have hsplit : passed ++ l.dropWhile (fun c => !takesPiece (p.mass.getD 0) (binAt u c)) = l := List.takeWhile_append_dropWhile
  have hpassed : passed.Nodup := List.Nodup.sublist (List.takeWhile_sublist _) hn
  have hnot : ∀ b ∈ passed, takesPiece (p.mass.getD 0) (binAt u b) = false := fun b hb => by
    simpa using List.mem_takeWhile_imp hb
  obtain ⟨m, hcascade, hover, hkept, htu, -⟩ := cascade_passes k p
    (l.dropWhile (fun c => !takesPiece (p.mass.getD 0) (binAt u c))) hpassed u hnot
  rw [hsplit] at hcascade
  have hpm : pieceAt m k = some p := (congrArg (fun y : Tu => tget none y.ring k) htu).trans hp
  refine ⟨m, hover, fun c rest y hl hy => ?_, fun hl => ?_⟩
  · have hrest : l.dropWhile (fun c => !takesPiece (p.mass.getD 0) (binAt u c)) = c :: rest :=
      List.append_cancel_left (hsplit.trans hl)
    have htakes : takesPiece (p.mass.getD 0) (binAt u c) = true := by
      have hhead := List.head?_dropWhile_not (fun c => !takesPiece (p.mass.getD 0) (binAt u c)) l
      rw [hrest] at hhead
      simpa using hhead
    have hc : c ∉ passed := fun hm => by
      rw [hl] at hn
      exact (List.nodup_append.mp hn).2.2 c hm c List.mem_cons_self rfl
    rw [cascaded, hcascade, hrest]
    exact cascaded_takes rest hpm ((hkept c hc).symm ▸ htakes) ((hkept c hc).symm ▸ hy)
  · have hrest : l.dropWhile (fun c => !takesPiece (p.mass.getD 0) (binAt u c)) = [] :=
      List.append_cancel_left ((hsplit.trans hl).trans (List.append_nil passed).symm)
    rw [cascaded, hcascade, hrest]
    exact cascaded_nil hpm

end

/-- Settles O52: by the decision; a bin by the cascade (`cascaded_spec`). -/
theorem matchedReadReservesPlace : Obligations.MatchedReadReservesPlace := by
  intro src st id P k j p d s hs hsrc h63 hid happ hv hown hf hd hj
  refine ⟨_, (exec_read hs src st id).trans (congrArg Host.Outcome.next (readReport_matches hsrc h63 hid happ hv hown hf)), ?_⟩
  generalize settle s = u at *
  intro v q mass
  have hq : pieceAt (setPiece v k (some q)) k = some q := pieceAt_setPiece_some ..
  have hdecision : ∀ a, Decides v d.key j d.service a → pieceDecision (setPiece v k (some q)) q = a := fun a ha =>
    pieceDecision_eq (u := setPiece v k (some q)) (p := q) hd hj ha
  refine ⟨fun hreject => ?_, fun b hb => ?_⟩
  · rw [sortPiece_reject hq (hdecision _ hreject)]
    exact recordFault_spec _ (setPiece_onlyPiece _ _ _) rfl rfl rfl hq
  · rw [sortPiece_bin hq (hdecision _ hb)]
    exact cascaded_spec (triedBins_nodup b v.su.fallback) hq

end Sys2Proof.Machine
end

section
/-! A LANDED applied to a piece: how it leaves, by the place and its path (R62-R64, R136, R145-R147). -/

namespace Sys2Proof.Machine

section
variable {src : Addr} {st : Stamp} {P : Pitch} {k q : Nat} {p : Piece} {u : State}

theorem landedAt_applies (h : AppliesTo u q st P k p) (x : Place) : landedAt src q st x u = leaveLanded x P k p u := by
  rw [landedAt, (resolveReport_applies h).1]

theorem landedReport_bin {b : Byte} (hb : b.toNat < 17) (hsrc : src = u.tu.layout.sorter.addr) (h63 : src ≠ 63#6)
    (h : AppliesTo u u.tu.layout.sorter.pos st P k p) : landedReport src st b u = leaveLanded (.bin b.toNat) P k p u := by
  rw [landedReport_sorter (by omega), if_pos (hsrc ▸ isAt_self h63), if_pos hb, landedAt_applies h]

theorem landedReport_br (hsrc : src = u.tu.layout.sorter.addr) (h63 : src ≠ 63#6) (h : AppliesTo u u.tu.layout.sorter.pos st P k p) :
    landedReport src st 17 u = leaveLanded .br P k p u := by
  rw [landedReport_sorter (by decide), if_pos (hsrc ▸ isAt_self h63), if_neg (by decide), landedAt_applies h]

theorem landedReport_atGate (hsrc : src = u.tu.layout.gate.addr) (h63 : src ≠ 63#6) (h : AppliesTo u u.tu.layout.gate.pos st P k p) :
    landedReport src st 18 u = leaveLanded .gate P k p u := by
  rw [landedReport_gate, if_pos (hsrc ▸ isAt_self h63), landedAt_applies h]

/-! ## The bins of a landing (R145-R147) -/

/-- The bin unit keeps everything but its bins. -/
def BinsOnly (u t : State) : Prop := t.bu = { u.bu with bins := t.bu.bins }

theorem BinsOnly.trans {u v t : State} (h : BinsOnly u v) (h' : BinsOnly v t) : BinsOnly u t := by
  unfold BinsOnly at *
  rw [h', h]

theorem releaseReservation_binsOnly (x : Path) (m : Option Nat) (u : State) : BinsOnly u (releaseReservation x m u) := by
  unfold releaseReservation
  split
  · split <;> exact rfl
  · exact rfl

theorem raise_binsOnly (f : Flag) (a : Option Addr) (x : Option Pitch) (i : Option PieceId) (u : State) : BinsOnly u (raise f a x i u) := by
  unfold BinsOnly
  rw [(raise_flagOnly f a x i u).bu]

theorem landInTray_binsOnly (p : Piece) (b : Nat) (seq : BitVec 16) (a : Pitch) (u : State) : BinsOnly u (landInTray p b seq a u).1 := by
  unfold landInTray
  split
  · exact rfl
  · exact raise_binsOnly ..

theorem contaminate_binsOnly (p : Piece) (b : Nat) (a : Pitch) (u : State) : BinsOnly u (contaminate p b a u) := (contaminate_spec p b a u).2.1

theorem addFault_keeps (f : PieceFault) (p : Piece) : (addFault f p).id = p.id ∧ (addFault f p).path = p.path ∧ (addFault f p).mass = p.mass := by
  unfold addFault
  cases p.fault <;> exact ⟨rfl, rfl, rfl⟩

theorem withExitFault_keeps (x : Option PieceFault) (p : Piece) :
    (withExitFault x p).id = p.id ∧ (withExitFault x p).path = p.path ∧ (withExitFault x p).mass = p.mass := by
  cases x with
  | none => exact ⟨rfl, rfl, rfl⟩
  | some f => exact addFault_keeps f p

theorem contaminate_congr {p p' : Piece} (h : p'.id = p.id) (b : Nat) (a : Pitch) (u : State) : contaminate p' b a u = contaminate p b a u := by
  unfold contaminate
  rw [h]

/-- The account of a landing: the state and the sequence of the entry's tray. -/
def landedIn (place : Place) (p : Piece) (a : Pitch) (u : State) : State × Option (BitVec 16) :=
  accountLanding place (landing place p).1 (withExitFault (landing place p).2 p) a u

section
variable {b : Nat} {seq : BitVec 16}

theorem landing_own (h : p.path = .sort b seq) : landing (.bin b) p = (if p.fault = none then .sorted else .missorted, none) := by
  unfold landing
  rw [h]
  cases p.fault <;> simp

theorem landing_other (h : ∀ seq, p.path ≠ .sort b seq) : landing (.bin b) p = (.missorted, some .misrouted) := by
  unfold landing
  cases hp : p.path with
  | sort c seq => exact if_neg (fun hbc : b = c => h seq (by rw [hp, hbc]))
  | _ => rfl

theorem landedIn_own (h : p.path = .sort b seq) (a : Pitch) : landedIn (.bin b) p a u =
    (if p.fault = none then (landInTray p b seq a u).1 else contaminate p b a (landInTray p b seq a u).1, (landInTray p b seq a u).2) := by
  unfold landedIn accountLanding
  rw [landing_own h]
  dsimp only [withExitFault]
  rw [h]
  dsimp only
  rw [if_pos rfl]
  cases p.fault <;> simp

theorem landedIn_other (h : ∀ seq, p.path ≠ .sort b seq) (a : Pitch) : landedIn (.bin b) p a u =
    (contaminate p b a (releaseReservation p.path p.mass u), none) := by
  obtain ⟨hid, hpath, hmass⟩ := withExitFault_keeps (some .misrouted) p
  unfold landedIn accountLanding
  rw [landing_other h]
  dsimp only
  rw [hpath, hmass, if_pos rfl, contaminate_congr hid]
  cases hp : p.path with
  | sort c seq =>
    dsimp only
    rw [if_neg (fun hbc : b = c => h seq (by rw [hp, hbc]))]
  | _ => rfl

theorem landedIn_binsOnly (b : Nat) (p : Piece) (a : Pitch) (u : State) : BinsOnly u (landedIn (.bin b) p a u).1 := by
  by_cases h : ∃ seq, p.path = .sort b seq
  · obtain ⟨seq, hs⟩ := h
    rw [landedIn_own hs]
    dsimp only
    split
    · exact landInTray_binsOnly ..
    · exact (landInTray_binsOnly ..).trans (contaminate_binsOnly ..)
  · rw [landedIn_other fun seq hs => h ⟨seq, hs⟩]
    exact (releaseReservation_binsOnly ..).trans (contaminate_binsOnly ..)

/-- A landing in the tray its path names, current (R145, R146). -/
theorem landedIn_current {y : Tray} (h : p.path = .sort b seq) (hy : (binAt u b).tray = some y) (hseq : y.seq = seq)
    (hst : (binAt u b).state = .opened ∨ (binAt u b).state = .full) (a : Pitch) :
    (landedIn (.bin b) p a u).2 = some seq ∧
      (∀ j, binAt (landedIn (.bin b) p a u).1 j = if j = b then
        (if p.fault = none then { binAt u b with tray := some (landedTray p y) }
          else soiledBin { binAt u b with tray := some (landedTray p y) }) else binAt u j) ∧
      (p.fault = none → NoCause u (landedIn (.bin b) p a u).1) ∧
      (p.fault.isSome = true → CauseTaken .contaminatedTray (some u.tu.layout.sorter.addr) (some a) p.id u (landedIn (.bin b) p a u).1) := by
  have hbin : ∀ j, binAt (setBin u b { binAt u b with tray := some (landedTray p y) }) j =
      if j = b then { binAt u b with tray := some (landedTray p y) } else binAt u j := fun j => by
    by_cases hj : j = b
    · have hne : ({ binAt u b with tray := some (landedTray p y) } : Bin) ≠ .off := fun h => nomatch congrArg Bin.tray h
      rw [if_pos hj, hj]; exact binAt_setBin hne b u
    · rw [if_neg hj]; exact binAt_setBin_other hj u _
  rw [landedIn_own h, landInTray_current (currentTray_eq_some.mpr ⟨hy, hseq, hst⟩)]
  dsimp only
  refine ⟨rfl, fun j => ?_, fun hf => ?_, fun hf => ?_⟩
  · by_cases hf : p.fault = none
    · rw [if_pos hf, if_pos hf]; exact hbin j
    · rw [if_neg hf, if_neg hf, (contaminate_spec p b a _).1 j, hbin b, if_pos rfl]
      by_cases hj : j = b
      · rw [if_pos hj, if_pos hj]
      · rw [if_neg hj, if_neg hj, hbin j, if_neg hj]
  · rw [if_pos hf]; exact ⟨rfl, rfl, rfl, rfl⟩
  · rw [if_neg fun h0 => by rw [h0] at hf; cases hf]
    exact (contaminate_spec p b a (setBin u b _)).2.2

/-- A landing whose tray is no longer current (R145, R146). -/
theorem landedIn_late (h : p.path = .sort b seq)
    (hy : ∀ y, (binAt u b).tray = some y → y.seq = seq → (binAt u b).state ≠ .opened ∧ (binAt u b).state ≠ .full) (a : Pitch) :
    (landedIn (.bin b) p a u).2 = none ∧
      (∀ j, binAt (landedIn (.bin b) p a u).1 j = if j = b then (if p.fault = none then binAt u b else soiledBin (binAt u b)) else binAt u j) ∧
      (landedIn (.bin b) p a u).1.cl.capture =
        (if u.cl.summary = 0#18 then some ⟨.lateLanding, some u.tu.layout.sorter.addr, some a, p.id⟩ else u.cl.capture) ∧
      (landedIn (.bin b) p a u).1.cl.summary =
        u.cl.summary ||| flagMask .lateLanding ||| (if p.fault = none then 0#18 else flagMask .contaminatedTray) := by
  have hnone : currentTray u b seq = none := by
    refine Option.eq_none_iff_forall_ne_some.mpr fun y hc => ?_
    obtain ⟨ht, hs, hst⟩ := currentTray_eq_some.mp hc
    obtain ⟨h1, h2⟩ := hy y ht hs
    exact hst.elim h1 h2
  have hflag := raise_flagOnly .lateLanding (some u.tu.layout.sorter.addr) (some a) p.id u
  obtain ⟨hsum, hcap⟩ := raise_causeTaken .lateLanding (some u.tu.layout.sorter.addr) (some a) p.id u
  rw [landedIn_own h, landInTray_late hnone]
  dsimp only
  generalize raise .lateLanding (some u.tu.layout.sorter.addr) (some a) p.id u = v at hflag hsum hcap
  have hbin : ∀ j, binAt v j = binAt u j := fun j => congrArg (fun y : Bu => tget Bin.off y.bins j) hflag.bu
  by_cases hf : p.fault = none
  · simp only [if_pos hf]
    refine ⟨trivial, fun j => ?_, hcap, by rw [hsum, BitVec.or_zero]⟩
    rw [hbin]
    split
    · next hj => rw [hj]
    · rfl
  · simp only [if_neg hf]
    obtain ⟨hbins, -, hsum', hcap'⟩ := contaminate_spec p b a v
    refine ⟨trivial, fun j => ?_, ?_, by rw [hsum', hsum]⟩
    · rw [hbins, hbin, hbin]
    · rw [hcap', if_neg (by rw [hsum]; exact or_flagMask_ne_zero _ _), hcap]

/-- A landing in a bin the path does not name (R146, R147). -/
theorem landedIn_misrouted (h : ∀ seq, p.path ≠ .sort b seq) (a : Pitch) :
    (landedIn (.bin b) p a u).2 = none ∧
      (∀ j, binAt (landedIn (.bin b) p a u).1 j = if j = b then soiledBin (binAt u b) else unreserved p.path p.mass j (binAt u j)) ∧
      CauseTaken .contaminatedTray (some u.tu.layout.sorter.addr) (some a) p.id u (landedIn (.bin b) p a u).1 := by
  have hsame : unreserved p.path p.mass b (binAt u b) = binAt u b := by
    unfold unreserved
    cases hp : p.path with
    | sort c seq =>
      cases (binAt u b).tray with
      | none => rfl
      | some y => exact if_neg (fun hc : b = c ∧ _ => h seq (by rw [hp, hc.1]))
    | _ => rfl
  obtain ⟨hk1, hk2, hk3, hk4, hk5, hk6, hk7, hk8, hk9, hk10, hcl, hrp⟩ := releaseReservation_keeps p.path p.mass u
  obtain ⟨hbins, -, hcause⟩ := contaminate_spec p b a (releaseReservation p.path p.mass u)
  rw [landedIn_other h]
  rw [hk6] at hcause
  refine ⟨rfl, fun j => ?_, ?_⟩
  · rw [hbins, binAt_releaseReservation, binAt_releaseReservation, hsame]
  · obtain ⟨h1, h2⟩ := hcause
    rw [hcl] at h1 h2
    exact ⟨h1, h2⟩

end

/-! ## The piece leaves -/

/-- What a LANDED leaves before the flight is counted: the entry, the bins and the causes of its account (R62, R64). -/
structure LandedLeft (place : Place) (P : Pitch) (k : Nat) (p : Piece) (u m : State) : Prop where
  left : Left k p (landing place p).1 (landing place p).2 (entryBin (landing place p).1 place) (landedIn place p P u).2 u m
  bu : m.bu = (landedIn place p P u).1.bu
  summary : m.cl.summary = (landedIn place p P u).1.cl.summary
  capture : m.cl.capture = (landedIn place p P u).1.cl.capture
  alert : m.cl.alertPending = (landedIn place p P u).1.cl.alertPending
  rp : m.rp = (landedIn place p P u).1.rp

theorem leaveLanded_left (hring : Table.canonical none u.tu.ring) (place : Place) (P : Pitch) (k : Nat) (p : Piece) :
    ∃ m, FlightFell m (leaveLanded place P k p u) ∧ LandedLeft place P k p u m := by
  obtain ⟨m, hleft, hbu, hsum, hcap, halert, hrp, ht⟩ := leaveLanded_spec hring place P (k := k) (p := p)
  exact ⟨m, ht ▸ flightChanged_spec m, hleft, hbu, hsum, hcap, halert, hrp⟩

section
variable {place : Place} {m : State} (h : LandedLeft place P k p u m)
include h

theorem LandedLeft.bin (j : Nat) : binAt m j = binAt (landedIn place p P u).1 j := congrArg (fun y : Bu => tget Bin.off y.bins j) h.bu

theorem LandedLeft.noCause (hn : NoCause u (landedIn place p P u).1) : NoCause u m :=
  ⟨h.summary.trans hn.1, h.capture.trans hn.2.1, h.alert.trans hn.2.2.1, h.rp.trans hn.2.2.2⟩

theorem LandedLeft.cause {f : Flag} {a : Option Addr} {x : Option Pitch} {i : Option PieceId}
    (hc : CauseTaken f a x i u (landedIn place p P u).1) : CauseTaken f a x i u m := ⟨h.summary.trans hc.1, h.capture.trans hc.2⟩

end

theorem LandedLeft.binsOnly {b : Nat} {m : State} (h : LandedLeft (.bin b) P k p u m) : m.bu = { u.bu with bins := m.bu.bins } := by
  have hb := landedIn_binsOnly b p P u
  unfold BinsOnly at hb
  rw [← h.bu] at hb
  exact hb

/-- In its own bin, the tray current (R64, R145). -/
theorem LandedLeft.current {b : Nat} {seq : BitVec 16} {y : Tray} {m : State} (h : LandedLeft (.bin b) P k p u m)
    (hs : p.path = .sort b seq) (hy : (binAt u b).tray = some y) (hseq : y.seq = seq)
    (hst : (binAt u b).state = .opened ∨ (binAt u b).state = .full) :
    Left k p (if p.fault = none then .sorted else .missorted) none (some b) (some seq) u m ∧
      (∀ j, binAt m j = if j = b then
        (if p.fault = none then { binAt u b with tray := some (landedTray p y) }
          else soiledBin { binAt u b with tray := some (landedTray p y) }) else binAt u j) ∧
      (p.fault = none → NoCause u m) ∧
      (p.fault.isSome = true → CauseTaken .contaminatedTray (some u.tu.layout.sorter.addr) (some P) p.id u m) := by
  obtain ⟨htray, hbins, hno, hcause⟩ := landedIn_current hs hy hseq hst P
  have hleft := h.left
  rw [landing_own hs, htray] at hleft
  refine ⟨?_, fun j => (h.bin j).trans (hbins j), fun hf => h.noCause (hno hf), fun hf => h.cause (hcause hf)⟩
  have he : entryBin (if p.fault = none then .sorted else .missorted) (.bin b) = some b := by split <;> rfl
  rw [he] at hleft; exact hleft

/-- In its own bin, the tray no longer current (R64, R145). -/
theorem LandedLeft.late {b : Nat} {seq : BitVec 16} {m : State} (h : LandedLeft (.bin b) P k p u m) (hs : p.path = .sort b seq)
    (hy : ∀ y, (binAt u b).tray = some y → y.seq = seq → (binAt u b).state ≠ .opened ∧ (binAt u b).state ≠ .full) :
    Left k p (if p.fault = none then .sorted else .missorted) none (some b) none u m ∧
      (∀ j, binAt m j = if j = b then (if p.fault = none then binAt u b else soiledBin (binAt u b)) else binAt u j) ∧
      m.cl.capture = (if u.cl.summary = 0#18 then some ⟨.lateLanding, some u.tu.layout.sorter.addr, some P, p.id⟩ else u.cl.capture) ∧
      m.cl.summary = u.cl.summary ||| flagMask .lateLanding ||| (if p.fault = none then 0#18 else flagMask .contaminatedTray) := by
  obtain ⟨htray, hbins, hcap, hsum⟩ := landedIn_late hs hy P
  have hleft := h.left
  rw [landing_own hs, htray] at hleft
  refine ⟨?_, fun j => (h.bin j).trans (hbins j), h.capture.trans hcap, h.summary.trans hsum⟩
  have he : entryBin (if p.fault = none then .sorted else .missorted) (.bin b) = some b := by split <;> rfl
  rw [he] at hleft; exact hleft

/-- In a bin its path does not name (R64, R146, R147). -/
theorem LandedLeft.misrouted {b : Nat} {m : State} (h : LandedLeft (.bin b) P k p u m) (hs : ∀ seq, p.path ≠ .sort b seq) :
    Left k p .missorted (some .misrouted) (some b) none u m ∧
      (∀ j, binAt m j = if j = b then soiledBin (binAt u b) else unreserved p.path p.mass j (binAt u j)) ∧
      CauseTaken .contaminatedTray (some u.tu.layout.sorter.addr) (some P) p.id u m := by
  obtain ⟨htray, hbins, hcause⟩ := landedIn_misrouted hs P
  have hleft := h.left
  rw [landing_other hs, htray] at hleft
  exact ⟨hleft, fun j => (h.bin j).trans (hbins j), h.cause hcause⟩

/-! ## The gate and BR -/

theorem landing_gate (p : Piece) :
    landing .gate p = (.divertedGate, if p.path = .gate ∨ p.path = .reject then none else some .gateDivert) := by
  unfold landing
  cases p.path <;> simp

theorem landing_br (p : Piece) :
    landing .br p = (.rejectedSorter, if p.path = .gate ∨ p.path = .reject then none else some .sorterReject) := by
  unfold landing
  cases p.path <;> simp

theorem landedIn_gate (p : Piece) (a : Pitch) : landedIn .gate p a u = (releaseReservation p.path p.mass u, none) := by
  obtain ⟨-, hpath, hmass⟩ := withExitFault_keeps (landing .gate p).2 p
  unfold landedIn accountLanding
  dsimp only
  rw [hpath, hmass]

theorem landedIn_br (p : Piece) (a : Pitch) : landedIn .br p a u = (landInReject p (releaseReservation p.path p.mass u), none) := by
  obtain ⟨-, hpath, hmass⟩ := withExitFault_keeps (landing .br p).2 p
  unfold landedIn accountLanding landInReject
  dsimp only
  rw [hpath, hmass]

theorem LandedLeft.gate {m : State} (h : LandedLeft .gate P k p u m) :
    Left k p .divertedGate (if p.path = .gate ∨ p.path = .reject then none else some .gateDivert) none none u m ∧
      Unreserved p u m ∧ m.bu = { u.bu with bins := m.bu.bins } ∧ NoCause u m := by
  obtain ⟨-, -, -, -, -, -, -, -, -, -, hcl, hrp⟩ := releaseReservation_keeps p.path p.mass u
  have hleft := h.left
  have hb := releaseReservation_binsOnly p.path p.mass u
  have hbu := h.bu
  rw [landing_gate, landedIn_gate] at hleft
  rw [landedIn_gate] at hbu
  unfold BinsOnly at hb
  refine ⟨hleft, fun b => ?_, ?_, h.noCause ?_⟩
  · rw [h.bin, landedIn_gate]; exact binAt_releaseReservation ..
  · dsimp only at hbu
    rw [hbu]; exact hb
  · rw [landedIn_gate]; exact ⟨congrArg Cl.summary hcl, congrArg Cl.capture hcl, congrArg Cl.alertPending hcl, hrp⟩

theorem LandedLeft.br {m : State} (h : LandedLeft .br P k p u m) :
    Left k p .rejectedSorter (if p.path = .gate ∨ p.path = .reject then none else some .sorterReject) none none u m ∧
      Unreserved p u m ∧ m.bu = { u.bu with
        bins := m.bu.bins
        brCount := u.bu.brCount + 1
        brMass := u.bu.brMass + p.mass.getD 0 } ∧ NoCause u m := by
  obtain ⟨-, -, -, -, -, -, -, -, -, -, hcl, hrp⟩ := releaseReservation_keeps p.path p.mass u
  have hleft := h.left
  have hb := releaseReservation_binsOnly p.path p.mass u
  have hbu := h.bu
  rw [landing_br, landedIn_br] at hleft
  rw [landedIn_br] at hbu
  unfold BinsOnly at hb
  refine ⟨hleft, fun b => ?_, ?_, h.noCause ?_⟩
  · rw [h.bin, landedIn_br]; exact binAt_releaseReservation ..
  · dsimp only [landInReject, withBu] at hbu
    rw [hbu, hb]
  · rw [landedIn_br]; exact ⟨congrArg Cl.summary hcl, congrArg Cl.capture hcl, congrArg Cl.alertPending hcl, hrp⟩

end

/-- Settles O53: by the place and the path. -/
theorem landedPiecesLeaveTrack : Obligations.LandedPiecesLeaveTrack := by
  intro src st P k p s hs h63 hl
  obtain ⟨-, -, -, -, hring, -⟩ := hl
  refine ⟨fun b hb hsrc happ => ?_, fun hsrc happ => ?_, fun hsrc happ => ?_⟩
  · obtain ⟨m, hfell, hm⟩ := leaveLanded_left hring (.bin b.toNat) P k p
    refine ⟨_, m, (exec_landed hs src st b).trans (congrArg Host.Outcome.next (landedReport_bin hb hsrc h63 happ)), hfell, hm.binsOnly, ?_⟩
    rw [hsrc]
    exact ⟨fun seq y hp hy hseq hst => hm.current hp hy hseq hst, fun seq hp hy => hm.late hp hy, fun hp => hm.misrouted hp⟩
  · obtain ⟨m, hfell, hm⟩ := leaveLanded_left hring .gate P k p
    exact ⟨_, m, (exec_landed hs src st 18).trans (congrArg Host.Outcome.next (landedReport_atGate hsrc h63 happ)), hfell, hm.gate⟩
  · obtain ⟨m, hfell, hm⟩ := leaveLanded_left hring .br P k p
    exact ⟨_, m, (exec_landed hs src st 17).trans (congrArg Host.Outcome.next (landedReport_br hsrc h63 happ)), hfell, hm.br⟩

end Sys2Proof.Machine
end

section
/-! Sheets: collated in RUNNING and STOPPED, and outside it (R10, R23-R37). -/

namespace Sys2Proof.Machine

section
variable {src : Addr} {id x : PieceId} {i n : Byte} {u : State} {y : SetRec} {next m : Nat}

theorem sheetReport_taken (hsrc : src = u.tu.layout.sheetReader) (h63 : src ≠ 63#6) (id : PieceId) (i n : Byte) :
    sheetReport src id i n u = takeSheet src (readSheet id i n) u := if_pos (hsrc ▸ isAt_self h63)

/-! ## A sheet at an OPEN record (R29-R33) -/

/-- What a sheet of the record's own piece leaves of it (R29). -/
theorem ownSheet_spec (y : SetRec) (next m i n : Nat) (u : State) :
    RecordLeft (decide (i = next ∧ i = m ∨ next < i ∧ m ≤ i))
      ⟨withFaults ((if n = m then [] else [.sheetCount]) ++ (if i = next then [] else [.sequence])) { y with held := y.held + 1 },
        if i < next then next else i + 1, false⟩ (sheetCounted false false u) (ownSheet ⟨y, next, false⟩ m i n u) := by
  have hdone : (if i < next then false else if i = next then i == m else decide (m ≤ i)) =
      decide (i = next ∧ i = m ∨ next < i ∧ m ≤ i) := by
    rw [Bool.eq_iff_iff, decide_eq_true_iff]
    by_cases hlt : i < next
    · rw [if_pos hlt]
      exact iff_of_false Bool.false_ne_true (by omega)
    · rw [if_neg hlt]
      by_cases heq : i = next
      · rw [if_pos heq, beq_iff_eq]; omega
      · rw [if_neg heq, decide_eq_true_iff]; omega
  have hset : (if i = next then (if n = m then addSheet y else setFault .sheetCount (addSheet y))
        else setFault .sequence (if n = m then addSheet y else setFault .sheetCount (addSheet y))) =
      withFaults ((if n = m then [] else [.sheetCount]) ++ (if i = next then [] else [.sequence])) { y with held := y.held + 1 } := by
    have hcount : (if n = m then addSheet y else setFault .sheetCount (addSheet y)) =
        withFaults (if n = m then [] else [.sheetCount]) { y with held := y.held + 1 } := by
      by_cases h : n = m
      · rw [if_pos h, if_pos h, withFaults_nil]; rfl
      · rw [if_neg h, if_neg h, setFault_eq]; rfl
    rw [withFaults_append, hcount]
    by_cases h : i = next
    · rw [if_pos h, if_pos h, withFaults_nil]
    · rw [if_neg h, if_neg h, setFault_eq]
  unfold ownSheet
  dsimp only
  rw [hdone, hset, countSheet_eq]
  exact settleRecord_spec ..

theorem noReadSheet_spec (y : SetRec) (next m : Nat) (u : State) :
    RecordLeft (decide (next = m)) ⟨withFaults [.noreadSheet] { y with held := y.held + 1 }, next + 1, false⟩
      (sheetCounted false true u) (noReadSheet ⟨y, next, false⟩ m u) := by
  have hdone : (next == m) = decide (next = m) := by rw [Bool.eq_iff_iff, beq_iff_eq, decide_eq_true_iff]
  unfold noReadSheet
  dsimp only
  rw [hdone, setFault_eq, countSheet_eq]
  exact settleRecord_spec ..

/-- A sheet at a named record, by what it reads (R29-R31). -/
theorem namedSheet_spec (src : Addr) (y : SetRec) (next : Nat) (x : PieceId) (m : Nat) (id : PieceId) (i n : Byte) (u : State) :
    let t := namedSheet src ⟨y, next, false⟩ x m (readSheet id i n) u
    let added := { y with held := y.held + 1 }
    (Readable id i n → id = x →
      RecordLeft (decide (i.toNat = next ∧ i.toNat = m ∨ next < i.toNat ∧ m ≤ i.toNat))
        ⟨withFaults ((if n.toNat = m then [] else [.sheetCount]) ++ (if i.toNat = next then [] else [.sequence])) added,
          if i.toNat < next then next else i.toNat + 1, false⟩ (sheetCounted false false u) t) ∧
    (¬Readable id i n → RecordLeft (decide (next = m)) ⟨withFaults [.noreadSheet] added, next + 1, false⟩ (sheetCounted false true u) t) ∧
    (Readable id i n → id ≠ x → SheetEnds ⟨withFaults [.mixed] y, next, false⟩ src id i n u t) := by
  intro t added
  refine ⟨fun hr hx => ?_, fun hr => ?_, fun hr hx => ?_⟩
  · have ht : t = ownSheet ⟨y, next, false⟩ m i.toNat n.toNat u := by
      show namedSheet src _ x m (readSheet id i n) u = _
      rw [readSheet_readable hr]; exact if_pos hx
    rw [ht]; exact ownSheet_spec ..
  · have ht : t = noReadSheet ⟨y, next, false⟩ m u := by
      show namedSheet src _ x m (readSheet id i n) u = _
      rw [readSheet_noRead hr]; rfl
    rw [ht]; exact noReadSheet_spec ..
  · have ht : t = afterEnding src (readSheet id i n) (completeRecord ⟨withFaults [.mixed] y, next, false⟩ u) := by
      show namedSheet src _ x m (readSheet id i n) u = _
      rw [readSheet_readable hr, ← setFault_eq]; exact if_neg hx
    rw [ht]; exact afterEnding_spec ..

/-- What adopting a readable sheet leaves of an anonymous record (R33). -/
theorem adopted_spec (y : SetRec) (next : Nat) (id : PieceId) (i n : Nat) (u : State) :
    RecordLeft (decide (i = n)) ⟨withFaults (claimFaults u id n ++ (if i = next then [] else [.sequence]))
        { y with held := y.held + 1, id := some id, slot := (claimSlot u id).or y.slot, count := some n }, i + 1, false⟩
      (sheetCounted false false (claimMade u id))
      (settleRecord (i == n)
        ⟨if i = next then applyClaim (claim id u).2 true n { addSheet y with id := some id, count := some n }
          else setFault .sequence (applyClaim (claim id u).2 true n { addSheet y with id := some id, count := some n }), i + 1, false⟩
        (countSheet false (claim id u).1)) := by
  obtain ⟨hmade, hclaim, -⟩ := claim_spec id u
  have hdone : (i == n) = decide (i = n) := by rw [Bool.eq_iff_iff, beq_iff_eq, decide_eq_true_iff]
  have hset : (if i = next then applyClaim (claim id u).2 true n { addSheet y with id := some id, count := some n }
        else setFault .sequence (applyClaim (claim id u).2 true n { addSheet y with id := some id, count := some n })) =
      withFaults (claimFaults u id n ++ (if i = next then [] else [.sequence]))
        { y with held := y.held + 1, id := some id, slot := (claimSlot u id).or y.slot, count := some n } := by
    rw [hclaim, withFaults_append]
    by_cases h : i = next
    · rw [if_pos h, if_pos h, withFaults_nil]; rfl
    · rw [if_neg h, if_neg h, setFault_eq]; rfl
  rw [hdone, hset, hmade, countSheet_eq]
  exact settleRecord_spec ..

/-- A sheet at an anonymous record, by what it reads (R33). -/
theorem anonymousSheet_spec (src : Addr) (y : SetRec) (next : Nat) (id : PieceId) (i n : Byte) (u : State) :
    let t := anonymousSheet src ⟨y, next, false⟩ (readSheet id i n) u
    let added := { y with held := y.held + 1 }
    (¬Readable id i n → RecordLeft false ⟨withFaults [.noreadSheet] added, next + 1, false⟩ (sheetCounted false true u) t) ∧
    (Readable id i n → 1 < i.toNat →
      RecordLeft (decide (i = n)) ⟨withFaults (claimFaults u id n.toNat ++ (if i.toNat = next then [] else [.sequence]))
        { added with id := some id, slot := (claimSlot u id).or y.slot, count := some n.toNat }, i.toNat + 1, false⟩
        (sheetCounted false false (claimMade u id)) t) ∧
    (Readable id i n → i = 1 → SheetEnds ⟨y, next, false⟩ src id i n u t) := by
  intro t added
  refine ⟨fun hr => ?_, fun hr hi => ?_, fun hr hi => ?_⟩
  · have ht : t = settleRecord false ⟨withFaults [.noreadSheet] added, next + 1, false⟩ (sheetCounted false true u) := by
      show anonymousSheet src _ (readSheet id i n) u = _
      rw [readSheet_noRead hr, ← setFault_eq]; rfl
    rw [ht]; exact settleRecord_spec ..
  · have hdone : decide (i = n) = decide (i.toNat = n.toNat) := decide_eq_decide.mpr BitVec.toNat_inj.symm
    have hspec := adopted_spec y next id i.toNat n.toNat u
    rw [← hdone] at hspec
    show RecordLeft _ _ _ (anonymousSheet src _ (readSheet id i n) u)
    rw [readSheet_readable hr]
    unfold anonymousSheet
    dsimp only
    rw [if_neg (show ¬ i.toNat = 1 by omega)]
    exact hspec
  · have ht : t = afterEnding src (readSheet id i n) (completeRecord ⟨y, next, false⟩ u) := by
      show anonymousSheet src _ (readSheet id i n) u = _
      rw [readSheet_readable hr]; exact if_pos (by rw [hi]; rfl)
    rw [ht]; exact afterEnding_spec ..

/-! ## A sheet, by the open-record place -/

theorem collateSheet_opens (h : u.cu.place = none) (sh : SheetRead) : collateSheet src sh u = openSheet src sh u := by
  rw [collateSheet, h]

theorem collateSheet_waiting {r : OpenRec} (h : u.cu.place = some r) (hw : r.waiting = true) (sh : SheetRead) :
    collateSheet src sh u = sheetOverrun src none u := by
  rw [collateSheet, h]; exact if_pos hw

theorem collateSheet_named (h : u.cu.place = some ⟨y, next, false⟩) (hx : y.id = some x) (hm : y.count = some m) (sh : SheetRead) :
    collateSheet src sh u = namedSheet src ⟨y, next, false⟩ x m sh u := by
  rw [collateSheet, h]
  dsimp only
  rw [hx, hm]; rfl

theorem collateSheet_anonymous (h : u.cu.place = some ⟨y, next, false⟩) (hx : y.id = none ∨ y.count = none) (sh : SheetRead) :
    collateSheet src sh u = anonymousSheet src ⟨y, next, false⟩ sh u := by
  rw [collateSheet, h]
  dsimp only
  rcases hx with hx | hx
  · rw [hx]; rfl
  · rw [hx]; cases y.id <;> rfl

theorem takeSheet_collates (h : u.rc.state = .running ∨ u.rc.state = .stopped) (sh : SheetRead) :
    takeSheet src sh u = collateSheet src sh u := by
  unfold takeSheet
  rcases h with h | h <;> rw [h]

theorem takeSheet_late (h : u.rc.state = .draining) (sh : SheetRead) : takeSheet src sh u = lateSheet src sh u := by
  unfold takeSheet
  rw [h]

theorem takeSheet_idle (h : u.rc.state = .idle) (sh : SheetRead) : takeSheet src sh u = dropUnexpected src u := by
  unfold takeSheet
  rw [h]

/-! ## A sheet in DRAINING (R37) -/

theorem lateSheet_overruns (h : u.cu.place.isSome = true) (sh : SheetRead) : lateSheet src sh u = sheetOverrun src none u := if_pos h

theorem lateSheet_full (hp : u.cu.place = none) (h : headroom u = 0) (sh : SheetRead) :
    lateSheet src sh u = sheetOverrun src (sheetId sh) u := by
  unfold lateSheet
  rw [hp]; exact if_pos h

/-- A late sheet's own record, when it is readable. -/
theorem lateSheet_readable (hp : u.cu.place = none) (hroom : 0 < headroom u) (hr : Readable id i n) :
    let r : OpenRec := ⟨withFaults (match claimGives u id with | .error f => [.lateSheet, f] | .ok _ => [.lateSheet])
      ⟨some id, claimSlot u id, some n.toNat, 1, none, false⟩, i.toNat + 1, false⟩
    ∃ m, RecordOpened false r (claimMade u id) m ∧ RecordCompleted r m (lateSheet src (readSheet id i n) u) := by
  intro r
  obtain ⟨hmade, -, hclaim⟩ := claim_spec id u
  have hset : applyClaim (claim id u).2 false n.toNat (lateSet (.readable id i.toNat n.toNat)) = r.set := by
    have hslot : (claimSlot u id).or none = claimSlot u id := Option.or_none
    rw [hclaim]
    show withFaults _ ⟨some id, (claimSlot u id).or none, some n.toNat, 1, some .lateSheet, false⟩ = withFaults _ _
    rw [hslot]
    cases claimGives u id <;> rfl
  have ht : lateSheet src (readSheet id i n) u = completeRecord r (openRecord false r (claimMade u id)) := by
    unfold lateSheet
    rw [hp, readSheet_readable hr]
    simp only [Option.isSome_none, Bool.false_eq_true, if_false]
    rw [if_neg (Nat.pos_iff_ne_zero.mp hroom), hset, hmade]
  rw [ht]
  exact ⟨_, openRecord_spec .., completeRecord_spec ..⟩

theorem lateSheet_noRead (hp : u.cu.place = none) (hroom : 0 < headroom u) (hr : ¬Readable id i n) :
    let r : OpenRec := ⟨⟨none, none, none, 1, some .lateSheet, false⟩, 2, false⟩
    ∃ m, RecordOpened true r u m ∧ RecordCompleted r m (lateSheet src (readSheet id i n) u) := by
  intro r
  have ht : lateSheet src (readSheet id i n) u = completeRecord r (openRecord true r u) := by
    unfold lateSheet
    rw [hp, readSheet_noRead hr]
    simp only [Option.isSome_none, Bool.false_eq_true, if_false]
    rw [if_neg (Nat.pos_iff_ne_zero.mp hroom)]; rfl
  rw [ht]
  exact ⟨_, openRecord_spec .., completeRecord_spec ..⟩

/-- What a sheet never changes. -/
theorem takeSheet_rest (src : Addr) (sh : SheetRead) (u : State) : (takeSheet src sh u).tu = u.tu ∧ (takeSheet src sh u).iu = u.iu ∧
    (takeSheet src sh u).pp = u.pp ∧ (takeSheet src sh u).su = u.su ∧ (takeSheet src sh u).bu = u.bu ∧
    (takeSheet src sh u).cl.log = u.cl.log := by
  obtain ⟨-, -, -, htu, hiu, hpp, hsu, hbu, -, hlog, -⟩ := takeSheet_keeps src sh u
  exact ⟨htu, hiu, hpp, hsu, hbu, hlog⟩

end

/-- Settles O47: by the place and what the sheet reads. -/
theorem sheetsAreCollated : Obligations.SheetsAreCollated := by
  intro src id i n s hs hsrc h63 hrun
  refine ⟨_, (exec_sheet hs src id i n).trans (congrArg Host.Outcome.next (sheetReport_taken hsrc h63 id i n)), ?_⟩
  generalize settle s = v at *
  intro u
  refine ⟨fun hp => ?_, fun r hp hw => ?_, takeSheet_rest ..⟩
  · rw [takeSheet_collates hrun, collateSheet_opens hp]; exact openSheet_spec ..
  · obtain ⟨y, next, w⟩ := r
    obtain rfl : w = false := hw
    rw [takeSheet_collates hrun]
    refine ⟨fun x m hx hm => ?_, fun hx => ?_⟩
    · rw [collateSheet_named hp hx hm]; exact namedSheet_spec src y next x m id i n v
    · rw [collateSheet_anonymous hp hx]; exact anonymousSheet_spec src y next id i n v

/-- Settles O48: by the run state and the place. -/
theorem sheetsOutsideNormalCollation : Obligations.SheetsOutsideNormalCollation := by
  intro src id i n s hs hsrc h63
  refine ⟨_, (exec_sheet hs src id i n).trans (congrArg Host.Outcome.next (sheetReport_taken hsrc h63 id i n)), ?_⟩
  generalize settle s = v at *
  intro u
  refine ⟨fun h => ?_, fun r hrun hp hw => ?_, fun h hp hroom => ?_, fun h hp hroom => ⟨fun hr => ?_, fun hr => ?_⟩, takeSheet_rest ..⟩
  · rw [takeSheet_idle h]; exact dropUnexpected_flagOnly ..
  · have ht : takeSheet src (readSheet id i n) v = sheetOverrun src none v := by
      cases h : v.rc.state with
      | idle => exact absurd h hrun
      | running => rw [takeSheet_collates (.inl h), collateSheet_waiting hp hw]
      | stopped => rw [takeSheet_collates (.inr h), collateSheet_waiting hp hw]
      | draining =>
        have hsome : v.cu.place.isSome = true := by rw [show v.cu.place = some r from hp]; rfl
        rw [takeSheet_late h, lateSheet_overruns hsome]
    rw [ht]; exact sheetOverrun_spec ..
  · rw [takeSheet_late h, lateSheet_full hp hroom, sheetId_readSheet]; exact sheetOverrun_spec ..
  · rw [takeSheet_late h]; exact lateSheet_readable hp hroom hr
  · rw [takeSheet_late h]; exact lateSheet_noRead hp hroom hr

end Sys2Proof.Machine
end

section
/-! What step 3 of a release plans: inserts, figures and faults of the piece of a set (R75-R77, R95-R101). -/

namespace Sys2Proof.Machine

/-! ## Figures (R97-R99) -/

theorem fillOf_eq (v : State) (held : Nat) (inserts : List Nat) : fillOf v held inserts = fillCaliper v held inserts := by
  rw [fillOf, sumOver, ← List.sum_eq_foldl]; rfl

theorem massOf_eq (v : State) (c : EnvClass) (held : Nat) (inserts : List Nat) :
    massOf v c held inserts = wholeMass v c.mass held inserts := by
  rw [massOf, sumOver, ← List.sum_eq_foldl]; rfl

theorem bandOf_eq (d : Nat) : ∀ l : List Nat, bandOf d l = l.findIdx? (fun b => decide (d ≤ b))
  | [] => rfl
  | b :: l => by
    rw [bandOf, List.findIdx?_cons, bandOf_eq d l]
    by_cases h : d ≤ b <;> simp [h]

/-! ## Faults in order -/

/-- A piece's fault fields hold a list of faults recorded in order (R104). -/
def FaultsAre (further : Bool) (l : List PieceFault) (p : Piece) : Prop :=
  p.fault = l.head? ∧ p.further = (further || decide (2 ≤ l.length))

theorem FaultsAre.add {b : Bool} {l : List PieceFault} {p : Piece} (h : FaultsAre b l p) (f : PieceFault) :
    FaultsAre b (l ++ [f]) (faulted f p) := by
  obtain ⟨hf, hb⟩ := h
  unfold FaultsAre faulted
  rw [hf, hb]
  cases l with
  | nil => simp
  | cons a l => simp

/-- The faults are those of the fault fields alone. -/
theorem FaultsAre.congr {b : Bool} {l : List PieceFault} {p q : Piece} (h : FaultsAre b l p) (hf : q.fault = p.fault)
    (hb : q.further = p.further) : FaultsAre b l q := ⟨hf.trans h.1, hb.trans h.2⟩

theorem newPiece_faults (e : Pitch) (x : SetRec) : FaultsAre x.further x.fault.toList (newPiece e x) := by
  unfold FaultsAre newPiece
  cases x.fault <;> simp

/-! ## The plan of a set's piece -/

section
variable {v : State} {e : Pitch} {x : SetRec} {d : Descriptor}

/-- The planned inserts of a descriptor (R75, R76). -/
def planList (v : State) (d : Descriptor) : List Planned := (insertsOf (tget 0#12 v.iu.selection d.selection.toNat)).map (planEntry v)

/-- Whether a plan has an insert without a primary (R77). -/
def planMissing (v : State) (d : Descriptor) : Bool := (planList v d).any (fun y => y.primary.isNone)

/-- The piece of a set with its class and planned inserts. -/
def classedPiece (e : Pitch) (x : SetRec) (d : Descriptor) (l : List Planned) : Piece :=
  { newPiece e x with envClass := some d.envClass, planned := l }

/-- The class of a descriptor (R95). -/
def classOf (v : State) (d : Descriptor) : EnvClass := tget EnvClass.off v.pp.classes d.envClass.toNat

/-- The piece with its figures (R97-R99). -/
def figuredPiece (v : State) (e : Pitch) (x : SetRec) (d : Descriptor) (l : List Planned) (inserts : List Nat) : Piece :=
  { classedPiece e x d l with
    fill := some (fillCaliper v x.held inserts)
    mass := some (wholeMass v (classOf v d).mass x.held inserts)
    band := bandFor v (wholeMass v (classOf v d).mass x.held inserts) }

theorem planList_insert (v : State) (d : Descriptor) : (planList v d).map Planned.insert = selectedInserts v d.selection := by
  have hmap : ∀ l : List Nat, (l.map (planEntry v)).map Planned.insert = l := fun l => by
    rw [List.map_map]
    exact (List.map_congr_left fun i _ => (planEntry_spec v i).1).trans (List.map_id l)
  exact hmap _

theorem planList_resolved (v : State) (d : Descriptor) {p : Piece} (h : p.planned = planList v d) : InsertsResolved v d.selection p := by
  refine ⟨by rw [h, planList_insert], fun y hy => ?_⟩
  rw [h] at hy
  obtain ⟨i, -, rfl⟩ := List.mem_map.mp hy
  obtain ⟨hi, -, hp, hb⟩ := planEntry_spec v i
  rw [hi]
  exact ⟨hp, hb⟩

theorem planList_notCalled (v : State) (d : Descriptor) : ∀ y ∈ planList v d, y.status = .notCalled := fun y hy => by
  obtain ⟨i, -, rfl⟩ := List.mem_map.mp hy
  exact (planEntry_spec v i).2.1

theorem resolveInserts_undescribed (h : x.slot.bind (descAt v) = none) : resolveInserts v (newPiece e x) = newPiece e x := by
  have h' : (newPiece e x).slot.bind (descAt v) = none := h
  unfold resolveInserts
  rw [h']
  cases (newPiece e x).fault <;> rfl

theorem resolveInserts_faulted (h : x.fault.isSome = true) : resolveInserts v (newPiece e x) = newPiece e x := by
  have h' : (newPiece e x).fault.isSome = true := h
  obtain ⟨f, hf⟩ := Option.isSome_iff_exists.mp h'
  unfold resolveInserts
  rw [hf]

theorem resolveInserts_good (hd : x.slot.bind (descAt v) = some d) (hf : x.fault = none) : resolveInserts v (newPiece e x) =
    if planMissing v d then faulted .insertUnavailable { newPiece e x with planned := planList v d }
    else { newPiece e x with planned := planList v d } := by
  have hd' : (newPiece e x).slot.bind (descAt v) = some d := hd
  have hf' : (newPiece e x).fault = none := hf
  unfold resolveInserts
  rw [hd', hf']
  dsimp only
  rw [addFault_eq]
  simp only [hf']; rfl

theorem computePiece_eq (v : State) (e : Pitch) (x : SetRec) (d : Descriptor) (l : List Planned) (inserts : List Nat) :
    computePiece v (classOf v d) inserts (classedPiece e x d l) = figuredPiece v e x d l inserts := by
  have hheld : (classedPiece e x d l).held = x.held := rfl
  unfold computePiece figuredPiece
  dsimp only
  rw [hheld, massOf_eq, fillOf_eq, bandOf_eq]; rfl

/-- The planner on a piece whose descriptor is reached, by the class and its faults (R95, R96, R100). -/
theorem planPiece_eq {q : Piece} (hd : q.slot.bind (descAt v) = some d) (collated : Bool) : planPiece v collated q =
    if (classOf v d).enabled = false then faulted .envelopeClass { q with envClass := some d.envClass }
    else if collated = true then computePiece v (classOf v d) [] { q with envClass := some d.envClass }
    else if q.fault.isSome = true then { q with envClass := some d.envClass }
    else checkPiece (classOf v d) (computePiece v (classOf v d) (q.planned.map Planned.insert) { q with envClass := some d.envClass }) := by
  unfold planPiece
  rw [hd]
  dsimp only
  rw [addFault_eq]
  have hc : tget EnvClass.off v.pp.classes d.envClass.toNat = classOf v d := rfl
  rw [hc]
  cases (classOf v d).enabled <;> rfl

/-- The piece that step 3 of a release plans. -/
def plannedPiece (v : State) (e : Pitch) (x : SetRec) : Piece := planPiece v x.fault.isSome (resolveInserts v (newPiece e x))

/-- What the plan leaves of a set's own fields, and its statuses. -/
structure PlansAs (v : State) (e : Pitch) (x : SetRec) (p : Piece) : Prop where
  own : p.entry = e ∧ p.id = x.id ∧ p.slot = x.slot ∧ p.held = x.held ∧ p.verify = .pending ∧ p.path = .undecided
  status : ∀ y ∈ p.planned, y.status = .notCalled
  planned : PlannedPiece v x p
  faults : FaultsAre x.further (x.fault.toList ++ planFaults v x p) p

theorem plans_undescribed (hd : x.slot.bind (descAt v) = none) : PlansAs v e x (plannedPiece v e x) := by
  have h : plannedPiece v e x = newPiece e x := by
    have hd' : (newPiece e x).slot.bind (descAt v) = none := hd
    unfold plannedPiece
    rw [resolveInserts_undescribed hd]
    unfold planPiece
    rw [hd']
  rw [h]
  refine ⟨⟨rfl, rfl, rfl, rfl, rfl, rfl⟩, fun y hy => (nomatch hy), ⟨fun _ => ⟨rfl, rfl, rfl, rfl, rfl⟩, fun d hd' => ?_⟩, ?_⟩
  · rw [hd] at hd'; cases hd'
  · have hno : planFaults v x (newPiece e x) = [] := by unfold planFaults; rw [hd]
    rw [hno, List.append_nil]
    exact newPiece_faults e x

/-- The planned piece of a described set is what a given piece says, when that one meets the rules. -/
theorem plannedPiece_described {p : Piece} (hd : x.slot.bind (descAt v) = some d) (hclass : p.envClass = some d.envClass)
    (hlist : p.planned = if x.fault.isSome then [] else planList v d)
    (hfig : (classOf v d).enabled = true → (x.fault.isSome = true → Figures v x d [] p) ∧
      (x.fault = none → planMissing v d = false → Figures v x d (selectedInserts v d.selection) p))
    (hnone : ((classOf v d).enabled = false ∨ (x.fault = none ∧ planMissing v d = true)) → p.fill = none ∧ p.mass = none ∧ p.band = none) :
    PlannedPiece v x p := by
  have hgood : x.fault = none → p.planned = planList v d := fun hf => by rw [hlist, hf]; rfl
  refine ⟨fun h => absurd (h.symm.trans hd) nofun, fun d' hd' => ?_⟩
  obtain rfl : d = d' := Option.some.inj (hd.symm.trans hd')
  refine ⟨hclass, fun hf => planList_resolved v d (hgood hf), fun hf => by rw [hlist, if_pos hf], fun hc => ?_, fun h => hnone ?_⟩
  · obtain ⟨h1, h2⟩ := hfig hc
    refine ⟨h1, fun hf hall => h2 hf ?_⟩
    rw [planMissing, List.any_eq_false]
    intro y hy
    rw [hgood hf] at hall
    have := hall y hy
    cases hp : y.primary with
    | none => rw [hp] at this; cases this
    | some f => simp
  · refine h.imp id fun ⟨hf, y, hy, hp⟩ => ⟨hf, ?_⟩
    rw [hgood hf] at hy
    exact List.any_eq_true.mpr ⟨y, hy, by rw [hp]; rfl⟩

/-- The faults planning finds, by whether an insert is missing and whether the class is enabled. -/
theorem planFaults_described {p : Piece} (hd : x.slot.bind (descAt v) = some d) (hlist : p.planned = if x.fault.isSome then [] else planList v d) :
    planFaults v x p =
      if x.fault.isSome then (if (classOf v d).enabled then [] else [.envelopeClass])
      else if planMissing v d then .insertUnavailable :: (if (classOf v d).enabled then [] else [.envelopeClass])
      else if (classOf v d).enabled then
        (if (classOf v d).fill < p.fill.getD 0 then [.overstuffed] else []) ++ (if p.band.isNone then [.overweight] else [])
      else [.envelopeClass] := by
  have hc : tget EnvClass.off v.pp.classes d.envClass.toNat = classOf v d := rfl
  unfold planFaults
  rw [hd]
  dsimp only
  rw [hc, hlist]
  cases hf : x.fault with
  | some f => cases (classOf v d).enabled <;> simp
  | none =>
    have hm : ((planList v d).any fun y => y.primary.isNone) = planMissing v d := rfl
    simp only [Option.isSome_none, Option.isNone_none, Bool.false_eq_true, if_false, Bool.true_and, hm]
    cases planMissing v d <;> cases (classOf v d).enabled <;> simp

/-- A set with a fault is looked at for its class alone (R75, R96, R100). -/
theorem plans_faulted (hd : x.slot.bind (descAt v) = some d) (hf : x.fault.isSome = true) : PlansAs v e x (plannedPiece v e x) := by
  have hd' : (newPiece e x).slot.bind (descAt v) = some d := hd
  have hnone : x.fault ≠ none := fun h => by rw [h] at hf; cases hf
  unfold plannedPiece
  rw [resolveInserts_faulted hf, planPiece_eq hd', hf]
  cases hc : (classOf v d).enabled with
  | false =>
    rw [if_pos rfl]
    refine ⟨⟨rfl, rfl, rfl, rfl, rfl, rfl⟩, fun y hy => (nomatch hy), ?_, ?_⟩
    · exact plannedPiece_described hd rfl (by rw [hf]; rfl) (fun h => absurd (h.symm.trans hc) nofun) fun _ => ⟨rfl, rfl, rfl⟩
    · rw [planFaults_described hd (by rw [hf]; rfl), if_pos hf, hc]
      exact (FaultsAre.congr (newPiece_faults e x) rfl rfl).add .envelopeClass
  | true =>
    rw [if_neg nofun, if_pos rfl]
    have hfig : computePiece v (classOf v d) [] { newPiece e x with envClass := some d.envClass } = figuredPiece v e x d [] [] :=
      computePiece_eq v e x d [] []
    rw [hfig]
    refine ⟨⟨rfl, rfl, rfl, rfl, rfl, rfl⟩, fun y hy => (nomatch hy), ?_, ?_⟩
    · exact plannedPiece_described hd rfl (by rw [hf]; rfl) (fun _ => ⟨fun _ => ⟨rfl, rfl, rfl⟩, fun h => absurd h hnone⟩)
        fun h => h.elim (fun h => absurd (hc.symm.trans h) nofun) fun h => absurd h.1 hnone
    · rw [planFaults_described hd (by rw [hf]; rfl), if_pos hf, hc, if_pos rfl, List.append_nil]
      exact FaultsAre.congr (newPiece_faults e x) rfl rfl

/-- A set without a fault, an insert of which has no primary (R77). -/
theorem plans_missing (hd : x.slot.bind (descAt v) = some d) (hf : x.fault = none) (hm : planMissing v d = true) :
    PlansAs v e x (plannedPiece v e x) := by
  have hstart : FaultsAre x.further [.insertUnavailable] (faulted .insertUnavailable { newPiece e x with planned := planList v d }) := by
    have h := newPiece_faults e x
    rw [hf] at h
    exact (FaultsAre.congr h rfl rfl).add .insertUnavailable
  have hd' : (faulted .insertUnavailable { newPiece e x with planned := planList v d }).slot.bind (descAt v) = some d := hd
  have hfault : (faulted .insertUnavailable { newPiece e x with planned := planList v d }).fault.isSome = true := rfl
  have hnot : ¬ x.fault.isSome = true := fun h => by rw [hf] at h; cases h
  unfold plannedPiece
  rw [resolveInserts_good hd hf, if_pos hm, planPiece_eq hd', hf]
  cases hc : (classOf v d).enabled with
  | false =>
    rw [if_pos rfl]
    refine ⟨⟨rfl, rfl, rfl, rfl, rfl, rfl⟩, planList_notCalled v d, ?_, ?_⟩
    · exact plannedPiece_described hd rfl (by rw [hf]; rfl) (fun h => absurd (h.symm.trans hc) nofun) fun _ => ⟨rfl, rfl, rfl⟩
    · rw [planFaults_described hd (by rw [hf]; rfl), if_neg hnot, if_pos hm, hc, hf]
      exact (FaultsAre.congr hstart rfl rfl).add .envelopeClass
  | true =>
    rw [if_neg nofun, if_neg nofun, if_pos hfault]
    refine ⟨⟨rfl, rfl, rfl, rfl, rfl, rfl⟩, planList_notCalled v d, ?_, ?_⟩
    · exact plannedPiece_described hd rfl (by rw [hf]; rfl)
        (fun _ => ⟨fun h => absurd h hnot, fun _ h => absurd (hm.symm.trans h) nofun⟩) fun _ => ⟨rfl, rfl, rfl⟩
    · rw [planFaults_described hd (by rw [hf]; rfl), if_neg hnot, if_pos hm, hc, hf]
      exact FaultsAre.congr hstart rfl rfl

/-- The tests of the figures, and what they leave of the piece (R97, R99). -/
theorem checkPiece_faults (c : EnvClass) {p : Piece} {b : Bool} (h : FaultsAre b [] p) :
    (∃ f g, checkPiece c p = { p with fault := f, further := g }) ∧
      FaultsAre b ((if c.fill < p.fill.getD 0 then [.overstuffed] else []) ++ (if p.band.isNone then [.overweight] else []))
        (checkPiece c p) := by
  unfold checkPiece
  simp only [addFault_eq]
  by_cases hfill : c.fill < p.fill.getD 0
  · simp only [if_pos hfill]
    have hband : (faulted .overstuffed p).band = p.band := rfl
    rw [hband]
    by_cases hb : p.band.isNone = true
    · simp only [if_pos hb]
      exact ⟨⟨_, _, rfl⟩, (h.add .overstuffed).add .overweight⟩
    · simp only [if_neg hb]
      exact ⟨⟨_, _, rfl⟩, h.add .overstuffed⟩
  · simp only [if_neg hfill]
    by_cases hb : p.band.isNone = true
    · simp only [if_pos hb]
      exact ⟨⟨_, _, rfl⟩, h.add .overweight⟩
    · simp only [if_neg hb]
      exact ⟨⟨_, _, rfl⟩, h⟩

/-- A set without a fault and with a primary for each insert (R95-R99). -/
theorem plans_good (hd : x.slot.bind (descAt v) = some d) (hf : x.fault = none) (hm : planMissing v d = false) :
    PlansAs v e x (plannedPiece v e x) := by
  have hstart : FaultsAre x.further [] (newPiece e x) := by
    have h := newPiece_faults e x
    rw [hf] at h; exact h
  have hd' : ({ newPiece e x with planned := planList v d } : Piece).slot.bind (descAt v) = some d := hd
  have hfault : ¬ ({ newPiece e x with planned := planList v d } : Piece).fault.isSome = true := fun h => by
    have h' : x.fault.isSome = true := h
    rw [hf] at h'; cases h'
  have hnot : ¬ x.fault.isSome = true := fun h => by rw [hf] at h; cases h
  have hmiss : ¬ planMissing v d = true := fun h => absurd (hm.symm.trans h) nofun
  unfold plannedPiece
  rw [resolveInserts_good hd hf, if_neg hmiss, planPiece_eq hd', hf]
  cases hc : (classOf v d).enabled with
  | false =>
    rw [if_pos rfl]
    refine ⟨⟨rfl, rfl, rfl, rfl, rfl, rfl⟩, planList_notCalled v d, ?_, ?_⟩
    · exact plannedPiece_described hd rfl (by rw [hf]; rfl) (fun h => absurd (h.symm.trans hc) nofun) fun _ => ⟨rfl, rfl, rfl⟩
    · rw [planFaults_described hd (by rw [hf]; rfl), if_neg hnot, if_neg hmiss, hc, hf]
      exact (FaultsAre.congr hstart rfl rfl).add .envelopeClass
  | true =>
    rw [if_neg nofun, if_neg nofun, if_neg hfault]
    have hfig : computePiece v (classOf v d) ((planList v d).map Planned.insert)
        { newPiece e x with envClass := some d.envClass, planned := planList v d } =
        figuredPiece v e x d (planList v d) (selectedInserts v d.selection) := by
      rw [planList_insert]; exact computePiece_eq v e x d (planList v d) (selectedInserts v d.selection)
    dsimp only
    rw [hfig]
    have hfigured : FaultsAre x.further [] (figuredPiece v e x d (planList v d) (selectedInserts v d.selection)) :=
      FaultsAre.congr hstart rfl rfl
    obtain ⟨⟨f, g, hp⟩, hfaults⟩ := checkPiece_faults (classOf v d) hfigured
    refine ⟨?_, ?_, ?_, ?_⟩
    · rw [hp]; exact ⟨rfl, rfl, rfl, rfl, rfl, rfl⟩
    · rw [hp]; exact planList_notCalled v d
    · rw [hp]
      exact plannedPiece_described hd rfl (by rw [hf]; rfl) (fun _ => ⟨fun h => absurd h hnot, fun _ _ => ⟨rfl, rfl, rfl⟩⟩)
        fun h => h.elim (fun h => absurd (hc.symm.trans h) nofun) fun h => absurd h.2 hmiss
    · have hlist : (checkPiece (classOf v d) (figuredPiece v e x d (planList v d) (selectedInserts v d.selection))).planned =
          if x.fault.isSome then [] else planList v d := by rw [hp, hf]; rfl
      rw [planFaults_described hd hlist, if_neg hnot, if_neg hmiss, hc, if_pos rfl, hf]
      have hfill : (checkPiece (classOf v d) (figuredPiece v e x d (planList v d) (selectedInserts v d.selection))).fill =
          (figuredPiece v e x d (planList v d) (selectedInserts v d.selection)).fill := by rw [hp]
      have hband : (checkPiece (classOf v d) (figuredPiece v e x d (planList v d) (selectedInserts v d.selection))).band =
          (figuredPiece v e x d (planList v d) (selectedInserts v d.selection)).band := by rw [hp]
      rw [hfill, hband]
      exact hfaults

/-- What step 3 of a release plans (R75-R77, R95-R101). -/
theorem plannedPiece_plans (v : State) (e : Pitch) (x : SetRec) : PlansAs v e x (plannedPiece v e x) := by
  cases hd : x.slot.bind (descAt v) with
  | none => exact plans_undescribed hd
  | some d =>
    cases hf : x.fault with
    | some f => exact plans_faulted hd (by rw [hf]; rfl)
    | none =>
      cases hm : planMissing v d with
      | true => exact plans_missing hd hf hm
      | false => exact plans_good hd hf hm

end

end Sys2Proof.Machine
end

section
/-! The parts of a release: the plan carried over, the CALLs, and the slot cleared (R52-R54, R78, R79). -/

namespace Sys2Proof.Machine

/-! ## The plan carried over -/

/-- A planned entry with its status as planning leaves it. -/
def bare (y : Planned) : Planned := { y with status := .notCalled }

/-- A piece with the plan of another: its class, figures and inserts, whatever their statuses. -/
structure PlanKept (p q : Piece) : Prop where
  envClass : q.envClass = p.envClass
  fill : q.fill = p.fill
  mass : q.mass = p.mass
  band : q.band = p.band
  planned : q.planned.map bare = p.planned

section
variable {u v : State} {x : SetRec} {p q : Piece}

theorem PlanKept.mem (h : PlanKept p q) {y : Planned} (hy : y ∈ q.planned) : bare y ∈ p.planned := h.planned ▸ List.mem_map_of_mem hy

theorem PlanKept.length (h : PlanKept p q) : p.planned.length = q.planned.length := by rw [← h.planned, List.length_map]

theorem PlanKept.nil (h : PlanKept p q) (hp : p.planned = []) : q.planned = [] := List.map_eq_nil_iff.mp (h.planned.trans hp)

theorem PlanKept.resolved (h : PlanKept p q) {code : Byte} (hp : InsertsResolved u code p) : InsertsResolved u code q := by
  obtain ⟨hi, he⟩ := hp
  refine ⟨?_, fun y hy => he (bare y) (h.mem hy)⟩
  rw [← hi, ← h.planned, List.map_map]; rfl

theorem PlanKept.figures (h : PlanKept p q) {d : Descriptor} {l : List Nat} (hp : Figures u x d l p) : Figures u x d l q := by
  obtain ⟨h1, h2, h3⟩ := hp
  exact ⟨h.fill.trans h1, h.mass.trans h2, h.band.trans h3⟩

theorem PlanKept.plannedPiece (h : PlanKept p q) (hp : PlannedPiece u x p) : PlannedPiece u x q := by
  obtain ⟨hnone, hsome⟩ := hp
  refine ⟨fun hd => ?_, fun d hd => ?_⟩
  · obtain ⟨h1, h2, h3, h4, h5⟩ := hnone hd
    exact ⟨h.nil h1, h.envClass.trans h2, h.fill.trans h3, h.mass.trans h4, h.band.trans h5⟩
  · obtain ⟨hclass, hres, hnil, hfig, hno⟩ := hsome d hd
    refine ⟨h.envClass.trans hclass, fun hf => h.resolved (hres hf), fun hf => h.nil (hnil hf), fun hc => ?_, fun hor => ?_⟩
    · obtain ⟨h1, h2⟩ := hfig hc
      refine ⟨fun hf => h.figures (h1 hf), fun hf hall => h.figures (h2 hf fun y hy => ?_)⟩
      rw [← h.planned] at hy
      obtain ⟨z, hz, rfl⟩ := List.mem_map.mp hy
      exact hall z hz
    · obtain ⟨h1, h2, h3⟩ := hno (hor.imp id fun ⟨hf, y, hy, hp⟩ => ⟨hf, bare y, h.mem hy, hp⟩)
      exact ⟨h.fill.trans h1, h.mass.trans h2, h.band.trans h3⟩

theorem PlanKept.planFaults (h : PlanKept p q) : planFaults u x q = planFaults u x p := by
  have hany : p.planned.any (fun y => y.primary.isNone) = q.planned.any (fun y => y.primary.isNone) := by
    rw [← h.planned, List.any_map]; rfl
  unfold Machine.planFaults
  rw [h.fill, h.band, hany]

/-- Two states in which a set is planned alike. -/
structure PlansAlike (u v : State) : Prop where
  iu : v.iu = u.iu
  pp : v.pp = u.pp
  layout : v.tu.layout = u.tu.layout
  desc : ∀ n, descAt v n = descAt u n ∨ descAt v n = (descAt u n).map (fun d => { d with state := .diverted })

theorem PlansAlike.slot (h : PlansAlike u v) (x : SetRec) : x.slot.bind (descAt v) = x.slot.bind (descAt u) ∨
    x.slot.bind (descAt v) = (x.slot.bind (descAt u)).map (fun d => { d with state := .diverted }) := by
  cases x.slot with
  | none => exact .inl rfl
  | some n => exact h.desc n

theorem PlansAlike.slot_none (h : PlansAlike u v) (hd : x.slot.bind (descAt u) = none) : x.slot.bind (descAt v) = none := by
  rcases h.slot x with hs | hs <;> rw [hs, hd]; rfl

theorem PlansAlike.slot_some (h : PlansAlike u v) {d : Descriptor} (hd : x.slot.bind (descAt u) = some d) :
    ∃ st, x.slot.bind (descAt v) = some { d with state := st } := by
  rcases h.slot x with hs | hs
  · exact ⟨d.state, hs.trans hd⟩
  · exact ⟨.diverted, by rw [hs, hd]; rfl⟩

theorem PlansAlike.callable (h : PlansAlike u v) (f i : Nat) : Callable v f i ↔ Callable u f i := by
  unfold Callable placeAt feederAt
  rw [h.iu, h.layout]

theorem PlansAlike.primary (h : PlansAlike u v) {i : Nat} {o : Option Nat} (hp : PrimaryIs v i o) : PrimaryIs u i o := by
  cases o with
  | none => exact fun f hf => hp f ((h.callable f i).mpr hf)
  | some f =>
    obtain ⟨hc, hall⟩ := hp
    refine ⟨(h.callable f i).mp hc, fun g hg => ?_⟩
    have hg' := hall g ((h.callable g i).mpr hg)
    unfold placeAt feederAt at hg' ⊢
    rw [h.iu, h.layout] at hg'
    exact hg'

theorem PlansAlike.backup (h : PlansAlike u v) {i : Nat} {o b : Option Nat} (hp : BackupIs v i o b) : BackupIs u i o b := by
  cases o with
  | none => exact hp
  | some f =>
    cases b with
    | none =>
      refine Or.imp (fun hs => by rw [← h.iu]; exact hs) (fun hall g hg => ?_) hp
      have hg' := hall g ((h.callable g i).mpr hg)
      unfold placeAt at hg' ⊢
      rw [h.layout] at hg'
      exact hg'
    | some g =>
      obtain ⟨hs, hc, hlt, hall⟩ := hp
      unfold placeAt at hlt
      rw [h.layout] at hlt
      refine ⟨by rw [← h.iu]; exact hs, (h.callable g i).mp hc, hlt, fun k hk hlt' => ?_⟩
      unfold placeAt at hall hlt' ⊢
      rw [h.layout] at hall
      exact hall k ((h.callable k i).mpr hk) hlt'

theorem PlansAlike.figures (h : PlansAlike u v) {d : Descriptor} {l : List Nat} (hp : Figures v x d l p) : Figures u x d l p := by
  obtain ⟨h1, h2, h3⟩ := hp
  unfold fillCaliper at h1
  unfold wholeMass at h2 h3
  unfold bandFor at h3
  rw [h.iu, h.pp] at h1 h2 h3
  exact ⟨h1, h2, h3⟩

theorem PlansAlike.plannedPiece (h : PlansAlike u v) (hp : PlannedPiece v x p) : PlannedPiece u x p := by
  obtain ⟨hnone, hsome⟩ := hp
  refine ⟨fun hd => hnone (h.slot_none hd), fun d hd => ?_⟩
  obtain ⟨st, hd'⟩ := h.slot_some hd
  obtain ⟨hclass, hres, hnil, hfig, hno⟩ := hsome _ hd'
  rw [h.pp] at hfig hno
  have hselect : ∀ code, selectedInserts v code = selectedInserts u code := fun code => by unfold selectedInserts; rw [h.iu]
  refine ⟨hclass, fun hf => ?_, hnil, fun hc => ?_, hno⟩
  · obtain ⟨h1, h2⟩ := hres hf
    exact ⟨h1.trans (hselect _), fun y hy => ⟨h.primary (h2 y hy).1, h.backup (h2 y hy).2⟩⟩
  · obtain ⟨h1, h2⟩ := hfig hc
    refine ⟨fun hf => h.figures (d := d) (h1 hf), fun hf hall => ?_⟩
    have h2' := h2 hf hall
    rw [hselect] at h2'
    exact h.figures (d := d) h2'

theorem PlansAlike.planFaults (h : PlansAlike u v) (x : SetRec) (p : Piece) : planFaults v x p = planFaults u x p := by
  unfold Machine.planFaults
  rw [h.pp]
  cases hd : x.slot.bind (descAt u) with
  | none => rw [h.slot_none hd]
  | some d =>
    obtain ⟨st, hd'⟩ := h.slot_some hd
    rw [hd']

end

/-! ## The CALLs of a release (R78, R79) -/

/-- A planned entry called. -/
def called (y : Planned) : Planned := { y with status := .called }

/-- The CALL of a planned entry (R78). -/
def callFor (u : State) (p : Piece) (y : Planned) : Frame := callOf u p (y.primary.getD 0) y.insert

theorem commandFree_enqueue {f : Frame} (h : isManagement f = false) (s : State) : commandFree (enqueue s f) = commandFree s - 1 := by
  unfold commandFree
  rw [commands_enqueue h, List.length_append, List.length_singleton]
  omega

/-- What the CALLs of a list of entries leave: as many as command entries are free, and the cause at the first that finds none. -/
structure CallsSent (p : Piece) (l : List Planned) (s : State) (r : State × List Planned × Bool) : Prop where
  entries : r.2.1 = (l.take (min l.length (commandFree s))).map called ++ l.drop (min l.length (commandFree s))
  overflow : r.2.2 = decide (commandFree s < l.length)
  commands : commands r.1 = commands s ++ (l.take (min l.length (commandFree s))).map (callFor s p)
  quiet : l.length ≤ commandFree s → r.1.cl = s.cl
  cause : ∀ y, l[commandFree s]? = some y →
    CauseTaken .commandQueueFull (some (placeAt s (y.primary.getD 0)).addr) (some s.tu.pitch) p.id s r.1

theorem sendCalls_spec (p : Piece) : ∀ (l : List Planned) (s : State), (∀ y ∈ l, y.primary.isSome = true) →
    CallsSent p l s (sendCalls p l s)
  | [], s, _ => by
    refine ⟨by simp [sendCalls], by simp [sendCalls], by simp [sendCalls], fun _ => rfl, fun y hy => ?_⟩
    simp at hy
  | y :: l, s, hall => by
    obtain ⟨f, hf⟩ := Option.isSome_iff_exists.mp (hall y List.mem_cons_self)
    cases hroom : commandRoom s with
    | false =>
      have hfree := (commandRoom_false_iff s).mp hroom
      have he : sendCalls p (y :: l) s =
          (raise .commandQueueFull (some (placeAt s f).addr) (some s.tu.pitch) p.id s, y :: l, true) := by
        simp [sendCalls, hf, sendCommand, hroom]
      rw [he]
      refine ⟨by simp [hfree], by simp [hfree], by simp [hfree, commands_raise], fun h => ?_, fun z hz => ?_⟩
      · rw [hfree, List.length_cons] at h; omega
      · rw [hfree, List.getElem?_cons_zero] at hz
        obtain rfl := Option.some.inj hz
        rw [hf]; exact raise_causeTaken ..
    | true =>
      have hfree := (commandRoom_iff s).mp hroom
      have hframe : isManagement (callFrame s p f y.insert) = false := rfl
      have hcf := commandFree_enqueue hframe s
      have ih := sendCalls_spec p l (enqueue s (callFrame s p f y.insert)) fun z hz => hall z (List.mem_cons_of_mem _ hz)
      have he : sendCalls p (y :: l) s = ((sendCalls p l (enqueue s (callFrame s p f y.insert))).1,
          called y :: (sendCalls p l (enqueue s (callFrame s p f y.insert))).2.1,
          (sendCalls p l (enqueue s (callFrame s p f y.insert))).2.2) := by
        simp [sendCalls, hf, sendCommand, hroom, called]
      obtain ⟨n, hn⟩ : ∃ n, commandFree s = n + 1 := ⟨commandFree s - 1, by omega⟩
      have hmin : min (l.length + 1) (n + 1) = min l.length n + 1 := by omega
      rw [hn, Nat.add_sub_cancel] at hcf
      have hcall : ∀ z, callFor (enqueue s (callFrame s p f y.insert)) p z = callFor s p z := fun z => rfl
      obtain ⟨h1, h2, h3, h4, h5⟩ := ih
      rw [hcf] at h1 h2 h3 h4 h5
      rw [he]
      refine ⟨?_, ?_, ?_, fun h => ?_, fun z hz => ?_⟩
      · rw [hn, List.length_cons, hmin, List.take_succ_cons, List.drop_succ_cons, h1]; rfl
      · rw [hn, List.length_cons, h2]; simp
      · rw [hn, List.length_cons, hmin, List.take_succ_cons, h3, commands_enqueue hframe, List.map_cons, List.append_assoc,
          List.singleton_append]
        have hy : callFor s p y = callFrame s p f y.insert := by unfold callFor; rw [hf]; rfl
        rw [hy]; rfl
      · rw [hn, List.length_cons] at h
        exact (h4 (by omega)).trans rfl
      · rw [hn, List.getElem?_cons_succ] at hz
        exact h5 z hz

end Sys2Proof.Machine
end

section
/-! The release of the head set (R40, R51-R54, R75-R79, R95-R101, R105-R107). -/

namespace Sys2Proof.Machine

/-! ## What every part of a release keeps -/

/-- Nothing but ring, slots, bins, collation unit, summary, log and originate queue has changed. -/
structure Carried (u t : State) : Prop where
  tu : t.tu = { u.tu with ring := t.tu.ring }
  ds : t.ds = { u.ds with slots := t.ds.slots }
  bu : t.bu = { u.bu with bins := t.bu.bins }
  iu : t.iu = u.iu
  pp : t.pp = u.pp
  su : t.su = u.su
  rc : t.rc = u.rc
  lines : SameLines u t
  port : SamePort u t

section
variable {u v t : State} {k : Nat}

theorem Carried.trans (h : Carried u v) (h' : Carried v t) : Carried u t := by
  obtain ⟨h1, h2, h3, h4, h5, h6, h7, ⟨h8, h9, h10⟩, ⟨p1, p2, p3, p4, p5⟩⟩ := h
  obtain ⟨g1, g2, g3, g4, g5, g6, g7, ⟨g8, g9, g10⟩, ⟨q1, q2, q3, q4, q5⟩⟩ := h'
  exact ⟨by rw [g1, h1], by rw [g2, h2], by rw [g3, h3], g4.trans h4, g5.trans h5, g6.trans h6, g7.trans h7,
    ⟨g8.trans h8, g9.trans h9, g10.trans h10⟩, ⟨q1.trans p1, q2.trans p2, q3.trans p3, q4.trans p4, q5.trans p5⟩⟩

theorem carried_enqueue (u : State) (f : Frame) : Carried u (enqueue u f) :=
  ⟨rfl, rfl, rfl, rfl, rfl, rfl, rfl, ⟨rfl, rfl, rfl⟩, ⟨rfl, rfl, rfl, rfl, rfl⟩⟩

theorem carried_setPiece (u : State) (k : Nat) (p : Option Piece) : Carried u (setPiece u k p) :=
  ⟨rfl, rfl, rfl, rfl, rfl, rfl, rfl, ⟨rfl, rfl, rfl⟩, ⟨rfl, rfl, rfl, rfl, rfl⟩⟩

theorem carried_sendCalls (p : Piece) (l : List Planned) (u : State) : Carried u (sendCalls p l u).1 := by
  obtain ⟨h1, h2, h3, h4, h5, h6, h7, h8, h9, h10, h11, -, -, p1, p2, p3, p4, p5, -⟩ := sendCalls_keeps p l u
  exact ⟨by rw [h6], by rw [h4], by rw [h10], h7, h8, h9, h11, ⟨h1, h2, h3⟩, ⟨p1, p2, p3, p4, p5⟩⟩

/-! ## The piece still in the slot (R54) -/

/-- A slot cleared: its piece, if it has one, leaves LOST and gives up its place in a tray. -/
structure SlotCleared (k : Nat) (u t : State) : Prop where
  carried : Carried u t
  other : ∀ j, j ≠ k → pieceAt t j = pieceAt u j
  cu : t.cu = u.cu
  quiet : NoCause u t
  bins : ∀ b, binAt t b = (pieceAt u k).elim (binAt u b) (fun y => unreserved y.path y.mass b (binAt u b))
  log : t.cl.log = u.cl.log ++ (pieceAt u k).toList.map (fun y => ⟨u.rc.run, some y.entry, y.id, y.slot, .lost, none, none,
    some (y.fault.getD .lost), y.further || y.fault.isSome, y.held, y.mass, (y.slot.bind (descAt u)).map Descriptor.reprint⟩)
  counters : t.cl.counters = { u.cl.counters with
    exited := if (pieceAt u k).isSome then u.cl.counters.exited + 1 else u.cl.counters.exited
    diverted := if (pieceAt u k).isSome then u.cl.counters.diverted + 1 else u.cl.counters.diverted }
  desc : ∀ n, descAt t n = if (pieceAt u k).bind Piece.slot = some n then (descAt u n).map (fun d => { d with state := .diverted })
    else descAt u n

theorem slotCleared_empty (h : pieceAt u k = none) : SlotCleared k u u := by
  refine ⟨⟨rfl, rfl, rfl, rfl, rfl, rfl, rfl, ⟨rfl, rfl, rfl⟩, ⟨rfl, rfl, rfl, rfl, rfl⟩⟩, fun _ _ => rfl, rfl, ⟨rfl, rfl, rfl, rfl⟩,
    fun b => ?_, ?_, ?_, fun n => ?_⟩ <;> rw [h]
  · rfl
  · simp
  · rfl
  · rfl

/-- While a set is in the queue a piece that leaves is not the last in flight. -/
theorem flightChanged_of_queue (h : u.cu.queue ≠ []) : flightChanged u = u := by
  have hpos := List.length_pos_iff.mpr h
  refine if_neg fun hc => ?_
  have h0 : u.cu.place.toList.length + u.cu.queue.length + u.tu.ring.length = 0 := hc.2
  omega

/-- The LOST entry of a piece. -/
def lostEntry (u : State) (y : Piece) : Entry := pieceEntry u .lost none none (faulted .lost y)

theorem leaveWithout_lost {y : Piece} (hq : u.cu.queue ≠ []) (hp : pieceAt u k = some y) :
    leaveWithout .lost .lost k u = writeEntry (lostEntry u y) (setPiece (releaseReservation y.path y.mass u) k none) := by
  obtain ⟨-, hpath, hmass⟩ := addFault_keeps .lost y
  have hcu : (writeEntry (lostEntry u y) (setPiece (releaseReservation y.path y.mass u) k none)).cu = u.cu := by simp [setPiece]
  unfold leaveWithout
  rw [hp]
  dsimp only
  rw [hpath, hmass, addFault_eq]
  exact flightChanged_of_queue ((congrArg Cu.queue hcu).trans_ne hq)

theorem leaveWithout_cleared (hq : u.cu.queue ≠ []) : SlotCleared k u (leaveWithout .lost .lost k u) := by
  cases hp : pieceAt u k with
  | none =>
    have ht : leaveWithout .lost .lost k u = u := by unfold leaveWithout; rw [hp]
    rw [ht]; exact slotCleared_empty hp
  | some y =>
    rw [leaveWithout_lost hq hp]
    obtain ⟨k1, k2, k3, k4, k5, k6, k7, k8, k9, k10, k11, k12⟩ := releaseReservation_keeps y.path y.mass u
    have hbu := releaseReservation_bu y.path y.mass u
    have hbins := binAt_releaseReservation y.path y.mass u
    generalize releaseReservation y.path y.mass u = r at k1 k2 k3 k4 k5 k6 k7 k8 k9 k10 k11 k12 hbu hbins ⊢
    obtain ⟨w1, w2, w3, w4, w5, w6, ⟨w7, w8, w9⟩, w10, w11, w12, w13, w14⟩ := writeEntry_rest (lostEntry u y) (setPiece r k none)
    obtain ⟨hlog, hcounters⟩ := writeEntry_account (lostEntry u y) (setPiece r k none)
    have hdesc := descAt_writeEntry (lostEntry u y) (setPiece r k none)
    have hds := writeEntry_ds (lostEntry u y) (setPiece r k none)
    generalize writeEntry (lostEntry u y) (setPiece r k none) = m at w1 w2 w3 w4 w5 w6 w7 w8 w9 w10 w11 w12 w13 w14 hlog hcounters hdesc hds ⊢
    have hbum : m.bu = r.bu := w5
    have hrp : m.rp = u.rp := w4.trans k12
    refine ⟨⟨?_, ?_, ?_, w11.trans k7, w12.trans k8, w13.trans k9, w14.trans k10, ⟨w7.trans k1, w8.trans k2, w9.trans k3⟩, ?_⟩,
      fun j hj => ?_, w10.trans k5, ⟨w1.trans (congrArg Cl.summary k11), w2.trans (congrArg Cl.capture k11),
        w3.trans (congrArg Cl.alertPending k11), hrp⟩, fun b => ?_, ?_, ?_, fun n => ?_⟩
    · rw [w6, setPiece, withTu_tu, k6]
    · rw [hds, setPiece_ds, k4]
    · rw [hbum]; exact hbu
    · rw [SamePort, hrp]; exact ⟨rfl, rfl, rfl, rfl, rfl⟩
    · rw [pieceAt_congr w6, pieceAt_setPiece_other hj, pieceAt_congr k6]
    · rw [hp, binAt_congr hbum b]; exact hbins b
    · rw [hlog, setPiece_cl, k11, hp]; rfl
    · rw [hcounters, setPiece_cl, k11, hp]; rfl
    · rw [hdesc n, hp, descAt_congr (show (setPiece r k none).ds = u.ds by rw [setPiece_ds, k4]) n]; rfl

end

/-! ## The CALLs and the path (R78, R79, R105) -/

section
variable {u v t : State} {k : Nat} {e : Pitch} {x : SetRec}

/-- A release up to its path: the piece as placed with its calls made, in a state v with the RELEASE queued and the slot cleared. -/
def calledPiece (p : Piece) (v : State) : Piece :=
  if p.fault.isNone then
    (if (sendCalls p p.planned v).2.2 then faulted .commandOverflow { p with planned := (sendCalls p p.planned v).2.1 }
      else { p with planned := (sendCalls p p.planned v).2.1 })
  else p

/-- The state once a piece's CALLs are sent. -/
def callsState (p : Piece) (v : State) : State := if p.fault.isNone then (sendCalls p p.planned v).1 else v

theorem callPiece_eq (k : Nat) (p : Piece) (v : State) : callPiece k p v = setPiece (callsState p v) k (some (calledPiece p v)) := by
  unfold callPiece callsState calledPiece
  simp only [addFault_eq]
  cases p.fault.isNone <;> rfl

/-- The number of CALLs sent. -/
def callsCount (p : Piece) (v : State) : Nat := if p.fault.isNone then min p.planned.length (commandFree v) else 0

/-- What the CALLs of a planned piece leave. -/
structure CallsLeft (p : Piece) (v : State) : Prop where
  kept : PlanKept p (calledPiece p v)
  own : (calledPiece p v).entry = p.entry ∧ (calledPiece p v).id = p.id ∧ (calledPiece p v).slot = p.slot ∧
    (calledPiece p v).held = p.held ∧ (calledPiece p v).verify = p.verify ∧ (calledPiece p v).path = p.path
  status : ∀ i y, (calledPiece p v).planned[i]? = some y → y.status = if i < callsCount p v then .called else .notCalled
  fault : p.fault = none → (calledPiece p v).fault = (if commandFree v < p.planned.length then some .commandOverflow else none) ∧
    (calledPiece p v).further = p.further
  faulted : p.fault ≠ none → calledPiece p v = p
  commands : commands (callsState p v) = commands v ++ (p.planned.take (callsCount p v)).map (callFor v p)
  carried : Carried v (callsState p v)
  frame : (callsState p v).tu = v.tu ∧ (callsState p v).bu = v.bu ∧ (callsState p v).ds = v.ds ∧ (callsState p v).cu = v.cu ∧
    (callsState p v).cl.log = v.cl.log ∧ (callsState p v).cl.counters = v.cl.counters
  quiet : (p.fault ≠ none ∨ p.planned.length ≤ commandFree v) → (callsState p v).cl = v.cl
  cause : p.fault = none → ∀ y, p.planned[callsCount p v]? = some y →
    CauseTaken .commandQueueFull (some (placeAt v (y.primary.getD 0)).addr) (some v.tu.pitch) p.id v (callsState p v)

theorem map_bare {l : List Planned} (h : ∀ y ∈ l, y.status = .notCalled) : l.map bare = l := by
  refine (List.map_congr_left fun y hy => ?_).trans (List.map_id l)
  have hy' := h y hy
  obtain ⟨i, a, b, st⟩ := y
  obtain rfl : st = .notCalled := hy'
  rfl

/-- The statuses of a list whose first n entries are called. -/
theorem called_status {l : List Planned} (h : ∀ y ∈ l, y.status = .notCalled) (n i : Nat) {y : Planned}
    (hy : ((l.take n).map called ++ l.drop n)[i]? = some y) : y.status = if i < n then .called else .notCalled := by
  by_cases hi : i < ((l.take n).map called).length
  · rw [List.getElem?_append_left hi] at hy
    rw [List.length_map, List.length_take] at hi
    rw [if_pos (by omega)]
    obtain ⟨z, -, rfl⟩ := List.mem_map.mp (List.mem_of_getElem? hy)
    rfl
  · have hlen := List.length_map (as := l.take n) called
    rw [List.length_take] at hlen
    rw [List.getElem?_append_right (Nat.not_lt.mp hi)] at hy
    have hmem := List.mem_of_getElem? hy
    have hlt : ¬ i < n := fun hlt => by
      have hdrop : l.drop n = [] := List.drop_eq_nil_iff.mpr (by omega)
      rw [hdrop] at hmem; cases hmem
    rw [if_neg hlt]
    exact h y (List.mem_of_mem_drop hmem)

theorem called_bare {l : List Planned} (h : ∀ y ∈ l, y.status = .notCalled) (n : Nat) :
    ((l.take n).map called ++ l.drop n).map bare = l := by
  have hc : ∀ m : List Planned, (m.map called).map bare = m.map bare := fun m => by rw [List.map_map]; rfl
  rw [List.map_append, hc, ← List.map_append, List.take_append_drop, map_bare h]

theorem callsLeft_faulted {p : Piece} (hstatus : ∀ y ∈ p.planned, y.status = .notCalled) (hf : p.fault ≠ none) : CallsLeft p v := by
  have hno : p.fault.isNone = false := by cases h : p.fault with
    | none => exact absurd h hf
    | some f => rfl
  have hbare := map_bare hstatus
  have hp : calledPiece p v = p := by unfold calledPiece; rw [hno]; rfl
  have hv : callsState p v = v := by unfold callsState; rw [hno]; rfl
  have hn : callsCount p v = 0 := by unfold callsCount; rw [hno]; rfl
  refine ⟨?_, ?_, ?_, fun h => absurd h hf, fun _ => hp, ?_, ?_, ?_, fun _ => by rw [hv], fun h => absurd h hf⟩
  · rw [hp]; exact ⟨rfl, rfl, rfl, rfl, hbare⟩
  · rw [hp]; exact ⟨rfl, rfl, rfl, rfl, rfl, rfl⟩
  · rw [hp, hn]
    exact fun i y hy => hstatus y (List.mem_of_getElem? hy)
  · rw [hv, hn]; simp
  · rw [hv]; exact ⟨rfl, rfl, rfl, rfl, rfl, rfl, rfl, ⟨rfl, rfl, rfl⟩, ⟨rfl, rfl, rfl, rfl, rfl⟩⟩
  · rw [hv]; exact ⟨rfl, rfl, rfl, rfl, rfl, rfl⟩

theorem callsLeft_good {p : Piece} (hstatus : ∀ y ∈ p.planned, y.status = .notCalled) (hf : p.fault = none)
    (hall : ∀ y ∈ p.planned, y.primary.isSome = true) : CallsLeft p v := by
  obtain ⟨hentries, hover, hcommands, hquiet, hcause⟩ := sendCalls_spec p p.planned v hall
  obtain ⟨-, -, -, hds, hcu, htu, -, -, -, hbu, -, hlog, hcounters, -⟩ := sendCalls_keeps p p.planned v
  have hyes : p.fault.isNone = true := by rw [hf]; rfl
  have hv : callsState p v = (sendCalls p p.planned v).1 := by unfold callsState; rw [if_pos hyes]
  have hn : callsCount p v = min p.planned.length (commandFree v) := by unfold callsCount; rw [if_pos hyes]
  have hp : calledPiece p v = if commandFree v < p.planned.length then
        Machine.faulted .commandOverflow { p with planned := (sendCalls p p.planned v).2.1 }
      else { p with planned := (sendCalls p p.planned v).2.1 } := by
    unfold calledPiece
    rw [if_pos hyes, hover]
    simp only [decide_eq_true_eq]
  have hlist : (calledPiece p v).planned =
      (p.planned.take (callsCount p v)).map called ++ p.planned.drop (callsCount p v) := by
    rw [hp, hn, ← hentries]; split <;> rfl
  refine ⟨⟨?_, ?_, ?_, ?_, ?_⟩, ?_, fun i y hy => ?_, fun _ => ?_, fun h => absurd hf h, ?_, ?_, ?_, fun h => ?_, fun _ y hy => ?_⟩
  · rw [hp]; split <;> rfl
  · rw [hp]; split <;> rfl
  · rw [hp]; split <;> rfl
  · rw [hp]; split <;> rfl
  · rw [hlist]; exact called_bare hstatus _
  · rw [hp]; split <;> exact ⟨rfl, rfl, rfl, rfl, rfl, rfl⟩
  · rw [hlist] at hy; exact called_status hstatus _ i hy
  · rw [hp]
    by_cases h : commandFree v < p.planned.length
    · rw [if_pos h, if_pos h]
      simp [Machine.faulted, hf]
    · rw [if_neg h, if_neg h]; exact ⟨hf, rfl⟩
  · rw [hv, hn]; exact hcommands
  · rw [hv]; exact carried_sendCalls ..
  · rw [hv]; exact ⟨htu, hbu, hds, hcu, hlog, hcounters⟩
  · rw [hv]; exact hquiet (h.resolve_left fun h => h hf)
  · rw [hv]
    refine hcause y ?_
    have hlt : callsCount p v < p.planned.length := (List.getElem?_eq_some_iff.mp hy).1
    rw [show commandFree v = callsCount p v by rw [hn] at hlt ⊢; omega]
    exact hy

/-- The path of a piece at the end of its release. -/
def pathed (p : Piece) (v : State) : Piece :=
  { p with path := if p.fault = none then .undecided else if GateInReach v p ∧ commandRoom v = true then .gate else .reject }

/-- What the path rule at a release leaves (R105). -/
structure PathLeft (k : Nat) (p : Piece) (v t : State) : Prop where
  piece : pieceAt t k = some (pathed p v)
  only : OnlyPiece k v t
  port : SamePort v t
  bins : ∀ b, binAt t b = binAt v b
  commands : commands t = commands v ++ (if (pathed p v).path = .gate then [divertOf v p] else [])
  quiet : (p.fault = none ∨ ¬ GateInReach v p ∨ commandRoom v = true) → t.cl = v.cl
  cause : p.fault ≠ none → GateInReach v p → commandRoom v = false →
    CauseTaken .commandQueueFull (some v.tu.layout.gate.addr) (some v.tu.pitch) p.id v t

theorem pathAtRelease_left {p : Piece} (hp : pieceAt v k = some p) (hu : p.path = .undecided) : PathLeft k p v (pathAtRelease k v) := by
  have hport : SamePort v (pathAtRelease k v) := by
    obtain ⟨-, -, -, -, -, -, -, -, -, -, -, -, -, -, p1, p2, p3, p4, p5, -⟩ := pathAtRelease_keeps k v
    exact ⟨p1, p2, p3, p4, p5⟩
  cases hf : p.fault with
  | none =>
    have ht : pathAtRelease k v = v := by unfold pathAtRelease; rw [hp]; dsimp only; rw [hf]; rfl
    have hq : pathed p v = p := by unfold pathed; rw [if_pos hf, ← hu]
    rw [ht] at hport ⊢
    refine ⟨by rw [hq]; exact hp, ⟨fun _ _ => rfl, rfl, rfl, ⟨rfl, rfl, rfl⟩, rfl, rfl, rfl, rfl, rfl, rfl, rfl, rfl⟩, hport, fun _ => rfl, ?_,
      fun _ => rfl, fun h => absurd hf h⟩
    rw [hq, hu]; simp
  | some f =>
    have hne : ¬ p.fault = none := fun h => by rw [hf] at h; cases h
    have ht : pathAtRelease k v = pathRule k p v := by unfold pathAtRelease; rw [hp]; dsimp only; rw [hf]; rfl
    obtain ⟨honly, hgate, -, hstay⟩ := pathRule_spec hp
    rw [ht] at hport ⊢
    generalize pathRule k p v = t at honly hgate hstay hport
    have hq : pathed p v = { p with path := if GateInReach v p ∧ commandRoom v = true then .gate else .reject } := by
      unfold pathed; rw [if_neg hne]
    by_cases hg : GateInReach v p ∧ commandRoom v = true
    · obtain ⟨hpiece, hun, hrp, hcl⟩ := hgate hg.1 hg.2
      rw [if_pos hg] at hq
      refine ⟨by rw [hq]; exact hpiece, honly, hport, fun b => ?_, ?_, fun _ => hcl, fun _ _ h => absurd (hg.2.symm.trans h) nofun⟩
      · rw [hun b, hu]; rfl
      · rw [hq, if_pos rfl]
        unfold Machine.commands
        rw [hrp, List.filter_append]; rfl
    · rw [if_neg hg] at hq
      have hside : ¬ GateInReach v p ∨ commandRoom v = false := by
        by_cases h : GateInReach v p
        · exact .inr (Bool.not_eq_true _ ▸ fun hr => hg ⟨h, hr⟩)
        · exact .inl h
      obtain ⟨hpiece, hbu, hcommands, hcause, -, hquiet⟩ := hstay hside (.inl (by rw [hu]; rfl))
      rw [if_pos hu] at hpiece
      refine ⟨by rw [hq]; exact hpiece, honly, hport, fun b => binAt_congr hbu b, ?_, fun h => ?_, fun _ h _ => hcause h⟩
      · rw [hq, if_neg nofun, List.append_nil]; exact hcommands
      · rcases h with h | h | h
        · exact absurd h hne
        · exact (hquiet h (.inl (by rw [hu]; rfl))).1
        · exact (hquiet (fun hr => hg ⟨hr, h⟩) (.inl (by rw [hu]; rfl))).1

end

end Sys2Proof.Machine
end

section
/-! The release of the head set, put together (R40, R51-R54, R75-R79, R95-R101, R105-R107). -/

namespace Sys2Proof.Machine

/-! ## Steps 1 and 2: the RELEASE queued and the record placed -/

/-- A released piece's slot taken, before its inserts are resolved: the RELEASE queued, and the slot's old piece out. -/
structure SetPlaced (e : Pitch) (u v : State) : Prop where
  carried : Carried u v
  other : ∀ j, j ≠ ringSlot e → pieceAt v j = pieceAt u j
  cu : v.cu = u.cu
  commands : commands v = commands u ++ [⟨u.tu.layout.accumulator, .release, stampOf e, []⟩]
  summary : v.cl.summary = u.cl.summary
  capture : v.cl.capture = u.cl.capture
  bins : ∀ b, binAt v b = (pieceAt u (ringSlot e)).elim (binAt u b) (fun y => unreserved y.path y.mass b (binAt u b))
  log : v.cl.log = u.cl.log ++ (pieceAt u (ringSlot e)).toList.map (fun y => ⟨u.rc.run, some y.entry, y.id, y.slot, .lost, none, none,
    some (y.fault.getD .lost), y.further || y.fault.isSome, y.held, y.mass, (y.slot.bind (descAt u)).map Descriptor.reprint⟩)
  counters : v.cl.counters = { u.cl.counters with
    released := u.cl.counters.released + 1
    exited := if (pieceAt u (ringSlot e)).isSome then u.cl.counters.exited + 1 else u.cl.counters.exited
    diverted := if (pieceAt u (ringSlot e)).isSome then u.cl.counters.diverted + 1 else u.cl.counters.diverted }
  desc : ∀ n, descAt v n = if (pieceAt u (ringSlot e)).bind Piece.slot = some n then (descAt u n).map (fun d => { d with state := .diverted })
    else descAt u n

/-- The state in which a released record is planned. -/
def placedState (e : Pitch) (x : SetRec) (u : State) : State :=
  tally (setPiece (leaveWithout .lost .lost (ringSlot e) (enqueue u (releaseFrame u e))) (ringSlot e) (some (newPiece e x)))
    (fun c => { c with released := c.released + 1 })

section
variable {u v : State} {e : Pitch} {x : SetRec}

theorem setPlaced (hq : u.cu.queue ≠ []) : SetPlaced e u (placedState e x u) := by
  have hc := leaveWithout_cleared (k := ringSlot e) (u := enqueue u (releaseFrame u e)) hq
  have hcommands := commands_enqueue (f := releaseFrame u e) rfl u
  unfold placedState
  generalize leaveWithout .lost .lost (ringSlot e) (enqueue u (releaseFrame u e)) = w at hc ⊢
  have hw : Carried u (setPiece w (ringSlot e) (some (newPiece e x))) :=
    ((carried_enqueue u _).trans hc.carried).trans (carried_setPiece ..)
  obtain ⟨w1, w2, w3, w4, w5, w6, w7, w8, w9⟩ := hw
  obtain ⟨hsum, hcap, -, hrp⟩ := hc.quiet
  refine ⟨⟨w1, w2, w3, w4, w5, w6, w7, w8, w9⟩, fun j hj => ?_, hc.cu, ?_, hsum, hcap, hc.bins, hc.log, ?_, hc.desc⟩
  · exact (pieceAt_setPiece_other hj w _).trans (hc.other j hj)
  · exact (commands_congr (t := tally (setPiece w _ _) _) hrp).trans hcommands
  · have hcounters := hc.counters
    show { w.cl.counters with released := w.cl.counters.released + 1 } = _
    rw [hcounters]; rfl

theorem releaseHead_full {rest : List SetRec} (hq : u.cu.queue = x :: rest) (h : commandRoom u = false) :
    releaseHead u = raise .commandQueueFull none none none u := by
  have hs : ∀ f, sendCommand u f = none := fun f => by unfold sendCommand; rw [h]; rfl
  unfold releaseHead
  rw [hq]
  dsimp only
  rw [hs]

/-- The release with an entry free: plan, CALLs, path, queue and the test of R40 (R52). -/
theorem releaseHead_room {rest : List SetRec} (hq : u.cu.queue = x :: rest) (h : commandRoom u = true)
    (he : e = u.tu.pitch + BitVec.ofNat 32 u.tu.timing.lr) : releaseHead u = cutterTest (shiftQueue (pathAtRelease (ringSlot e)
      (callPiece (ringSlot e) (plannedPiece (placedState e x u) e x) (placedState e x u)))) := by
  have hs : ∀ f, sendCommand u f = some (enqueue u f) := fun f => by unfold sendCommand; rw [h]; rfl
  unfold releaseHead
  rw [hq]
  dsimp only
  rw [hs, he]; rfl

/-- Step 5: the head leaves, and a waiting record follows (R36, R52). -/
theorem shiftQueue_cu (v : State) : (shiftQueue v).cu = { v.cu with
    queue := v.cu.queue.tail ++ ((v.cu.place.filter OpenRec.waiting).map OpenRec.set).toList
    place := v.cu.place.filter (fun r => !r.waiting) } := by
  unfold shiftQueue
  cases hp : v.cu.place with
  | none => simp [hp]
  | some r =>
    dsimp only
    cases hw : r.waiting with
    | true => simp [Option.filter_some, hw]
    | false => simp [Option.filter_some, hw, hp]

/-! ## The plan, against the state before the release -/

theorem SetPlaced.plansAlike (h : SetPlaced e u v) : PlansAlike u v := by
  refine ⟨h.carried.iu, h.carried.pp, ?_, fun n => ?_⟩
  · rw [h.carried.tu]
  · rw [h.desc n]
    split
    · exact .inr rfl
    · exact .inl rfl

/-- A piece planned without a fault has a primary for each insert (R77). -/
theorem planned_primaries {p : Piece} (hx : x.fault = none) (hplan : PlannedPiece u x p) (hno : planFaults u x p = []) :
    ∀ y ∈ p.planned, y.primary.isSome = true := by
  cases hd : x.slot.bind (descAt u) with
  | none =>
    rw [(hplan.1 hd).1]
    exact fun y hy => nomatch hy
  | some d =>
    unfold planFaults at hno
    rw [hd] at hno
    dsimp only at hno
    rw [List.append_assoc, List.append_assoc, List.append_eq_nil_iff] at hno
    have hmiss : ¬ (x.fault.isNone && p.planned.any fun y => y.primary.isNone) = true := fun hm => by
      rw [if_pos hm] at hno; exact nomatch hno.1
    intro y hy
    cases hp : y.primary with
    | some f => rfl
    | none =>
      refine absurd ?_ hmiss
      rw [hx, Bool.and_eq_true]
      exact ⟨rfl, List.any_eq_true.mpr ⟨y, hy, by rw [hp]; rfl⟩⟩

theorem commandFree_placed (h : SetPlaced e u v) : commandFree v = commandFree u - 1 := by
  unfold commandFree
  rw [h.commands, List.length_append, List.length_singleton]; omega

/-- A planned piece has no fault when its set came with none and planning found none. -/
theorem FaultsAre.none_iff {b : Bool} {l : List PieceFault} {p : Piece} (h : FaultsAre b l p) : p.fault = none ↔ l = [] := by
  rw [h.1, List.head?_eq_none_iff]

end

/-! ## The released piece -/

/-- What a release makes of the piece of its set, p in the end, in a state v with the set placed. -/
structure Released (e : Pitch) (x : SetRec) (u : State) (p : Piece) (v m : State) : Prop where
  placed : SetPlaced e u v
  room : 0 < commandFree u
  piece : p = pathed (calledPiece (plannedPiece v e x) v) (callPiece (ringSlot e) (plannedPiece v e x) v)
  plans : PlansAs v e x (plannedPiece v e x)
  calls : CallsLeft (plannedPiece v e x) v
  path : PathLeft (ringSlot e) (calledPiece (plannedPiece v e x) v) (callPiece (ringSlot e) (plannedPiece v e x) v) m

section
variable {u v m : State} {e : Pitch} {x : SetRec} {p : Piece}

/-- The causes a release takes are among those of its act. -/
theorem CauseTaken.among {f : Flag} {a : Option Addr} {q : Option Pitch} {i : Option PieceId} {s w t : State} (hc : CauseTaken f a q i w t)
    (hs : w.cl.summary = s.cl.summary) (hk : w.cl.capture = s.cl.capture) : CauseAmong f a q i s t := by
  refine ⟨?_, by rw [hc.2, hs, hk]⟩
  rw [hc.1, BitVec.getLsbD_or]
  have hbit : (flagMask f).getLsbD (flagBit f) = true := by cases f <;> decide
  rw [hbit, Bool.or_true]

theorem released (h : SetPlaced e u v) (hroom : 0 < commandFree u) : ∃ p, Released e x u p v (pathAtRelease (ringSlot e)
    (callPiece (ringSlot e) (plannedPiece v e x) v)) := by
  have hplans := plannedPiece_plans v e x
  have hcalls : CallsLeft (plannedPiece v e x) v := by
    by_cases hf : (plannedPiece v e x).fault = none
    · have hnil := hplans.faults.none_iff.mp hf
      rw [List.append_eq_nil_iff] at hnil
      refine callsLeft_good hplans.status hf (planned_primaries ?_ hplans.planned hnil.2)
      cases hx : x.fault with
      | none => rfl
      | some f => rw [hx] at hnil; exact nomatch hnil.1
    · exact callsLeft_faulted hplans.status hf
  refine ⟨_, h, hroom, rfl, hplans, hcalls, pathAtRelease_left ?_ ?_⟩
  · rw [callPiece_eq]; exact pieceAt_setPiece_some ..
  · obtain ⟨-, -, -, -, -, hp⟩ := hcalls.own
    obtain ⟨-, -, -, -, -, hu⟩ := hplans.own
    exact hp.trans hu

variable (h : Released e x u p v m)
include h

theorem Released.kept : PlanKept (plannedPiece v e x) p := by
  rw [h.piece]
  obtain ⟨h1, h2, h3, h4, h5⟩ := h.calls.kept
  exact ⟨h1, h2, h3, h4, h5⟩

theorem Released.own : p.entry = e ∧ p.id = x.id ∧ p.slot = x.slot ∧ p.held = x.held ∧ p.verify = .pending := by
  obtain ⟨c1, c2, c3, c4, c5, -⟩ := h.calls.own
  obtain ⟨o1, o2, o3, o4, o5, -⟩ := h.plans.own
  rw [h.piece]
  exact ⟨c1.trans o1, c2.trans o2, c3.trans o3, c4.trans o4, c5.trans o5⟩

theorem Released.planned : PlannedPiece u x p := h.kept.plannedPiece (h.placed.plansAlike.plannedPiece h.plans.planned)

theorem Released.planFaults_eq : planFaults u x p = planFaults v x (plannedPiece v e x) :=
  h.kept.planFaults.trans (h.placed.plansAlike.planFaults x _).symm

/-- The planned piece has no fault when the set has none and planning finds none. -/
theorem Released.good_iff : (plannedPiece v e x).fault = none ↔ x.fault = none ∧ planFaults u x p = [] := by
  rw [h.plans.faults.none_iff, List.append_eq_nil_iff, h.planFaults_eq]
  cases x.fault <;> simp

theorem Released.callsCount_eq : callsCount (plannedPiece v e x) v = callsMade u x p := by
  have hgood : (plannedPiece v e x).fault.isNone = (x.fault.isNone && (planFaults u x p).isEmpty) := by
    rw [Bool.eq_iff_iff, Bool.and_eq_true, Option.isNone_iff_eq_none, Option.isNone_iff_eq_none, List.isEmpty_iff]
    exact h.good_iff
  unfold callsCount callsMade
  rw [hgood, h.kept.length, commandFree_placed h.placed]

/-- The state after the CALLs keeps what the state v has, but for the ring, the queue and the summary. -/
theorem Released.called_tu : (callPiece (ringSlot e) (plannedPiece v e x) v).tu =
    { u.tu with ring := (callPiece (ringSlot e) (plannedPiece v e x) v).tu.ring } := by
  obtain ⟨htu, -⟩ := h.calls.frame
  rw [callPiece_eq, setPiece, withTu_tu, htu, h.placed.carried.tu]

theorem Released.gate_iff : GateInReach (callPiece (ringSlot e) (plannedPiece v e x) v) (calledPiece (plannedPiece v e x) v) ↔
    GateInReach u p := by
  have he : (calledPiece (plannedPiece v e x) v).entry = p.entry := by rw [h.piece]; rfl
  unfold GateInReach
  rw [he, h.called_tu]

theorem Released.called_commands : commands (callPiece (ringSlot e) (plannedPiece v e x) v) =
    commands u ++ ⟨u.tu.layout.accumulator, .release, stampOf p.entry, []⟩ ::
      (p.planned.take (callsMade u x p)).map (fun y => callOf u p (y.primary.getD 0) y.insert) := by
  have hcalls : ((plannedPiece v e x).planned.take (callsMade u x p)).map (callFor v (plannedPiece v e x)) =
      (p.planned.take (callsMade u x p)).map (fun y => callOf u p (y.primary.getD 0) y.insert) := by
    rw [← h.kept.planned, ← List.map_take, List.map_map]
    refine List.map_congr_left fun y _ => ?_
    have hentry : (plannedPiece v e x).entry = p.entry := h.plans.own.1.trans h.own.1.symm
    show callOf v (plannedPiece v e x) (y.primary.getD 0) y.insert = _
    unfold callOf placeAt
    rw [h.placed.plansAlike.layout, hentry]
  have hset : commands (callPiece (ringSlot e) (plannedPiece v e x) v) = commands (callsState (plannedPiece v e x) v) := by
    rw [callPiece_eq]; rfl
  rw [hset, h.calls.commands, h.callsCount_eq, h.placed.commands, hcalls, h.own.1, List.append_assoc, List.singleton_append]

theorem Released.room_iff : commandRoom (callPiece (ringSlot e) (plannedPiece v e x) v) = true ↔ 1 + callsMade u x p < commandFree u := by
  have hcount : callsMade u x p ≤ p.planned.length := by
    unfold callsMade
    split <;> omega
  rw [commandRoom_iff, commandFree, h.called_commands, commandFree, List.length_append, List.length_cons, List.length_map,
    List.length_take]
  omega

theorem Released.faults : FaultsAre x.further (releaseFaults u x p) p := by
  have hp : FaultsAre x.further (releaseFaults u x p) (calledPiece (plannedPiece v e x) v) := by
    have hplan := h.plans.faults
    rw [← h.planFaults_eq] at hplan
    unfold releaseFaults
    by_cases hgood : (plannedPiece v e x).fault = none
    · obtain ⟨hx, hno⟩ := h.good_iff.mp hgood
      obtain ⟨hfault, hfurther⟩ := h.calls.fault hgood
      have hlt : commandFree v < (plannedPiece v e x).planned.length ↔ commandFree u < 1 + p.planned.length := by
        have hroom := h.room
        rw [commandFree_placed h.placed, h.kept.length]; omega
      have hfurther' : (plannedPiece v e x).further = x.further := by
        rw [hplan.2, hx, hno]; simp
      simp only [hx, hno, Option.toList_none, Option.isNone_none, List.isEmpty_nil, Bool.true_and, List.nil_append, decide_eq_true_eq]
      refine ⟨?_, ?_⟩
      · rw [hfault]
        simp only [hlt]
        split <;> rfl
      · rw [hfurther, hfurther']
        split <;> simp
    · have hnone : (x.fault.isNone && (planFaults u x p).isEmpty) = false := by
        rw [Bool.eq_false_iff]
        intro hc
        rw [Bool.and_eq_true, Option.isNone_iff_eq_none, List.isEmpty_iff] at hc
        exact hgood (h.good_iff.mpr hc)
      rw [hnone, Bool.false_and, if_neg nofun, List.append_nil, h.calls.faulted hgood]
      exact hplan
  exact hp.congr (by rw [h.piece]; rfl) (by rw [h.piece]; rfl)

theorem Released.path_eq : p.path = releasePath u x p := by
  have hf : (calledPiece (plannedPiece v e x) v).fault = p.fault := by rw [h.piece]; rfl
  have hp : p.path = (pathed (calledPiece (plannedPiece v e x) v) (callPiece (ringSlot e) (plannedPiece v e x) v)).path :=
    congrArg Piece.path h.piece
  rw [hp]
  unfold pathed releasePath
  rw [hf]
  simp only [h.gate_iff, h.room_iff]

theorem Released.status (i : Nat) (y : Planned) (hy : p.planned[i]? = some y) :
    y.status = if i < callsMade u x p then .called else .notCalled := by
  have hl : p.planned = (calledPiece (plannedPiece v e x) v).planned := by rw [h.piece]; rfl
  rw [← h.callsCount_eq]
  exact h.calls.status i y (hl ▸ hy)

theorem Released.commands : commands m = commands u ++ releaseFrames u x p := by
  have hpath : (pathed (calledPiece (plannedPiece v e x) v) (callPiece (ringSlot e) (plannedPiece v e x) v)).path = p.path :=
    (congrArg Piece.path h.piece).symm
  have hdivert : divertOf (callPiece (ringSlot e) (plannedPiece v e x) v) (calledPiece (plannedPiece v e x) v) = divertOf u p := by
    have he : (calledPiece (plannedPiece v e x) v).entry = p.entry := by rw [h.piece]; rfl
    have hi : (calledPiece (plannedPiece v e x) v).id = p.id := by rw [h.piece]; rfl
    unfold divertOf
    rw [he, hi, h.called_tu]
  rw [h.path.commands, hpath, hdivert, h.called_commands, releaseFrames, List.append_assoc]

omit h in
theorem called_cl : (callPiece (ringSlot e) (plannedPiece v e x) v).cl = (callsState (plannedPiece v e x) v).cl := by
  rw [callPiece_eq, setPiece_cl]

theorem Released.callCause (y : Planned) (hx : x.fault = none) (hno : planFaults u x p = [])
    (hy : p.planned[callsMade u x p]? = some y) :
    CauseAmong .commandQueueFull (some (placeAt u (y.primary.getD 0)).addr) (some u.tu.pitch) p.id u m := by
  have hgood := h.good_iff.mpr ⟨hx, hno⟩
  have hbare : (plannedPiece v e x).planned[callsCount (plannedPiece v e x) v]? = some (bare y) := by
    rw [h.callsCount_eq, ← h.kept.planned, List.getElem?_map, hy]; rfl
  have hcall := h.calls.cause hgood (bare y) hbare
  have hid : (plannedPiece v e x).id = p.id := h.plans.own.2.1.trans h.own.2.1.symm
  have hplace : placeAt v (y.primary.getD 0) = placeAt u (y.primary.getD 0) := by unfold placeAt; rw [h.placed.plansAlike.layout]
  have hpitch : v.tu.pitch = u.tu.pitch := by rw [h.placed.carried.tu]
  rw [hid, show placeAt v ((bare y).primary.getD 0) = _ from hplace, hpitch] at hcall
  have htaken : CauseTaken .commandQueueFull (some (placeAt u (y.primary.getD 0)).addr) (some u.tu.pitch) p.id v
      (callPiece (ringSlot e) (plannedPiece v e x) v) := by
    unfold CauseTaken
    rw [called_cl]; exact hcall
  refine CauseTaken.among ?_ h.placed.summary h.placed.capture
  by_cases hq : (calledPiece (plannedPiece v e x) v).fault = none ∨
      ¬ GateInReach (callPiece (ringSlot e) (plannedPiece v e x) v) (calledPiece (plannedPiece v e x) v) ∨
      commandRoom (callPiece (ringSlot e) (plannedPiece v e x) v) = true
  · unfold CauseTaken
    rw [h.path.quiet hq]; exact htaken
  · simp only [not_or, not_not, Bool.not_eq_true] at hq
    obtain ⟨h1, h2, h3⟩ := hq
    exact htaken.again (h.path.cause h1 h2 h3)

theorem Released.divertCause (hbad : x.fault.isSome = true ∨ planFaults u x p ≠ []) (hg : GateInReach u p) (hr : p.path = .reject) :
    CauseAmong .commandQueueFull (some u.tu.layout.gate.addr) (some u.tu.pitch) p.id u m := by
  have hfault : (plannedPiece v e x).fault ≠ none := fun hf => by
    obtain ⟨hx, hno⟩ := h.good_iff.mp hf
    rcases hbad with hb | hb
    · rw [hx] at hb; cases hb
    · exact hb hno
  have hsame := h.calls.faulted hfault
  have hfault' : (calledPiece (plannedPiece v e x) v).fault ≠ none := by rw [hsame]; exact hfault
  have hroom : commandRoom (callPiece (ringSlot e) (plannedPiece v e x) v) = false := by
    rw [Bool.eq_false_iff]
    intro hc
    have hgate : p.path = .gate := by
      rw [h.piece]
      unfold pathed
      rw [if_neg hfault', if_pos ⟨h.gate_iff.mpr hg, hc⟩]
    rw [hr] at hgate; cases hgate
  have hcause := h.path.cause hfault' (h.gate_iff.mpr hg) hroom
  have hid : (calledPiece (plannedPiece v e x) v).id = p.id := by rw [h.piece]; rfl
  rw [hid, h.called_tu] at hcause
  have hcl : (callPiece (ringSlot e) (plannedPiece v e x) v).cl = v.cl := called_cl.trans (h.calls.quiet (.inl hfault))
  exact hcause.among ((congrArg Cl.summary hcl).trans h.placed.summary) ((congrArg Cl.capture hcl).trans h.placed.capture)

/-- What the path rule's state has of every block. -/
theorem Released.carried : Carried u m := by
  obtain ⟨-, o2, o3, o4, o5, -, o7, o8, o9, o10, -, -⟩ := h.path.only
  have hcalls : Carried v (callPiece (ringSlot e) (plannedPiece v e x) v) := by
    rw [callPiece_eq]; exact h.calls.carried.trans (carried_setPiece ..)
  have hpath : Carried (callPiece (ringSlot e) (plannedPiece v e x) v) m :=
    ⟨o2, by rw [o5], o3, o7, o8, o9, o10, o4, h.path.port⟩
  exact (h.placed.carried.trans hcalls).trans hpath

theorem Released.rest : m.ds = v.ds ∧ m.cu = u.cu ∧ m.cl.log = v.cl.log ∧ m.cl.counters = v.cl.counters ∧
    (∀ b, binAt m b = binAt v b) ∧ (∀ j, j ≠ ringSlot e → pieceAt m j = pieceAt u j) ∧ pieceAt m (ringSlot e) = some p := by
  obtain ⟨o1, -, -, -, o5, o6, -, -, -, -, o11, o12⟩ := h.path.only
  obtain ⟨htu, hbu, hds, hcu, hlog, hcounters⟩ := h.calls.frame
  have hpath := h.path
  rw [callPiece_eq] at o1 o5 o6 o11 o12
  refine ⟨?_, ?_, ?_, ?_, fun b => ?_, fun j hj => ?_, ?_⟩
  · rw [o5, setPiece_ds, hds]
  · rw [o6]; exact hcu.trans h.placed.cu
  · rw [o11, setPiece_cl, hlog]
  · rw [o12, setPiece_cl, hcounters]
  · rw [hpath.bins b, callPiece_eq]; exact binAt_congr hbu b
  · rw [o1 j hj, pieceAt_setPiece_other hj, pieceAt_congr htu, h.placed.other j hj]
  · rw [hpath.piece, h.piece]

end

/-! ## The obligation -/

theorem exec_release {s : State} (hs : s.resetHeld = false) (hd : s.due.release = true)
    (hrun : s.rc.state = .running ∨ s.rc.state = .draining) :
    exec .release s = .next (releaseHead (withDue s { s.due with release := false })) := by
  have hdue : dueRelease s = releaseHead (withDue s { s.due with release := false }) := by
    unfold dueRelease
    rw [if_pos hd]; exact if_pos hrun
  have hlive : live dueRelease s = dueRelease s := by unfold live; rw [hs]; rfl
  exact congrArg Host.Outcome.next (hlive.trans hdue)

/-- Settles O6: the RELEASE and the slot by `setPlaced`, the piece by `released`, the queue by `shiftQueue_cu`. -/
theorem releasePlacesHeadSet : Obligations.ReleasePlacesHeadSet := by
  intro x rest s hs hd hrun hq
  refine ⟨_, exec_release hs hd hrun, fun hfull => ?_, fun hroom => ?_⟩
  · rw [releaseHead_full (u := withDue s { s.due with release := false }) hq hfull]; exact raise_flagOnly ..
  · have hne : (withDue s { s.due with release := false }).cu.queue ≠ [] := fun h => by
      have h' : s.cu.queue = [] := h
      rw [hq] at h'; cases h'
    have hplaced := setPlaced (e := s.tu.pitch + BitVec.ofNat 32 s.tu.timing.lr) (x := x) hne
    obtain ⟨p, h⟩ := released (x := x) hplaced ((commandRoom_iff s).mp hroom)
    rw [releaseHead_room (u := withDue s { s.due with release := false }) (e := s.tu.pitch + BitVec.ofNat 32 s.tu.timing.lr) hq hroom rfl]
    generalize pathAtRelease (ringSlot (s.tu.pitch + BitVec.ofNat 32 s.tu.timing.lr)) _ = m at h ⊢
    generalize placedState (s.tu.pitch + BitVec.ofNat 32 s.tu.timing.lr) x (withDue s { s.due with release := false }) = v at h hplaced
    obtain ⟨hds, hcu, hlog, hcounters, hbins, hother, hpiece⟩ := h.rest
    obtain ⟨ctu, cds, cbu, ciu, cpp, csu, crc, ⟨-, cdue, -⟩, cport⟩ := h.carried
    obtain ⟨hentry, hid, hslot, hheld, hverify⟩ := h.own
    obtain ⟨-, qdue, -, qds, qtu, qiu, qpp, qsu, qbu, qrc, qcl, qrp⟩ := shiftQueue_keeps m
    have hpieces : ∀ j, pieceAt (shiftQueue m) j = pieceAt m j := pieceAt_congr qtu
    have hcommands : commands (shiftQueue m) = commands m := commands_congr qrp
    have hfaults := h.faults
    refine ⟨p, shiftQueue m, (hpieces _).trans hpiece, fun j hj => (hpieces j).trans (hother j hj), hentry, hid, hslot, hheld, hverify,
      h.planned, hfaults.1, hfaults.2, h.path_eq, h.status, hcommands.trans h.commands, fun y h1 h2 h3 => ?_, fun h1 h2 h3 => ?_,
      fun b => ?_, ?_, ?_, fun n => ?_, ?_, ?_, ?_, ?_, qiu.trans ciu, qpp.trans cpp, qsu.trans csu, qrc.trans crc, ?_, ?_, cutterTest_spec _⟩
    · rw [CauseAmong, qcl]; exact h.callCause y h1 h2 h3
    · rw [CauseAmong, qcl]; exact h.divertCause h1 h2 h3
    · rw [binAt_congr qbu b, hbins b]; exact hplaced.bins b
    · rw [qcl, hlog]; exact hplaced.log
    · rw [qcl, hcounters]; exact hplaced.counters
    · rw [descAt_congr (qds.trans hds) n]; exact hplaced.desc n
    · rw [shiftQueue_cu, hcu]
      show Cu.mk _ (s.cu.queue.tail ++ _) _ _ = _
      rw [hq]; rfl
    · rw [qds]; exact cds
    · rw [qtu]; exact ctu
    · rw [qbu]; exact cbu
    · exact qdue.trans cdue
    · rw [SamePort, qrp]; exact cport

end Sys2Proof.Machine
end
